-- ==== Sys2Proof/Word.lean ====
section
/-! DEFINITION. The word types of the SSD core: spec/00_scope.md R17 (a word is 32 bits, bit 0 is the least
significant), spec/20_memory.md R71 (18-bit byte addresses) and R72 (bytes). -/

namespace Sys2Proof

/-- One byte. -/
abbrev Byte := BitVec 8

/-- A 32-bit word: every register, and every NUM container on the bus (R17, R40). -/
abbrev Word := BitVec 32

/-- An 18-bit byte offset from the block's base (R71). -/
abbrev Addr := BitVec 18

end Sys2Proof
end

