-- ==== Sys2Proof/Syntax.lean ====
section
/-! DEFINITION. The instructions of the SSD core, one constructor per row of spec/opcode_table.json, the three formats
they are written in (spec/30_encoding.md R100), and the events the host can cause (spec/20_memory.md R70,
spec/70_reset_and_hazards.md R300). -/

namespace Sys2Proof

/-- The operations of the block: five commands, two bus transactions, nine micro-operations. -/
inductive Instr where
  /-- Command NOP (R232). -/
  | nop
  /-- Command CONFIGURE (R234). -/
  | configure
  /-- Command CALIBRATE with its LEN field (R238). -/
  | calibrate (len : BitVec 16)
  /-- Command PROCESS with its LEN field (R240). -/
  | process (len : BitVec 16)
  /-- Command DESTROY (R244). -/
  | destroy
  /-- Bus read of the word at a byte offset (R245). -/
  | rd (addr : Addr)
  /-- Bus write of a word at a byte offset (R246). -/
  | wr (addr : Addr) (data : Word)
  /-- Micro-operation WINGEN (R131). -/
  | wingen
  /-- Micro-operation HPF_SETUP (R142). -/
  | hpfSetup
  /-- Micro-operation FRAME_BUILD (R161). -/
  | frameBuild
  /-- Micro-operation HPF (R146). -/
  | hpf
  /-- Micro-operation ANALYZE (R185). -/
  | analyze
  /-- Micro-operation NOISE_UPDATE (R201). -/
  | noiseUpdate
  /-- Micro-operation GAIN (R211). -/
  | gain
  /-- Micro-operation SYNTH (R188). -/
  | synth
  /-- Micro-operation OLA_EMIT (R166). -/
  | olaEmit
deriving DecidableEq, Repr

/-- The three instruction formats (R100). -/
inductive Format where
  | cmd
  | bus
  | uop
deriving DecidableEq, Repr

/-- What is decoded: the word of a format CMD command, the parts of a format BUS transaction with the kind bit K of
the opcode table (0 for RD, 1 for WR), or the code of a format UOP micro-operation (R100, R105, R106). -/
inductive Encoding where
  | cmd (word : Word)
  | bus (kind : BitVec 1) (addr : Addr) (size : Nat) (data : Word)
  | uop (code : BitVec 4)
deriving DecidableEq, Repr

/-- What the host can do: MemRead(addr, n), MemWrite(addr, n, v) (R70), and asserting the reset input (R300). The data
of a write whose size is not 4 is never looked at (R73; log 13). -/
inductive HostEvent where
  | read (addr : Addr) (size : Nat)
  | write (addr : Addr) (size : Nat) (data : Word)
  | reset
deriving DecidableEq, Repr

/-- The format an instruction is written in (R100). -/
def Instr.format : Instr → Format
  | .nop => .cmd
  | .configure => .cmd
  | .calibrate _ => .cmd
  | .process _ => .cmd
  | .destroy => .cmd
  | .rd _ => .bus
  | .wr _ _ => .bus
  | .wingen => .uop
  | .hpfSetup => .uop
  | .frameBuild => .uop
  | .hpf => .uop
  | .analyze => .uop
  | .noiseUpdate => .uop
  | .gain => .uop
  | .synth => .uop
  | .olaEmit => .uop

/-- The format of an encoding. -/
def Encoding.format : Encoding → Format
  | .cmd _ => .cmd
  | .bus _ _ _ _ => .bus
  | .uop _ => .uop

end Sys2Proof
end

