-- ==== Sys2Proof/WellFormed.lean ====
section
/-! DEFINITION. Which instructions are well formed: a bus transaction's offset is a multiple of 4 (spec/20_memory.md
R73, spec/opcode_table.json). Every LEN is well formed; whether a command accepts it is the command's own check (R237). -/

namespace Sys2Proof

/-- A byte offset is word-aligned (R73). -/
def aligned (addr : Addr) : Bool := addr.toNat % 4 == 0

/-- The well-formed instructions. -/
def Instr.wf : Instr → Bool
  | .nop => true
  | .configure => true
  | .calibrate _ => true
  | .process _ => true
  | .destroy => true
  | .rd addr => aligned addr
  | .wr addr _ => aligned addr
  | .wingen => true
  | .hpfSetup => true
  | .frameBuild => true
  | .hpf => true
  | .analyze => true
  | .noiseUpdate => true
  | .gain => true
  | .synth => true
  | .olaEmit => true

end Sys2Proof
end

