-- ==== Sys2Proof/Decode.lean ====
section
/-! DEFINITION. Decoding and encoding of the three formats: spec/30_encoding.md R100 to R106. -/

namespace Sys2Proof

/-- Why an encoding spells no instruction. The first two are the protocol errors of a command word (R104), the next two
are bus ERR responses (R73, R78), the last is a code the sequencer never selects (R106). -/
inductive DecodeError where
  | opcode (word : Word)
  | field (word : Word)
  | busSize (size : Nat)
  | busAlignment (addr : Addr)
  | uopCode (code : BitVec 4)
deriving DecidableEq, Repr

/-- The OP field of a command word, bits 7 to 0 (R100). -/
def opField (w : Word) : BitVec 8 := w.extractLsb' 0 8

/-- The LEN field of a command word, bits 23 to 8 (R100, R102). -/
def lenField (w : Word) : BitVec 16 := w.extractLsb' 8 16

/-- The RSV field of a command word, bits 31 to 24 (R100). -/
def rsvField (w : Word) : BitVec 8 := w.extractLsb' 24 8

/-- A command without a LEN operand: its LEN and RSV fields must be 0 (R103, R104). -/
def decodePlain (w : Word) (i : Instr) : Except DecodeError Instr :=
  if rsvField w ≠ 0 ∨ lenField w ≠ 0 then .error (.field w) else .ok i

/-- A command with a LEN operand: its RSV field must be 0 (R104). -/
def decodeWithLen (w : Word) (i : BitVec 16 → Instr) : Except DecodeError Instr :=
  if rsvField w ≠ 0 then .error (.field w) else .ok (i (lenField w))

/-- Format CMD (R101, R104): the opcode is looked at first, then the fields. -/
def decodeCmd (w : Word) : Except DecodeError Instr :=
  if opField w = 0x00 then decodePlain w .nop
  else if opField w = 0x01 then decodePlain w .configure
  else if opField w = 0x02 then decodeWithLen w .calibrate
  else if opField w = 0x03 then decodeWithLen w .process
  else if opField w = 0x04 then decodePlain w .destroy
  else .error (.opcode w)

/-- Format BUS (R73, R105): a transaction of four bytes at a multiple of 4 is RD or WR by its kind. -/
def decodeBus (kind : BitVec 1) (addr : Addr) (size : Nat) (data : Word) : Except DecodeError Instr :=
  if size ≠ 4 then .error (.busSize size)
  else if aligned addr = false then .error (.busAlignment addr)
  else if kind = 0 then .ok (.rd addr)
  else .ok (.wr addr data)

/-- Format UOP (R106). Code 0 is the idle code; codes 0xA to 0xF are unused. -/
def decodeUop (code : BitVec 4) : Except DecodeError Instr :=
  if code = 0x1 then .ok .wingen
  else if code = 0x2 then .ok .hpfSetup
  else if code = 0x3 then .ok .frameBuild
  else if code = 0x4 then .ok .hpf
  else if code = 0x5 then .ok .analyze
  else if code = 0x6 then .ok .noiseUpdate
  else if code = 0x7 then .ok .gain
  else if code = 0x8 then .ok .synth
  else if code = 0x9 then .ok .olaEmit
  else .error (.uopCode code)

/-- The decoder: total, and rejecting by name. -/
def decode : Encoding → Except DecodeError Instr
  | .cmd w => decodeCmd w
  | .bus kind addr size data => decodeBus kind addr size data
  | .uop code => decodeUop code

/-- A command word from its fields, RSV first (R100). -/
def commandWord (len : BitVec 16) (op : BitVec 8) : Word := (0 : BitVec 8) ++ len ++ op

/-- The encoder: the command word (R101, R102), the transaction (R105) or the code (R106) of an instruction. -/
def encode : Instr → Encoding
  | .nop => .cmd (commandWord 0 0x00)
  | .configure => .cmd (commandWord 0 0x01)
  | .calibrate len => .cmd (commandWord len 0x02)
  | .process len => .cmd (commandWord len 0x03)
  | .destroy => .cmd (commandWord 0 0x04)
  | .rd addr => .bus 0 addr 4 0
  | .wr addr data => .bus 1 addr 4 data
  | .wingen => .uop 0x1
  | .hpfSetup => .uop 0x2
  | .frameBuild => .uop 0x3
  | .hpf => .uop 0x4
  | .analyze => .uop 0x5
  | .noiseUpdate => .uop 0x6
  | .gain => .uop 0x7
  | .synth => .uop 0x8
  | .olaEmit => .uop 0x9

/-- The encoding that a row of the opcode table spells with `nbits` bits `w`: 32 bits are a command word; 1 bit is the
kind K of a transaction with its operands zero; 4 bits are a micro-operation code. In whole bytes the last two
formats are one byte each, and 8 bits are read as K when they are 0 or 1 and as a code otherwise (log 8). -/
def tableEncoding (nbits w : Nat) : Option Encoding :=
  if nbits = 32 then some (.cmd (BitVec.ofNat 32 w))
  else if nbits = 1 then some (.bus (BitVec.ofNat 1 w) 0 4 0)
  else if nbits = 4 then some (.uop (BitVec.ofNat 4 w))
  else if nbits = 8 then
    if w < 2 then some (.bus (BitVec.ofNat 1 w) 0 4 0)
    else if w < 16 then some (.uop (BitVec.ofNat 4 w))
    else none
  else none

/-- The instruction the decoder reads from a row's bits, numbered as spec/opcode_table.json numbers them. -/
def decodeTableWord (nbits w : Nat) : Option Instr :=
  match tableEncoding nbits w with
  | none => none
  | some e =>
    match decode e with
    | .ok i => some i
    | .error _ => none

end Sys2Proof
end

