-- ==== Sys2Proof/Config.lean ====
section
/-! DEFINITION. What is fixed when the block is built (spec/00_scope.md R12 to R15, 93 U15), and the free values:
what the spec leaves to any value. A free value is an opaque constant, so no proof can see it. -/

namespace Sys2Proof

/-- The implementation parameters (R12 to R15), with the constants in the block's number type NUM (R16). The spec makes
each "a named argument of the model"; the state carries them and no step changes them (log 2). -/
structure Build (ν : Type) where
  /-- NMAX, the largest frame length the block's memories hold (R12). -/
  nmax : Nat
  /-- SMAX, the number of second-order sections (R13). -/
  smax : Nat
  /-- EPS_WIN, the window's additive constant (R14). -/
  epsWin : ν
  /-- EPS_GAIN, the gain denominator's constant (R14). -/
  epsGain : ν
  /-- NOISE_INIT, the initial noise estimate per bin (R14). -/
  noiseInit : ν
  /-- HPF_REINIT, whether every HPF uop starts its filter afresh (R15). -/
  hpfReinit : Bool
deriving DecidableEq, Repr

/-- The spec's default parameters (R12 to R15, 93 U15), in the number type whose rational constants `ofRat` gives. -/
def Build.defaultOf {ν : Type} (ofRat : ℚ → ν) : Build ν where
  nmax := 1024
  smax := 1
  epsWin := ofRat (1 / 1000000000000)
  epsGain := ofRat (1 / 1000000000000)
  noiseInit := ofRat (1 / 1000000)
  hpfReinit := true

/-- The parameters the spec allows (R12 to R14): NMAX even in 2 .. 4096, SMAX in 1 .. 8, the constants positive. -/
abbrev Build.Allowed {ν : Type} (positive : ν → Prop) (b : Build ν) : Prop :=
  2 ≤ b.nmax ∧ b.nmax ≤ 4096 ∧ b.nmax % 2 = 0 ∧ 1 ≤ b.smax ∧ b.smax ≤ 8 ∧
    positive b.epsWin ∧ positive b.epsGain ∧ positive b.noiseInit

/-- HMAX = NMAX/2, the number of words of the input buffer (R12, R61). -/
def Build.hmax {ν : Type} (b : Build ν) : Nat := b.nmax / 2

/-- The byte of IN at an address that nothing has written since a given hardware reset: any value, fixed until it is
written (93 U1; log 3). The first argument counts the resets. -/
opaque Config.resetByte : Nat → Nat → Byte

/-- The number a container with exponent field 255 stands for where a micro-operation is executed on its own with
such a container in a configuration register. No command reaches this: CONFIGURE rejects the container (R80, R235;
log 10). -/
opaque Config.nonFiniteNum : Word → ℚ

end Sys2Proof
end

