-- ==== Sys2Proof/Machine/Exact.lean ====
section
/-! DEFINITION. The type NUM of the reference semantics (spec/00_scope.md R16, R20): exact real numbers, written as
expressions, so that they are plain data. The operations fold rational results (log 1); what real number an expression
stands for is Machine/Denote.lean. -/

namespace Sys2Proof.Machine

/-- An exact real number: a rational constant, or one of the operations R16 and R20 name applied to exact numbers. -/
inductive Exact where
  /-- A rational constant. -/
  | rat (q : ℚ)
  /-- Addition. -/
  | sum (a b : Exact)
  /-- Subtraction. -/
  | diff (a b : Exact)
  /-- Multiplication. -/
  | prod (a b : Exact)
  /-- Division. -/
  | quot (a b : Exact)
  /-- The non-negative square root. -/
  | root (a : Exact)
  /-- The cosine of a rational number of turns: cos(2πq). -/
  | cosTurn (q : ℚ)
  /-- The larger of two numbers. -/
  | larger (a b : Exact)
  /-- The first part of the unit complex number in the direction of (x, y), and 1 for (0, 0) (R186). -/
  | unitRe (x y : Exact)
  /-- The second part of the unit complex number in the direction of (x, y), and 0 for (0, 0) (R186). -/
  | unitIm (x y : Exact)
deriving DecidableEq, Repr

/-- One step of Newton's iteration for the integer square root, repeated while it decreases. -/
def isqrtFrom : Nat → Nat → Nat → Nat
  | 0, _, x => x
  | fuel + 1, n, x =>
    let y := (x + n / x) / 2
    if y < x then isqrtFrom fuel n y else x

/-- The integer square root. -/
def isqrt (n : Nat) : Nat :=
  let r := isqrtFrom (n.log2 + 2) n (2 ^ (n.log2 / 2 + 1))
  if r * r ≤ n ∧ n < (r + 1) * (r + 1) then r else n.sqrt

/-- The square root of a non-negative rational number where it is rational. -/
def ratSqrt? (q : ℚ) : Option ℚ :=
  let n := isqrt q.num.toNat
  let d := isqrt q.den
  if 0 ≤ q.num ∧ n * n = q.num.toNat ∧ d * d = q.den then some (n / d) else none

/-- Addition. -/
def Exact.add : Exact → Exact → Exact
  | .rat p, .rat q => .rat (p + q)
  | .rat p, b => if p = 0 then b else .sum (.rat p) b
  | a, .rat q => if q = 0 then a else .sum a (.rat q)
  | a, b => .sum a b

/-- Multiplication. -/
def Exact.mul : Exact → Exact → Exact
  | .rat p, .rat q => .rat (p * q)
  | .rat p, b => if p = 0 then .rat 0 else if p = 1 then b else .prod (.rat p) b
  | a, .rat q => if q = 0 then .rat 0 else if q = 1 then a else .prod a (.rat q)
  | a, b => .prod a b

/-- The opposite number. -/
def Exact.neg (a : Exact) : Exact := .mul (.rat (-1)) a

/-- Subtraction. -/
def Exact.sub : Exact → Exact → Exact
  | .rat p, .rat q => .rat (p - q)
  | .rat p, b => if p = 0 then .neg b else .diff (.rat p) b
  | a, .rat q => if q = 0 then a else .diff a (.rat q)
  | a, b => .diff a b

/-- Division. No rule of the spec divides by zero (R131, R142, R185, R220). -/
def Exact.div : Exact → Exact → Exact
  | .rat p, .rat q => .rat (p / q)
  | .rat p, b => if p = 0 then .rat 0 else .quot (.rat p) b
  | a, b => .quot a b

/-- The non-negative square root (R20). -/
def Exact.sqrt : Exact → Exact
  | .rat q =>
    if q ≤ 0 then .rat 0
    else match ratSqrt? q with
      | some r => .rat r
      | none => .root (.rat q)
  | a => .root a

/-- max(a, b) (R20). -/
def Exact.max : Exact → Exact → Exact
  | .rat p, .rat q => .rat (if q ≤ p then p else q)
  | a, b => .larger a b

/-- The cosine of a whole number of turns, halves, quarters, thirds or sixths is rational; another rational angle is
brought into the first quarter turn. The argument is the angle in turns, between 0 and 1/2. -/
def Exact.cosHalf (r : ℚ) : Exact :=
  if r = 0 then .rat 1
  else if r = 1 / 6 then .rat (1 / 2)
  else if r = 1 / 4 then .rat 0
  else if r = 1 / 3 then .rat (-1 / 2)
  else if r = 1 / 2 then .rat (-1)
  else if r < 1 / 4 then .cosTurn r
  else .neg (.cosTurn (1 / 2 - r))

/-- The fraction of a turn between 0 and 1/2 whose cosine is that of q turns. -/
def halfTurn (q : ℚ) : ℚ :=
  let r := q - (q.num / (q.den : Int) : Int)
  if r ≤ 1 / 2 then r else 1 - r

/-- cos(2πq). -/
def Exact.cosOf (q : ℚ) : Exact := .cosHalf (halfTurn q)

/-- The first part of the unit complex number in the direction of (x, y) (R186). -/
def Exact.unitReOf : Exact → Exact → Exact
  | .rat x, .rat y =>
    if x = 0 ∧ y = 0 then .rat 1
    else match ratSqrt? (x * x + y * y) with
      | some r => .rat (x / r)
      | none => .unitRe (.rat x) (.rat y)
  | x, y => .unitRe x y

/-- The second part of the unit complex number in the direction of (x, y) (R186). -/
def Exact.unitImOf : Exact → Exact → Exact
  | .rat x, .rat y =>
    if x = 0 ∧ y = 0 then .rat 0
    else match ratSqrt? (x * x + y * y) with
      | some r => .rat (y / r)
      | none => .unitIm (.rat x) (.rat y)
  | x, y => .unitIm x y

/-- The absolute value. -/
def Exact.abs : Exact → Exact
  | .rat q => .rat |q|
  | a => .max a (.neg a)

end Sys2Proof.Machine
end

