-- ==== Sys2Proof/Machine/Separation.lean ====
section
/-! DEFINITION. How close to zero an exact number can lie without being zero. An exact number is algebraic: it lies in a
number field whose degree is bounded, and its height there is bounded, so that a number other than zero has a least size
(Laws/Separation.lean). Machine/Approx.lean compares numbers with it. -/

namespace Sys2Proof.Machine

/-- A bound on the height of an exact number, as a power of two for each degree of the field it lies in. -/
def Exact.height : Exact → Nat
  | .rat q => q.num.natAbs.log2 + 1 + (q.den.log2 + 1)
  | .sum a b => 1 + a.height + b.height
  | .diff a b => 1 + a.height + b.height
  | .prod a b => a.height + b.height
  | .quot a b => a.height + b.height
  | .root a => (a.height + 1) / 2
  | .cosTurn _ => 3
  | .larger a b => a.height + b.height
  | .unitRe x y => x.height + (1 + (x.height + x.height) + (y.height + y.height) + 1) / 2
  | .unitIm x y => y.height + (1 + (x.height + x.height) + (y.height + y.height) + 1) / 2

/-- A number n such that every angle in the expression is a whole number of n-ths of a turn. -/
def Exact.order : Exact → Nat
  | .rat _ => 1
  | .cosTurn q => q.den
  | .root a => a.order
  | .sum a b => a.order.lcm b.order
  | .diff a b => a.order.lcm b.order
  | .prod a b => a.order.lcm b.order
  | .quot a b => a.order.lcm b.order
  | .larger a b => a.order.lcm b.order
  | .unitRe x y => x.order.lcm y.order
  | .unitIm x y => x.order.lcm y.order

/-- x² + y². -/
def Exact.squares (x y : Exact) : Exact := .sum (.prod x x) (.prod y y)

/-- A list with one more element, unless the element is in it. -/
def withNew (r : Exact) (rs : List Exact) : List Exact := if r ∈ rs then rs else r :: rs

/-- The numbers under the square roots of the expression, each once and after those that it needs, in front of the
given ones. -/
def Exact.radicands : Exact → List Exact → List Exact
  | .rat _, rs => rs
  | .cosTurn _, rs => rs
  | .root a, rs => withNew a (a.radicands rs)
  | .sum a b, rs => b.radicands (a.radicands rs)
  | .diff a b, rs => b.radicands (a.radicands rs)
  | .prod a b, rs => b.radicands (a.radicands rs)
  | .quot a b, rs => b.radicands (a.radicands rs)
  | .larger a b, rs => b.radicands (a.radicands rs)
  | .unitRe x y, rs => withNew (.squares x y) (y.radicands (x.radicands rs))
  | .unitIm x y, rs => withNew (.squares x y) (y.radicands (x.radicands rs))

/-- A bound on the degree of a field that holds the number: that of the root of unity, doubled by each square root. -/
def Exact.degree (a : Exact) : Nat := a.order.totient * 2 ^ (a.radicands []).length

/-- An exact number is zero or at least 2^-sepBits in size. -/
def Exact.sepBits (a : Exact) : Nat := a.height * a.degree

end Sys2Proof.Machine
end

