-- ==== Sys2Proof/Machine/Approx.lean ====
section
/-! DEFINITION. Exact numbers to any number of binary places, and their signs. Laws/Approx.lean says that the approximations
are as close as they claim and that the sign is right for every exact number. -/

namespace Sys2Proof.Machine

/-- Approximations of a number v: a bound 2^size on |v|, and for every p an integer within 1 of v · 2^p. -/
structure Approx where
  size : Nat
  scaled : Nat → Int

/-- z / 2^k rounded to a nearest integer. -/
def shrink (k : Nat) (z : Int) : Int := (2 * z + 2 ^ k) / 2 ^ (k + 1)

/-- a / b rounded to a nearest integer. -/
def nearestDiv (a b : Int) : Int := (2 * a * b.sign + |b|) / (2 * |b|)

/-- A rational number. -/
def Approx.ofRat (q : ℚ) : Approx where
  size := q.num.natAbs.log2 + 1
  scaled p := q.num * 2 ^ p / q.den

/-- A sum. -/
def Approx.add (a b : Approx) : Approx where
  size := Nat.max a.size b.size + 1
  scaled p := shrink 2 (a.scaled (p + 2) + b.scaled (p + 2))

/-- The opposite. -/
def Approx.neg (a : Approx) : Approx where
  size := a.size
  scaled p := -a.scaled p

/-- A product. -/
def Approx.mul (a b : Approx) : Approx where
  size := a.size + b.size
  scaled p :=
    let g := a.size + b.size + 3
    shrink (p + 2 * g) (a.scaled (p + g) * b.scaled (p + g))

/-- The larger of two numbers. -/
def Approx.max (a b : Approx) : Approx where
  size := Nat.max a.size b.size
  scaled p := Max.max (a.scaled p) (b.scaled p)

/-- A square root. -/
def Approx.sqrt (a : Approx) : Approx where
  size := a.size
  scaled p := shrink 2 (isqrt (a.scaled (2 * (p + 2))).toNat)

/-- A quotient whose divisor is at least 2^-j in size. -/
def Approx.quot (j : Nat) (a b : Approx) : Approx where
  size := a.size + j
  scaled p :=
    let w := p + a.size + 2 * j + 3
    nearestDiv (a.scaled w * 2 ^ p) (b.scaled w)

/-- The first of some precisions j at which the number is seen to differ from zero: it is then at least 2^-j in size. -/
def Approx.apart (a : Approx) (js : List Nat) : Option Nat := js.find? fun j => 2 ≤ |a.scaled j|

/-- The precisions at which a number is compared with zero: two short ones, and one that decides. -/
def Exact.precisions (a : Exact) : List Nat := [64, 512, a.sepBits + 2]

/-- The first n terms of the arctangent series at 1/m, each scaled by 2^b and rounded down. -/
def atanSum (b m : Nat) : Nat → Int
  | 0 => 0
  | n + 1 => atanSum b m n + (-1) ^ n * (2 ^ b / (((2 * n + 1) * m ^ (2 * n + 1) : Nat) : Int))

/-- π · 2^b within 1, by Machin's formula π = 16·arctan(1/5) − 4·arctan(1/239). -/
def piNear (b : Nat) : Int :=
  let e := (b + 1).log2 + 9
  let n := 2 * ((b + e) / 8 + 1)
  shrink e (16 * atanSum (b + e) 5 n - 4 * atanSum (b + e) 239 n)

/-- The part of c between −2^w and 2^w. -/
def clipUnit (w : Nat) (c : Int) : Int := Max.max (-2 ^ w) (Min.min c (2 ^ w))

/-- cos(2^m · y) · 2^w from cos(y) · 2^w, by cos 2y = 2·cos² y − 1. -/
def cosDoubled (w : Nat) : Nat → Int → Int
  | 0, c => c
  | m + 1, c => cosDoubled w m (clipUnit w (2 * c * c / 2 ^ w - 2 ^ w))

/-- cos(2πq): the angle is halved until it is so small that 1 − y²/2 is close, and the cosine doubled back. -/
def Approx.cosTurn (q : ℚ) : Approx where
  size := 0
  scaled p :=
    let m := p / 2 + 8
    let w := 2 * p + 32
    let r := halfTurn q
    let y := 2 * r.num * piNear (w - m) / r.den
    shrink (w - p) (cosDoubled w m (clipUnit w (2 ^ w - y * y / 2 ^ w / 2)))

/-- One part of the unit complex number in the direction of (x, y), and d for (0, 0). -/
def Approx.unitPart (js : List Nat) (d : ℚ) (part x y : Approx) : Approx :=
  let r := (x.mul x).add (y.mul y)
  match r.apart js with
  | none => .ofRat d
  | some j => .quot j part r.sqrt

/-- The approximations of an exact number. -/
def Exact.approx : Exact → Approx
  | .rat q => .ofRat q
  | .sum a b => a.approx.add b.approx
  | .diff a b => a.approx.add b.approx.neg
  | .prod a b => a.approx.mul b.approx
  | .quot a b =>
    match b.approx.apart b.precisions with
    | none => .ofRat 0
    | some j => .quot j a.approx b.approx
  | .root a => a.approx.sqrt
  | .cosTurn q => .cosTurn q
  | .larger a b => a.approx.max b.approx
  | .unitRe x y => .unitPart (Exact.squares x y).precisions 1 x.approx x.approx y.approx
  | .unitIm x y => .unitPart (Exact.squares x y).precisions 0 y.approx x.approx y.approx

/-- The sign of an exact number: −1, 0 or 1. -/
def Exact.sign : Exact → Int
  | .rat q => q.num.sign
  | a =>
    match a.approx.apart a.precisions with
    | none => 0
    | some j => (a.approx.scaled j).sign

/-- a < b. -/
def Exact.less (a b : Exact) : Bool := (Exact.sub b a).sign == 1

end Sys2Proof.Machine
end

