-- ==== Sys2Proof/Machine/Container.lean ====
section
/-! DEFINITION. The NUM container, IEEE 754 binary32: spec/20_memory.md R79 (num), R81 (word). -/

namespace Sys2Proof.Machine

/-- The sign, bit 31 (R79). -/
def signBit (w : Word) : Bool := w.getLsbD 31

/-- The biased exponent, bits 30 to 23 (R79). -/
def exponentField (w : Word) : Nat := (w.extractLsb' 23 8).toNat

/-- The fraction, bits 22 to 0 (R79). -/
def fractionField (w : Word) : Nat := (w.extractLsb' 0 23).toNat

/-- n · 2^e for a natural number n and an integer e. -/
def scaleTwo (n : Nat) (e : Int) : ℚ :=
  if 0 ≤ e then ((n * 2 ^ e.toNat : Nat) : ℚ) else (n : ℚ) / ((2 ^ (-e).toNat : Nat) : ℚ)

/-- The size of the number a container with exponent field e and fraction f decodes to (R79). -/
def containerSize (e f : Nat) : ℚ :=
  if e = 0 then scaleTwo f (-149) else scaleTwo (2 ^ 23 + f) ((e : Int) - 150)

/-- num(w): the number a container decodes to; none for the non-finite containers (R79). -/
def num? (w : Word) : Option ℚ :=
  if exponentField w = 255 then none
  else
    let size := containerSize (exponentField w) (fractionField w)
    some (if signBit w then -size else size)

/-- The number a configuration register stands for in a micro-operation of the reference instance. CONFIGURE has rejected
the non-finite containers (R80), so the free value is met only outside a command (log 10). -/
def numOf (w : Word) : ℚ := (num? w).getD (Config.nonFiniteNum w)

/-- n / d rounded to the nearest natural number, ties to even. -/
def roundEven (n d : Nat) : Nat :=
  let f := n / d
  let r := n % d
  if 2 * r < d then f
  else if d < 2 * r then f + 1
  else if f % 2 = 0 then f else f + 1

/-- n · 2^e / d rounded to the nearest natural number, ties to even. -/
def roundScaled (n d : Nat) (e : Int) : Nat :=
  if 0 ≤ e then roundEven (n * 2 ^ e.toNat) d else roundEven n (d * 2 ^ (-e).toNat)

/-- The largest integer e with 2^e ≤ n / d, for positive n and d. -/
def floorLog (n d : Nat) : Int :=
  let e : Int := (n.log2 : Int) - (d.log2 : Int)
  let atLeast : Bool := if 0 ≤ e then d * 2 ^ e.toNat ≤ n else d ≤ n * 2 ^ (-e).toNat
  if atLeast then e else e - 1

/-- The low 31 bits of the container of a number of size n / d (R81): the nearest binary32 value, ties to the even
fraction, and infinity from 2^128 - 2^103 on. -/
def magnitudeBits (n d : Nat) : Nat :=
  if n = 0 then 0
  else if (2 ^ 128 - 2 ^ 103) * d ≤ n then 0x7F800000
  else
    let e : Int := if floorLog n d < -126 then -126 else floorLog n d
    roundScaled n d (23 - e) + (e + 126).toNat * 2 ^ 23

/-- word(q) for a rational number (R81). A number that rounds to zero has the container 0x00000000 (log 11). -/
def wordOfRat (q : ℚ) : Word :=
  let m := magnitudeBits q.num.natAbs q.den
  if q.num < 0 ∧ m ≠ 0 then BitVec.ofNat 32 (2 ^ 31 + m) else BitVec.ofNat 32 m

end Sys2Proof.Machine
end

