-- ==== Sys2Proof/Machine/Bracket.lean ====
section
/-! DEFINITION. Enclosures of exact numbers between two dyadic fractions. Machine/Rounding.lean rounds with them
(spec/20_memory.md R81). -/

namespace Sys2Proof.Machine

/-- An enclosure of a number v at precision p: lo ≤ v · 2^p ≤ hi. -/
structure Bracket where
  lo : Int
  hi : Int
deriving DecidableEq, Repr

/-- The number of binary places of `piScaled`. -/
def piBits : Nat := 400

/-- π · 2^400, rounded down. -/
def piScaled : Int := 0x3243f6a8885a308d313198a2e03707344a4093822299f31d0082efa98ec4e6c89452821e638d01377be5466cf34e90c6cc0ac

/-- a / b rounded up, for positive b. -/
def ceilDiv (a b : Int) : Int := -((-a) / b)

/-- The enclosure of a rational number. -/
def Bracket.ofRat (p : Nat) (q : ℚ) : Bracket :=
  ⟨(q.num * 2 ^ p) / (q.den : Int), ceilDiv (q.num * 2 ^ p) q.den⟩

/-- The enclosure of a sum. -/
def Bracket.add (a b : Bracket) : Bracket := ⟨a.lo + b.lo, a.hi + b.hi⟩

/-- The enclosure of the opposite. -/
def Bracket.neg (a : Bracket) : Bracket := ⟨-a.hi, -a.lo⟩

/-- The smallest of the four products of the bounds, exact, at twice the precision. -/
def Bracket.productLo (a b : Bracket) : Int :=
  min (min (a.lo * b.lo) (a.lo * b.hi)) (min (a.hi * b.lo) (a.hi * b.hi))

/-- The largest of the four products of the bounds, exact, at twice the precision. -/
def Bracket.productHi (a b : Bracket) : Int :=
  Max.max (Max.max (a.lo * b.lo) (a.lo * b.hi)) (Max.max (a.hi * b.lo) (a.hi * b.hi))

/-- The enclosure of a product. -/
def Bracket.mul (p : Nat) (a b : Bracket) : Bracket :=
  ⟨a.productLo b / 2 ^ p, ceilDiv (a.productHi b) (2 ^ p)⟩

/-- The enclosure of a quotient whose divisor's enclosure is positive. -/
def Bracket.divPos (p : Nat) (a b : Bracket) : Bracket :=
  ⟨min (a.lo * 2 ^ p / b.lo) (a.lo * 2 ^ p / b.hi),
    Max.max (ceilDiv (a.hi * 2 ^ p) b.lo) (ceilDiv (a.hi * 2 ^ p) b.hi)⟩

/-- The enclosure of a quotient; none where the divisor's enclosure holds zero. -/
def Bracket.div (p : Nat) (a b : Bracket) : Option Bracket :=
  if 0 < b.lo then some (a.divPos p b)
  else if b.hi < 0 then some (a.neg.divPos p b.neg)
  else none

/-- The enclosure of a square root. -/
def Bracket.sqrt (p : Nat) (a : Bracket) : Bracket :=
  ⟨isqrt (a.lo.toNat * 2 ^ p), isqrt (a.hi.toNat * 2 ^ p) + 1⟩

/-- The enclosure of the larger of two numbers. -/
def Bracket.max (a b : Bracket) : Bracket := ⟨Max.max a.lo b.lo, Max.max a.hi b.hi⟩

/-- The enclosure of 2c² - 1. -/
def Bracket.double (p : Nat) (c : Bracket) : Bracket :=
  let s := c.mul p c
  ⟨2 * s.lo - 2 ^ p, 2 * s.hi - 2 ^ p⟩

/-- The enclosure of cos(2^m · y) from that of cos y. -/
def Bracket.doubled (p : Nat) : Nat → Bracket → Bracket
  | 0, c => c
  | m + 1, c => Bracket.doubled p m (c.double p)

/-- The enclosure of 1 - y²/2, widened by y⁴/16, for y between the bounds, which are not negative. -/
def Bracket.cosSmall (p : Nat) (y : Bracket) : Bracket :=
  let s := y.mul p y
  let w := s.mul p s
  let e := ceilDiv w.hi 16
  ⟨2 ^ p - ceilDiv s.hi 2 - e, 2 ^ p - s.lo / 2 + e⟩

/-- The enclosure of 2πr / 2^m at precision w, for r not negative. -/
def Bracket.angle (w m : Nat) (r : ℚ) : Bracket :=
  ⟨(2 * r.num * piScaled * 2 ^ w) / (r.den * 2 ^ (piBits + m)),
    ceilDiv (2 * r.num * (piScaled + 1) * 2 ^ w) (r.den * 2 ^ (piBits + m))⟩

/-- The enclosure of cos(2πq): the angle is halved until it is small and the cosine doubled back. -/
def Bracket.cosTurn (p : Nat) (q : ℚ) : Bracket :=
  let m := p / 2 + 4
  let w := 2 * p + 24
  let c := Bracket.doubled w m (Bracket.cosSmall w (Bracket.angle w m (halfTurn q)))
  ⟨c.lo / 2 ^ (w - p), ceilDiv c.hi (2 ^ (w - p))⟩

/-- The part of an enclosure between -1 and 1. -/
def Bracket.clip (p : Nat) (a : Bracket) : Bracket :=
  ⟨Max.max a.lo (-(2 ^ p)), Min.min a.hi (2 ^ p)⟩

/-- The enclosure of one part of a unit complex number: the part over the length where the length is surely positive,
and all of -1 to 1 otherwise. -/
def Bracket.unitPart (p : Nat) (part x y : Bracket) : Bracket :=
  let r := ((x.mul p x).add (y.mul p y)).sqrt p
  if 0 < r.lo then (part.divPos p r).clip p else ⟨-(2 ^ p), 2 ^ p⟩

/-- The enclosure of an exact number at a precision; none where a divisor is not separated from zero. -/
def Exact.bracket (p : Nat) : Exact → Option Bracket
  | .rat q => some (.ofRat p q)
  | .sum a b =>
    match a.bracket p, b.bracket p with
    | some x, some y => some (x.add y)
    | _, _ => none
  | .diff a b =>
    match a.bracket p, b.bracket p with
    | some x, some y => some (x.add y.neg)
    | _, _ => none
  | .prod a b =>
    match a.bracket p, b.bracket p with
    | some x, some y => some (x.mul p y)
    | _, _ => none
  | .quot a b =>
    match a.bracket p, b.bracket p with
    | some x, some y => x.div p y
    | _, _ => none
  | .root a =>
    match a.bracket p with
    | some x => some (x.sqrt p)
    | none => none
  | .cosTurn q => some (.cosTurn p q)
  | .larger a b =>
    match a.bracket p, b.bracket p with
    | some x, some y => some (x.max y)
    | _, _ => none
  | .unitRe a b =>
    match a.bracket p, b.bracket p with
    | some x, some y => some (.unitPart p x x y)
    | _, _ => none
  | .unitIm a b =>
    match a.bracket p, b.bracket p with
    | some x, some y => some (.unitPart p y x y)
    | _, _ => none

/-- The containers of the two bounds of an enclosure. -/
def Bracket.words (p : Nat) (b : Bracket) : Word × Word :=
  (wordOfRat (mkRat b.lo (2 ^ p)), wordOfRat (mkRat b.hi (2 ^ p)))

end Sys2Proof.Machine
end

