-- ==== Sys2Proof/Machine/Rounding.lean ====
section
/-! DEFINITION. word(v) for every exact number: spec/20_memory.md R81. -/

namespace Sys2Proof.Machine

/-- word(v) from the number's place among the multiples of 2^-150. Every point at which rounding to binary32 changes is
such a multiple, so the container is that of the nearest multiple where the number is that multiple (a tie goes to the
even fraction), and otherwise that of the middle of the interval beside it in which the number lies. -/
def Exact.wordBetween (a : Exact) : Word :=
  let m := shrink 10 (a.approx.scaled 160)
  wordOfRat (mkRat (2 * m + (Exact.diff a (.rat (mkRat m (2 ^ 150)))).sign) (2 ^ 151))

/-- The precisions at which an enclosure is tried, in binary places. -/
def enclosures : List Nat := [64, 192, 384]

/-- The first enclosure whose two bounds have one container gives the container. -/
def Exact.roundWith : List Nat → Exact → Word
  | [], a => a.wordBetween
  | p :: ps, a =>
    match a.bracket p with
    | none => Exact.roundWith ps a
    | some b => if (b.words p).1 = (b.words p).2 then (b.words p).1 else Exact.roundWith ps a

/-- word(v) for an exact number (R81). -/
def Exact.word : Exact → Word
  | .rat q => wordOfRat q
  | a => Exact.roundWith enclosures a

end Sys2Proof.Machine
end

