-- ==== Sys2Proof/Machine/Arith.lean ====
section
/-! DEFINITION. The arithmetic record of spec/00_scope.md R16: what a number type NUM brings. The whole machine is written
over such a record; Machine/ExactArith.lean is the reference instance, and a block with a finite format is another. -/

namespace Sys2Proof.Machine

/-- A complex number as a pair (R20). -/
structure Cplx (ν : Type) where
  re : ν
  im : ν
deriving DecidableEq, Repr

/-- The operations on single numbers (R16, R20) and the container (R79). -/
structure Elementary (ν : Type) where
  /-- A constant of the rules. -/
  ofRat : ℚ → ν
  add : ν → ν → ν
  sub : ν → ν → ν
  mul : ν → ν → ν
  div : ν → ν → ν
  max : ν → ν → ν
  sqrt : ν → ν
  abs : ν → ν
  /-- The cosine of q turns, cos(2πq). -/
  cos : ℚ → ν
  /-- a < b. -/
  less : ν → ν → Bool
  /-- num(w): the number a container decodes to; none for the containers that decode to none (R79). -/
  num? : Word → Option ν
  /-- word(v): the container of a number (R79, R81). -/
  word : ν → Word

section Elementary

variable {ν : Type} (E : Elementary ν)

/-- 0. -/
def Elementary.zero : ν := E.ofRat 0

/-- 1. -/
def Elementary.one : ν := E.ofRat 1

/-- The sine of q turns, a quarter turn behind the cosine. -/
def Elementary.sin (q : ℚ) : ν := E.cos (q - 1 / 4)

/-- The sum of a list of numbers. -/
def Elementary.total : List ν → ν
  | [] => E.zero
  | a :: as => E.add a (total as)

/-- cabs (R20). -/
def Elementary.cabs (z : Cplx ν) : ν := E.sqrt (E.add (E.mul z.re z.re) (E.mul z.im z.im))

/-- A real number times a complex number. -/
def Elementary.scale (a : ν) (z : Cplx ν) : Cplx ν := ⟨E.mul a z.re, E.mul a z.im⟩

/-- The unit complex number in the direction of z, and (1, 0) for a zero bin, as R185 step 4 writes it. -/
def Elementary.unit (z : Cplx ν) : Cplx ν :=
  if E.less E.zero (E.cabs z) then ⟨E.div z.re (E.cabs z), E.div z.im (E.cabs z)⟩ else ⟨E.one, E.zero⟩

/-- A container is finite when it decodes to a number (R235). -/
def Elementary.finite (w : Word) : Bool := (E.num? w).isSome

/-- The number a configuration register stands for in a micro-operation. CONFIGURE has rejected the containers that decode
to none (R80), so the free value is met only outside a command (log 10). -/
def Elementary.numOf (w : Word) : ν := (E.num? w).getD (E.ofRat (Config.nonFiniteNum w))

end Elementary

/-- The arithmetic record: the operations on single numbers, the transform pair, and how a bin's phase is formed. The rules
of the pair define its results, not its method (R184), and R186 lets a block keep the phase in another equivalent way. -/
structure Arith (ν : Type) extends Elementary ν where
  /-- The forward transform of a sequence of the given length (R181). -/
  rdft : Nat → List ν → List (Cplx ν)
  /-- The inverse transform to a sequence of the given length (R182). -/
  irdft : Nat → List (Cplx ν) → List ν
  /-- The phase of a bin (R185 step 4, R186). -/
  phase : Cplx ν → Cplx ν

end Sys2Proof.Machine
end

