-- ==== Sys2Proof/Machine/Transform.lean ====
section
/-! DEFINITION. The transform pair by its formulas: spec/43_spectral.md R181, R182. -/

namespace Sys2Proof.Machine

variable {ν : Type} (E : Elementary ν)

/-- k·n/N turns, the angle of the transforms' exponentials. -/
def turns (len k n : Nat) : ℚ := ((k * n : Nat) : ℚ) / (len : ℚ)

/-- Bin k of the forward transform of length `len`: Re = Σ a[n]·cos(2πkn/N), Im = −Σ a[n]·sin(2πkn/N) (R181). -/
def rdftBin (len : Nat) (a : List ν) (k : Nat) : Cplx ν where
  re := E.total (a.zipIdx.map fun (v, n) => E.mul v (E.cos (turns len k n)))
  im := E.sub E.zero (E.total (a.zipIdx.map fun (v, n) => E.mul v (E.sin (turns len k n))))

/-- The forward transform of a real sequence, bins 0 .. N/2 (R181). -/
def rdft (len : Nat) (a : List ν) : List (Cplx ν) := (List.range (len / 2 + 1)).map (rdftBin E len a)

/-- Re(B · exp(+j2πkn/N)). -/
def turnedRe (len n : Nat) (b : Cplx ν) (k : Nat) : ν :=
  E.sub (E.mul b.re (E.cos (turns len k n))) (E.mul b.im (E.sin (turns len k n)))

/-- Re(B[k]), and 0 past the end of B. -/
def realPart (b : List (Cplx ν)) (k : Nat) : ν := (b.getD k ⟨E.zero, E.zero⟩).re

/-- The interior bins 1 .. N/2 − 1, each with its number. -/
def interiorBins (len : Nat) (b : List (Cplx ν)) : List (Cplx ν × Nat) := (b.zipIdx.drop 1).take (len / 2 - 1)

/-- Sample n of the inverse transform of length `len` (R182). -/
def irdftSample (len : Nat) (b : List (Cplx ν)) (n : Nat) : ν :=
  E.mul (E.ofRat (1 / (len : ℚ)))
    (E.add (E.add (realPart E b 0) (E.mul (E.ofRat ((-1) ^ n)) (realPart E b (len / 2))))
      (E.mul (E.ofRat 2) (E.total ((interiorBins len b).map fun (z, k) => turnedRe E len n z k))))

/-- The inverse transform, samples 0 .. N − 1 (R182). -/
def irdft (len : Nat) (b : List (Cplx ν)) : List ν := (List.range len).map (irdftSample E len b)

end Sys2Proof.Machine
end

