-- ==== Sys2Proof/Machine/ExactArith.lean ====
section
/-! DEFINITION. The reference instance of the arithmetic record (spec/00_scope.md R16): exact numbers with the binary32
container, and the transform pair by its formulas. -/

namespace Sys2Proof.Machine

/-- The operations on exact numbers. -/
def exactElementary : Elementary Exact where
  ofRat := .rat
  add := Exact.add
  sub := Exact.sub
  mul := Exact.mul
  div := Exact.div
  max := Exact.max
  sqrt := Exact.sqrt
  abs := Exact.abs
  cos := Exact.cosOf
  less := Exact.less
  num? w := (num? w).map .rat
  word := Exact.word

/-- The reference instance. -/
def exactArith : Arith Exact where
  toElementary := exactElementary
  rdft := rdft exactElementary
  irdft := irdft exactElementary
  phase z := ⟨.unitReOf z.re z.im, .unitImOf z.re z.im⟩

end Sys2Proof.Machine
end

