-- ==== Sys2Proof/Machine/State.lean ====
section
/-! DEFINITION. The state of the SSD core as plain data: spec/10_state.md R30 to R67. INVENTORY.md lists every piece
with its rule. The state is written over the number type NUM (spec/00_scope.md R16); the machine's own state is the one
over exact numbers. -/

namespace Sys2Proof.Machine

/-- Why a step stops. -/
inductive Fault where
  /-- The sequencer's code is 0xA to 0xF, "unused, never selected" (R106). Raised by `step` only; no transaction leads
  there. Safe: the hardware has no such step (log 6). -/
  | unusedUop (code : BitVec 4)
deriving DecidableEq, Repr

/-- Why an instruction is refused. -/
inductive Refusal where
  /-- An instruction without a meaning, named as in the opcode table. Raised by no arm of `exec`. Safe. -/
  | notModelled (mnemonic : String)
  /-- The word of IN at this index is not finite and FRAME_BUILD, CALIBRATE or PROCESS consumes it: "a model refuses
  such a command" (R80, 93 U2). Safe: nothing is claimed of the hardware there (log 9). -/
  | nonFiniteSample (index : Nat)
deriving DecidableEq, Repr

/-- What `exec` and `step` answer: the next state, a fault or a refusal. -/
abbrev Answer (σ : Type) := Host.Outcome σ Fault Refusal

/-- The mode (R33). -/
inductive Mode where
  | unconfigured
  | configured
deriving DecidableEq, Repr

/-- The coefficient registers of one second-order section (R52). -/
structure Section where
  b0 : Word
  b1 : Word
  b2 : Word
  a1 : Word
  a2 : Word
deriving DecidableEq, Repr

/-- The configuration registers, writable only while unconfigured (R42 to R49, R51, R52). -/
structure ConfigRegs where
  sampleRate : Word
  frameLen : Word
  beta : Word
  floor : Word
  alphaN : Word
  alphaG : Word
  hpCutoff : Word
  hpOrder : Word
  /-- One entry per section 0 .. SMAX − 1. -/
  coef : List Section
deriving DecidableEq, Repr

/-- Memory: (address, byte) cells, addresses strictly rising. An unlisted address has no byte of its own: nothing has
been written there since the last reset (log 3). -/
abbrev Memory := List Host.Cell

/-- What the last bus transaction answered (R70). -/
inductive Response where
  /-- No transaction yet since reset. -/
  | none
  /-- A read answered OK with this word. -/
  | readOk (data : Word)
  /-- A write answered OK. -/
  | writeOk
  /-- The ERR response; a read returns no data (R70, 93 U8). -/
  | err
deriving DecidableEq, Repr

/-- A coefficient set after reset (R40, R65). -/
def Section.zero : Section := ⟨0, 0, 0, 0, 0⟩

/-- The configuration registers after reset: all 0 but HP_ORDER = 2 (R40, R65). -/
def ConfigRegs.reset (smax : Nat) : ConfigRegs where
  sampleRate := 0
  frameLen := 0
  beta := 0
  floor := 0
  alphaN := 0
  alphaG := 0
  hpCutoff := 0
  hpOrder := 2
  coef := List.replicate smax Section.zero

namespace Generic

variable {ν : Type}

/-- The working vectors of a command (R31). -/
@[ext]
structure Work (ν : Type) where
  chunk : List ν
  frame : List ν
  filt : List ν
  x : List (Cplx ν)
  mag : List ν
  phs : List (Cplx ν)
  clean : List ν
  ginst : List ν
  g : List ν
  y : List (Cplx ν)
  syn : List ν
deriving DecidableEq, Repr

/-- The state of a machine whose numbers are of type NUM (R16). -/
@[ext]
structure State (ν : Type) where
  /-- MODE (R33), STATUS bit 0. -/
  mode : Mode
  /-- GAIN_VALID (R35), STATUS bit 1. -/
  gainValid : Bool
  /-- OUT_VALID (R36), STATUS bit 2. -/
  outValid : Bool
  /-- HPF_EN (R37), STATUS bit 3. -/
  hpfEn : Bool
  /-- HPF_PRIMED (R38), STATUS bit 4. -/
  hpfPrimed : Bool
  /-- ERR (R39), STATUS bit 5. -/
  err : Bool
  /-- ERRS (R39), STATUS bit 6. -/
  errs : Bool
  /-- ERR_CODE (R54). -/
  errCode : Word
  /-- ERR_INFO (R54). -/
  errInfo : Word
  /-- The configuration registers (R42 to R52). -/
  cfg : ConfigRegs
  /-- WIN[0:N] (R55). -/
  win : List ν
  /-- TAIL[0:N−H] (R56). -/
  tail : List ν
  /-- OLA[0:N] (R57). -/
  ola : List ν
  /-- NOISE[0:K] (R58). -/
  noise : List ν
  /-- PGAIN[0:K] (R59). -/
  pgain : List ν
  /-- HPZ[s][0:2] (R60). -/
  hpz : List (ν × ν)
  /-- HPZI[s][0:2] (R60). -/
  hpzi : List (ν × ν)
  /-- IN[0:HMAX], byte by byte at its bus addresses (R61). -/
  inBuf : Memory
  /-- OUT[0:H] (R62). -/
  out : List ν
  /-- The working vectors (R31); empty between commands (log 5). -/
  work : Work ν
  /-- The implementation parameters, which no step changes (R12 to R15; log 2). -/
  build : Build ν
  /-- The model's own: the code the sequencer selects, 0 when idle (R106; log 6). -/
  seq : BitVec 4
  /-- The model's own: the host's events still to happen, in program order (R83; log 7). -/
  pending : List HostEvent
  /-- The model's own: the response of the last bus transaction (R70; log 7). -/
  response : Response
  /-- The model's own: how many hardware resets there have been since power-up, which selects the free contents of IN
  (93 U1; log 3). -/
  resets : Nat
deriving DecidableEq, Repr

/-- No working vector holds a value. -/
def Work.empty : Work ν := ⟨[], [], [], [], [], [], [], [], [], [], []⟩

/-- The state after hardware reset of a block with parameters b (R65, R300). The arrays, which the spec leaves
unspecified and unreadable, hold no elements (log 4). -/
def State.resetOf (b : Build ν) : State ν where
  mode := .unconfigured
  gainValid := false
  outValid := false
  hpfEn := false
  hpfPrimed := false
  err := false
  errs := false
  errCode := 0
  errInfo := 0
  cfg := .reset b.smax
  win := []
  tail := []
  ola := []
  noise := []
  pgain := []
  hpz := []
  hpzi := []
  inBuf := []
  out := []
  work := .empty
  build := b
  seq := 0
  pending := []
  response := .none
  resets := 0

end Generic

end Sys2Proof.Machine

namespace Sys2Proof

/-- The spec's default parameters (R12 to R15, 93 U15), the constants as exact numbers. -/
abbrev Build.default : Build Machine.Exact := .defaultOf .rat

namespace Machine

/-- The state of the machine: its numbers are exact real numbers, the reference semantics of R16 (log 1). -/
abbrev State := Generic.State Exact

/-- The machine right after reset, with the spec's default parameters. -/
def State.reset : State := .resetOf .default

end Machine

end Sys2Proof
end

