-- ==== Sys2Proof/Machine/Ops.lean ====
section
/-! DEFINITION. The named operations: memory, the address map, taking an error (the exception entry of this hardware)
and ending a command, bus responses, hardware reset, and running micro-operations in order. What the state holds of numbers is
of any type ν (spec/00_scope.md R16). -/

namespace Sys2Proof.Machine

/-! ## Memory: the input buffer (spec/20_memory.md R72, spec/10_state.md R61) -/

/-- The byte listed at an address. -/
def Memory.read? : Memory → Nat → Option Byte
  | [], _ => none
  | (b, v) :: m, a => if a = b then some v else Memory.read? m a

/-- The memory with one byte written; the addresses stay strictly rising. -/
def Memory.write : Memory → Nat → Byte → Memory
  | [], a, v => [(a, v)]
  | (b, u) :: m, a, v =>
    if a < b then (a, v) :: (b, u) :: m
    else if a = b then (a, v) :: m
    else (b, u) :: Memory.write m a v

/-- The canonical form: addresses strictly rising. -/
abbrev Memory.wf (m : Memory) : Prop := m.Pairwise fun c d => c.1 < d.1

/-- The memory with a word written at an address, little-endian (R72). -/
def Memory.writeWord (m : Memory) (a : Nat) (w : Word) : Memory :=
  Memory.write (Memory.write (Memory.write (Memory.write m a (w.extractLsb' 0 8))
    (a + 1) (w.extractLsb' 8 8)) (a + 2) (w.extractLsb' 16 8)) (a + 3) (w.extractLsb' 24 8)

/-- The first byte address of the IN window (R75). -/
def inBase : Nat := 0x4000

/-- The memory in which every word of IN is 0 (R66). -/
def Memory.zeros (hmax : Nat) : Memory := (List.range (4 * hmax)).map fun i => (inBase + i, 0)

/-! ## The address map (spec/20_memory.md R75, spec/10_state.md R40) -/

/-- The eight configuration registers that are not coefficients. -/
inductive CfgReg where
  | sampleRate
  | frameLen
  | beta
  | floor
  | alphaN
  | alphaG
  | hpCutoff
  | hpOrder
deriving DecidableEq, Repr

/-- The five coefficients of a section, numbered c = 0 .. 4 as R235 numbers them. -/
inductive CoefReg where
  | b0
  | b1
  | b2
  | a1
  | a2
deriving DecidableEq, Repr

/-- What a word-aligned byte offset names. -/
inductive Loc where
  | id
  | cap
  | cmd
  | status
  | errCode
  | errInfo
  | hopLen
  | nbins
  | cfg (r : CfgReg)
  | coef (sec : Nat) (c : CoefReg)
  | inWord (i : Nat)
  | out (i : Nat)
  | win (i : Nat)
  | tail (i : Nat)
  | ola (i : Nat)
  | noise (i : Nat)
  | pgain (i : Nat)
  | hpz (sec c : Nat)
  | hpzi (sec c : Nat)
  | unmapped
deriving DecidableEq, Repr

/-- The registers below 0x40, by word number (R40). -/
def locateRegister : Nat → Loc
  | 0 => .id
  | 1 => .cap
  | 2 => .cmd
  | 3 => .status
  | 4 => .errCode
  | 5 => .errInfo
  | 6 => .hopLen
  | 7 => .nbins
  | 8 => .cfg .sampleRate
  | 9 => .cfg .frameLen
  | 10 => .cfg .beta
  | 11 => .cfg .floor
  | 12 => .cfg .alphaN
  | 13 => .cfg .alphaG
  | 14 => .cfg .hpCutoff
  | 15 => .cfg .hpOrder
  | _ => .unmapped

/-- The words of a section's coefficient block, by word number (R52). -/
def locateCoef (sec : Nat) : Nat → Loc
  | 0 => .coef sec .b0
  | 1 => .coef sec .b1
  | 2 => .coef sec .b2
  | 3 => .coef sec .a1
  | 4 => .coef sec .a2
  | _ => .unmapped

/-- The 0x4000-byte windows, by window number (R75, R76). -/
def locateWindow : Nat → Nat → Loc
  | 1, i => .inWord i
  | 2, i => .out i
  | 3, i => .win i
  | 4, i => .tail i
  | 5, i => .ola i
  | 6, i => .noise i
  | 7, i => .pgain i
  | _, _ => .unmapped

/-- What the byte offset a names in a block with SMAX sections (R75). Whether an array element is mapped depends on the
array's current length as well (R76). -/
def locate (smax a : Nat) : Loc :=
  if a % 4 ≠ 0 then .unmapped
  else if a < 0x40 then locateRegister (a / 4)
  else if a < 0x4000 then
    if (a - 0x40) / 0x20 < smax then locateCoef ((a - 0x40) / 0x20) ((a - 0x40) % 0x20 / 4) else .unmapped
  else if a < 0x20000 then locateWindow (a / 0x4000) (a % 0x4000 / 4)
  else if a < 0x20100 then
    if (a - 0x20000) / 8 < smax then .hpz ((a - 0x20000) / 8) ((a - 0x20000) % 8 / 4) else .unmapped
  else
    if (a - 0x20100) / 8 < smax then .hpzi ((a - 0x20100) / 8) ((a - 0x20100) % 8 / 4) else .unmapped

/-! ## Register storage (spec/10_state.md R40, R42 to R52) -/

/-- The content of a configuration register. -/
def ConfigRegs.get (c : ConfigRegs) : CfgReg → Word
  | .sampleRate => c.sampleRate
  | .frameLen => c.frameLen
  | .beta => c.beta
  | .floor => c.floor
  | .alphaN => c.alphaN
  | .alphaG => c.alphaG
  | .hpCutoff => c.hpCutoff
  | .hpOrder => c.hpOrder

/-- The configuration registers with one of them written. -/
def ConfigRegs.set (c : ConfigRegs) (w : Word) : CfgReg → ConfigRegs
  | .sampleRate => { c with sampleRate := w }
  | .frameLen => { c with frameLen := w }
  | .beta => { c with beta := w }
  | .floor => { c with floor := w }
  | .alphaN => { c with alphaN := w }
  | .alphaG => { c with alphaG := w }
  | .hpCutoff => { c with hpCutoff := w }
  | .hpOrder => { c with hpOrder := w }

/-- One coefficient of a section. -/
def Section.get (x : Section) : CoefReg → Word
  | .b0 => x.b0
  | .b1 => x.b1
  | .b2 => x.b2
  | .a1 => x.a1
  | .a2 => x.a2

/-- A section with one coefficient written. -/
def Section.set (x : Section) (w : Word) : CoefReg → Section
  | .b0 => { x with b0 := w }
  | .b1 => { x with b1 := w }
  | .b2 => { x with b2 := w }
  | .a1 => { x with a1 := w }
  | .a2 => { x with a2 := w }

/-- The content of a coefficient register. -/
def ConfigRegs.getCoef (c : ConfigRegs) (sec : Nat) (r : CoefReg) : Word :=
  (c.coef.getD sec Section.zero).get r

/-- The configuration registers with one coefficient written. -/
def ConfigRegs.setCoef (c : ConfigRegs) (sec : Nat) (r : CoefReg) (w : Word) : ConfigRegs :=
  { c with coef := c.coef.set sec ((c.coef.getD sec Section.zero).set w r) }

/-! ## Error codes -/

/-- The error codes (R271). -/
inductive ErrorCode where
  | opcode
  | field
  | state
  | length
  | cfgRate
  | cfgLenZero
  | cfgLenOdd
  | cfgLenBig
  | cfgBeta
  | cfgFloor
  | cfgAlphaN
  | cfgAlphaG
  | cfgCutoff
  | cfgOrder
  | cfgCoef
deriving DecidableEq, Repr

/-- The value of ERR_CODE for an error (R271). -/
def ErrorCode.word : ErrorCode → Word
  | .opcode => 0x01
  | .field => 0x02
  | .state => 0x03
  | .length => 0x04
  | .cfgRate => 0x10
  | .cfgLenZero => 0x11
  | .cfgLenOdd => 0x12
  | .cfgLenBig => 0x13
  | .cfgBeta => 0x14
  | .cfgFloor => 0x15
  | .cfgAlphaN => 0x16
  | .cfgAlphaG => 0x17
  | .cfgCutoff => 0x18
  | .cfgOrder => 0x19
  | .cfgCoef => 0x1A

namespace Generic

variable {ν : Type}

/-! ## The input buffer and the address map of a block -/

/-- The byte of IN at an address: the one written, or a free value where nothing has been written since reset (93 U1). -/
def State.byteAt (s : State ν) (a : Nat) : Byte := (Memory.read? s.inBuf a).getD (Config.resetByte s.resets a)

/-- The word of IN at an address, little-endian (R72). -/
def State.wordAt (s : State ν) (a : Nat) : Word :=
  s.byteAt (a + 3) ++ s.byteAt (a + 2) ++ s.byteAt (a + 1) ++ s.byteAt a

/-- The container IN[i] (R61). -/
def State.inWord (s : State ν) (i : Nat) : Word := s.wordAt (inBase + 4 * i)

/-- What a byte offset names in this block. -/
def State.locOf (s : State ν) (addr : Addr) : Loc := locate s.build.smax addr.toNat

/-! ## Responses, errors and the end of a command -/

/-- The bus transaction answers (R70). -/
def State.respond (s : State ν) (r : Response) : State ν := { s with response := r }

/-- Error entry, `raise E(info)` (R276): the four result elements are written and nothing else changes; the bus write
that carried the command answers OK. There is nothing to return from (R279). -/
def State.raise (s : State ν) (e : ErrorCode) (info : Word) : State ν :=
  { s with err := true, errs := true, errCode := e.word, errInfo := info, response := .writeOk }

/-- The end of a successful command (R231 step 5): ERRS is left as it is; the bus write answers OK. -/
def State.succeed (s : State ν) : State ν :=
  { s with err := false, errCode := 0, errInfo := 0, response := .writeOk }

/-- The working vectors are discarded when a command ends (R31). -/
def State.dropWork (s : State ν) : State ν := { s with work := .empty }

/-- Hardware reset (R300), taken between transactions (93 U12; log 12): the state after reset of the same block, with
the host's later events still to happen and the contents of IN free again. -/
def State.hardReset (s : State ν) (rest : List HostEvent) : State ν :=
  { State.resetOf s.build with pending := rest, resets := s.resets + 1 }

/-! ## Running micro-operations in order (spec/46_commands.md R231, R238, R240) -/

/-- Run f on the next state; a fault or a refusal ends the run. -/
def andThen (o : Answer (State ν)) (f : State ν → Answer (State ν)) : Answer (State ν) :=
  match o with
  | .next s => f s
  | .fault r => .fault r
  | .refused r => .refused r

/-- Run a list of micro-operations in order. -/
def runAll : List (State ν → Answer (State ν)) → State ν → Answer (State ν)
  | [], s => .next s
  | f :: fs, s => andThen (f s) (runAll fs)

end Generic

end Sys2Proof.Machine
end

