-- ==== Sys2Proof/Machine/Operands.lean ====
section
/-! DEFINITION. The operands of commands and micro-operations: derived lengths (spec/00_scope.md R10, spec/10_state.md
R49, R50), the configuration's numbers, and the chunk (spec/30_encoding.md R102, spec/42_frame_ola.md R161). -/

namespace Sys2Proof.Machine

/-- S = ceil(HP_ORDER / 2), the sections the filter runs (R49). -/
def ConfigRegs.sections (c : ConfigRegs) : Nat := (c.hpOrder.toNat + 1) / 2

/-- LEN of a command as a count of samples, zero-extended (R102). -/
def lenOperand (len : BitVec 16) : Nat := len.toNat

namespace Generic

variable {ν : Type} (A : Arith ν)

/-- N, the frame length: uint(FRAME_LEN) (R10, R43). -/
def State.N (s : State ν) : Nat := s.cfg.frameLen.toNat

/-- H = N/2, the hop length (R10). -/
def State.H (s : State ν) : Nat := s.N / 2

/-- K = N/2 + 1, the bin count (R10). -/
def State.K (s : State ν) : Nat := s.N / 2 + 1

/-- β (R44). -/
def State.beta (s : State ν) : ν := A.numOf s.cfg.beta

/-- The noise floor ratio (R45). -/
def State.floorRatio (s : State ν) : ν := A.numOf s.cfg.floor

/-- α_n (R46). -/
def State.alphaN (s : State ν) : ν := A.numOf s.cfg.alphaN

/-- α_g (R47). -/
def State.alphaG (s : State ν) : ν := A.numOf s.cfg.alphaG

/-- The coefficients of one section as numbers (R52). -/
structure Biquad (ν : Type) where
  b0 : ν
  b1 : ν
  b2 : ν
  a1 : ν
  a2 : ν
deriving DecidableEq, Repr

/-- The numbers a coefficient set holds. -/
def biquad (x : Section) : Biquad ν := ⟨A.numOf x.b0, A.numOf x.b1, A.numOf x.b2, A.numOf x.a1, A.numOf x.a2⟩

/-- The sections the filter runs, 0 .. S − 1, as numbers (R49, R52). -/
def State.biquads (s : State ν) : List (Biquad ν) := (s.cfg.coef.take s.cfg.sections).map (biquad A)

/-- The numbers a list of containers decodes to, or the index of the first that is not finite. -/
def decodeAll : Nat → List Word → Except Nat (List ν)
  | _, [] => .ok []
  | i, w :: ws =>
    match A.num? w with
    | none => .error i
    | some q =>
      match decodeAll (i + 1) ws with
      | .error j => .error j
      | .ok qs => .ok (q :: qs)

/-- The containers of the chunk: IN[0] .. IN[H−1] (R102). -/
def State.chunkWords (s : State ν) : List Word := (List.range s.H).map s.inWord

/-- CHUNK: the numbers of IN[0:H] (R161), or the index of the first container that is not finite (R80). -/
def State.chunk (s : State ν) : Except Nat (List ν) := decodeAll A 0 s.chunkWords

/-- n zeros (R18). -/
def zeros (n : Nat) : List ν := List.replicate n A.zero

end Generic

end Sys2Proof.Machine
end

