-- ==== Sys2Proof/Machine/Flags.lean ====
section
/-! DEFINITION. The flags and what is read of them: STATUS (spec/10_state.md R34 to R39), HPF_EN (R37), and the
availability of the array windows that the flags govern (spec/20_memory.md R77). -/

namespace Sys2Proof.Machine

/-- CONFIGURED, STATUS bit 0 (R33). -/
def Mode.flag : Mode → Bool
  | .unconfigured => false
  | .configured => true

namespace Generic

variable {ν : Type} (A : Arith ν)

/-- The STATUS word: ERRS, ERR, HPF_PRIMED, HPF_EN, OUT_VALID, GAIN_VALID, CONFIGURED in bits 6 to 0 and zeros above
(R34). -/
def State.status (s : State ν) : Word :=
  (0 : BitVec 25) ++ BitVec.ofBool s.errs ++ BitVec.ofBool s.err ++ BitVec.ofBool s.hpfPrimed ++
    BitVec.ofBool s.hpfEn ++ BitVec.ofBool s.outValid ++ BitVec.ofBool s.gainValid ++ BitVec.ofBool s.mode.flag

/-- A write to STATUS: writing 1 to bit 6 clears ERRS and every other written bit is ignored (R34). -/
def State.writeStatus (s : State ν) (w : Word) : State ν := { s with errs := s.errs && !w.getLsbD 6 }

/-- HPF_EN as CONFIGURE writes it: 1 if num(HP_CUTOFF) > 0, else 0 (R37). -/
def filterOn (c : ConfigRegs) : Bool :=
  match A.num? c.hpCutoff with
  | none => false
  | some q => A.less A.zero q

/-- WIN, TAIL, OLA and NOISE can be read while CONFIGURED (R77). -/
def State.arraysReadable (s : State ν) : Bool := s.mode.flag

/-- OUT can be read while CONFIGURED with OUT_VALID = 1 (R77). -/
def State.outReadable (s : State ν) : Bool := s.mode.flag && s.outValid

/-- PGAIN can be read while CONFIGURED with GAIN_VALID = 1 (R77). -/
def State.pgainReadable (s : State ν) : Bool := s.mode.flag && s.gainValid

/-- HPZ and HPZI can be read while CONFIGURED with HPF_EN = 1 (R77). -/
def State.filterReadable (s : State ν) : Bool := s.mode.flag && s.hpfEn

/-- DESTROY clears the mode, its flags, and the sticky error flag (R244). -/
def State.clearFlags (s : State ν) : State ν :=
  { s with mode := .unconfigured, gainValid := false, outValid := false, hpfEn := false, hpfPrimed := false, errs := false }

end Generic

end Sys2Proof.Machine
end

