-- ==== Sys2Proof/Machine/FrameOla.lean ====
section
/-! DEFINITION. The Frame Assembler and OLA Buffer, micro-operations FRAME_BUILD and OLA_EMIT: spec/42_frame_ola.md R160
to R171. -/

namespace Sys2Proof.Machine

namespace Generic

variable {ν : Type} (A : Arith ν)

/-- FRAME_BUILD on the numbers of the chunk: the frame is the tail followed by the chunk, and the last N − H samples of
the chunk become the tail (R161). -/
def frameBuild (chunk : List ν) (s : State ν) : State ν :=
  { s with
    work := { s.work with chunk := chunk, frame := s.tail ++ chunk }
    tail := chunk.drop (s.H - (s.N - s.H)) }

/-- FRAME_BUILD (R161). A container that is not finite is refused (R80; log 9). -/
def execFrameBuild (s : State ν) : Answer (State ν) :=
  match s.chunk A with
  | .error i => .refused (.nonFiniteSample i)
  | .ok chunk => .next (frameBuild chunk s)

/-- The accumulator shifted left by one hop with its tail zero-filled (R166 steps 2 and 3). -/
def shiftOla (h : Nat) (ola : List ν) : List ν := ola.drop h ++ zeros A h

/-- OLA_EMIT: copy out, shift, zero-fill, add, and set OUT_VALID (R165, R166). -/
def olaEmit (s : State ν) : State ν :=
  { s with
    out := s.ola.take s.H
    ola := List.zipWith A.add (shiftOla A s.H s.ola) s.work.syn
    outValid := true }

/-- OLA_EMIT (R166). -/
def execOlaEmit (s : State ν) : Answer (State ν) := .next (olaEmit A s)

end Generic

/-- FRAME_BUILD (R161). -/
def execFrameBuild (s : State) : Answer State := Generic.execFrameBuild exactArith s

/-- OLA_EMIT (R166). -/
def execOlaEmit (s : State) : Answer State := Generic.execOlaEmit exactArith s

end Sys2Proof.Machine
end

