-- ==== Sys2Proof/Machine/Noise.lean ====
section
/-! DEFINITION. The Noise Estimator, micro-operation NOISE_UPDATE: spec/44_noise.md R200 to R207. -/

namespace Sys2Proof.Machine

namespace Generic

variable {ν : Type} (A : Arith ν)

/-- α·old + (1 − α)·new: the exponential moving average (R201, R211 step 3). -/
def smooth (α old new : ν) : ν := A.add (A.mul α old) (A.mul (A.sub A.one α) new)

/-- NOISE_UPDATE: NOISE[k] <- α_n·NOISE[k] + (1 − α_n)·MAG[k] for every bin (R201). -/
def noiseUpdate (s : State ν) : State ν :=
  { s with noise := List.zipWith (smooth A (s.alphaN A)) s.noise s.work.mag }

/-- NOISE_UPDATE (R201). -/
def execNoiseUpdate (s : State ν) : Answer (State ν) := .next (noiseUpdate A s)

end Generic

/-- NOISE_UPDATE (R201). -/
def execNoiseUpdate (s : State) : Answer State := Generic.execNoiseUpdate exactArith s

end Sys2Proof.Machine
end

