-- ==== Sys2Proof/Machine/Gain.lean ====
section
/-! DEFINITION. The Gain Computer, micro-operation GAIN: spec/45_gain.md R210 to R224. -/

namespace Sys2Proof.Machine

namespace Generic

variable {ν : Type} (A : Arith ν)

/-- max(MAG − β·NOISE, floor·NOISE): subtraction with flooring (R211 step 1, R212). -/
def cleanOf (β floorRatio mag noise : ν) : ν := A.max (A.sub mag (A.mul β noise)) (A.mul floorRatio noise)

/-- CLEAN / (MAG + EPS_GAIN): the instantaneous gain (R211 step 2, R213). -/
def instantGain (eps clean mag : ν) : ν := A.div clean (A.add mag eps)

/-- CLEAN (R211 step 1). -/
def State.cleanVector (s : State ν) : List ν :=
  List.zipWith (cleanOf A (s.beta A) (s.floorRatio A)) s.work.mag s.noise

/-- GINST (R211 step 2). -/
def State.ginstVector (s : State ν) : List ν :=
  List.zipWith (instantGain A s.build.epsGain) (s.cleanVector A) s.work.mag

/-- G: smoothed against the previous gain where there is one, and the instantaneous gain otherwise (R211 step 3, R214). -/
def State.gainVector (s : State ν) : List ν :=
  if s.gainValid then List.zipWith (smooth A (s.alphaG A)) s.pgain (s.ginstVector A) else s.ginstVector A

/-- GAIN: CLEAN, GINST, G; the smoothed gain becomes the previous gain and GAIN_VALID is set (R211). -/
def gain (s : State ν) : State ν :=
  { s with
    work := { s.work with clean := s.cleanVector A, ginst := s.ginstVector A, g := s.gainVector A }
    pgain := s.gainVector A
    gainValid := true }

/-- GAIN (R211). -/
def execGain (s : State ν) : Answer (State ν) := .next (gain A s)

end Generic

/-- GAIN (R211). -/
def execGain (s : State) : Answer State := Generic.execGain exactArith s

end Sys2Proof.Machine
end

