-- ==== Sys2Proof/Machine/HighPass.lean ====
section
/-! DEFINITION. The High-Pass Pre-Filter, micro-operations HPF_SETUP and HPF: spec/41_highpass.md R140 to R153. -/

namespace Sys2Proof.Machine

namespace Generic

/-- The state of one section (R60, R145). -/
abbrev SectionState (ν : Type) := ν × ν

variable {ν : Type} (A : Arith ν)

/-- The gain of a section for a constant input: (b0 + b1 + b2) / (1 + a1 + a2) (R142). -/
def dcGain (c : Biquad ν) : ν := A.div (A.add (A.add c.b0 c.b1) c.b2) (A.add (A.add A.one c.a1) c.a2)

/-- The state a section rests in under the constant input u (R142). -/
def restState (c : Biquad ν) (u : ν) : SectionState ν :=
  (A.mul u (A.sub (A.add c.b1 c.b2) (A.mul (A.add c.a1 c.a2) (dcGain A c))),
    A.mul u (A.sub c.b2 (A.mul c.a2 (dcGain A c))))

/-- The states the sections rest in when the cascade's input is the constant u: each section's input is the gain of the
sections before it times u (R142). -/
def restStates : List (Biquad ν) → ν → List (SectionState ν)
  | [], _ => []
  | c :: cs, u => restState A c u :: restStates cs (A.mul (dcGain A c) u)

/-- A section's state when it holds nothing. -/
def restZero : SectionState ν := (A.zero, A.zero)

/-- HPF_SETUP clears HPZ and HPF_PRIMED and, if the filter is enabled, writes HPZI for the sections in use and zeros for
the others (R142). -/
def hpfSetup (s : State ν) : State ν :=
  { s with
    hpz := List.replicate s.build.smax (restZero A)
    hpfPrimed := false
    hpzi :=
      if s.hpfEn then
        restStates A (s.biquads A) A.one ++ List.replicate (s.build.smax - s.cfg.sections) (restZero A)
      else s.hpzi }

/-- HPF_SETUP (R142). -/
def execHpfSetup (s : State ν) : Answer (State ν) := .next (hpfSetup A s)

/-- One section, one sample: the output and the new state (R145). -/
def filterStep (c : Biquad ν) (z : SectionState ν) (v : ν) : ν × SectionState ν :=
  let y := A.add (A.mul c.b0 v) z.1
  (y, (A.add (A.sub (A.mul c.b1 v) (A.mul c.a1 y)) z.2, A.sub (A.mul c.b2 v) (A.mul c.a2 y)))

/-- One sample through the sections in increasing order: the output and the new states (R146). -/
def cascadeStep : List (Biquad ν) → List (SectionState ν) → ν → ν × List (SectionState ν)
  | c :: cs, z :: zs, v =>
    let r := filterStep A c z v
    let t := cascadeStep cs zs r.1
    (t.1, r.2 :: t.2)
  | _, zs, v => (v, zs)

/-- The samples of a frame through the cascade in increasing order: the filtered frame and the final states (R146). -/
def cascadeRun (cs : List (Biquad ν)) : List (SectionState ν) → List ν → List ν × List (SectionState ν)
  | zs, [] => ([], zs)
  | zs, v :: vs =>
    let r := cascadeStep A cs zs v
    let t := cascadeRun cs r.2 vs
    (r.1 :: t.1, t.2)

/-- A section state scaled by a number. -/
def scaleState (u : ν) (z : SectionState ν) : SectionState ν := (A.mul z.1 u, A.mul z.2 u)

/-- Whether an HPF uop starts from HPZI: always with HPF_REINIT = 1, and otherwise only the first since CONFIGURE (R147,
R148). -/
def State.startsFresh (s : State ν) : Bool := s.build.hpfReinit || !s.hpfPrimed

/-- The initial state of the sections in use: HPZI times the frame's first sample (R147), or the state the previous HPF
uop left (R148). -/
def State.initialStates (s : State ν) : List (SectionState ν) :=
  if s.startsFresh then (s.hpzi.take s.cfg.sections).map (scaleState A (s.work.frame.getD 0 A.zero))
  else s.hpz.take s.cfg.sections

/-- What the enabled filter makes of the frame (R146 steps 1 and 2). -/
def State.filtered (s : State ν) : List ν × List (SectionState ν) :=
  cascadeRun A (s.biquads A) (s.initialStates A) s.work.frame

/-- HPF: the identity when disabled, with no state read or written (R144), and otherwise the cascade over the frame with
its final states written back and HPF_PRIMED set (R146, R149). -/
def hpf (s : State ν) : State ν :=
  { s with
    work := { s.work with filt := if s.hpfEn then (s.filtered A).1 else s.work.frame }
    hpz := if s.hpfEn then (s.filtered A).2 ++ s.hpz.drop s.cfg.sections else s.hpz
    hpfPrimed := s.hpfEn || s.hpfPrimed }

/-- HPF (R146). -/
def execHpf (s : State ν) : Answer (State ν) := .next (hpf A s)

end Generic

/-- HPF_SETUP (R142). -/
def execHpfSetup (s : State) : Answer State := Generic.execHpfSetup exactArith s

/-- HPF (R146). -/
def execHpf (s : State) : Answer State := Generic.execHpf exactArith s

end Sys2Proof.Machine
end

