-- ==== Sys2Proof/Machine/Spectral.lean ====
section
/-! DEFINITION. The Spectral Analyzer and Synthesizer, micro-operations ANALYZE and SYNTH: spec/43_spectral.md R180 to
R192. The transform pair is the record's (Machine/Transform.lean for the reference instance). -/

namespace Sys2Proof.Machine

namespace Generic

variable {ν : Type} (A : Arith ν)

/-- XW, the windowed frame (R185 step 1). -/
def State.windowed (s : State ν) : List ν := List.zipWith A.mul s.win s.work.filt

/-- X, the spectrum of the windowed frame (R185 step 2). -/
def State.spectrum (s : State ν) : List (Cplx ν) := A.rdft s.N (s.windowed A)

/-- ANALYZE: the spectrum, its magnitudes and its phases (R185). -/
def analyze (s : State ν) : State ν :=
  { s with
    work := { s.work with
      x := s.spectrum A
      mag := (s.spectrum A).map A.cabs
      phs := (s.spectrum A).map A.phase } }

/-- ANALYZE (R185). -/
def execAnalyze (s : State ν) : Answer (State ν) := .next (analyze A s)

/-- Y: per bin, the gain times the magnitude, times the phase (R188 step 1). -/
def shaped (g mag : List ν) (phs : List (Cplx ν)) : List (Cplx ν) :=
  List.zipWith A.scale (List.zipWith A.mul g mag) phs

/-- SYNTH: magnitude times phase, the inverse transform, and the window again (R188). -/
def synth (s : State ν) : State ν :=
  let y := shaped A s.work.g s.work.mag s.work.phs
  { s with work := { s.work with y := y, syn := List.zipWith A.mul s.win (A.irdft s.N y) } }

/-- SYNTH (R188). -/
def execSynth (s : State ν) : Answer (State ν) := .next (synth A s)

end Generic

/-- ANALYZE (R185). -/
def execAnalyze (s : State) : Answer State := Generic.execAnalyze exactArith s

/-- SYNTH (R188). -/
def execSynth (s : State) : Answer State := Generic.execSynth exactArith s

end Sys2Proof.Machine
end

