-- ==== Sys2Proof/Machine/Window.lean ====
section
/-! DEFINITION. The Window Generator, micro-operation WINGEN: spec/40_window.md R130 to R135. -/

namespace Sys2Proof.Machine

namespace Generic

variable {ν : Type} (A : Arith ν)

/-- Element i of the window of length n: sqrt(0.5·(1 − cos(2π·i/(n−1))) + EPS_WIN) (R131). -/
def windowElement (eps : ν) (n i : Nat) : ν :=
  A.sqrt (A.add (A.mul (A.ofRat (1 / 2)) (A.sub A.one (A.cos ((i : ℚ) / ((n : ℚ) - 1))))) eps)

/-- The window of length n (R131). -/
def windowOf (eps : ν) (n : Nat) : List ν := (List.range n).map (windowElement A eps n)

/-- WINGEN writes WIN[0:N] (R131). -/
def wingen (s : State ν) : State ν := { s with win := windowOf A s.build.epsWin s.N }

/-- WINGEN (R131). -/
def execWingen (s : State ν) : Answer (State ν) := .next (wingen A s)

end Generic

/-- WINGEN (R131). -/
def execWingen (s : State) : Answer State := Generic.execWingen exactArith s

end Sys2Proof.Machine
end

