-- ==== Sys2Proof/Machine/Commands.lean ====
section
/-! DEFINITION. The Suppressor's commands NOP, CONFIGURE, CALIBRATE, PROCESS and DESTROY: spec/46_commands.md R230 to
R244. -/

namespace Sys2Proof.Machine

/-! ## The operands of CONFIGURE's checks -/

/-- An error with its information word. -/
abbrev Failure := ErrorCode × Word

/-- The coefficient words of a section with their numbers c = 0 .. 4 (R235 check 11). -/
def Section.numbered (x : Section) : List (Word × Nat) := [(x.b0, 0), (x.b1, 1), (x.b2, 2), (x.a1, 3), (x.a2, 4)]

/-- The information word of E_CFG_COEF: (s << 8) | c (R235, R271). -/
def coefInfo (sec c : Nat) : Word := BitVec.ofNat 32 sec <<< 8 ||| BitVec.ofNat 32 c

namespace Generic

variable {ν : Type} (A : Arith ν)

/-! ## NOP and DESTROY -/

/-- NOP (R232). -/
def execNop (s : State ν) : Answer (State ν) := .next s.succeed

/-- DESTROY (R244). -/
def execDestroy (s : State ν) : Answer (State ν) := .next s.clearFlags.succeed

/-! ## CONFIGURE -/

/-- The lowest section and then the lowest coefficient that is not finite (R235 check 11); the first argument is the
number of the first section listed. -/
def badCoef? : Nat → List Section → Option Word
  | _, [] => none
  | sec, x :: xs =>
    match x.numbered.find? fun e => !A.finite e.1 with
    | some e => some (coefInfo sec e.2)
    | none => badCoef? (sec + 1) xs

/-- a = 0. -/
def isZero (a : ν) : Bool := !A.less a A.zero && !A.less A.zero a

/-- 1 + a1 + a2 = 0 in a section (R235 check 12). -/
def singular (x : Section) : Bool := isZero A (A.add (A.add A.one (A.numOf x.a1)) (A.numOf x.a2))

/-- The lowest section with 1 + a1 + a2 = 0 (R235 check 12). -/
def singular? : Nat → List Section → Option Word
  | _, [] => none
  | sec, x :: xs => if singular A x then some (coefInfo sec 0xFF) else singular? (sec + 1) xs

/-- A container that is not finite or decodes to a negative number (R235 checks 5 and 6). -/
def notNonNegative (w : Word) : Bool :=
  match A.num? w with
  | none => true
  | some q => A.less q A.zero

/-- A container that is not finite or decodes to a number outside [0, 1) (R235 checks 7 and 8). -/
def notSmoothing (w : Word) : Bool :=
  match A.num? w with
  | none => true
  | some q => A.less q A.zero || !A.less q A.one

/-- Checks 10 to 12, made only when the filter is enabled (R235). -/
def filterFailure (c : ConfigRegs) (smax : Nat) : Option Failure :=
  if c.hpOrder = 0 ∨ 2 * smax < c.hpOrder.toNat then some (.cfgOrder, c.hpOrder)
  else match badCoef? A 0 (c.coef.take c.sections) with
    | some info => some (.cfgCoef, info)
    | none =>
      match singular? A 0 (c.coef.take c.sections) with
      | some info => some (.cfgCoef, info)
      | none => none

/-- The first configuration check that fails, in the order of R235, with its error and information word. -/
def failure (c : ConfigRegs) (nmax smax : Nat) : Option Failure :=
  if c.sampleRate = 0 then some (.cfgRate, c.sampleRate)
  else if c.frameLen = 0 then some (.cfgLenZero, c.frameLen)
  else if c.frameLen.toNat % 2 = 1 then some (.cfgLenOdd, c.frameLen)
  else if nmax < c.frameLen.toNat then some (.cfgLenBig, c.frameLen)
  else if notNonNegative A c.beta then some (.cfgBeta, c.beta)
  else if notNonNegative A c.floor then some (.cfgFloor, c.floor)
  else if notSmoothing A c.alphaN then some (.cfgAlphaN, c.alphaN)
  else if notSmoothing A c.alphaG then some (.cfgAlphaG, c.alphaG)
  else if A.finite c.hpCutoff = false then some (.cfgCutoff, c.hpCutoff)
  else if filterOn A c then filterFailure A c smax
  else none

/-- The first check of CONFIGURE that fails in a state (R235). -/
def State.configFailure (s : State ν) : Option Failure := failure A s.cfg s.build.nmax s.build.smax

/-- CONFIGURE step 4: the tag of the filter (R37, R234). -/
def setFilterTag (s : State ν) : State ν := { s with hpfEn := filterOn A s.cfg }

/-- CONFIGURE steps 7 to 9: the construction values of the arrays, the flags and the mode (R66, R234). -/
def construct (s : State ν) : State ν :=
  { s with
    tail := zeros A (s.N - s.H)
    ola := zeros A s.N
    noise := List.replicate s.K s.build.noiseInit
    gainValid := false
    outValid := false
    inBuf := Memory.zeros s.build.hmax
    mode := .configured }

/-- The micro-operations CONFIGURE runs, in order (R234 steps 5 and 6). -/
def configureUops : List (State ν → Answer (State ν)) := [execWingen A, execHpfSetup A]

/-- CONFIGURE (R234 to R236). -/
def execConfigure (s : State ν) : Answer (State ν) :=
  if s.mode = .configured then .next (s.raise .state (commandWord 0 0x01))
  else
    match s.configFailure A with
    | some (e, info) => .next (s.raise e info)
    | none => andThen (runAll (configureUops A) (setFilterTag A s)) fun t => .next (construct A t).succeed

/-! ## CALIBRATE and PROCESS -/

/-- The common checks of CALIBRATE and PROCESS: the mode, then the length (R237). -/
def State.streamFailure (s : State ν) (len : BitVec 16) (op : BitVec 8) : Option Failure :=
  if s.mode = .unconfigured then some (.state, commandWord len op)
  else if lenOperand len ≠ s.H then some (.length, len.setWidth 32)
  else none

/-- Run micro-operations, discard the working vectors and report success (R231 steps 4 and 5). -/
def runCommandUops (uops : List (State ν → Answer (State ν))) (s : State ν) : Answer (State ν) :=
  andThen (runAll uops s) fun t => .next t.dropWork.succeed

/-- The micro-operations CALIBRATE runs, in order (R238). -/
def calibrateUops : List (State ν → Answer (State ν)) :=
  [execFrameBuild A, execHpf A, execAnalyze A, execNoiseUpdate A]

/-- The micro-operations PROCESS runs, in order (R240). -/
def processUops : List (State ν → Answer (State ν)) :=
  [execFrameBuild A, execHpf A, execAnalyze A, execNoiseUpdate A, execGain A, execSynth A, execOlaEmit A]

/-- CALIBRATE (R237 to R239). -/
def execCalibrate (len : BitVec 16) (s : State ν) : Answer (State ν) :=
  match s.streamFailure len 0x02 with
  | some (e, info) => .next (s.raise e info)
  | none => runCommandUops (calibrateUops A) s

/-- PROCESS (R237, R240, R241). -/
def execProcess (len : BitVec 16) (s : State ν) : Answer (State ν) :=
  match s.streamFailure len 0x03 with
  | some (e, info) => .next (s.raise e info)
  | none => runCommandUops (processUops A) s

/-! ## The command a write to CMD carries -/

/-- Execute the command a word encodes, or raise the protocol error of a word that encodes none (R104, R230). The
decoder of format CMD answers only the five commands; the other arms are there because it answers an `Instr`. -/
def runWord (w : Word) (s : State ν) : Answer (State ν) :=
  match decodeCmd w with
  | .ok .nop => execNop s
  | .ok .configure => execConfigure A s
  | .ok (.calibrate len) => execCalibrate A len s
  | .ok (.process len) => execProcess A len s
  | .ok .destroy => execDestroy s
  | .ok _ => .next (s.raise .opcode w)
  | .error (.field _) => .next (s.raise .field w)
  | .error _ => .next (s.raise .opcode w)

end Generic

/-- NOP (R232). -/
def execNop (s : State) : Answer State := Generic.execNop s

/-- CONFIGURE (R234 to R236). -/
def execConfigure (s : State) : Answer State := Generic.execConfigure exactArith s

/-- CALIBRATE (R237 to R239). -/
def execCalibrate (len : BitVec 16) (s : State) : Answer State := Generic.execCalibrate exactArith len s

/-- PROCESS (R237, R240, R241). -/
def execProcess (len : BitVec 16) (s : State) : Answer State := Generic.execProcess exactArith len s

/-- DESTROY (R244). -/
def execDestroy (s : State) : Answer State := Generic.execDestroy s

end Sys2Proof.Machine
end

