-- ==== Sys2Proof/Machine/Bus.lean ====
section
/-! DEFINITION. The bus transactions RD and WR: spec/46_commands.md R245, R246, spec/20_memory.md R70 to R81. -/

namespace Sys2Proof.Machine

/-- The identification word, "SSD1" (R41). -/
def idWord : Word := 0x53534431

/-- CAP: NMAX in bits 15 to 0, SMAX in bits 19 to 16, HPF_REINIT in bit 20, zeros above (R41). -/
def capWord {ν : Type} (b : Build ν) : Word :=
  (0 : BitVec 11) ++ BitVec.ofBool b.hpfReinit ++ BitVec.ofNat 4 b.smax ++ BitVec.ofNat 16 b.nmax

/-- The response of a read (R70). -/
def readResponse : Option Word → Response
  | some w => .readOk w
  | none => .err

namespace Generic

variable {ν : Type} (A : Arith ν)

/-- HOP_LEN: H when CONFIGURED, else 0 (R50). -/
def State.hopLen (s : State ν) : Word := if s.mode = .configured then BitVec.ofNat 32 s.H else 0

/-- NBINS: K when CONFIGURED, else 0 (R50). -/
def State.nbins (s : State ν) : Word := if s.mode = .configured then BitVec.ofNat 32 s.K else 0

/-- A window read: the container of element i of an array that is readable and has at least i + 1 mapped elements
(R76, R77, R81). The number of mapped elements is the array's length in the current configuration. -/
def readElement (readable : Bool) (len : Nat) (a : List ν) (i : Nat) : Option Word :=
  if readable && decide (i < len) then some (A.word (a.getD i A.zero)) else none

/-- One of the two values of a section's state. -/
def statePart (z : SectionState ν) (c : Nat) : ν := if c = 0 then z.1 else z.2

/-- A read of HPZ or HPZI: sections from S on read 0 (R60). -/
def readStatePart (readable : Bool) (sections : Nat) (a : List (SectionState ν)) (sec c : Nat) : Option Word :=
  if readable then
    some (if sec < sections then A.word (statePart (a.getD sec (restZero A)) c) else 0)
  else none

/-- The word a read answers; none is the ERR response (R78, R245). -/
def State.readLoc (s : State ν) : Loc → Option Word
  | .id => some idWord
  | .cap => some (capWord s.build)
  | .cmd => some 0
  | .status => some s.status
  | .errCode => some s.errCode
  | .errInfo => some s.errInfo
  | .hopLen => some s.hopLen
  | .nbins => some s.nbins
  | .cfg r => some (s.cfg.get r)
  | .coef sec r => some (s.cfg.getCoef sec r)
  | .inWord i => if i < s.build.hmax then some (s.inWord i) else none
  | .out i => readElement A s.outReadable s.H s.out i
  | .win i => readElement A s.arraysReadable s.N s.win i
  | .tail i => readElement A s.arraysReadable (s.N - s.H) s.tail i
  | .ola i => readElement A s.arraysReadable s.N s.ola i
  | .noise i => readElement A s.arraysReadable s.K s.noise i
  | .pgain i => readElement A s.pgainReadable s.K s.pgain i
  | .hpz sec c => readStatePart A s.filterReadable s.cfg.sections s.hpz sec c
  | .hpzi sec c => readStatePart A s.filterReadable s.cfg.sections s.hpzi sec c
  | .unmapped => none

/-- RD (R245): no state changes but the response. -/
def execRd (addr : Addr) (s : State ν) : Answer (State ν) := .next (s.respond (readResponse (s.readLoc A (s.locOf addr))))

/-- A write of a configuration register: stored unchecked while UNCONFIGURED, ERR while CONFIGURED (R51). -/
def State.writeConfig (s : State ν) (c : ConfigRegs) : State ν :=
  if s.mode = .configured then s.respond .err else { s with cfg := c, response := .writeOk }

/-- A write of an IN word: stored unchecked in either mode (R61, R246). -/
def State.writeIn (s : State ν) (i : Nat) (w : Word) : State ν :=
  if i < s.build.hmax then
    { s with inBuf := Memory.writeWord s.inBuf (inBase + 4 * i) w, response := .writeOk }
  else s.respond .err

/-- A write to a named location (R78, R246). -/
def State.writeLoc (s : State ν) (w : Word) : Loc → Answer (State ν)
  | .cmd => runWord A w s
  | .status => .next ((s.writeStatus w).respond .writeOk)
  | .cfg r => .next (s.writeConfig (s.cfg.set w r))
  | .coef sec r => .next (s.writeConfig (s.cfg.setCoef sec r w))
  | .inWord i => .next (s.writeIn i w)
  | .id => .next (s.respond .err)
  | .cap => .next (s.respond .err)
  | .errCode => .next (s.respond .err)
  | .errInfo => .next (s.respond .err)
  | .hopLen => .next (s.respond .err)
  | .nbins => .next (s.respond .err)
  | .out _ => .next (s.respond .err)
  | .win _ => .next (s.respond .err)
  | .tail _ => .next (s.respond .err)
  | .ola _ => .next (s.respond .err)
  | .noise _ => .next (s.respond .err)
  | .pgain _ => .next (s.respond .err)
  | .hpz _ _ => .next (s.respond .err)
  | .hpzi _ _ => .next (s.respond .err)
  | .unmapped => .next (s.respond .err)

/-- WR (R246). -/
def execWr (addr : Addr) (data : Word) (s : State ν) : Answer (State ν) := s.writeLoc A data (s.locOf addr)

end Generic

/-- RD (R245). -/
def execRd (addr : Addr) (s : State) : Answer State := Generic.execRd exactArith addr s

/-- WR (R246). -/
def execWr (addr : Addr) (data : Word) (s : State) : Answer State := Generic.execWr exactArith addr data s

end Sys2Proof.Machine
end

