-- ==== Sys2Proof/Machine/Dispatch.lean ====
section
/-! DEFINITION. One arm per constructor of Instr: spec/opcode_table.json. -/

namespace Sys2Proof.Machine

def exec (i : Instr) (s : State) : Host.Outcome State Fault Refusal :=
  match i with
  | .nop => Sys2Proof.Machine.execNop s
  | .configure => Sys2Proof.Machine.execConfigure s
  | .calibrate len => Sys2Proof.Machine.execCalibrate len s
  | .process len => Sys2Proof.Machine.execProcess len s
  | .destroy => Sys2Proof.Machine.execDestroy s
  | .rd addr => Sys2Proof.Machine.execRd addr s
  | .wr addr data => Sys2Proof.Machine.execWr addr data s
  | .wingen => Sys2Proof.Machine.execWingen s
  | .hpfSetup => Sys2Proof.Machine.execHpfSetup s
  | .frameBuild => Sys2Proof.Machine.execFrameBuild s
  | .hpf => Sys2Proof.Machine.execHpf s
  | .analyze => Sys2Proof.Machine.execAnalyze s
  | .noiseUpdate => Sys2Proof.Machine.execNoiseUpdate s
  | .gain => Sys2Proof.Machine.execGain s
  | .synth => Sys2Proof.Machine.execSynth s
  | .olaEmit => Sys2Proof.Machine.execOlaEmit s

end Sys2Proof.Machine
end

