-- ==== Sys2Proof/Machine/Fetch.lean ====
section
/-! DEFINITION. What a step executes next: the sequencer's micro-operation, or else the host's next event
(spec/30_encoding.md R106, spec/20_memory.md R83; logs 6, 7, 12). -/

namespace Sys2Proof.Machine

namespace Generic

variable {ν : Type}

/-- What is there to do, with the state from which it is done. -/
inductive Fetched (ν : Type) where
  /-- Nothing: the sequencer is idle and the host does nothing. -/
  | idle
  /-- The reset input is asserted. -/
  | hardReset (s : State ν)
  /-- Something to decode and execute. -/
  | code (e : Encoding) (s : State ν)

/-- The first of the host's events, taken from the list. -/
def fetchEvent (s : State ν) : List HostEvent → Fetched ν
  | [] => .idle
  | .reset :: rest => .hardReset (s.hardReset rest)
  | .read addr size :: rest => .code (.bus 0 addr size 0) { s with pending := rest }
  | .write addr size data :: rest => .code (.bus 1 addr size data) { s with pending := rest }

/-- A selected micro-operation comes before the next transaction; the sequencer is idle after it. -/
def fetch (s : State ν) : Fetched ν :=
  if s.seq ≠ 0 then .code (.uop s.seq) { s with seq := 0 } else fetchEvent s s.pending

/-- What a step does with an encoding that spells no instruction: a transaction of another size or off a word boundary
gets the ERR response (R73, R78); an unused code is a fault (R106). No command word reaches a step undecoded: it is the
data of a write, and WR raises its error (R104). -/
def rejected (s : State ν) : DecodeError → Answer (State ν)
  | .busSize _ => .next (s.respond .err)
  | .busAlignment _ => .next (s.respond .err)
  | .uopCode code => .fault (.unusedUop code)
  | .opcode w => .next (s.raise .opcode w)
  | .field w => .next (s.raise .field w)

/-- Decode and execute. -/
def runEncoding (run : Instr → State ν → Answer (State ν)) (e : Encoding) (s : State ν) : Answer (State ν) :=
  match decode e with
  | .ok i => run i s
  | .error d => rejected s d

/-- One step of a machine whose instructions `run` executes: the selected micro-operation if there is one, else the host's
next event; nothing when there is neither (R7, R83, R302). -/
def stepWith (run : Instr → State ν → Answer (State ν)) (s : State ν) : Answer (State ν) :=
  match fetch s with
  | .idle => .next s
  | .hardReset t => .next t
  | .code e t => runEncoding run e t

/-- The state with an encoding placed where the next step finds it: a command word as the data of a write to CMD, a
transaction in front of the host's events, a micro-operation code in the sequencer. -/
def State.place (s : State ν) : Encoding → State ν
  | .cmd w => { s with seq := 0, pending := .write 0x00008 4 w :: s.pending }
  | .bus kind addr size data =>
    if kind = 0 then { s with seq := 0, pending := .read addr size :: s.pending }
    else { s with seq := 0, pending := .write addr size data :: s.pending }
  | .uop code => { s with seq := code }

end Generic

end Sys2Proof.Machine
end

