-- ==== Sys2Proof/Machine/Step.lean ====
section
/-! DEFINITION. One step of the machine: spec/00_scope.md R6, R7, spec/20_memory.md R83. -/

namespace Sys2Proof.Machine

/-- One step: the selected micro-operation if there is one, else the host's next event; nothing when there is neither
(R302). -/
def step (s : State) : Host.Outcome State Fault Refusal := Generic.stepWith exec s

/-- The state with a row's bits placed where the next step executes them (log 7, log 8). -/
def State.withFetchWord (s : State) (nbits w : Nat) : State :=
  match tableEncoding nbits w with
  | none => s
  | some e => s.place e

end Sys2Proof.Machine
end

