-- ==== Sys2Proof/Machine/AnyArith.lean ====
section
/-! DEFINITION. The machine of a block with any number type (spec/00_scope.md R16): the instructions and the step over an
arithmetic record. The host's machine (Machine/Dispatch.lean, Machine/Step.lean) is the one over `exactArith`. -/

namespace Sys2Proof.Machine.Generic

variable {ν : Type} (A : Arith ν)

/-- One arm per constructor of Instr, as in Machine/Dispatch.lean. -/
def exec (i : Instr) (s : State ν) : Answer (State ν) :=
  match i with
  | .nop => execNop s
  | .configure => execConfigure A s
  | .calibrate len => execCalibrate A len s
  | .process len => execProcess A len s
  | .destroy => execDestroy s
  | .rd addr => execRd A addr s
  | .wr addr data => execWr A addr data s
  | .wingen => execWingen A s
  | .hpfSetup => execHpfSetup A s
  | .frameBuild => execFrameBuild A s
  | .hpf => execHpf A s
  | .analyze => execAnalyze A s
  | .noiseUpdate => execNoiseUpdate A s
  | .gain => execGain A s
  | .synth => execSynth A s
  | .olaEmit => execOlaEmit A s

/-- One step. -/
def step (s : State ν) : Answer (State ν) := stepWith (exec A) s

/-- n steps; a fault or a refusal ends the run. -/
def run : Nat → State ν → Answer (State ν)
  | 0, s => .next s
  | n + 1, s => andThen (step A s) (run n)

end Sys2Proof.Machine.Generic
end

