-- ==== Sys2Proof/Machine/Denote.lean ====
section
/-! DEFINITION. What real number an exact number stands for, and the machine over the real numbers themselves: the
reference semantics of spec/00_scope.md R16 as the spec writes it. No step of the host's machine uses this file; the
statements about the reference semantics do. -/

namespace Sys2Proof.Machine

/-- One part of the unit complex number in the direction of (x, y), with the value d for (0, 0) (R186). -/
noncomputable def unitPart (part x y d : ℝ) : ℝ := if x = 0 ∧ y = 0 then d else part / √(x ^ 2 + y ^ 2)

/-- The real number an exact number stands for. -/
noncomputable def Exact.val : Exact → ℝ
  | .rat q => (q : ℝ)
  | .sum a b => a.val + b.val
  | .diff a b => a.val - b.val
  | .prod a b => a.val * b.val
  | .quot a b => a.val / b.val
  | .root a => √a.val
  | .cosTurn q => Real.cos (2 * Real.pi * q)
  | .larger a b => Max.max a.val b.val
  | .unitRe x y => unitPart x.val x.val y.val 1
  | .unitIm x y => unitPart y.val x.val y.val 0

/-- The complex number a pair stands for. -/
noncomputable def Cplx.val (z : Cplx Exact) : ℂ := ⟨z.re.val, z.im.val⟩

/-- Element i of an array of exact numbers as a real number, and 0 past its end. -/
noncomputable def valAt (a : List Exact) (i : Nat) : ℝ := (a.getD i (.rat 0)).val

/-- Element i of an array of complex numbers, and 0 past its end. -/
noncomputable def cvalAt (a : List (Cplx Exact)) (i : Nat) : ℂ := (a.getD i ⟨.rat 0, .rat 0⟩).val

/-- The two values of a section's state as real numbers, and 0 past the end of the array. -/
noncomputable def stateAt (a : List (Exact × Exact)) (sec : Nat) : ℝ × ℝ :=
  ((a.getD sec (.rat 0, .rat 0)).1.val, (a.getD sec (.rat 0, .rat 0)).2.val)

/-- The container w is the one R81 names for the real number v: infinity of v's sign from 2^128 - 2^103 on, and
otherwise a finite container whose number is nearest to v, with an even fraction where another number is as near. -/
def IsContainerOf (v : ℝ) (w : Word) : Prop :=
  if 2 ^ 128 - 2 ^ 103 ≤ |v| then w = if v < 0 then 0xFF800000 else 0x7F800000
  else ∃ q : ℚ, num? w = some q ∧
    ∀ (w' : Word) (q' : ℚ), num? w' = some q' →
      |v - q| ≤ |v - q'| ∧ (|v - q| = |v - q'| → q' ≠ q → fractionField w % 2 = 0)

/-! ## The machine over the real numbers -/

/-- word(v) for a real number (R81); a number that rounds to zero has the container 0x00000000 (log 11). -/
noncomputable def realWord (v : ℝ) : Word := Classical.epsilon fun w => IsContainerOf v w ∧ w ≠ 0x80000000

open Classical in
/-- The operations on real numbers (R16, R20). -/
noncomputable def realElementary : Elementary ℝ where
  ofRat q := (q : ℝ)
  add a b := a + b
  sub a b := a - b
  mul a b := a * b
  div a b := a / b
  max := Max.max
  sqrt := Real.sqrt
  abs a := |a|
  cos q := Real.cos (2 * Real.pi * (q : ℝ))
  less a b := decide (a < b)
  num? w := (num? w).map fun q : ℚ => (q : ℝ)
  word := realWord

/-- The arithmetic of the reference semantics, NUM = ℝ, as the rules write it. -/
noncomputable def realArith : Arith ℝ where
  toElementary := realElementary
  rdft := rdft realElementary
  irdft := irdft realElementary
  phase := realElementary.unit

/-! ## A state with its numbers replaced -/

/-- A complex number with its parts replaced. -/
def Cplx.map {ν μ : Type} (f : ν → μ) (z : Cplx ν) : Cplx μ := ⟨f z.re, f z.im⟩

namespace Generic

variable {ν μ : Type} (f : ν → μ)

/-- The working vectors with every number replaced. -/
def Work.map (w : Work ν) : Work μ where
  chunk := w.chunk.map f
  frame := w.frame.map f
  filt := w.filt.map f
  x := w.x.map (Cplx.map f)
  mag := w.mag.map f
  phs := w.phs.map (Cplx.map f)
  clean := w.clean.map f
  ginst := w.ginst.map f
  g := w.g.map f
  y := w.y.map (Cplx.map f)
  syn := w.syn.map f

/-- The parameters with every number replaced. -/
def mapBuild (b : Build ν) : Build μ where
  nmax := b.nmax
  smax := b.smax
  epsWin := f b.epsWin
  epsGain := f b.epsGain
  noiseInit := f b.noiseInit
  hpfReinit := b.hpfReinit

/-- The state with every number replaced. -/
def State.map (s : State ν) : State μ where
  mode := s.mode
  gainValid := s.gainValid
  outValid := s.outValid
  hpfEn := s.hpfEn
  hpfPrimed := s.hpfPrimed
  err := s.err
  errs := s.errs
  errCode := s.errCode
  errInfo := s.errInfo
  cfg := s.cfg
  win := s.win.map f
  tail := s.tail.map f
  ola := s.ola.map f
  noise := s.noise.map f
  pgain := s.pgain.map f
  hpz := s.hpz.map (Prod.map f f)
  hpzi := s.hpzi.map (Prod.map f f)
  inBuf := s.inBuf
  out := s.out.map f
  work := s.work.map f
  build := mapBuild f s.build
  seq := s.seq
  pending := s.pending
  response := s.response
  resets := s.resets

/-- An answer with every number of its next state replaced. -/
def mapAnswer : Answer (State ν) → Answer (State μ)
  | .next s => .next (s.map f)
  | .fault r => .fault r
  | .refused r => .refused r

end Generic

/-- The state of the reference semantics that a state of the machine stands for. -/
noncomputable def Generic.State.real (s : Machine.State) : Generic.State ℝ := State.map Exact.val s

end Sys2Proof.Machine

namespace Sys2Proof

/-- The parameters the spec allows (R12 to R14), where the constants are exact numbers. -/
abbrev Build.Legal (b : Build Machine.Exact) : Prop := b.Allowed fun v => 0 < v.val

end Sys2Proof
end

