-- ==== Sys2Proof/Safety.lean ====
section
/-! DEFINITION. What holds of the machine between host events (the lengths, flags and registers that spec/10_state.md and
spec/46_commands.md say belong together), and the address map as spec/20_memory.md writes it. The statements use these as
premises, invariants and conclusions. -/

namespace Sys2Proof.Machine

open Generic (filterOn windowOf restStates restZero)

/-- What holds while CONFIGURED. -/
structure Generic.State.Configured (s : Machine.State) : Prop where
  /-- The locked registers are a configuration that CONFIGURE accepts (R51, R235). -/
  accepted : s.configFailure exactArith = none
  /-- HPF_EN is what the cutoff says (R37). -/
  filterTag : s.hpfEn = filterOn exactArith s.cfg
  /-- WIN is the window WINGEN wrote (R131, R135). -/
  win : s.win = windowOf exactArith s.build.epsWin s.N
  /-- TAIL has N − H elements (R56). -/
  tail : s.tail.length = s.N - s.H
  /-- OLA has N elements (R57). -/
  ola : s.ola.length = s.N
  /-- NOISE has K elements (R58). -/
  noise : s.noise.length = s.K
  /-- PGAIN has K elements while it is defined (R35, R59). -/
  pgain : s.gainValid = true → s.pgain.length = s.K
  /-- OUT has H elements while it is defined (R36, R62). -/
  out : s.outValid = true → s.out.length = s.H
  /-- HPZ has SMAX sections while the filter is enabled (R60). -/
  hpz : s.hpfEn = true → s.hpz.length = s.build.smax
  /-- HPZI is what HPF_SETUP wrote while the filter is enabled (R60, R142). -/
  hpzi : s.hpfEn = true →
    s.hpzi = restStates exactArith (s.biquads exactArith) (.rat 1) ++
      List.replicate (s.build.smax - s.cfg.sections) (restZero exactArith)
  /-- Every byte of IN has been written since reset, so no command consumes an unspecified one (R66, 93 U1). -/
  inWritten : ∀ i < 4 * s.build.hmax, (Memory.read? s.inBuf (inBase + i)).isSome = true

/-- What holds between host events. -/
structure Generic.State.Inv (s : Machine.State) : Prop where
  /-- The implementation parameters are allowed ones (R12 to R14). -/
  build : s.build.Legal
  /-- There is one coefficient set per section (R52). -/
  coef : s.cfg.coef.length = s.build.smax
  /-- The input buffer has its canonical form. -/
  memory : Memory.wf s.inBuf
  /-- The input buffer lies in the IN window (R61, R75). -/
  window : ∀ c ∈ s.inBuf, inBase ≤ c.1 ∧ c.1 < inBase + 4 * s.build.hmax
  /-- No micro-operation is selected: commands are atomic (R106, R230). -/
  idle : s.seq = 0
  /-- No working vector outlives a command (R31). -/
  noWork : s.work = .empty
  /-- ERR is 1 exactly when ERR_CODE reports an error, and ERR_INFO is 0 otherwise (R39, R54). -/
  result : (s.err = true ↔ s.errCode ≠ 0) ∧ (s.err = false → s.errInfo = 0)
  /-- While UNCONFIGURED the flags of the Suppressor are 0 (R35 to R38). -/
  unconfigured : s.mode = .unconfigured →
    s.gainValid = false ∧ s.outValid = false ∧ s.hpfEn = false ∧ s.hpfPrimed = false
  /-- HPF_PRIMED is set only with the filter enabled (R38). -/
  primed : s.hpfPrimed = true → s.hpfEn = true
  /-- What holds while CONFIGURED. -/
  configured : s.mode = .configured → s.Configured

/-- The estimates and gains are not negative while they are defined (R203, R218). -/
structure Generic.State.NonNegative (s : Machine.State) : Prop where
  noise : s.mode = .configured → ∀ x ∈ s.noise, 0 ≤ x.val
  pgain : s.mode = .configured → s.gainValid = true → ∀ x ∈ s.pgain, 0 ≤ x.val

/-! ## Agreement with the reference semantics up to a tolerance, for blocks of any number type

R16 says only "up to numerical tolerance". What is compared, and how, is the model's choice throughout this section: DESIGN
CHOICE, log 19. -/

/-- The state of a block right after reset, with the events the host will cause. -/
def Generic.loaded {ν : Type} (b : Build ν) (events : List HostEvent) : Generic.State ν :=
  { Generic.State.resetOf b with pending := events }

/-- Arrays of one length whose numbers lie no further than TOL from the reference's (R16). That the tolerance is an absolute
bound on each element is the model's choice: DESIGN CHOICE, log 19. -/
def CloseArrays {ν : Type} (value : ν → ℝ) (tol : ℝ) : List ν → List ℝ → Prop :=
  List.Forall₂ fun x y => |value x - y| ≤ tol

/-- A block's state agrees with the reference's: the same registers, flags and input, and every number of the stored arrays
up to the tolerance TOL (R16). R16 does not say what is compared. DESIGN CHOICE, log 19: the flags, the result and
configuration registers and the input are asked to be equal, each number of each stored array is held to the absolute bound
TOL, readable or not, and the bus response (the word read) and the working vectors are not compared. -/
structure Generic.State.Agrees {ν : Type} (value : ν → ℝ) (tol : ℝ) (s : Generic.State ν) (t : Generic.State ℝ) : Prop where
  flags : s.mode = t.mode ∧ s.gainValid = t.gainValid ∧ s.outValid = t.outValid ∧ s.hpfEn = t.hpfEn ∧ s.hpfPrimed = t.hpfPrimed
  result : s.err = t.err ∧ s.errs = t.errs ∧ s.errCode = t.errCode ∧ s.errInfo = t.errInfo
  cfg : s.cfg = t.cfg
  input : s.inBuf = t.inBuf ∧ s.resets = t.resets
  win : CloseArrays value tol s.win t.win
  tail : CloseArrays value tol s.tail t.tail
  ola : CloseArrays value tol s.ola t.ola
  noise : CloseArrays value tol s.noise t.noise
  pgain : CloseArrays value tol s.pgain t.pgain
  out : CloseArrays value tol s.out t.out
  hpz : List.Forall₂ (fun x y => |value x.1 - y.1| ≤ tol ∧ |value x.2 - y.2| ≤ tol) s.hpz t.hpz
  hpzi : List.Forall₂ (fun x y => |value x.1 - y.1| ≤ tol ∧ |value x.2 - y.2| ≤ tol) s.hpzi t.hpzi

/-- Two answers agree: next states that agree, or the same stop (DESIGN CHOICE, log 19). -/
def AnswersAgree {ν : Type} (value : ν → ℝ) (tol : ℝ) : Answer (Generic.State ν) → Answer (Generic.State ℝ) → Prop
  | .next s, .next t => s.Agrees value tol t
  | .fault f, .fault g => f = g
  | .refused r, .refused q => r = q
  | _, _ => False

/-- A block with arithmetic A agrees with the reference semantics up to the tolerance TOL while the host causes the given
events: "required to agree with the reference semantics only \"up to numerical tolerance\"" (R16; 93 U4, U14, U15). TOL has
no default. That agreement is asked after every number of steps, and from a block whose constants have exactly the
reference's values, is the model's choice (DESIGN CHOICE, log 19). -/
def ConformsOn {ν : Type} (A : Arith ν) (value : ν → ℝ) (tol : ℝ) (b : Build ν) (events : List HostEvent) : Prop :=
  ∀ n, AnswersAgree value tol (Generic.run A n (Generic.loaded b events))
    (Generic.run realArith n (Generic.loaded (Generic.mapBuild value b) events))

/-! ## The high-pass coefficients as real numbers, for the statements about the filter -/

/-- A coefficient of section `sec`: num of its register (R52). -/
noncomputable def ConfigRegs.coefAt (c : ConfigRegs) (sec : Nat) (r : CoefReg) : ℝ := (numOf (c.getCoef sec r) : ℝ)

/-- The gain of section `sec` for a constant input, Gs (R142). -/
noncomputable def ConfigRegs.dcGainAt (c : ConfigRegs) (sec : Nat) : ℝ :=
  (c.coefAt sec .b0 + c.coefAt sec .b1 + c.coefAt sec .b2) / (1 + c.coefAt sec .a1 + c.coefAt sec .a2)

/-- The constant input u of section `sec` when the cascade's input is the constant 1 (R142). -/
noncomputable def ConfigRegs.restInput (c : ConfigRegs) (sec : Nat) : ℝ := ∏ r ∈ Finset.range sec, c.dcGainAt r

/-! ## The address map in the spec's own words, for the statements about bus transactions -/

/-- The byte offset of a configuration register (R40). -/
def CfgReg.offset : CfgReg → Nat
  | .sampleRate => 0x20
  | .frameLen => 0x24
  | .beta => 0x28
  | .floor => 0x2C
  | .alphaN => 0x30
  | .alphaG => 0x34
  | .hpCutoff => 0x38
  | .hpOrder => 0x3C

/-- The number c of a coefficient (R235 check 11). -/
def CoefReg.number : CoefReg → Nat
  | .b0 => 0
  | .b1 => 1
  | .b2 => 2
  | .a1 => 3
  | .a2 => 4

/-- The byte offset of a coefficient register (R52). -/
def coefOffset (sec : Nat) (r : CoefReg) : Nat := 0x40 + 0x20 * sec + 4 * r.number

/-- The byte offset of a register marked RW-U (R40, R52). -/
def RwuOffset (smax a : Nat) : Prop :=
  (∃ r : CfgReg, a = r.offset) ∨ (∃ sec < smax, ∃ r : CoefReg, a = coefOffset sec r)

/-- A word-aligned byte offset that a read answers OK: the map of R75 with the current lengths (R76) and the
availability of the windows (R77). -/
def Generic.State.ReadMapped (s : Machine.State) (a : Nat) : Prop :=
  a < 0x40 ∨ RwuOffset s.build.smax a ∨
  (∃ i < s.build.hmax, a = 0x4000 + 4 * i) ∨
  (s.mode = .configured ∧
    ((s.outValid = true ∧ ∃ i < s.H, a = 0x8000 + 4 * i) ∨
     (∃ i < s.N, a = 0xC000 + 4 * i) ∨
     (∃ i < s.N - s.H, a = 0x10000 + 4 * i) ∨
     (∃ i < s.N, a = 0x14000 + 4 * i) ∨
     (∃ i < s.K, a = 0x18000 + 4 * i) ∨
     (s.gainValid = true ∧ ∃ i < s.K, a = 0x1C000 + 4 * i) ∨
     (s.hpfEn = true ∧ ∃ sec < s.build.smax, ∃ c < 2, a = 0x20000 + 8 * sec + 4 * c) ∨
     (s.hpfEn = true ∧ ∃ sec < s.build.smax, ∃ c < 2, a = 0x20100 + 8 * sec + 4 * c)))

/-- A word-aligned byte offset that a write answers OK: CMD, STATUS, the RW-U registers while UNCONFIGURED, IN (R78). -/
def Generic.State.WriteMapped (s : Machine.State) (a : Nat) : Prop :=
  a = 0x8 ∨ a = 0xC ∨ (s.mode = .unconfigured ∧ RwuOffset s.build.smax a) ∨
  (∃ i < s.build.hmax, a = 0x4000 + 4 * i)

end Sys2Proof.Machine
end

