-- ==== Sys2Proof/Certificates/Slice0/Obligations.lean ====
section
/-! DEFINITION. The statements for the provers. "t = (s with f := t.f)" in a statement is its frame: t and s agree on every
field of the state but those named. A byte of memory is read through `State.byteAt`. A number of the machine is an exact
number (log 1), and `val` is the real number it stands for. -/

open Sys2Proof Sys2Proof.Machine

/-! ## Encoding -/

/-- Decoding the encoding of a well-formed instruction gives it back, in the format it is written in (R100, R105, R106). -/
def Obligations.DecodeOfEncode : Prop :=
  ∀ i : Instr, i.wf = true → decode (encode i) = .ok i ∧ (encode i).format = i.format

/-- What is decoded is well formed and is spelled by its own encoding alone, but for the data lines of a read, which carry
nothing (R104, R105, R106). -/
def Obligations.EncodeOfDecode : Prop :=
  ∀ (e : Encoding) (i : Instr), decode e = .ok i →
    i.wf = true ∧ (encode i = e ∨ ∃ (addr : Addr) (data : Word), i = .rd addr ∧ e = .bus 0 addr 4 data)

/-- Words written out from the tables of R101, R102, R105 and R106 decode to the instructions they stand for. -/
def Obligations.SampleEncodings : Prop :=
  decode (.cmd 0x00000000) = .ok .nop ∧ decode (.cmd 0x00000001) = .ok .configure ∧
  decode (.cmd 0x0000A002) = .ok (.calibrate 160) ∧ decode (.cmd 0x0000A003) = .ok (.process 160) ∧
  decode (.cmd 0x00000004) = .ok .destroy ∧ decode (.cmd 0x00000005) = .error (.opcode 0x00000005) ∧
  decode (.cmd 0x00000100) = .error (.field 0x00000100) ∧ decode (.cmd 0x0100A003) = .error (.field 0x0100A003) ∧
  decode (.bus 0 0x0000C 4 0) = .ok (.rd 0x0000C) ∧ decode (.bus 1 0x04004 4 0x3F800000) = .ok (.wr 0x04004 0x3F800000) ∧
  decode (.bus 0 0x0000C 2 0) = .error (.busSize 2) ∧ decode (.bus 1 0x0000E 4 0) = .error (.busAlignment 0x0000E) ∧
  decode (.uop 0x1) = .ok .wingen ∧ decode (.uop 0x5) = .ok .analyze ∧ decode (.uop 0x9) = .ok .olaEmit ∧
  decode (.uop 0xA) = .error (.uopCode 0xA)

/-- R104: every word written to CMD either runs the command of its OP field or raises one of the two protocol errors, the
opcode being looked at first, then the fields; the error changes ERR, ERRS, ERR_CODE and ERR_INFO alone. The fields are
written as numbers: OP is w mod 256, LEN the next 16 bits, RSV the top 8. -/
def Obligations.EveryCommandWord : Prop :=
  ∀ (s : State) (w : Word),
    let op := w.toNat % 2 ^ 8
    let len := w.toNat / 2 ^ 8 % 2 ^ 16
    let rsv := w.toNat / 2 ^ 24
    let raised (code : Word) :=
      Host.Outcome.next { s with err := true, errs := true, errCode := code, errInfo := w, response := .writeOk }
    (4 < op → exec (.wr 0x8 w) s = raised 0x01) ∧
    (op ≤ 4 → (rsv ≠ 0 ∨ (op ≠ 2 ∧ op ≠ 3 ∧ len ≠ 0)) → exec (.wr 0x8 w) s = raised 0x02) ∧
    (op = 0 → rsv = 0 → len = 0 → exec (.wr 0x8 w) s = exec .nop s) ∧
    (op = 1 → rsv = 0 → len = 0 → exec (.wr 0x8 w) s = exec .configure s) ∧
    (op = 2 → rsv = 0 → exec (.wr 0x8 w) s = exec (.calibrate (BitVec.ofNat 16 len)) s) ∧
    (op = 3 → rsv = 0 → exec (.wr 0x8 w) s = exec (.process (BitVec.ofNat 16 len)) s) ∧
    (op = 4 → rsv = 0 → len = 0 → exec (.wr 0x8 w) s = exec .destroy s)

/-! ## The step -/

/-- A step runs the decoded instruction: the selected micro-operation, with the sequencer idle afterwards, or else the
host's next transaction, taken from the list of events (R7, R83, R106). That a micro-operation can be selected on its own and
then comes before any transaction is the model's choice (log 6), and so is the list of the host's events (log 7). -/
def Obligations.StepRunsDecoded : Prop :=
  ∀ (s : State) (i : Instr) (rest : List HostEvent) (addr : Addr) (size : Nat) (data : Word),
    (s.seq ≠ 0 → decode (.uop s.seq) = .ok i → step s = exec i { s with seq := 0 }) ∧
    (s.seq = 0 → s.pending = .read addr size :: rest → decode (.bus 0 addr size 0) = .ok i →
      step s = exec i { s with pending := rest }) ∧
    (s.seq = 0 → s.pending = .write addr size data :: rest → decode (.bus 1 addr size data) = .ok i →
      step s = exec i { s with pending := rest })

/-- R302: after reset, and whenever no transaction is there and no micro-operation is selected, the block does nothing. That
there is nothing to do right after reset is how the model starts (log 6, log 7). -/
def Obligations.IdleStep : Prop :=
  (∀ s : State, s.seq = 0 → s.pending = [] → step s = .next s) ∧
  (∀ b : Build Exact, step (Generic.State.resetOf b) = .next (Generic.State.resetOf b)) ∧
  State.reset = Generic.State.resetOf Build.default

/-- R73: a transaction of another size than 4, or off a word boundary, gets ERR and has no effect. -/
def Obligations.SizeAndAlignment : Prop :=
  ∀ (s : State) (rest : List HostEvent) (addr : Addr) (size : Nat) (data : Word),
    s.seq = 0 → (size ≠ 4 ∨ addr.toNat % 4 ≠ 0) →
      (s.pending = .read addr size :: rest → step s = .next { s with pending := rest, response := .err }) ∧
      (s.pending = .write addr size data :: rest → step s = .next { s with pending := rest, response := .err })

/-- An unused micro-operation code stops the machine (log 6: the model's choice for the codes of R106 that are "never
selected"). -/
def Obligations.UnusedCodeFaults : Prop :=
  ∀ s : State, 10 ≤ s.seq.toNat → step s = .fault (.unusedUop s.seq)

/-- Hardware reset as a host event: every register has its reset value, the parameters and the host's later events stay, and
IN is free again (R65, R300; log 3, log 7, log 12). -/
def Obligations.HardwareReset : Prop :=
  ∀ (s : State) (rest : List HostEvent), s.seq = 0 → s.pending = .reset :: rest →
    ∃ t, step s = .next t ∧ t.mode = .unconfigured ∧ t.status = 0 ∧ t.errCode = 0 ∧ t.errInfo = 0 ∧
      t.hopLen = 0 ∧ t.nbins = 0 ∧ (∀ r : CfgReg, t.cfg.get r = if r = .hpOrder then 2 else 0) ∧
      (∀ (sec : Nat) (r : CoefReg), t.cfg.getCoef sec r = 0) ∧ t.cfg.coef.length = s.build.smax ∧
      t.build = s.build ∧ t.pending = rest ∧ t.resets = s.resets + 1 ∧
      ∀ a, t.byteAt a = Config.resetByte t.resets a

/-- What the host reads right after reset, for every choice of parameters and after any number of resets: the registers'
reset values, ID and CAP among them, an arbitrary value in IN (log 3), and ERR for every other window (R40, R41, R65). -/
def Obligations.ReadsAfterReset : Prop :=
  ∀ (b : Build Exact) (n : Nat), b.Legal →
    let s : State := { Generic.State.resetOf b with resets := n }
    let answers (a : Nat) (r : Response) := exec (.rd (BitVec.ofNat 18 a)) s = .next { s with response := r }
    s.mode = .unconfigured ∧ answers 0x00 (.readOk 0x53534431) ∧
    answers 0x04 (.readOk (BitVec.ofNat 32 (b.nmax + 2 ^ 16 * b.smax + 2 ^ 20 * (if b.hpfReinit then 1 else 0)))) ∧
    answers 0x08 (.readOk 0) ∧ answers 0x0C (.readOk 0) ∧
    answers 0x10 (.readOk 0) ∧ answers 0x14 (.readOk 0) ∧ answers 0x18 (.readOk 0) ∧ answers 0x1C (.readOk 0) ∧
    (∀ r : CfgReg, answers r.offset (.readOk (if r = .hpOrder then 2 else 0))) ∧
    (∀ sec < b.smax, ∀ r : CoefReg, answers (coefOffset sec r) (.readOk 0)) ∧
    (∀ i < b.hmax, answers (0x4000 + 4 * i)
      (.readOk (Config.resetByte n (0x4000 + 4 * i + 3) ++ Config.resetByte n (0x4000 + 4 * i + 2) ++
        Config.resetByte n (0x4000 + 4 * i + 1) ++ Config.resetByte n (0x4000 + 4 * i)))) ∧
    (∀ a, 0x8000 ≤ a → a < 0x40000 → answers a .err)

/-! ## Invariants of every step -/

/-- Every step keeps the invariant (R10, R33, R35 to R39, R51, R54 to R61, R76; log 5 and log 6 for the model's own fields). -/
def Obligations.StepKeepsInvariant : Prop :=
  ∀ s t : State, s.Inv → step s = .next t → t.Inv

/-- The state after reset has the invariant, whatever the parameters. Its parts about the model's own fields, the idle
sequencer and the empty working vectors, are the model's choice (log 5, log 6). -/
def Obligations.ResetHasInvariant : Prop :=
  ∀ b : Build Exact, b.Legal →
    (Generic.State.resetOf b).Inv ∧ (Generic.State.resetOf b).NonNegative

/-- NOISE and PGAIN stay not negative at every step, and NOISE stays positive where α_n is (R203, R218). -/
def Obligations.EstimatesStayNonNegative : Prop :=
  ∀ s t : State, s.Inv → s.NonNegative → step s = .next t →
    t.NonNegative ∧
    ((s.mode = .configured → 0 < numOf s.cfg.alphaN → ∀ x ∈ s.noise, 0 < x.val) →
      (t.mode = .configured → 0 < numOf t.cfg.alphaN → ∀ x ∈ t.noise, 0 < x.val))

/-- R33: the mode changes only by a CONFIGURE that succeeds, by DESTROY, and by hardware reset. -/
def Obligations.ModeTransitions : Prop :=
  ∀ s t : State, step s = .next t → t.mode ≠ s.mode →
    s.seq = 0 ∧ ∃ rest : List HostEvent,
      (s.mode = .unconfigured ∧ t.mode = .configured ∧ t.err = false ∧ s.pending = .write 0x8 4 0x00000001 :: rest) ∨
      (s.mode = .configured ∧ t.mode = .unconfigured ∧
        (s.pending = .write 0x8 4 0x00000004 :: rest ∨ s.pending = .reset :: rest))

/-- R35, R36, R216: a step that sets GAIN_VALID or OUT_VALID is a PROCESS that succeeds (or its own micro-operation run
alone, log 6), and one that clears either is a CONFIGURE that succeeds, DESTROY or hardware reset. -/
def Obligations.ValidFlagTransitions : Prop :=
  ∀ s t : State, step s = .next t →
    let commanded (w : Word) := s.seq = 0 ∧ t.err = false ∧ ∃ rest : List HostEvent, s.pending = .write 0x8 4 w :: rest
    let processed := s.mode = .configured ∧ commanded (BitVec.ofNat 32 (2 ^ 8 * s.H + 3))
    let cleared := (s.mode = .unconfigured ∧ commanded 0x00000001) ∨ commanded 0x00000004 ∨
      (s.seq = 0 ∧ ∃ rest, s.pending = .reset :: rest)
    (s.gainValid = false → t.gainValid = true → s.seq = 0x7 ∨ processed) ∧
    (s.outValid = false → t.outValid = true → s.seq = 0x9 ∨ processed) ∧
    (s.gainValid = true → t.gainValid = false → cleared) ∧
    (s.outValid = true → t.outValid = false → cleared)

/-- R241, R310: a defined OUT stays as it is until a PROCESS that succeeds overwrites it or a CONFIGURE that succeeds,
DESTROY or hardware reset invalidates it. -/
def Obligations.OutputStays : Prop :=
  ∀ s t : State, s.seq = 0 → s.outValid = true → step s = .next t →
    (t.outValid = true ∧ t.out = s.out) ∨
    (t.err = false ∧ ∃ (w : Word) (rest : List HostEvent), s.pending = .write 0x8 4 w :: rest ∧
      ((s.mode = .configured ∧ w = BitVec.ofNat 32 (2 ^ 8 * s.H + 3) ∧ t.outValid = true) ∨
       (s.mode = .unconfigured ∧ w = 0x00000001 ∧ t.outValid = false) ∨ (w = 0x00000004 ∧ t.outValid = false))) ∨
    (t.outValid = false ∧ ∃ rest, s.pending = .reset :: rest)

/-- R39, R279: ERRS is cleared only by writing 1 to bit 6 of STATUS, by DESTROY, or by hardware reset, and a step that sets
it is a command that failed. -/
def Obligations.StickyErrorFlag : Prop :=
  ∀ s t : State, step s = .next t →
    (s.errs = true → t.errs = false → s.seq = 0 ∧ ∃ rest : List HostEvent,
      (∃ data : Word, s.pending = .write 0xC 4 data :: rest ∧ data.getLsbD 6 = true) ∨
      s.pending = .write 0x8 4 0x00000004 :: rest ∨ s.pending = .reset :: rest) ∧
    (s.errs = false → t.errs = true → s.seq = 0 ∧ t.err = true ∧ t.errCode ≠ 0 ∧
      ∃ (w : Word) (rest : List HostEvent), s.pending = .write 0x8 4 w :: rest)

/-- R51: a configuration register changes only by a write to an RW-U register while UNCONFIGURED, or by hardware reset,
which restores the reset values; CONFIGURE, failed or not, and DESTROY keep them. -/
def Obligations.ConfigurationKept : Prop :=
  ∀ s t : State, step s = .next t → t.build = s.build ∧ (t.cfg ≠ s.cfg → s.seq = 0 ∧
    ((∃ (addr : Addr) (data : Word) (rest : List HostEvent), s.pending = .write addr 4 data :: rest ∧
        s.mode = .unconfigured ∧ RwuOffset s.build.smax addr.toNat) ∨
     (∃ rest, s.pending = .reset :: rest ∧ t.cfg = ConfigRegs.reset s.build.smax)))

/-- With the invariant, every step answers a next state, but for a CALIBRATE or PROCESS that has passed its checks and finds
a sample that is not finite: that one is refused (R80). -/
def Obligations.StepCompletes : Prop :=
  ∀ s : State, s.Inv → (∃ t, step s = .next t) ∨
    ∃ (w : Word) (rest : List HostEvent) (i : Nat), s.pending = .write 0x8 4 w :: rest ∧ s.mode = .configured ∧
      (w = BitVec.ofNat 32 (2 ^ 8 * s.H + 2) ∨ w = BitVec.ofNat 32 (2 ^ 8 * s.H + 3)) ∧
      i < s.H ∧ num? (s.inWord i) = none ∧ step s = .refused (.nonFiniteSample i)

/-! ## Bus transactions -/

/-- R78: the complete list of ERR responses. A transaction gets ERR exactly where its size or alignment is wrong or its
offset is not mapped for it, and then changes nothing; every other one gets OK. -/
def Obligations.ErrResponses : Prop :=
  ∀ (s : State) (rest : List HostEvent) (addr : Addr) (size : Nat) (data : Word), s.Inv →
    (s.pending = .read addr size :: rest →
      ∃ r, step s = .next { s with pending := rest, response := r } ∧
        (size = 4 ∧ addr.toNat % 4 = 0 ∧ s.ReadMapped addr.toNat → ∃ w, r = .readOk w) ∧
        (¬(size = 4 ∧ addr.toNat % 4 = 0 ∧ s.ReadMapped addr.toNat) → r = .err)) ∧
    (s.pending = .write addr size data :: rest →
      (size = 4 ∧ addr.toNat % 4 = 0 ∧ s.WriteMapped addr.toNat → ∀ t, step s = .next t → t.response = .writeOk) ∧
      (¬(size = 4 ∧ addr.toNat % 4 = 0 ∧ s.WriteMapped addr.toNat) →
        step s = .next { s with pending := rest, response := .err }))

/-- R41: ID and CAP, and that they cannot be written. -/
def Obligations.IdentificationRegisters : Prop :=
  ∀ (s : State) (data : Word), s.build.Legal →
    exec (.rd 0x0) s = .next { s with response := .readOk 0x53534431 } ∧
    (∃ w : Word, exec (.rd 0x4) s = .next { s with response := .readOk w } ∧
      w.toNat = s.build.nmax + 2 ^ 16 * s.build.smax + 2 ^ 20 * (if s.build.hpfReinit then 1 else 0) ∧
      (s.build = Build.default → w = 0x00110400)) ∧
    exec (.wr 0x0 data) s = .next { s with response := .err } ∧ exec (.wr 0x4 data) s = .next { s with response := .err }

/-- R34: the bits of STATUS; a read has no side effect, and a write affects bit 6 alone, which it clears by a 1. -/
def Obligations.StatusRegister : Prop :=
  (∀ s : State, ∃ w : Word, exec (.rd 0xC) s = .next { s with response := .readOk w } ∧
    (w.getLsbD 0 = true ↔ s.mode = .configured) ∧ w.getLsbD 1 = s.gainValid ∧ w.getLsbD 2 = s.outValid ∧
    w.getLsbD 3 = s.hpfEn ∧ w.getLsbD 4 = s.hpfPrimed ∧ w.getLsbD 5 = s.err ∧ w.getLsbD 6 = s.errs ∧
    ∀ i, 7 ≤ i → w.getLsbD i = false) ∧
  (∀ (s : State) (data : Word), exec (.wr 0xC data) s =
    .next { s with errs := if data.getLsbD 6 = true then false else s.errs, response := .writeOk }) ∧
  State.reset.status = 0x00000000

/-- R50 and R53: HOP_LEN and NBINS read H and K when CONFIGURED and 0 otherwise; a write to CMD executes the command its
word encodes, and a read of CMD returns 0. With them ERR_CODE and ERR_INFO, which read what they hold; but for CMD none of
the five can be written. -/
def Obligations.LengthCommandAndResultRegisters : Prop :=
  ∀ (s : State) (w : Word),
    (∃ h k : Word, exec (.rd 0x18) s = .next { s with response := .readOk h } ∧
      exec (.rd 0x1C) s = .next { s with response := .readOk k } ∧
      (s.mode = .configured → h.toNat = s.cfg.frameLen.toNat / 2 ∧ k.toNat = s.cfg.frameLen.toNat / 2 + 1) ∧
      (s.mode = .unconfigured → h = 0 ∧ k = 0)) ∧
    (∀ i : Instr, decode (.cmd w) = .ok i → exec (.wr 0x8 w) s = exec i s) ∧
    exec (.rd 0x8) s = .next { s with response := .readOk 0 } ∧
    exec (.rd 0x10) s = .next { s with response := .readOk s.errCode } ∧
    exec (.rd 0x14) s = .next { s with response := .readOk s.errInfo } ∧
    (∀ addr : Addr, addr = 0x10 ∨ addr = 0x14 ∨ addr = 0x18 ∨ addr = 0x1C →
      exec (.wr addr w) s = .next { s with response := .err })

/-- Writing an RW-U register: while CONFIGURED it gets ERR and changes nothing; while UNCONFIGURED it stores all 32 bits
unchecked, a read then returns them, and every other offset reads as before (R51, R246). -/
def Obligations.ConfigurationWrites : Prop :=
  ∀ (s : State) (addr : Addr) (data : Word), s.Inv → RwuOffset s.build.smax addr.toNat →
    (s.mode = .configured → exec (.wr addr data) s = .next { s with response := .err }) ∧
    (s.mode = .unconfigured → ∃ t, exec (.wr addr data) s = .next t ∧
      t = { s with cfg := t.cfg, response := .writeOk } ∧
      exec (.rd addr) t = .next { t with response := .readOk data } ∧
      (∀ a, t.byteAt a = s.byteAt a) ∧
      ∀ (other : Addr) (r : Response), other ≠ addr →
        exec (.rd other) s = .next { s with response := r } → exec (.rd other) t = .next { t with response := r })

/-- A write to IN, in either mode: the word is stored, little-endian, a read returns it, and every byte outside it and every
other part of the state is unchanged (R61, R72, R246). That a read returns every written container bit for bit, negative zero
and the containers that are not finite included, is the model's inference (log 13, DEDUCED). -/
def Obligations.InputBufferWrites : Prop :=
  ∀ (s : State) (addr : Addr) (data : Word) (i : Nat), s.build.Legal → i < s.build.hmax → addr.toNat = 0x4000 + 4 * i →
    ∃ t, exec (.wr addr data) s = .next t ∧ t = { s with inBuf := t.inBuf, response := .writeOk } ∧
      exec (.rd addr) t = .next { t with response := .readOk data } ∧
      (∀ b < 4, t.byteAt (addr.toNat + b) = data.extractLsb' (8 * b) 8) ∧
      (∀ a, a < addr.toNat ∨ addr.toNat + 4 ≤ a → t.byteAt a = s.byteAt a) ∧
      (∀ j, j ≠ i → t.inWord j = s.inWord j)

/-- A read of an array window while CONFIGURED returns the container of the element, and a section that the filter does not
run reads as 0 (R60, R76, R81, R245). Reads change nothing. -/
def Obligations.WindowReads : Prop :=
  ∀ (s : State) (i : Nat), s.Inv → s.mode = .configured →
    let reads (a : Nat) (w : Word) := exec (.rd (BitVec.ofNat 18 a)) s = .next { s with response := .readOk w }
    (i < s.H → s.outValid = true → reads (0x8000 + 4 * i) (s.out.getD i (.rat 0)).word) ∧
    (i < s.N → reads (0xC000 + 4 * i) (s.win.getD i (.rat 0)).word) ∧
    (i < s.N - s.H → reads (0x10000 + 4 * i) (s.tail.getD i (.rat 0)).word) ∧
    (i < s.N → reads (0x14000 + 4 * i) (s.ola.getD i (.rat 0)).word) ∧
    (i < s.K → reads (0x18000 + 4 * i) (s.noise.getD i (.rat 0)).word) ∧
    (i < s.K → s.gainValid = true → reads (0x1C000 + 4 * i) (s.pgain.getD i (.rat 0)).word) ∧
    (i < s.cfg.sections → s.hpfEn = true →
      reads (0x20000 + 8 * i) (s.hpz.getD i (.rat 0, .rat 0)).1.word ∧
      reads (0x20004 + 8 * i) (s.hpz.getD i (.rat 0, .rat 0)).2.word ∧
      reads (0x20100 + 8 * i) (s.hpzi.getD i (.rat 0, .rat 0)).1.word ∧
      reads (0x20104 + 8 * i) (s.hpzi.getD i (.rat 0, .rat 0)).2.word) ∧
    (s.cfg.sections ≤ i → i < s.build.smax → s.hpfEn = true →
      reads (0x20000 + 8 * i) 0 ∧ reads (0x20004 + 8 * i) 0 ∧ reads (0x20100 + 8 * i) 0 ∧ reads (0x20104 + 8 * i) 0)

/-! ## Containers -/

/-- R79: what a container decodes to, with sign s, biased exponent e and fraction f as numbers. -/
def Obligations.ContainerDecodes : Prop :=
  ∀ w : Word,
    let sign : ℚ := if 2 ^ 31 ≤ w.toNat then -1 else 1
    let e : ℕ := w.toNat / 2 ^ 23 % 2 ^ 8
    let f : ℕ := w.toNat % 2 ^ 23
    (1 ≤ e → e ≤ 254 → num? w = some (sign * (2 : ℚ) ^ ((e : ℤ) - 127) * (1 + (f : ℚ) / 2 ^ 23))) ∧
    (e = 0 → num? w = some (sign * (2 : ℚ) ^ (-126 : ℤ) * ((f : ℚ) / 2 ^ 23))) ∧
    (e = 255 → num? w = none)

/-- A rational number's container is the nearest binary32 value, ties to the even fraction, infinity from 2^128 − 2^103 on
(R81). -/
def Obligations.RationalContainer : Prop :=
  ∀ q : ℚ, IsContainerOf (q : ℝ) (wordOfRat q)

/-- The machine is the reference semantics of R16. Every exact number has the container that R81 gives the real number it
stands for, ties included, and so each step answers what the machine over the real numbers answers, number for number; a block
that is this machine agrees with the reference semantics up to the tolerance 0, whatever the host causes; what agreement
compares is the model's own (log 19). That the enclosures
the container is searched in are sound is stated too. How it is found is the model's own (log 1, log 11). -/
def Obligations.ReferenceSemantics : Prop :=
  (∀ (a : Exact) (p : Nat) (b : Bracket), a.bracket p = some b → (b.lo : ℝ) ≤ a.val * 2 ^ p ∧ a.val * 2 ^ p ≤ b.hi) ∧
  (∀ a : Exact, IsContainerOf a.val a.word) ∧
  (∀ s : State, Generic.mapAnswer Exact.val (step s) = Generic.step realArith s.real) ∧
  ∀ (b : Build Exact) (events : List HostEvent), ConformsOn exactArith Exact.val 0 b events

/-- A finite container is the container of the number it decodes to; the two zeros have the container 0x00000000 (R79, R81;
log 11 for the sign of zero). -/
def Obligations.ContainerRoundTrip : Prop :=
  ∀ (w : Word) (q : ℚ), num? w = some q → wordOfRat q = if w = 0x80000000 then 0x00000000 else w

/-! ## Commands -/

/-- R232: NOP clears ERR, ERR_CODE and ERR_INFO and changes nothing else, in both modes; its word is 0, and OP 0 with any
other field set is E_FIELD. -/
def Obligations.NopResult : Prop :=
  ∀ s : State,
    exec .nop s = .next { s with err := false, errCode := 0, errInfo := 0, response := .writeOk } ∧
    exec (.wr 0x8 0x00000000) s = exec .nop s ∧
    ∀ w : Word, w.toNat % 2 ^ 8 = 0 → w ≠ 0 → exec (.wr 0x8 w) s =
      .next { s with err := true, errs := true, errCode := 0x02, errInfo := w, response := .writeOk }

/-- R244: DESTROY ends the instance. The arrays keep their contents but every window but IN answers ERR; the RW-U registers
keep their values and can be written again. -/
def Obligations.DestroyResult : Prop :=
  ∀ s : State, ∃ t, exec .destroy s = .next t ∧
    t = { s with mode := .unconfigured, gainValid := false, outValid := false, hpfEn := false, hpfPrimed := false,
                 err := false, errs := false, errCode := 0, errInfo := 0, response := .writeOk } ∧
    exec (.wr 0x8 0x00000004) s = .next t ∧
    (∀ addr : Addr, 0x8000 ≤ addr.toNat → exec (.rd addr) t = .next { t with response := .err }) ∧
    (∀ (addr : Addr) (data : Word), RwuOffset s.build.smax addr.toNat → s.build.Legal →
      ∃ u, exec (.wr addr data) t = .next u ∧ u.response = .writeOk) ∧
    (∀ a, t.byteAt a = s.byteAt a) ∧
    ∀ w : Word, w.toNat % 2 ^ 8 = 4 → w ≠ 4 → exec (.wr 0x8 w) s =
      .next { s with err := true, errs := true, errCode := 0x02, errInfo := w, response := .writeOk }

/-- A CONFIGURE that passes its checks creates the instance: the construction values of R66 and the flags of R234. -/
def Obligations.ConfigureConstructs : Prop :=
  ∀ s : State, s.Inv → s.mode = .unconfigured → s.configFailure exactArith = none → ∃ t, exec .configure s = .next t ∧
    t.mode = .configured ∧ (t.hpfEn = true ↔ ∃ q, num? s.cfg.hpCutoff = some q ∧ 0 < q) ∧
    t.gainValid = false ∧ t.outValid = false ∧ t.hpfPrimed = false ∧
    t.err = false ∧ t.errCode = 0 ∧ t.errInfo = 0 ∧ t.response = .writeOk ∧
    t.win.length = s.N ∧
    (∀ i < s.N, valAt t.win i = √(0.5 * (1 - Real.cos (2 * Real.pi * i / (s.N - 1))) + s.build.epsWin.val)) ∧
    t.tail.length = s.N - s.H ∧ (∀ i, valAt t.tail i = 0) ∧ t.ola.length = s.N ∧ (∀ i, valAt t.ola i = 0) ∧
    t.noise.length = s.K ∧ (∀ k < s.K, valAt t.noise k = s.build.noiseInit.val) ∧
    t.hpz.length = s.build.smax ∧ (∀ sec, stateAt t.hpz sec = (0, 0)) ∧
    (∀ u, exec .hpfSetup { s with hpfEn := t.hpfEn } = .next u → t.hpzi = u.hpzi) ∧
    (∀ i < s.build.hmax, t.inWord i = 0) ∧
    (∀ a, a < 0x4000 ∨ 0x4000 + 4 * s.build.hmax ≤ a → t.byteAt a = s.byteAt a) ∧
    t = { s with mode := t.mode, hpfEn := t.hpfEn, gainValid := t.gainValid, outValid := t.outValid,
                 hpfPrimed := t.hpfPrimed, err := t.err, errCode := t.errCode, errInfo := t.errInfo,
                 response := t.response, win := t.win, tail := t.tail, ola := t.ola, noise := t.noise, hpz := t.hpz,
                 hpzi := t.hpzi, inBuf := t.inBuf }

/-- R235: the checks of CONFIGURE in their order, each with its error and information word; it succeeds exactly when none
fails. -/
def Obligations.ConfigureChecks : Prop :=
  ∀ s : State, s.mode = .unconfigured → s.cfg.coef.length = s.build.smax →
    let c := s.cfg
    let stops (e info : Word) := exec .configure s =
      .next { s with err := true, errs := true, errCode := e, errInfo := info, response := .writeOk }
    let notNegative (w : Word) := ∃ q, num? w = some q ∧ 0 ≤ q
    let factor (w : Word) := ∃ q, num? w = some q ∧ 0 ≤ q ∧ q < 1
    let enabled := ∃ q, num? c.hpCutoff = some q ∧ 0 < q
    let order := c.hpOrder.toNat
    let secs := (order + 1) / 2
    let isFinite (sec : Nat) (r : CoefReg) := ∃ q, num? (c.getCoef sec r) = some q
    let singular (sec : Nat) := ∃ p q, num? (c.getCoef sec .a1) = some p ∧ num? (c.getCoef sec .a2) = some q ∧ 1 + p + q = 0
    let pass1 := c.sampleRate.toNat ≠ 0
    let pass2 := pass1 ∧ c.frameLen.toNat ≠ 0
    let pass3 := pass2 ∧ c.frameLen.toNat % 2 = 0
    let pass4 := pass3 ∧ c.frameLen.toNat ≤ s.build.nmax
    let pass5 := pass4 ∧ notNegative c.beta
    let pass6 := pass5 ∧ notNegative c.floor
    let pass7 := pass6 ∧ factor c.alphaN
    let pass8 := pass7 ∧ factor c.alphaG
    let pass9 := pass8 ∧ ∃ q, num? c.hpCutoff = some q
    let pass10 := pass9 ∧ (enabled → 1 ≤ order ∧ order ≤ 2 * s.build.smax)
    let pass11 := pass10 ∧ (enabled → ∀ sec < secs, ∀ r, isFinite sec r)
    let pass12 := pass11 ∧ (enabled → ∀ sec < secs, ¬singular sec)
    (¬pass1 → stops 0x10 c.sampleRate) ∧
    (pass1 → ¬pass2 → stops 0x11 c.frameLen) ∧
    (pass2 → ¬pass3 → stops 0x12 c.frameLen) ∧
    (pass3 → ¬pass4 → stops 0x13 c.frameLen) ∧
    (pass4 → ¬pass5 → stops 0x14 c.beta) ∧
    (pass5 → ¬pass6 → stops 0x15 c.floor) ∧
    (pass6 → ¬pass7 → stops 0x16 c.alphaN) ∧
    (pass7 → ¬pass8 → stops 0x17 c.alphaG) ∧
    (pass8 → ¬pass9 → stops 0x18 c.hpCutoff) ∧
    (pass9 → ¬pass10 → stops 0x19 c.hpOrder) ∧
    (pass10 → enabled → ∀ sec < secs, ∀ r, ¬isFinite sec r →
      (∀ sec' r', sec' < sec ∨ (sec' = sec ∧ r'.number < r.number) → isFinite sec' r') →
      stops 0x1A (BitVec.ofNat 32 (2 ^ 8 * sec + r.number))) ∧
    (pass11 → enabled → ∀ sec < secs, singular sec → (∀ sec' < sec, ¬singular sec') →
      stops 0x1A (BitVec.ofNat 32 (2 ^ 8 * sec + 0xFF))) ∧
    (pass12 → ∃ t, exec .configure s = .next t ∧ t.mode = .configured ∧ t.err = false ∧ t.errCode = 0)

/-- CONFIGURE while CONFIGURED fails with E_STATE and its own word, and leaves the instance untouched (R234, R236). -/
def Obligations.ConfigureTwice : Prop :=
  ∀ s : State, s.mode = .configured → exec .configure s =
    .next { s with err := true, errs := true, errCode := 0x03, errInfo := 0x00000001, response := .writeOk }

/-- R237: the checks of CALIBRATE and PROCESS, the mode first, then the length; a failed one changes the result registers
alone. -/
def Obligations.StreamChecks : Prop :=
  ∀ (s : State) (len : BitVec 16),
    let stops (i : Instr) (e info : Word) := exec i s =
      .next { s with err := true, errs := true, errCode := e, errInfo := info, response := .writeOk }
    (s.mode = .unconfigured →
      stops (.calibrate len) 0x03 (BitVec.ofNat 32 (2 ^ 8 * len.toNat + 2)) ∧
      stops (.process len) 0x03 (BitVec.ofNat 32 (2 ^ 8 * len.toNat + 3))) ∧
    (s.mode = .configured → len.toNat ≠ s.cfg.frameLen.toNat / 2 →
      stops (.calibrate len) 0x04 (BitVec.ofNat 32 len.toNat) ∧ stops (.process len) 0x04 (BitVec.ofNat 32 len.toNat))

/-- Error entry is precise: a command that fails changes ERR, ERRS, ERR_CODE and ERR_INFO alone, the write that carried it
answers OK, and its code is one of R271; a command that succeeds reports 0 (R39, R54, R276, R277). -/
def Obligations.ErrorsArePrecise : Prop :=
  ∀ (s t : State) (w : Word), exec (.wr 0x8 w) s = .next t →
    t.response = .writeOk ∧
    (t.err = true → t = { s with err := true, errs := true, errCode := t.errCode, errInfo := t.errInfo, response := .writeOk } ∧
      ((1 ≤ t.errCode.toNat ∧ t.errCode.toNat ≤ 4) ∨ (0x10 ≤ t.errCode.toNat ∧ t.errCode.toNat ≤ 0x1A))) ∧
    (t.err = false → t.errCode = 0 ∧ t.errInfo = 0 ∧ (w.toNat ≠ 4 → t.errs = s.errs))

/-- CALIBRATE runs FRAME_BUILD, HPF, ANALYZE and NOISE_UPDATE in order; it changes TAIL, NOISE, the filter state if the
filter is enabled, and the result registers, and nothing else (R238, R239). The working vectors are gone afterwards (R31);
that they are then empty is the model's choice (log 5). -/
def Obligations.CalibrateRuns : Prop :=
  ∀ (s : State) (len : BitVec 16), s.mode = .configured → len.toNat = s.H →
    (∀ i < s.H, ∃ q, num? (s.inWord i) = some q) →
    ∃ a b c d t, exec .frameBuild s = .next a ∧ exec .hpf a = .next b ∧ exec .analyze b = .next c ∧
      exec .noiseUpdate c = .next d ∧ exec (.calibrate len) s = .next t ∧
      t = { s with tail := a.tail, hpz := b.hpz, hpfPrimed := b.hpfPrimed, noise := d.noise, work := .empty,
                   err := false, errCode := 0, errInfo := 0, response := .writeOk } ∧
      (s.hpfEn = false → t.hpz = s.hpz ∧ t.hpfPrimed = s.hpfPrimed) ∧ (s.hpfEn = true → t.hpfPrimed = true) ∧
      ∀ x, t.byteAt x = s.byteAt x

/-- PROCESS runs FRAME_BUILD, HPF, ANALYZE, NOISE_UPDATE, GAIN, SYNTH and OLA_EMIT in order; it writes the carry state, OUT,
the two valid flags and the result registers, and nothing else (R240). The working vectors are gone afterwards (R31); that
they are then empty is the model's choice (log 5). -/
def Obligations.ProcessRuns : Prop :=
  ∀ (s : State) (len : BitVec 16), s.mode = .configured → len.toNat = s.H →
    (∀ i < s.H, ∃ q, num? (s.inWord i) = some q) →
    ∃ a b c d e f g t, exec .frameBuild s = .next a ∧ exec .hpf a = .next b ∧ exec .analyze b = .next c ∧
      exec .noiseUpdate c = .next d ∧ exec .gain d = .next e ∧ exec .synth e = .next f ∧ exec .olaEmit f = .next g ∧
      exec (.process len) s = .next t ∧
      t = { s with tail := a.tail, hpz := b.hpz, hpfPrimed := b.hpfPrimed, noise := d.noise, pgain := e.pgain,
                   gainValid := true, ola := g.ola, out := g.out, outValid := true, work := .empty,
                   err := false, errCode := 0, errInfo := 0, response := .writeOk } ∧
      (s.hpfEn = false → t.hpz = s.hpz ∧ t.hpfPrimed = s.hpfPrimed) ∧ (s.hpfEn = true → t.hpfPrimed = true) ∧
      ∀ x, t.byteAt x = s.byteAt x

/-- After a successful PROCESS the host reads in OUT[i] the container of what OLA[i] held before it (R166, R241). -/
def Obligations.ProcessOutput : Prop :=
  ∀ (s t : State) (len : BitVec 16) (i : Nat), s.Inv → s.mode = .configured → exec (.process len) s = .next t →
    t.err = false → i < s.H →
    t.out.length = s.H ∧ exec (.rd (BitVec.ofNat 18 (0x8000 + 4 * i))) t =
      .next { t with response := .readOk (s.ola.getD i (.rat 0)).word }

/-- A CALIBRATE or PROCESS that has passed its checks and consumes a container that is not finite is refused, as is a
FRAME_BUILD: "a model refuses such a command" (R80; log 9). -/
def Obligations.NonFiniteSampleRefused : Prop :=
  ∀ (s : State) (len : BitVec 16) (i : Nat), i < s.H → num? (s.inWord i) = none → (∀ j < i, ∃ q, num? (s.inWord j) = some q) →
    exec .frameBuild s = .refused (.nonFiniteSample i) ∧
    (s.mode = .configured → len.toNat = s.H →
      exec (.calibrate len) s = .refused (.nonFiniteSample i) ∧ exec (.process len) s = .refused (.nonFiniteSample i))

/-- Silence is stable: zero samples on a zero TAIL, a zero OLA and a resting filter give a zero OUT, and leave TAIL, OLA and
the filter as they were, whatever NOISE and the gains hold (R150, R190, R222; 95_test_vectors.md). No lengths of arrays are
asked for: states with arrays of other lengths, which no run reaches, are the model's choice (log 16). -/
def Obligations.SilenceStable : Prop :=
  ∀ (s : State) (len : BitVec 16), s.mode = .configured → len.toNat = s.H →
    (∀ i < s.H, num? (s.inWord i) = some 0) → (∀ i, valAt s.tail i = 0) → (∀ i, valAt s.ola i = 0) →
    (∀ sec, stateAt s.hpz sec = (0, 0)) →
    ∃ t, exec (.process len) s = .next t ∧ (∀ i, valAt t.out i = 0) ∧ (∀ i, valAt t.tail i = 0) ∧
      (∀ i, valAt t.ola i = 0) ∧ (∀ sec, stateAt t.hpz sec = (0, 0))

/-! ## Window Generator -/

/-- WINGEN writes the window of R131 and nothing else; its ends are sqrt(EPS_WIN), and every element lies between
sqrt(EPS_WIN) and sqrt(1 + EPS_WIN). -/
def Obligations.WingenWrites : Prop :=
  ∀ s : State, 2 ≤ s.N → 0 < s.build.epsWin.val → ∃ t, exec .wingen s = .next t ∧ t = { s with win := t.win } ∧
    t.win.length = s.N ∧
    (∀ i < s.N, valAt t.win i = √(0.5 * (1 - Real.cos (2 * Real.pi * i / (s.N - 1))) + s.build.epsWin.val) ∧
      √s.build.epsWin.val ≤ valAt t.win i ∧ valAt t.win i ≤ √(1 + s.build.epsWin.val)) ∧
    valAt t.win 0 = √s.build.epsWin.val ∧ valAt t.win (s.N - 1) = √s.build.epsWin.val ∧
    ∀ a, t.byteAt a = s.byteAt a

/-- R132: the window is symmetric, and every element is strictly positive. -/
def Obligations.WindowSymmetric : Prop :=
  ∀ s t : State, 2 ≤ s.N → 0 < s.build.epsWin.val → exec .wingen s = .next t →
    ∀ i < s.N, valAt t.win i = valAt t.win (s.N - 1 - i) ∧ 0 < valAt t.win i

/-- R133: the overlap sum C[i] = WIN[i]² + WIN[i+H]² in closed form, with δ = π/(N−1) and θ = 2πi/(N−1), and its distance
from the constant 1 + 2·EPS_WIN. -/
def Obligations.WindowOverlap : Prop :=
  ∀ s t : State, 2 ≤ s.N → s.N % 2 = 0 → 0 < s.build.epsWin.val → exec .wingen s = .next t → ∀ i < s.H,
    let δ := Real.pi / (s.N - 1)
    let θ := 2 * Real.pi * i / (s.N - 1)
    let C := valAt t.win i ^ 2 + valAt t.win (i + s.H) ^ 2
    C = 1 - 0.5 * Real.cos θ + 0.5 * Real.cos (θ + δ) + 2 * s.build.epsWin.val ∧
    |C - 1 - 2 * s.build.epsWin.val| ≤ Real.sin (δ / 2) ∧ Real.sin (δ / 2) ≤ Real.pi / (2 * (s.N - 1))

/-! ## High-Pass Pre-Filter -/

/-- HPF_SETUP clears HPZ and HPF_PRIMED and, with the filter enabled, writes HPZI by R142, section s from the input the
sections before it give for the constant 1, and 0 from section S on; disabled, it leaves HPZI alone. What CONFIGURE checks
(R235) is asked of the coefficients of the sections up to s: finite, and 1 + a1 + a2 not 0. -/
def Obligations.HpfSetupWrites : Prop :=
  ∀ s : State, s.cfg.sections ≤ s.cfg.coef.length → ∃ t, exec .hpfSetup s = .next t ∧
    t = { s with hpz := t.hpz, hpfPrimed := false, hpzi := t.hpzi } ∧
    t.hpz.length = s.build.smax ∧ (∀ sec, stateAt t.hpz sec = (0, 0)) ∧
    (s.hpfEn = false → t.hpzi = s.hpzi) ∧
    (s.hpfEn = true → ∀ sec,
      (sec < s.cfg.sections →
        (∀ r ≤ sec, (∀ c, ∃ q, num? (s.cfg.getCoef r c) = some q) ∧ 1 + s.cfg.coefAt r .a1 + s.cfg.coefAt r .a2 ≠ 0) →
        stateAt t.hpzi sec =
        (s.cfg.restInput sec * (s.cfg.coefAt sec .b1 + s.cfg.coefAt sec .b2 -
          (s.cfg.coefAt sec .a1 + s.cfg.coefAt sec .a2) * s.cfg.dcGainAt sec),
         s.cfg.restInput sec * (s.cfg.coefAt sec .b2 - s.cfg.coefAt sec .a2 * s.cfg.dcGainAt sec))) ∧
      (s.cfg.sections ≤ sec → stateAt t.hpzi sec = (0, 0))) ∧
    ∀ a, t.byteAt a = s.byteAt a

/-- R144: with the filter disabled HPF is the identity, and no state is read or written. -/
def Obligations.HpfDisabled : Prop :=
  ∀ s : State, s.hpfEn = false → exec .hpf s = .next { s with work := { s.work with filt := s.work.frame } }

/-- With the filter enabled HPF runs the frame through the sections, sample by sample and section by section, by the
recursion of R145, from the initial state of R147 or R148, and stores the final state (R146, R149). v n sec is the sample
that enters section sec at time n, and z n sec that section's state before time n. A coefficient that is not finite, which no
command reaches, stands for the free number of log 10: the model's choice. -/
def Obligations.HpfFilters : Prop :=
  ∀ s : State, s.hpfEn = true → s.cfg.sections ≤ s.cfg.coef.length → s.cfg.sections ≤ s.hpzi.length →
    s.cfg.sections ≤ s.hpz.length →
    ∃ t, exec .hpf s = .next t ∧ t = { s with work := { s.work with filt := t.work.filt }, hpz := t.hpz, hpfPrimed := true } ∧
      t.work.filt.length = s.work.frame.length ∧ t.hpz.length = s.hpz.length ∧
      (∀ sec, s.cfg.sections ≤ sec → stateAt t.hpz sec = stateAt s.hpz sec) ∧ (∀ a, t.byteAt a = s.byteAt a) ∧
      ∃ (v : ℕ → ℕ → ℝ) (z : ℕ → ℕ → ℝ × ℝ),
        (∀ sec < s.cfg.sections, z 0 sec =
          if s.build.hpfReinit = true ∨ s.hpfPrimed = false then
            ((stateAt s.hpzi sec).1 * valAt s.work.frame 0, (stateAt s.hpzi sec).2 * valAt s.work.frame 0)
          else stateAt s.hpz sec) ∧
        (∀ n < s.work.frame.length, v n 0 = valAt s.work.frame n ∧ valAt t.work.filt n = v n s.cfg.sections ∧
          ∀ sec < s.cfg.sections,
            v n (sec + 1) = s.cfg.coefAt sec .b0 * v n sec + (z n sec).1 ∧
            z (n + 1) sec =
              (s.cfg.coefAt sec .b1 * v n sec - s.cfg.coefAt sec .a1 * v n (sec + 1) + (z n sec).2,
               s.cfg.coefAt sec .b2 * v n sec - s.cfg.coefAt sec .a2 * v n (sec + 1))) ∧
        (∀ sec < s.cfg.sections, stateAt t.hpz sec = z s.work.frame.length sec)

/-- R150: a constant frame from the resting state HPZI·c comes out as the constant Gtot·c and leaves the state at HPZI·c;
an all-zero frame does so for any coefficients. A coefficient that is not finite, which no command reaches, stands for the
free number of log 10: the model's choice. -/
def Obligations.HpfConstantFrame : Prop :=
  ∀ (s t u : State) (c : ℝ), exec .hpfSetup s = .next t → s.hpfEn = true → s.cfg.sections ≤ s.cfg.coef.length →
    (c ≠ 0 → ∀ sec < s.cfg.sections, 1 + s.cfg.coefAt sec .a1 + s.cfg.coefAt sec .a2 ≠ 0) →
    u.hpfEn = true → u.cfg = s.cfg → u.hpzi = t.hpzi → s.cfg.sections ≤ u.hpz.length →
    (∀ n < u.work.frame.length, valAt u.work.frame n = c) → 0 < u.work.frame.length →
    (u.build.hpfReinit = false → u.hpfPrimed = true → ∀ sec < s.cfg.sections, stateAt u.hpz sec =
      ((stateAt t.hpzi sec).1 * c, (stateAt t.hpzi sec).2 * c)) →
    ∃ r, exec .hpf u = .next r ∧
      (∀ n < u.work.frame.length, valAt r.work.filt n = s.cfg.restInput s.cfg.sections * c) ∧
      ∀ sec < s.cfg.sections, stateAt r.hpz sec = ((stateAt t.hpzi sec).1 * c, (stateAt t.hpzi sec).2 * c)

/-! ## Frame Assembler and OLA Buffer -/

/-- FRAME_BUILD: CHUNK is the numbers of IN[0:H], FRAME is TAIL followed by CHUNK, and the last N − H samples of the chunk,
for an even N all of it, become TAIL; IN is not modified (R161). -/
def Obligations.FrameBuildAssembles : Prop :=
  ∀ s : State, s.N % 2 = 0 → s.tail.length = s.N - s.H → (∀ i < s.H, ∃ q, num? (s.inWord i) = some q) →
    ∃ t, exec .frameBuild s = .next t ∧
      t = { s with work := { s.work with chunk := t.work.chunk, frame := t.work.frame }, tail := t.tail } ∧
      t.work.chunk.length = s.H ∧ t.work.frame.length = s.N ∧ t.tail.length = s.N - s.H ∧
      (∀ i < s.H, ∃ q, num? (s.inWord i) = some q ∧ valAt t.work.chunk i = q) ∧
      (∀ i < s.N - s.H, valAt t.work.frame i = valAt s.tail i) ∧
      (∀ i < s.H, valAt t.work.frame (s.N - s.H + i) = valAt t.work.chunk i ∧ valAt t.tail i = valAt t.work.chunk i) ∧
      ∀ a, t.byteAt a = s.byteAt a

/-- OLA_EMIT: OUT is the accumulator's first hop, the accumulator shifts left by one hop with zeros behind it and SYN is
added, and OUT_VALID is set (R166). -/
def Obligations.OlaEmitOutputs : Prop :=
  ∀ s : State, s.N % 2 = 0 → s.ola.length = s.N → s.work.syn.length = s.N →
    ∃ t, exec .olaEmit s = .next t ∧ t = { s with out := t.out, ola := t.ola, outValid := true } ∧
      t.out.length = s.H ∧ t.ola.length = s.N ∧
      (∀ i < s.H, valAt t.out i = valAt s.ola i) ∧
      (∀ i < s.N - s.H, valAt t.ola i = valAt s.ola (i + s.H) + valAt s.work.syn i) ∧
      (∀ i, s.N - s.H ≤ i → i < s.N → valAt t.ola i = valAt s.work.syn i) ∧
      ∀ a, t.byteAt a = s.byteAt a

/-- The closed form of the output over any number of emits from an empty accumulator: syn p is the p-th synthesised frame,
syn 0 the zero frame. OUT_1 is zero, OUT_2 is the first half of the first frame, and from there on each output joins the
second half of one frame with the first half of the next (R168, R169, for the emits alone). -/
def Obligations.EmitClosedForm : Prop :=
  ∀ (σ : ℕ → State) (syn : ℕ → ℕ → ℝ) (h : ℕ), (σ 0).N = 2 * h → (σ 0).ola.length = 2 * h →
    (∀ i, valAt (σ 0).ola i = 0) → (∀ i, syn 0 i = 0) →
    (∀ p, ∃ u, u.ola = (σ p).ola ∧ u.cfg = (σ p).cfg ∧ u.work.syn.length = 2 * h ∧
      (∀ i, valAt u.work.syn i = syn (p + 1) i) ∧ exec .olaEmit u = .next (σ (p + 1))) →
    ∀ p, ∀ i < h,
      valAt (σ 1).out i = 0 ∧ valAt (σ (p + 2)).out i = syn p (h + i) + syn (p + 1) i ∧
      valAt (σ (p + 1)).ola i = syn p (h + i) + syn (p + 1) i ∧ valAt (σ (p + 1)).ola (h + i) = syn (p + 1) (h + i)

/-! ## Spectral Analyzer and Synthesizer -/

/-- ANALYZE: X is the forward transform of the windowed frame, MAG its magnitudes, PHS its unit phases with (1, 0) for a zero
bin; the first and last bins are real, and no magnitude exceeds the sum of the windowed samples' sizes (R181, R185). -/
def Obligations.AnalyzeTransforms : Prop :=
  ∀ s : State, 0 < s.N → s.N % 2 = 0 → s.win.length = s.N → s.work.filt.length = s.N → ∃ t, exec .analyze s = .next t ∧
    t = { s with work := { s.work with x := t.work.x, mag := t.work.mag, phs := t.work.phs } } ∧
    t.work.x.length = s.K ∧ t.work.mag.length = s.K ∧ t.work.phs.length = s.K ∧
    (∀ k < s.K,
      cvalAt t.work.x k = ∑ n ∈ Finset.range s.N, ((valAt s.win n * valAt s.work.filt n : ℝ) : ℂ) *
        Complex.exp (-((2 * Real.pi * k * n / s.N : ℝ) : ℂ) * Complex.I) ∧
      valAt t.work.mag k = ‖cvalAt t.work.x k‖ ∧
      cvalAt t.work.phs k = (if cvalAt t.work.x k = 0 then 1 else cvalAt t.work.x k / (valAt t.work.mag k : ℂ)) ∧
      valAt t.work.mag k ≤ ∑ n ∈ Finset.range s.N, |valAt s.win n * valAt s.work.filt n|) ∧
    (cvalAt t.work.x 0).im = 0 ∧ (cvalAt t.work.x (s.N / 2)).im = 0 ∧ ∀ a, t.byteAt a = s.byteAt a

/-- SYNTH: Y is the gain times the magnitude times the phase, SYN the inverse transform of Y times the window (R182, R188). -/
def Obligations.SynthInverts : Prop :=
  ∀ s : State, 0 < s.N → s.N % 2 = 0 → s.win.length = s.N → s.work.g.length = s.K → s.work.mag.length = s.K →
    s.work.phs.length = s.K → ∃ t, exec .synth s = .next t ∧
    t = { s with work := { s.work with y := t.work.y, syn := t.work.syn } } ∧
    t.work.y.length = s.K ∧ t.work.syn.length = s.N ∧
    (∀ k < s.K, cvalAt t.work.y k = ((valAt s.work.g k * valAt s.work.mag k : ℝ) : ℂ) * cvalAt s.work.phs k) ∧
    (∀ n < s.N, valAt t.work.syn n = valAt s.win n * (1 / s.N * ((cvalAt t.work.y 0).re +
      (-1) ^ n * (cvalAt t.work.y (s.N / 2)).re + 2 * ∑ k ∈ Finset.Ico 1 (s.N / 2),
        (cvalAt t.work.y k * Complex.exp (((2 * Real.pi * k * n / s.N : ℝ) : ℂ) * Complex.I)).re))) ∧
    ∀ a, t.byteAt a = s.byteAt a

/-- R183: the transform pair inverts, on every sequence of real numbers of even length and so on every sequence of the
machine's exact numbers (log 1). -/
def Obligations.TransformInverts : Prop :=
  (∀ (len : Nat) (a : List ℝ), 0 < len → len % 2 = 0 → a.length = len → realArith.irdft len (realArith.rdft len a) = a) ∧
  ∀ (len : Nat) (a : List Exact), 0 < len → len % 2 = 0 → a.length = len →
    (exactArith.irdft len (exactArith.rdft len a)).length = len ∧
    ∀ n < len, valAt (exactArith.irdft len (exactArith.rdft len a)) n = valAt a n

/-- Unit gain: SYNTH after ANALYZE gives back the frame times the squared window (R192, its first sentence). -/
def Obligations.UnitGainSynthesis : Prop :=
  ∀ (s t : State) (g : List Exact), 0 < s.N → s.N % 2 = 0 → s.win.length = s.N → s.work.filt.length = s.N →
    exec .analyze s = .next t → g.length = s.K → (∀ k < s.K, valAt g k = 1) →
    ∃ u, exec .synth { t with work := { t.work with g := g } } = .next u ∧
      ∀ n < s.N, valAt u.work.syn n = valAt s.win n ^ 2 * valAt s.work.filt n

/-! ## Noise Estimator -/

/-- NOISE_UPDATE: every bin moves towards its magnitude by the rule of R201, and nothing else changes. -/
def Obligations.NoiseUpdates : Prop :=
  ∀ (s : State) (α : ℚ), num? s.cfg.alphaN = some α → s.noise.length = s.work.mag.length →
    ∃ t, exec .noiseUpdate s = .next t ∧ t = { s with noise := t.noise } ∧ t.noise.length = s.noise.length ∧
      (∀ k < s.noise.length, valAt t.noise k = α * valAt s.noise k + (1 - α) * valAt s.work.mag k) ∧
      ∀ a, t.byteAt a = s.byteAt a

/-- R204: under a constant magnitude m the estimate after n updates is m + α_n^n·(v0 − m); the error keeps its sign and
shrinks by the factor α_n, and the estimate tends to m. -/
def Obligations.NoiseConverges : Prop :=
  ∀ (σ : ℕ → State) (α : ℚ) (m : ℝ) (k : Nat), num? (σ 0).cfg.alphaN = some α → 0 ≤ α → α < 1 → k < (σ 0).noise.length →
    (∀ n, ∃ u, u.noise = (σ n).noise ∧ u.cfg = (σ n).cfg ∧ k < u.work.mag.length ∧ valAt u.work.mag k = m ∧
      exec .noiseUpdate u = .next (σ (n + 1))) →
    (∀ n, valAt (σ n).noise k = m + (α : ℝ) ^ n * (valAt (σ 0).noise k - m)) ∧
    (∀ n, valAt (σ (n + 1)).noise k - m = α * (valAt (σ n).noise k - m)) ∧
    Filter.Tendsto (fun n => valAt (σ n).noise k) Filter.atTop (nhds m)

/-! ## Gain Computer -/

/-- GAIN: CLEAN, GINST and G by the three steps of R211, G unsmoothed where there is no previous gain; PGAIN becomes G,
GAIN_VALID is set, and nothing else changes. The instantaneous gain is stated where its denominator is not 0, as it never is
with EPS_GAIN > 0 and MAG ≥ 0 (R220). -/
def Obligations.GainComputes : Prop :=
  ∀ (s : State) (β fl α : ℚ), num? s.cfg.beta = some β → num? s.cfg.floor = some fl → num? s.cfg.alphaG = some α →
    s.noise.length = s.work.mag.length → (s.gainValid = true → s.pgain.length = s.work.mag.length) →
    ∃ t, exec .gain s = .next t ∧
      t = { s with work := { s.work with clean := t.work.clean, ginst := t.work.ginst, g := t.work.g }, pgain := t.work.g,
                   gainValid := true } ∧
      t.work.clean.length = s.work.mag.length ∧ t.work.ginst.length = s.work.mag.length ∧
      t.work.g.length = s.work.mag.length ∧
      (∀ k < s.work.mag.length,
        valAt t.work.clean k = max (valAt s.work.mag k - β * valAt s.noise k) (fl * valAt s.noise k) ∧
        (valAt s.work.mag k + s.build.epsGain.val ≠ 0 →
          valAt t.work.ginst k = valAt t.work.clean k / (valAt s.work.mag k + s.build.epsGain.val)) ∧
        valAt t.work.g k = (if s.gainValid = true then α * valAt s.pgain k + (1 - α) * valAt t.work.ginst k
          else valAt t.work.ginst k)) ∧
      ∀ a, t.byteAt a = s.byteAt a

/-- R218 and R219: the floor property, the signs, and when subtraction never amplifies. -/
def Obligations.GainBounds : Prop :=
  ∀ (s t : State) (β fl α : ℚ) (k : Nat), num? s.cfg.beta = some β → 0 ≤ β → num? s.cfg.floor = some fl → 0 ≤ fl →
    num? s.cfg.alphaG = some α → 0 ≤ α → α < 1 → 0 < s.build.epsGain.val →
    k < s.work.mag.length → k < s.noise.length → (s.gainValid = true → k < s.pgain.length) →
    0 ≤ valAt s.work.mag k → 0 ≤ valAt s.noise k → (s.gainValid = true → 0 ≤ valAt s.pgain k) →
    exec .gain s = .next t →
    let mag := valAt s.work.mag k
    let floored := fl * valAt s.noise k
    floored ≤ valAt t.work.clean k ∧ 0 ≤ valAt t.work.clean k ∧ 0 ≤ valAt t.work.ginst k ∧ 0 ≤ valAt t.work.g k ∧
    0 ≤ valAt t.pgain k ∧
    (valAt t.work.clean k ≤ mag ↔ floored ≤ mag) ∧ (floored ≤ mag → valAt t.work.ginst k < 1) ∧
    (mag < floored → valAt t.work.clean k = floored ∧
      valAt t.work.ginst k = floored / (mag + s.build.epsGain.val)) ∧
    (mag + s.build.epsGain.val < floored → 1 < valAt t.work.ginst k) ∧
    (fl = 0 → valAt t.work.clean k ≤ mag)
end

