-- ==== Sys2Proof/Laws/Exact.lean ====
section
/-! SUPPORT. What real number each operation on exact numbers stands for: one lemma per operation, so that no later proof
unfolds one. -/

namespace Sys2Proof.Machine

/-! ## Integer and rational square roots -/

/-- Newton's result is checked, so the integer square root is Mathlib's. -/
theorem isqrt_eq_sqrt (n : Nat) : isqrt n = n.sqrt := by
  unfold isqrt
  simp only
  split
  · rename_i h
    exact (Nat.eq_sqrt.2 h)
  · rfl

/-- A rational square root is a square root. -/
theorem ratSqrt?_sound {q r : ℚ} (h : ratSqrt? q = some r) : 0 ≤ r ∧ r * r = q := by
  unfold ratSqrt? at h
  simp only at h
  split at h
  · rename_i hc
    obtain ⟨h0, hn, hd⟩ := hc
    obtain rfl := Option.some.inj h
    refine ⟨by positivity, ?_⟩
    have hq : q = (q.num.toNat : ℚ) / (q.den : ℚ) := by
      conv_lhs => rw [← Rat.num_div_den q]
      congr 1
      exact_mod_cast (Int.toNat_of_nonneg h0).symm
    conv_rhs => rw [hq, ← hn, ← hd]
    push_cast
    rw [div_mul_div_comm]
  · cases h

/-! ## The operations -/

@[simp] theorem Exact.val_rat (q : ℚ) : (Exact.rat q).val = (q : ℝ) := rfl

@[simp] theorem Exact.val_add (a b : Exact) : (Exact.add a b).val = a.val + b.val := by
  unfold Exact.add
  split <;> (try split) <;> simp_all [Exact.val]

@[simp] theorem Exact.val_mul (a b : Exact) : (Exact.mul a b).val = a.val * b.val := by
  unfold Exact.mul
  split <;> (try split) <;> (try split) <;> simp_all [Exact.val]

@[simp] theorem Exact.val_neg (a : Exact) : (Exact.neg a).val = -a.val := by
  simp [Exact.neg]

@[simp] theorem Exact.val_sub (a b : Exact) : (Exact.sub a b).val = a.val - b.val := by
  unfold Exact.sub
  split <;> (try split) <;> simp_all [Exact.val]

@[simp] theorem Exact.val_div (a b : Exact) : (Exact.div a b).val = a.val / b.val := by
  unfold Exact.div
  split <;> (try split) <;> simp_all [Exact.val]

@[simp] theorem Exact.val_sqrt (a : Exact) : (Exact.sqrt a).val = √a.val := by
  unfold Exact.sqrt
  split
  · rename_i q
    split
    · rename_i h
      have : ((q : ℚ) : ℝ) ≤ 0 := by exact_mod_cast h
      simp [Real.sqrt_eq_zero_of_nonpos this]
    · split
      · rename_i r hr
        obtain ⟨h0, hq⟩ := ratSqrt?_sound hr
        have h0' : (0 : ℝ) ≤ (r : ℝ) := by exact_mod_cast h0
        have : ((q : ℚ) : ℝ) = (r : ℝ) * (r : ℝ) := by exact_mod_cast hq.symm
        simp only [Exact.val_rat, this, Real.sqrt_mul_self h0']
      · rfl
  · rfl

@[simp] theorem Exact.val_max (a b : Exact) : (Exact.max a b).val = Max.max a.val b.val := by
  unfold Exact.max
  split
  · split
    · rename_i p q h
      have : (q : ℝ) ≤ (p : ℝ) := by exact_mod_cast h
      simp [max_eq_left this]
    · rename_i p q h
      have : (p : ℝ) ≤ (q : ℝ) := by exact_mod_cast (le_of_lt (not_le.1 h))
      simp [max_eq_right this]
  · rfl

/-! ## The cosine and the sine of a fraction of a turn -/

theorem halfTurn_range (q : ℚ) : 0 ≤ halfTurn q ∧ halfTurn q ≤ 1 / 2 := by
  have hf : (q.num / (q.den : Int) : Int) = ⌊q⌋ := Rat.floor_def'.symm
  have h0 : (⌊q⌋ : ℚ) ≤ q := Int.floor_le q
  have h1 : q < ⌊q⌋ + 1 := Int.lt_floor_add_one q
  unfold halfTurn
  simp only [hf]
  split
  · rename_i h; exact ⟨by linarith, h⟩
  · rename_i h; rw [not_le] at h; exact ⟨by linarith, by linarith⟩

theorem cos_halfTurn (q : ℚ) : Real.cos (2 * Real.pi * (halfTurn q : ℝ)) = Real.cos (2 * Real.pi * (q : ℝ)) := by
  have hf : (q.num / (q.den : Int) : Int) = ⌊q⌋ := Rat.floor_def'.symm
  have hc : Real.cos (2 * Real.pi * ((q - (⌊q⌋ : ℚ) : ℚ) : ℝ)) = Real.cos (2 * Real.pi * (q : ℝ)) := by
    have := Real.cos_sub_int_mul_two_pi (2 * Real.pi * (q : ℝ)) ⌊q⌋
    rw [← this]
    congr 1
    push_cast
    ring
  unfold halfTurn
  simp only [hf]
  split
  · exact hc
  · rw [← hc]
    have := Real.cos_two_pi_sub (2 * Real.pi * ((q - (⌊q⌋ : ℚ) : ℚ) : ℝ))
    rw [← this]
    congr 1
    push_cast
    ring

theorem Exact.val_cosHalf (r : ℚ) : (Exact.cosHalf r).val = Real.cos (2 * Real.pi * (r : ℝ)) := by
  unfold Exact.cosHalf
  split_ifs with h0 h1 h2 h3 h4 h5
  · simp [h0]
  · have : 2 * Real.pi * ((1 / 6 : ℚ) : ℝ) = Real.pi / 3 := by push_cast; ring
    rw [h1, this, Real.cos_pi_div_three]; simp
  · have : 2 * Real.pi * ((1 / 4 : ℚ) : ℝ) = Real.pi / 2 := by push_cast; ring
    rw [h2, this, Real.cos_pi_div_two]; simp
  · have : 2 * Real.pi * ((1 / 3 : ℚ) : ℝ) = Real.pi - Real.pi / 3 := by push_cast; ring
    rw [h3, this, Real.cos_pi_sub, Real.cos_pi_div_three]; norm_num
  · have : 2 * Real.pi * ((1 / 2 : ℚ) : ℝ) = Real.pi := by push_cast; ring
    rw [h4, this, Real.cos_pi]; simp
  · rfl
  · have : 2 * Real.pi * ((1 / 2 - r : ℚ) : ℝ) = Real.pi - 2 * Real.pi * (r : ℝ) := by push_cast; ring
    rw [Exact.val_neg, Exact.val, this, Real.cos_pi_sub, neg_neg]

@[simp] theorem Exact.val_cosOf (q : ℚ) : (Exact.cosOf q).val = Real.cos (2 * Real.pi * (q : ℝ)) := by
  rw [Exact.cosOf, Exact.val_cosHalf, cos_halfTurn]

/-! ## The parts of unit complex numbers -/

@[simp] theorem Exact.val_unitReOf (x y : Exact) : (Exact.unitReOf x y).val = unitPart x.val x.val y.val 1 := by
  unfold Exact.unitReOf
  split
  · rename_i x y
    split
    · rename_i h; simp [unitPart, h.1, h.2]
    · rename_i h
      split
      · rename_i r hr
        obtain ⟨h0, hq⟩ := ratSqrt?_sound hr
        have h0' : (0 : ℝ) ≤ (r : ℝ) := by exact_mod_cast h0
        have h' : ¬((x : ℝ) = 0 ∧ (y : ℝ) = 0) := by simpa using h
        have : (x : ℝ) ^ 2 + (y : ℝ) ^ 2 = (r : ℝ) * (r : ℝ) := by rw [pow_two, pow_two]; exact_mod_cast hq.symm
        simp only [unitPart, Exact.val_rat, if_neg h', this, Real.sqrt_mul_self h0']
        push_cast
        rfl
      · rfl
  · rfl

@[simp] theorem Exact.val_unitImOf (x y : Exact) : (Exact.unitImOf x y).val = unitPart y.val x.val y.val 0 := by
  unfold Exact.unitImOf
  split
  · rename_i x y
    split
    · rename_i h; simp [unitPart, h.1, h.2]
    · rename_i h
      split
      · rename_i r hr
        obtain ⟨h0, hq⟩ := ratSqrt?_sound hr
        have h0' : (0 : ℝ) ≤ (r : ℝ) := by exact_mod_cast h0
        have h' : ¬((x : ℝ) = 0 ∧ (y : ℝ) = 0) := by simpa using h
        have : (x : ℝ) ^ 2 + (y : ℝ) ^ 2 = (r : ℝ) * (r : ℝ) := by rw [pow_two, pow_two]; exact_mod_cast hq.symm
        simp only [unitPart, Exact.val_rat, if_neg h', this, Real.sqrt_mul_self h0']
        push_cast
        rfl
      · rfl
  · rfl

@[simp] theorem Exact.val_abs (a : Exact) : (Exact.abs a).val = |a.val| := by
  unfold Exact.abs
  split
  · simp
  · rw [Exact.val_max, Exact.val_neg, max_def, abs_eq_max_neg, max_def]

end Sys2Proof.Machine
end

