-- ==== Sys2Proof/Laws/Bracket.lean ====
section
/-! SUPPORT. The enclosures of Machine/Bracket.lean enclose what they say: one lemma per operation, and
`Exact.bracket_sound` for every exact number. -/

namespace Sys2Proof.Machine

/-- The bracket at precision p encloses the number v. -/
def Bracket.Encloses (b : Bracket) (p : Nat) (v : ℝ) : Prop := (b.lo : ℝ) ≤ v * 2 ^ p ∧ v * 2 ^ p ≤ (b.hi : ℝ)

/-! ## Rounding down and up -/

theorem intDiv_le {a b : Int} (hb : 0 < b) : ((a / b : Int) : ℝ) ≤ (a : ℝ) / (b : ℝ) := by
  have hb' : (0 : ℝ) < (b : ℝ) := by exact_mod_cast hb
  rw [le_div_iff₀ hb']
  exact_mod_cast Int.ediv_mul_le a (ne_of_gt hb)

theorem le_ceilDiv {a b : Int} (hb : 0 < b) : (a : ℝ) / (b : ℝ) ≤ ((ceilDiv a b : Int) : ℝ) := by
  have h := intDiv_le (a := -a) hb
  unfold ceilDiv
  push_cast at h ⊢
  rw [neg_div] at h
  linarith

theorem intDiv_le_of_le {a b : Int} {x : ℝ} (hb : 0 < b) (h : (a : ℝ) / (b : ℝ) ≤ x) : ((a / b : Int) : ℝ) ≤ x :=
  (intDiv_le hb).trans h

theorem le_ceilDiv_of_le {a b : Int} {x : ℝ} (hb : 0 < b) (h : x ≤ (a : ℝ) / (b : ℝ)) : x ≤ ((ceilDiv a b : Int) : ℝ) :=
  h.trans (le_ceilDiv hb)

/-! ## Each operation -/

theorem Bracket.ofRat_encloses (p : Nat) (q : ℚ) : (Bracket.ofRat p q).Encloses p (q : ℝ) := by
  have hd : (0 : Int) < (q.den : Int) := by exact_mod_cast q.den_pos
  have hq : (q : ℝ) * 2 ^ p = ((q.num * 2 ^ p : Int) : ℝ) / ((q.den : Int) : ℝ) := by
    conv_lhs => rw [← Rat.num_div_den q]
    push_cast
    ring
  constructor
  · exact intDiv_le_of_le hd (le_of_eq hq.symm)
  · exact le_ceilDiv_of_le hd (le_of_eq hq)

theorem Bracket.add_encloses {p : Nat} {a b : Bracket} {x y : ℝ} (ha : a.Encloses p x) (hb : b.Encloses p y) :
    (a.add b).Encloses p (x + y) := by
  obtain ⟨a1, a2⟩ := ha
  obtain ⟨b1, b2⟩ := hb
  constructor <;> simp only [Bracket.add] <;> push_cast <;> linarith

theorem Bracket.neg_encloses {p : Nat} {a : Bracket} {x : ℝ} (ha : a.Encloses p x) : a.neg.Encloses p (-x) := by
  obtain ⟨a1, a2⟩ := ha
  constructor <;> simp only [Bracket.neg] <;> push_cast <;> linarith

/-- A product lies between the least and the greatest product of the bounds. -/
theorem mul_between {l h l' h' x y : ℝ} (h1 : l ≤ x) (h2 : x ≤ h) (h3 : l' ≤ y) (h4 : y ≤ h') :
    min (min (l * l') (l * h')) (min (h * l') (h * h')) ≤ x * y ∧
      x * y ≤ max (max (l * l') (l * h')) (max (h * l') (h * h')) := by
  have key : ∀ u : ℝ, min (u * l') (u * h') ≤ u * y ∧ u * y ≤ max (u * l') (u * h') := by
    intro u
    rcases le_total 0 u with hu | hu
    · exact ⟨(min_le_left _ _).trans (mul_le_mul_of_nonneg_left h3 hu),
        (mul_le_mul_of_nonneg_left h4 hu).trans (le_max_right _ _)⟩
    · exact ⟨(min_le_right _ _).trans (mul_le_mul_of_nonpos_left h4 hu),
        (mul_le_mul_of_nonpos_left h3 hu).trans (le_max_left _ _)⟩
  have hl := key l
  have hh := key h
  rcases le_total 0 y with hy | hy
  · have e1 : l * y ≤ x * y := mul_le_mul_of_nonneg_right h1 hy
    have e2 : x * y ≤ h * y := mul_le_mul_of_nonneg_right h2 hy
    exact ⟨(min_le_left _ _).trans (hl.1.trans e1), (e2.trans hh.2).trans (le_max_right _ _)⟩
  · have e1 : h * y ≤ x * y := mul_le_mul_of_nonpos_right h2 hy
    have e2 : x * y ≤ l * y := mul_le_mul_of_nonpos_right h1 hy
    exact ⟨(min_le_right _ _).trans (hh.1.trans e1), (e2.trans hl.2).trans (le_max_left _ _)⟩

theorem Bracket.product_encloses {p : Nat} {a b : Bracket} {x y : ℝ} (ha : a.Encloses p x) (hb : b.Encloses p y) :
    (a.productLo b : ℝ) ≤ x * y * 2 ^ p * 2 ^ p ∧ x * y * 2 ^ p * 2 ^ p ≤ (a.productHi b : ℝ) := by
  have h := mul_between ha.1 ha.2 hb.1 hb.2
  have e : x * 2 ^ p * (y * 2 ^ p) = x * y * 2 ^ p * 2 ^ p := by ring
  rw [e] at h
  simp only [Bracket.productLo, Bracket.productHi]
  push_cast
  exact h

theorem two_pow_pos_int (p : Nat) : (0 : Int) < 2 ^ p := by positivity

theorem Bracket.mul_encloses {p : Nat} {a b : Bracket} {x y : ℝ} (ha : a.Encloses p x) (hb : b.Encloses p y) :
    (a.mul p b).Encloses p (x * y) := by
  have h := Bracket.product_encloses ha hb
  have h2 : (0 : ℝ) < 2 ^ p := by positivity
  constructor
  · refine intDiv_le_of_le (two_pow_pos_int p) ?_
    push_cast
    rw [div_le_iff₀ h2]
    exact h.1
  · refine le_ceilDiv_of_le (two_pow_pos_int p) ?_
    push_cast
    rw [le_div_iff₀ h2]
    exact h.2

theorem Bracket.divPos_encloses {p : Nat} {a b : Bracket} {x y : ℝ} (ha : a.Encloses p x) (hb : b.Encloses p y)
    (h0 : 0 < b.lo) : (a.divPos p b).Encloses p (x / y) := by
  have h2 : (0 : ℝ) < 2 ^ p := by positivity
  have hl : (0 : ℝ) < (b.lo : ℝ) := by exact_mod_cast h0
  have hy : 0 < y * 2 ^ p := lt_of_lt_of_le hl hb.1
  have hh : (0 : ℝ) < (b.hi : ℝ) := lt_of_lt_of_le hy hb.2
  have h0' : 0 < b.hi := by exact_mod_cast hh
  have hq : x / y * 2 ^ p = x * 2 ^ p * 2 ^ p / (y * 2 ^ p) := by
    field_simp
  have hlo : ∀ d : Int, 0 < d → ((a.lo * 2 ^ p / d : Int) : ℝ) ≤ (a.lo : ℝ) * 2 ^ p / (d : ℝ) := by
    intro d hd
    have := intDiv_le (a := a.lo * 2 ^ p) hd
    push_cast at this
    exact this
  have hhi : ∀ d : Int, 0 < d → (a.hi : ℝ) * 2 ^ p / (d : ℝ) ≤ ((ceilDiv (a.hi * 2 ^ p) d : Int) : ℝ) := by
    intro d hd
    have := le_ceilDiv (a := a.hi * 2 ^ p) hd
    push_cast at this
    exact this
  rw [Bracket.Encloses, hq]
  constructor
  · have step : (a.lo : ℝ) * 2 ^ p / (y * 2 ^ p) ≤ x * 2 ^ p * 2 ^ p / (y * 2 ^ p) :=
      div_le_div_of_nonneg_right (mul_le_mul_of_nonneg_right ha.1 h2.le) hy.le
    refine le_trans ?_ step
    simp only [Bracket.divPos]
    push_cast
    rcases le_total 0 ((a.lo : ℝ) * 2 ^ p) with h | h
    · exact (min_le_right _ _).trans ((hlo _ h0').trans (div_le_div_of_nonneg_left h hy hb.2))
    · refine (min_le_left _ _).trans ((hlo _ h0).trans ?_)
      rw [div_le_div_iff₀ hl hy]
      exact mul_le_mul_of_nonpos_left hb.1 h
  · have step : x * 2 ^ p * 2 ^ p / (y * 2 ^ p) ≤ (a.hi : ℝ) * 2 ^ p / (y * 2 ^ p) :=
      div_le_div_of_nonneg_right (mul_le_mul_of_nonneg_right ha.2 h2.le) hy.le
    refine le_trans step ?_
    simp only [Bracket.divPos]
    push_cast
    rcases le_total 0 ((a.hi : ℝ) * 2 ^ p) with h | h
    · exact (div_le_div_of_nonneg_left h hl hb.1).trans ((hhi _ h0).trans (le_max_left _ _))
    · refine le_trans ?_ ((hhi _ h0').trans (le_max_right _ _))
      rw [div_le_div_iff₀ hy hh]
      exact mul_le_mul_of_nonpos_left hb.2 h

theorem Bracket.div_encloses {p : Nat} {a b c : Bracket} {x y : ℝ} (ha : a.Encloses p x) (hb : b.Encloses p y)
    (h : a.div p b = some c) : c.Encloses p (x / y) := by
  unfold Bracket.div at h
  split at h
  · rename_i h0
    obtain rfl := Option.some.inj h
    exact Bracket.divPos_encloses ha hb h0
  · split at h
    · rename_i h0
      obtain rfl := Option.some.inj h
      have := Bracket.divPos_encloses (Bracket.neg_encloses ha) (Bracket.neg_encloses hb) (by simp [Bracket.neg]; exact h0)
      rwa [neg_div_neg_eq] at this
    · cases h

/-- The integer square root of n · 2^p is within one of the square root, scaled. -/
theorem isqrt_scaled (n p : Nat) (v : ℝ) :
    ((n : ℝ) ≤ v * 2 ^ p → (isqrt (n * 2 ^ p) : ℝ) ≤ √v * 2 ^ p) ∧
      (v * 2 ^ p ≤ (n : ℝ) → √v * 2 ^ p ≤ (isqrt (n * 2 ^ p) : ℝ) + 1) := by
  have h2 : (0 : ℝ) < 2 ^ p := by positivity
  have hs : √v * 2 ^ p = √(v * 2 ^ p * 2 ^ p) := by
    rw [mul_assoc, Real.sqrt_mul' _ (by positivity), Real.sqrt_mul_self h2.le]
  rw [isqrt_eq_sqrt, hs]
  constructor
  · intro h
    apply Real.le_sqrt_of_sq_le
    have hn : ((n * 2 ^ p).sqrt * (n * 2 ^ p).sqrt : Nat) ≤ n * 2 ^ p := Nat.sqrt_le (n * 2 ^ p)
    have hn' : (((n * 2 ^ p).sqrt : ℝ)) ^ 2 ≤ (n : ℝ) * 2 ^ p := by
      rw [pow_two]; exact_mod_cast hn
    exact hn'.trans (mul_le_mul_of_nonneg_right h h2.le)
  · intro h
    rw [Real.sqrt_le_left (by positivity)]
    have hn : n * 2 ^ p < ((n * 2 ^ p).sqrt + 1) * ((n * 2 ^ p).sqrt + 1) := Nat.lt_succ_sqrt (n * 2 ^ p)
    have hn' : (n : ℝ) * 2 ^ p ≤ (((n * 2 ^ p).sqrt : ℝ) + 1) ^ 2 := by
      rw [pow_two]; exact_mod_cast hn.le
    exact (mul_le_mul_of_nonneg_right h h2.le).trans hn'

theorem Bracket.sqrt_encloses {p : Nat} {a : Bracket} {x : ℝ} (ha : a.Encloses p x) : (a.sqrt p).Encloses p (√x) := by
  have h2 : (0 : ℝ) < 2 ^ p := by positivity
  constructor
  · simp only [Bracket.sqrt]
    push_cast
    rcases le_total 0 a.lo with h | h
    · refine (isqrt_scaled _ p x).1 ?_
      have : ((a.lo.toNat : ℕ) : ℝ) = (a.lo : ℝ) := by exact_mod_cast Int.toNat_of_nonneg h
      rw [this]; exact ha.1
    · rw [Int.toNat_of_nonpos h]
      simp [isqrt_eq_sqrt]
  · simp only [Bracket.sqrt]
    push_cast
    refine (isqrt_scaled _ p x).2 ?_
    have : (a.hi : ℝ) ≤ ((a.hi.toNat : ℕ) : ℝ) := by exact_mod_cast Int.self_le_toNat a.hi
    exact ha.2.trans this

theorem Bracket.max_encloses {p : Nat} {a b : Bracket} {x y : ℝ} (ha : a.Encloses p x) (hb : b.Encloses p y) :
    (a.max b).Encloses p (Max.max x y) := by
  have h2 : (0 : ℝ) ≤ 2 ^ p := by positivity
  have e : Max.max x y * 2 ^ p = Max.max (x * 2 ^ p) (y * 2 ^ p) := max_mul_of_nonneg x y h2
  rw [Bracket.Encloses, e]
  simp only [Bracket.max]
  push_cast
  exact ⟨max_le_max ha.1 hb.1, max_le_max ha.2 hb.2⟩

/-! ## The cosine -/

theorem Bracket.double_encloses {p : Nat} {c : Bracket} {t : ℝ} (hc : c.Encloses p (Real.cos t)) :
    (c.double p).Encloses p (Real.cos (2 * t)) := by
  have h := Bracket.mul_encloses hc hc
  rw [Bracket.Encloses, Real.cos_two_mul]
  simp only [Bracket.double]
  push_cast
  obtain ⟨h1, h2⟩ := h
  constructor
  · calc (2 : ℝ) * (c.mul p c).lo - 2 ^ p ≤ 2 * (Real.cos t * Real.cos t * 2 ^ p) - 2 ^ p := by linarith
      _ = (2 * Real.cos t ^ 2 - 1) * 2 ^ p := by ring
  · calc (2 * Real.cos t ^ 2 - 1) * 2 ^ p = 2 * (Real.cos t * Real.cos t * 2 ^ p) - 2 ^ p := by ring
      _ ≤ 2 * (c.mul p c).hi - 2 ^ p := by linarith

theorem Bracket.doubled_encloses {p : Nat} (m : Nat) {c : Bracket} {t : ℝ} (hc : c.Encloses p (Real.cos t)) :
    (Bracket.doubled p m c).Encloses p (Real.cos (2 ^ m * t)) := by
  induction m generalizing c t with
  | zero => simpa [Bracket.doubled] using hc
  | succ m ih =>
    have h := ih (Bracket.double_encloses hc)
    have e : (2 : ℝ) ^ (m + 1) * t = 2 ^ m * (2 * t) := by ring
    rw [Bracket.doubled, e]
    exact h

theorem Bracket.cosSmall_encloses {p : Nat} {b : Bracket} {y : ℝ} (hb : b.Encloses p y) (h0 : 0 ≤ y) (h1 : y ≤ 1) :
    (Bracket.cosSmall p b).Encloses p (Real.cos y) := by
  have hs := Bracket.mul_encloses hb hb
  have hw := Bracket.mul_encloses hs hs
  have h2 : (0 : ℝ) < 2 ^ p := by positivity
  have hc := abs_le.1 (Real.cos_bound (x := y) (by rw [abs_of_nonneg h0]; exact h1))
  rw [abs_of_nonneg h0] at hc
  have hy4 : y ^ 4 * (5 / 96) * 2 ^ p ≤ (ceilDiv ((b.mul p b).mul p (b.mul p b)).hi 16 : ℝ) := by
    refine le_ceilDiv_of_le (by norm_num) ?_
    push_cast
    rw [le_div_iff₀ (by norm_num)]
    refine le_trans ?_ hw.2
    have : 0 ≤ y ^ 4 * 2 ^ p := by positivity
    nlinarith
  have hhi : y ^ 2 / 2 * 2 ^ p ≤ (ceilDiv (b.mul p b).hi 2 : ℝ) := by
    refine le_ceilDiv_of_le (by norm_num) ?_
    push_cast
    rw [le_div_iff₀ (by norm_num)]
    refine le_trans (le_of_eq ?_) hs.2
    ring
  have hlo : (((b.mul p b).lo / 2 : Int) : ℝ) ≤ y ^ 2 / 2 * 2 ^ p := by
    refine intDiv_le_of_le (by norm_num) ?_
    push_cast
    rw [div_le_iff₀ (by norm_num)]
    refine hs.1.trans (le_of_eq ?_)
    ring
  have hc1 := mul_le_mul_of_nonneg_right hc.1 h2.le
  have hc2 := mul_le_mul_of_nonneg_right hc.2 h2.le
  constructor
  · simp only [Bracket.cosSmall]
    push_cast
    linarith
  · simp only [Bracket.cosSmall]
    push_cast
    linarith

end Sys2Proof.Machine
end

