-- ==== Sys2Proof/Laws/Pi.lean ====
section
/-! SUPPORT. The constant of Machine/Bracket.lean is π to its last place: Machin's formula with alternating partial sums
of the arctangent series. -/

namespace Sys2Proof.Machine

/-- The exact terms of the arctangent series. -/
noncomputable def atanTerm (x : ℝ) (n : Nat) : ℝ := x ^ (2 * n + 1) / (2 * n + 1)

theorem atanTerm_antitone {x : ℝ} (h0 : 0 ≤ x) (h1 : x ≤ 1) : Antitone (atanTerm x) := by
  apply antitone_nat_of_succ_le
  intro n
  unfold atanTerm
  apply div_le_div₀ (by positivity) _ (by positivity) (by push_cast; linarith)
  exact pow_le_pow_of_le_one h0 h1 (by omega)

theorem atan_tendsto {x : ℝ} (h0 : 0 ≤ x) (h1 : x < 1) :
    Filter.Tendsto (fun n => ∑ i ∈ Finset.range n, (-1 : ℝ) ^ i * atanTerm x i) Filter.atTop (nhds (Real.arctan x)) := by
  have h := (Real.hasSum_arctan (x := x) (by rw [Real.norm_eq_abs, abs_of_nonneg h0]; exact h1)).tendsto_sum_nat
  refine h.congr fun n => Finset.sum_congr rfl fun i _ => ?_
  unfold atanTerm
  push_cast
  ring

theorem atanSum_close (b m n : Nat) (hm : 0 < m) :
    |(atanSum b m n : ℝ) - 2 ^ b * ∑ i ∈ Finset.range n, (-1 : ℝ) ^ i * atanTerm (1 / m) i| ≤ n := by
  induction n with
  | zero => simp [atanSum]
  | succ n ih =>
    have hd : (0 : Int) < (((2 * n + 1) * m ^ (2 * n + 1) : Nat) : Int) := by
      exact_mod_cast Nat.mul_pos (by omega) (Nat.pow_pos hm)
    have hd' : (0 : ℝ) < (((2 * n + 1) * m ^ (2 * n + 1) : Nat) : ℝ) := by exact_mod_cast hd
    set d : Nat := (2 * n + 1) * m ^ (2 * n + 1) with hdef
    have hlo := intDiv_le (a := 2 ^ b) hd
    have hhi : (2 : ℝ) ^ b / (d : ℝ) < ((2 ^ b / (d : Int) : Int) : ℝ) + 1 := by
      rw [div_lt_iff₀ hd']
      have := Int.lt_ediv_add_one_mul_self (2 ^ b) hd
      exact_mod_cast this
    have ht : 2 ^ b * atanTerm (1 / m) n = 2 ^ b / (d : ℝ) := by
      rw [hdef]
      unfold atanTerm
      push_cast
      have : (m : ℝ) ≠ 0 := by exact_mod_cast hm.ne'
      field_simp
      rw [← mul_pow, one_div_mul_cancel this, one_pow]
    push_cast at hlo hhi
    rw [Finset.sum_range_succ, atanSum, ← hdef]
    push_cast
    have key : |((2 ^ b / (d : Int) : Int) : ℝ) - 2 ^ b * atanTerm (1 / m) n| ≤ 1 := by
      rw [ht, abs_le]
      constructor <;> linarith
    have e : (atanSum b m n : ℝ) + (-1) ^ n * ((2 ^ b / (d : Int) : Int) : ℝ) -
        2 ^ b * (∑ i ∈ Finset.range n, (-1 : ℝ) ^ i * atanTerm (1 / m) i + (-1) ^ n * atanTerm (1 / m) n) =
        ((atanSum b m n : ℝ) - 2 ^ b * ∑ i ∈ Finset.range n, (-1 : ℝ) ^ i * atanTerm (1 / m) i) +
          (-1) ^ n * (((2 ^ b / (d : Int) : Int) : ℝ) - 2 ^ b * atanTerm (1 / m) n) := by ring
    rw [e]
    refine (abs_add_le _ _).trans (add_le_add ih ?_)
    rw [abs_mul, abs_pow, abs_neg, abs_one, one_pow, one_mul]
    exact key

/-- The arctangent of 1/m between two rounded partial sums. -/
theorem arctan_between (b m k : Nat) (hm : 1 < m) :
    (atanSum b m (2 * k) : ℝ) - (2 * k : Nat) ≤ 2 ^ b * Real.arctan (1 / m) ∧
      2 ^ b * Real.arctan (1 / m) ≤ (atanSum b m (2 * k + 1) : ℝ) + (2 * k + 1 : Nat) := by
  have hm' : (1 : ℝ) < (m : ℝ) := by exact_mod_cast hm
  have h0 : (0 : ℝ) ≤ 1 / (m : ℝ) := by positivity
  have h1 : 1 / (m : ℝ) < 1 := by rw [div_lt_one (by linarith)]; exact hm'
  have ht := atan_tendsto h0 h1
  have ha := atanTerm_antitone h0 h1.le
  have lo := ha.alternating_series_le_tendsto ht k
  have hi := ha.tendsto_le_alternating_series ht k
  have c0 := abs_le.1 (atanSum_close b m (2 * k) (by omega))
  have c1 := abs_le.1 (atanSum_close b m (2 * k + 1) (by omega))
  have h2 : (0 : ℝ) < 2 ^ b := by positivity
  have lo' := mul_le_mul_of_nonneg_left lo h2.le
  have hi' := mul_le_mul_of_nonneg_left hi h2.le
  constructor
  · linarith [c0.2]
  · linarith [c1.1]

/-- The integer comparison that settles the constant. -/
theorem piScaled_numeric :
    2 ^ 60 * piScaled ≤ 16 * (atanSum 460 5 90 - 90) - 4 * (atanSum 460 239 31 + 31) ∧
      16 * (atanSum 460 5 91 + 91) - 4 * (atanSum 460 239 30 - 30) ≤ 2 ^ 60 * (piScaled + 1) := by
  decide +kernel

/-- π · 2^400 lies between the constant and the next integer. -/
theorem piScaled_bounds :
    (piScaled : ℝ) ≤ Real.pi * 2 ^ piBits ∧ Real.pi * 2 ^ piBits ≤ (piScaled : ℝ) + 1 := by
  have a5 := arctan_between 460 5 45 (by norm_num)
  have a239 := arctan_between 460 239 15 (by norm_num)
  have hp : Real.pi = 16 * Real.arctan (1 / 5) - 4 * Real.arctan (1 / 239) := by
    have := Real.four_mul_arctan_inv_5_sub_arctan_inv_239
    rw [one_div, one_div]
    linarith
  have n1 : (2 : ℝ) ^ 60 * (piScaled : ℝ) ≤ 16 * ((atanSum 460 5 90 : ℝ) - 90) - 4 * ((atanSum 460 239 31 : ℝ) + 31) := by
    exact_mod_cast piScaled_numeric.1
  have n2 : 16 * ((atanSum 460 5 91 : ℝ) + 91) - 4 * ((atanSum 460 239 30 : ℝ) - 30) ≤ (2 : ℝ) ^ 60 * ((piScaled : ℝ) + 1) := by
    exact_mod_cast piScaled_numeric.2
  have e : Real.pi * 2 ^ piBits * 2 ^ 60 =
      16 * (2 ^ 460 * Real.arctan (1 / 5)) - 4 * (2 ^ 460 * Real.arctan (1 / 239)) := by
    rw [hp, piBits]
    have : (2 : ℝ) ^ 460 = 2 ^ 400 * 2 ^ 60 := by rw [← pow_add]
    rw [this]
    generalize (2 : ℝ) ^ 400 = u
    ring
  norm_num only [Nat.cast_ofNat] at a5 a239
  have h60 : (0 : ℝ) < 2 ^ 60 := by positivity
  constructor
  · nlinarith [a5.1, a239.2]
  · nlinarith [a5.2, a239.1]

end Sys2Proof.Machine
end

