-- ==== Sys2Proof/Laws/BracketSound.lean ====
section
/-! SUPPORT. Every enclosure of an exact number holds its real value: `Exact.bracket_sound`. -/

namespace Sys2Proof.Machine

theorem Bracket.angle_encloses (w m : Nat) {r : ℚ} (h : 0 ≤ r) :
    (Bracket.angle w m r).Encloses w (2 * Real.pi * (r : ℝ) / 2 ^ m) := by
  have hd : (0 : Int) < (r.den : Int) * 2 ^ (piBits + m) := by
    have : (0 : Int) < (r.den : Int) := by exact_mod_cast r.den_pos
    positivity
  have hdr : (0 : ℝ) < (r.den : ℝ) := by exact_mod_cast r.den_pos
  have hn : (0 : ℝ) ≤ (r.num : ℝ) := by exact_mod_cast Rat.num_nonneg.2 h
  have hr : (r : ℝ) = (r.num : ℝ) / (r.den : ℝ) := by
    conv_lhs => rw [← Rat.num_div_den r]
    push_cast
    rfl
  obtain ⟨p1, p2⟩ := piScaled_bounds
  have e : 2 * Real.pi * (r : ℝ) / 2 ^ m * 2 ^ w =
      2 * (r.num : ℝ) * (Real.pi * 2 ^ piBits) * 2 ^ w / ((r.den : ℝ) * 2 ^ (piBits + m)) := by
    rw [hr, pow_add]
    generalize piBits = k
    field_simp
  rw [Bracket.Encloses, e]
  constructor
  · refine intDiv_le_of_le hd ?_
    push_cast
    gcongr
  · refine le_ceilDiv_of_le hd ?_
    push_cast
    gcongr

/-- Lowering the precision of an enclosure. -/
theorem Bracket.lower_encloses {p w : Nat} (hpw : p ≤ w) {c : Bracket} {v : ℝ} (hc : c.Encloses w v) :
    (⟨c.lo / 2 ^ (w - p), ceilDiv c.hi (2 ^ (w - p))⟩ : Bracket).Encloses p v := by
  have e : v * 2 ^ w = v * 2 ^ p * 2 ^ (w - p) := by rw [mul_assoc, ← pow_add, Nat.add_sub_cancel' hpw]
  have h2 : (0 : ℝ) < 2 ^ (w - p) := by positivity
  obtain ⟨h1, h3⟩ := hc
  rw [e] at h1 h3
  constructor
  · refine intDiv_le_of_le (two_pow_pos_int _) ?_
    push_cast
    rwa [div_le_iff₀ h2]
  · refine le_ceilDiv_of_le (two_pow_pos_int _) ?_
    push_cast
    rwa [le_div_iff₀ h2]

theorem Bracket.cosTurn_encloses (p : Nat) (q : ℚ) :
    (Bracket.cosTurn p q).Encloses p (Real.cos (2 * Real.pi * (q : ℝ))) := by
  obtain ⟨r0, r1⟩ := halfTurn_range q
  have r0' : (0 : ℝ) ≤ (halfTurn q : ℝ) := by exact_mod_cast r0
  have r1' : (halfTurn q : ℝ) ≤ 1 / 2 := by
    have := (Rat.cast_le (K := ℝ)).2 r1
    push_cast at this
    exact this
  have hm : (2 : ℝ) ^ 4 ≤ 2 ^ (p / 2 + 4) := pow_le_pow_right₀ (by norm_num) (by omega)
  have hpos : (0 : ℝ) < 2 ^ (p / 2 + 4) := by positivity
  have ha := Bracket.angle_encloses (2 * p + 24) (p / 2 + 4) r0
  have hc := Bracket.doubled_encloses (p / 2 + 4) (Bracket.cosSmall_encloses ha
    (div_nonneg (mul_nonneg (by positivity) r0') hpos.le)
    (by
      rw [div_le_one hpos]
      nlinarith [Real.pi_lt_four, Real.pi_pos]))
  rw [mul_div_cancel₀ _ hpos.ne', cos_halfTurn] at hc
  exact Bracket.lower_encloses (by omega) hc

theorem unitPart_abs_le {part x y d : ℝ} (hp : part = x ∨ part = y) (hd : |d| ≤ 1) : |unitPart part x y d| ≤ 1 := by
  unfold unitPart
  split
  · exact hd
  · rename_i h
    have hpos : 0 < √(x ^ 2 + y ^ 2) := by
      apply Real.sqrt_pos.2
      rcases not_and_or.1 h with h | h
      · have := sq_pos_of_ne_zero h; positivity
      · have := sq_pos_of_ne_zero h; positivity
    rw [abs_div, abs_of_pos hpos, div_le_one hpos]
    apply Real.abs_le_sqrt
    rcases hp with rfl | rfl
    · nlinarith [sq_nonneg y]
    · nlinarith [sq_nonneg x]

theorem Bracket.clip_encloses {p : Nat} {a : Bracket} {v : ℝ} (ha : a.Encloses p v) (hv : |v| ≤ 1) :
    (a.clip p).Encloses p v := by
  have h2 : (0 : ℝ) < 2 ^ p := by positivity
  obtain ⟨v1, v2⟩ := abs_le.1 hv
  simp only [Bracket.Encloses, Bracket.clip]
  push_cast
  exact ⟨max_le ha.1 (by nlinarith), le_min ha.2 (by nlinarith)⟩

theorem Bracket.unitPart_encloses {p : Nat} {c a b : Bracket} {z x y d : ℝ} (hc : c.Encloses p z)
    (ha : a.Encloses p x) (hb : b.Encloses p y) (hz : z = x ∨ z = y) (hd : |d| ≤ 1) :
    (Bracket.unitPart p c a b).Encloses p (Sys2Proof.Machine.unitPart z x y d) := by
  have h2 : (0 : ℝ) < 2 ^ p := by positivity
  have habs := unitPart_abs_le hz hd
  have hr := Bracket.sqrt_encloses (Bracket.add_encloses (Bracket.mul_encloses ha ha) (Bracket.mul_encloses hb hb))
  rw [← pow_two, ← pow_two] at hr
  unfold Bracket.unitPart
  simp only
  split
  · rename_i h0
    have hlo : (0 : ℝ) < ((((a.mul p a).add (b.mul p b)).sqrt p).lo : ℝ) := by exact_mod_cast h0
    have hpos : 0 < √(x ^ 2 + y ^ 2) * 2 ^ p := lt_of_lt_of_le hlo hr.1
    have hne : ¬(x = 0 ∧ y = 0) := by
      rintro ⟨rfl, rfl⟩
      simp at hpos
    refine Bracket.clip_encloses ?_ habs
    have := Bracket.divPos_encloses hc hr h0
    rwa [Sys2Proof.Machine.unitPart, if_neg hne]
  · obtain ⟨v1, v2⟩ := abs_le.1 habs
    simp only [Bracket.Encloses]
    push_cast
    constructor <;> nlinarith

/-- The enclosure of an exact number at any precision holds the real number it stands for. -/
theorem Exact.bracket_sound {p : Nat} {e : Exact} {b : Bracket} (h : e.bracket p = some b) : b.Encloses p e.val := by
  induction e generalizing b with
  | rat q =>
    obtain rfl := Option.some.inj h
    exact Bracket.ofRat_encloses p q
  | cosTurn q =>
    obtain rfl := Option.some.inj h
    exact Bracket.cosTurn_encloses p q
  | root a ih =>
    rw [Exact.bracket] at h
    split at h
    · rename_i x hx
      obtain rfl := Option.some.inj h
      exact Bracket.sqrt_encloses (ih hx)
    · cases h
  | sum a c iha ihc =>
    rw [Exact.bracket] at h
    split at h
    · rename_i x y hx hy
      obtain rfl := Option.some.inj h
      exact Bracket.add_encloses (iha hx) (ihc hy)
    · cases h
  | diff a c iha ihc =>
    rw [Exact.bracket] at h
    split at h
    · rename_i x y hx hy
      obtain rfl := Option.some.inj h
      have := Bracket.add_encloses (iha hx) (Bracket.neg_encloses (ihc hy))
      rwa [← sub_eq_add_neg] at this
    · cases h
  | prod a c iha ihc =>
    rw [Exact.bracket] at h
    split at h
    · rename_i x y hx hy
      obtain rfl := Option.some.inj h
      exact Bracket.mul_encloses (iha hx) (ihc hy)
    · cases h
  | quot a c iha ihc =>
    rw [Exact.bracket] at h
    split at h
    · rename_i x y hx hy
      exact Bracket.div_encloses (iha hx) (ihc hy) h
    · cases h
  | larger a c iha ihc =>
    rw [Exact.bracket] at h
    split at h
    · rename_i x y hx hy
      obtain rfl := Option.some.inj h
      exact Bracket.max_encloses (iha hx) (ihc hy)
    · cases h
  | unitRe a c iha ihc =>
    rw [Exact.bracket] at h
    split at h
    · rename_i x y hx hy
      obtain rfl := Option.some.inj h
      exact Bracket.unitPart_encloses (iha hx) (iha hx) (ihc hy) (Or.inl rfl) (by simp)
    · cases h
  | unitIm a c iha ihc =>
    rw [Exact.bracket] at h
    split at h
    · rename_i x y hx hy
      obtain rfl := Option.some.inj h
      exact Bracket.unitPart_encloses (ihc hy) (iha hx) (ihc hy) (Or.inr rfl) (by simp)
    · cases h

end Sys2Proof.Machine
end

