-- ==== Sys2Proof/Laws/Separation.lean ====
section
/-! SUPPORT. An exact number that is not zero has a least size: `Exact.separated`. The number lies in a number field of
bounded degree, its height there is bounded (Mathlib's `Height.mulHeight₁`), and so is the height of its inverse. -/

namespace Sys2Proof.Machine

open Height NumberField IntermediateField

/-! ## Heights in a number field -/

section Heights

/-- x has height at most 2^h for each degree of K. -/
def HeightAtMost {K : Type} [Field K] [NumberField K] (x : K) (h : ℕ) : Prop :=
  mulHeight₁ x ≤ 2 ^ (h * Module.finrank ℚ K)

variable {K : Type} [Field K] [NumberField K]

theorem HeightAtMost.add {x y : K} {a b : ℕ} (hx : HeightAtMost x a) (hy : HeightAtMost y b) :
    HeightAtMost (x + y) (1 + a + b) := by
  unfold HeightAtMost at *
  have h := mulHeight₁_add_le x y
  rw [totalWeight_eq_finrank] at h
  refine h.trans ?_
  rw [add_mul, add_mul, one_mul, pow_add, pow_add]
  gcongr

theorem HeightAtMost.sub {x y : K} {a b : ℕ} (hx : HeightAtMost x a) (hy : HeightAtMost y b) :
    HeightAtMost (x - y) (1 + a + b) := by
  rw [sub_eq_add_neg]
  refine hx.add ?_
  rwa [HeightAtMost, mulHeight₁_neg]

theorem HeightAtMost.mul {x y : K} {a b : ℕ} (hx : HeightAtMost x a) (hy : HeightAtMost y b) :
    HeightAtMost (x * y) (a + b) := by
  unfold HeightAtMost at *
  refine (mulHeight₁_mul_le x y).trans ?_
  rw [add_mul, pow_add]
  gcongr

theorem HeightAtMost.inv {x : K} {a : ℕ} (hx : HeightAtMost x a) : HeightAtMost x⁻¹ a := by
  rwa [HeightAtMost, mulHeight₁_inv]

theorem HeightAtMost.div {x y : K} {a b : ℕ} (hx : HeightAtMost x a) (hy : HeightAtMost y b) :
    HeightAtMost (x / y) (a + b) := by
  rw [div_eq_mul_inv]; exact hx.mul hy.inv

theorem HeightAtMost.mono {x : K} {a b : ℕ} (hx : HeightAtMost x a) (h : a ≤ b) : HeightAtMost x b := by
  unfold HeightAtMost at *
  exact hx.trans (pow_le_pow_right₀ (by norm_num) (Nat.mul_le_mul_right _ h))

theorem HeightAtMost.of_sq {x y : K} {a : ℕ} (hx : HeightAtMost x a) (h : y ^ 2 = x) : HeightAtMost y ((a + 1) / 2) := by
  unfold HeightAtMost at *
  rw [← h, mulHeight₁_pow] at hx
  refine (pow_le_pow_iff_left₀ (mulHeight₁_nonneg y) (by positivity) two_ne_zero).1 ?_
  refine hx.trans ?_
  rw [← pow_mul]
  refine pow_le_pow_right₀ (by norm_num) ?_
  calc a * Module.finrank ℚ K ≤ ((a + 1) / 2 * 2) * Module.finrank ℚ K := Nat.mul_le_mul_right _ (by omega)
    _ = _ := by ring

theorem HeightAtMost.of_pow_eq_one {x : K} {n : ℕ} (hn : n ≠ 0) (h : x ^ n = 1) : HeightAtMost x 0 := by
  unfold HeightAtMost
  have := mulHeight₁_pow x n
  rw [h, mulHeight₁_one] at this
  have h1 := one_le_mulHeight₁ x
  rw [zero_mul, pow_zero]
  exact (pow_eq_one_iff_of_nonneg (by positivity) hn).1 this.symm |>.le

theorem heightAtMost_intCast (n : ℤ) : HeightAtMost (n : K) (n.natAbs.log2 + 1) := by
  unfold HeightAtMost
  rw [NumberField.mulHeight₁_eq]
  have hfin : ∏ᶠ v : FinitePlace K, max (v (n : K)) 1 = 1 := by
    apply finprod_eq_one_of_forall_eq_one
    intro v
    have hv : IsNonarchimedean (v ·) := FinitePlace.add_le v
    exact max_eq_right (IsNonarchimedean.apply_intCast_le_one hv)
  rw [hfin, mul_one]
  have : ∀ v : InfinitePlace K, max (v (n : K)) 1 ^ v.mult ≤ (2 ^ (n.natAbs.log2 + 1)) ^ v.mult := by
    intro v
    gcongr
    apply max_le
    · have h1 : v (n : K) = |(n : ℝ)| := by
        rw [← v.norm_embedding_eq]; simp
      rw [h1, ← Int.cast_abs, Int.abs_eq_natAbs]
      have := (Nat.lt_log2_self (n := n.natAbs)).le
      exact_mod_cast this
    · exact one_le_pow₀ (by norm_num)
  refine (Finset.prod_le_prod (fun v _ => by positivity) (fun v _ => this v)).trans ?_
  rw [Finset.prod_pow_eq_pow_sum, InfinitePlace.sum_mult_eq, ← pow_mul]

theorem heightAtMost_ratCast (q : ℚ) : HeightAtMost (q : K) (q.num.natAbs.log2 + 1 + (q.den.log2 + 1)) := by
  have h := (heightAtMost_intCast (K := K) q.num).div (heightAtMost_intCast (K := K) (q.den : ℤ))
  have e : ((q.num : ℤ) : K) / (((q.den : ℕ) : ℤ) : K) = (q : K) := by
    rw [Int.cast_natCast, Rat.cast_def]
  rw [e] at h
  exact h

/-- A number that is not zero is at least the inverse of its height, at any embedding. -/
theorem HeightAtMost.le_norm {x : K} {a : ℕ} (hx : HeightAtMost x a) (h0 : x ≠ 0) (σ : K →+* ℂ) :
    1 ≤ ‖σ x‖ * 2 ^ (a * Module.finrank ℚ K) := by
  have h := hx.inv
  unfold HeightAtMost at h
  have hp : 0 < ‖σ x‖ := norm_pos_iff.2 ((map_ne_zero σ).2 h0)
  have key : ‖σ x‖⁻¹ ≤ mulHeight₁ x⁻¹ := by
    classical
    rw [NumberField.mulHeight₁_eq]
    have hfin : 1 ≤ ∏ᶠ v : FinitePlace K, max (v x⁻¹) 1 := one_le_finprod fun v => le_max_right _ _
    refine le_trans ?_ (le_mul_of_one_le_right (Finset.prod_nonneg fun v _ => by positivity) hfin)
    have hv : ‖σ x‖⁻¹ = InfinitePlace.mk σ x⁻¹ := by
      rw [InfinitePlace.apply, map_inv₀, norm_inv]
    rw [hv]
    rw [← Finset.mul_prod_erase _ _ (Finset.mem_univ (InfinitePlace.mk σ))]
    have h1 : InfinitePlace.mk σ x⁻¹ ≤ max (InfinitePlace.mk σ x⁻¹) 1 ^ (InfinitePlace.mk σ).mult :=
      (le_max_left _ _).trans (le_self_pow₀ (le_max_right _ _) InfinitePlace.mult_ne_zero)
    have h2 : 1 ≤ ∏ v ∈ Finset.univ.erase (InfinitePlace.mk σ), max (v x⁻¹) 1 ^ v.mult :=
      Finset.one_le_prod fun v _ => one_le_pow₀ (le_max_right _ _)
    exact h1.trans (le_mul_of_one_le_right (by positivity) h2)
  calc (1 : ℝ) = ‖σ x‖ * ‖σ x‖⁻¹ := (mul_inv_cancel₀ hp.ne').symm
    _ ≤ _ := by gcongr; exact key.trans h

end Heights

/-! ## A tower of square roots over a field of roots of unity -/

/-- A field adjoined one element that is a root of a polynomial of degree d. -/
theorem finrank_adjoin_le {F : IntermediateField ℚ ℂ} [FiniteDimensional ℚ F] {x : ℂ} {p : Polynomial F} {d : ℕ} (hp : p ≠ 0)
    (hx : Polynomial.aeval x p = 0) (hd : p.natDegree ≤ d) :
    FiniteDimensional ℚ ((IntermediateField.adjoin F {x}).restrictScalars ℚ) ∧
    Module.finrank ℚ ((IntermediateField.adjoin F {x}).restrictScalars ℚ) ≤ Module.finrank ℚ F * d := by
  have hi : IsIntegral F x := by
    rw [← isAlgebraic_iff_isIntegral]; exact ⟨p, hp, hx⟩
  have : FiniteDimensional F F⟮x⟯ := adjoin.finiteDimensional hi
  have h1 : Module.finrank F F⟮x⟯ ≤ d := by
    rw [adjoin.finrank hi]
    exact (Polynomial.natDegree_le_of_dvd (minpoly.dvd F x hx) hp).trans hd
  have hfin : FiniteDimensional ℚ F⟮x⟯ := FiniteDimensional.trans ℚ F F⟮x⟯
  have h2 : Module.finrank ℚ F * Module.finrank F F⟮x⟯ = Module.finrank ℚ F⟮x⟯ := Module.finrank_mul_finrank ℚ F F⟮x⟯
  refine ⟨hfin, ?_⟩
  show Module.finrank ℚ F⟮x⟯ ≤ _
  rw [← h2]
  gcongr

/-- exp(2πi/n). -/
noncomputable def turnRoot (n : ℕ) : ℂ := Complex.exp (2 * Real.pi * Complex.I / n)

noncomputable def tower (n : ℕ) : List Exact → IntermediateField ℚ ℂ
  | [] => ((IntermediateField.adjoin (⊥ : IntermediateField ℚ ℂ) {turnRoot n}).restrictScalars ℚ)
  | r :: rs => (IntermediateField.adjoin (tower n rs) {((√r.val : ℝ) : ℂ)}).restrictScalars ℚ

def Closed (n : ℕ) : List Exact → Prop
  | [] => True
  | r :: rs => ((r.val : ℝ) : ℂ) ∈ tower n rs ∧ Closed n rs

theorem turnRoot_pow {n : ℕ} (hn : 0 < n) : turnRoot n ^ n = 1 := by
  have : (n : ℂ) ≠ 0 := by exact_mod_cast hn.ne'
  rw [turnRoot, ← Complex.exp_nat_mul, mul_div_cancel₀ _ this, Complex.exp_two_pi_mul_I]

theorem tower_finrank {n : ℕ} (hn : 0 < n) : ∀ rs : List Exact, Closed n rs →
    FiniteDimensional ℚ (tower n rs) ∧ Module.finrank ℚ (tower n rs) ≤ n.totient * 2 ^ rs.length
  | [], _ => by
    have h := finrank_adjoin_le (F := ⊥) (x := turnRoot n) (Polynomial.cyclotomic_ne_zero n (⊥ : IntermediateField ℚ ℂ))
      (d := n.totient) (by
        rw [Polynomial.aeval_def, Polynomial.eval₂_eq_eval_map, Polynomial.map_cyclotomic]
        exact (Complex.isPrimitiveRoot_exp n hn.ne').isRoot_cyclotomic hn) (Polynomial.natDegree_cyclotomic n _).le
    refine ⟨h.1, h.2.trans ?_⟩
    rw [IntermediateField.finrank_bot]
    simp
  | r :: rs, hc => by
    obtain ⟨h1, h2⟩ := tower_finrank hn rs hc.2
    obtain ⟨p, hp, hx, hd⟩ : ∃ p : Polynomial (tower n rs), p ≠ 0 ∧
        Polynomial.aeval ((√r.val : ℝ) : ℂ) p = 0 ∧ p.natDegree ≤ 2 := by
      rcases le_total r.val 0 with h | h
      · exact ⟨Polynomial.X, Polynomial.X_ne_zero, by simp [Real.sqrt_eq_zero_of_nonpos h], by simp⟩
      · refine ⟨Polynomial.X ^ 2 - Polynomial.C ⟨_, hc.1⟩, Polynomial.X_pow_sub_C_ne_zero two_pos _, ?_, ?_⟩
        · rw [map_sub, Polynomial.aeval_X_pow, Polynomial.aeval_C, ← Complex.ofReal_pow, Real.sq_sqrt h]
          exact sub_self _
        · rw [Polynomial.natDegree_X_pow_sub_C]
    have h := finrank_adjoin_le hp hx hd
    refine ⟨h.1, h.2.trans ?_⟩
    rw [List.length_cons, pow_succ, ← mul_assoc]
    exact Nat.mul_le_mul_right 2 h2

/-! ## Which numbers lie in which field -/

/-- Every part of the expression lies in the field. -/
def Exact.InField (K : IntermediateField ℚ ℂ) : Exact → Prop
  | .rat _ => True
  | .cosTurn q => Complex.exp (2 * Real.pi * (q : ℝ) * Complex.I) ∈ K
  | .root a => a.InField K ∧ ((√a.val : ℝ) : ℂ) ∈ K
  | .sum a b => a.InField K ∧ b.InField K
  | .diff a b => a.InField K ∧ b.InField K
  | .prod a b => a.InField K ∧ b.InField K
  | .quot a b => a.InField K ∧ b.InField K
  | .larger a b => a.InField K ∧ b.InField K
  | .unitRe a b => (a.InField K ∧ b.InField K) ∧ ((√(Exact.squares a b).val : ℝ) : ℂ) ∈ K
  | .unitIm a b => (a.InField K ∧ b.InField K) ∧ ((√(Exact.squares a b).val : ℝ) : ℂ) ∈ K

theorem Exact.InField.mono {K L : IntermediateField ℚ ℂ} (h : K ≤ L) : ∀ {a : Exact}, a.InField K → a.InField L
  | .rat _, _ => trivial
  | .cosTurn _, ha => h ha
  | .root _, ha => ⟨ha.1.mono h, h ha.2⟩
  | .sum _ _, ha => ⟨ha.1.mono h, ha.2.mono h⟩
  | .diff _ _, ha => ⟨ha.1.mono h, ha.2.mono h⟩
  | .prod _ _, ha => ⟨ha.1.mono h, ha.2.mono h⟩
  | .quot _ _, ha => ⟨ha.1.mono h, ha.2.mono h⟩
  | .larger _ _, ha => ⟨ha.1.mono h, ha.2.mono h⟩
  | .unitRe _ _, ha => ⟨⟨ha.1.1.mono h, ha.1.2.mono h⟩, h ha.2⟩
  | .unitIm _ _, ha => ⟨⟨ha.1.1.mono h, ha.1.2.mono h⟩, h ha.2⟩

section Height

variable {K : IntermediateField ℚ ℂ} [NumberField K]

/-- A real number in the field with a bound on its height. -/
def HeightIn (K : IntermediateField ℚ ℂ) [NumberField K] (v : ℝ) (h : ℕ) : Prop :=
  ∃ x : K, (x : ℂ) = (v : ℂ) ∧ HeightAtMost x h

theorem HeightIn.add {u v : ℝ} {a b : ℕ} : HeightIn K u a → HeightIn K v b → HeightIn K (u + v) (1 + a + b)
  | ⟨x, ex, hx⟩, ⟨y, ey, hy⟩ => ⟨x + y, by push_cast; rw [ex, ey], hx.add hy⟩

theorem HeightIn.sub {u v : ℝ} {a b : ℕ} : HeightIn K u a → HeightIn K v b → HeightIn K (u - v) (1 + a + b)
  | ⟨x, ex, hx⟩, ⟨y, ey, hy⟩ => ⟨x - y, by push_cast; rw [ex, ey], hx.sub hy⟩

theorem HeightIn.mul {u v : ℝ} {a b : ℕ} : HeightIn K u a → HeightIn K v b → HeightIn K (u * v) (a + b)
  | ⟨x, ex, hx⟩, ⟨y, ey, hy⟩ => ⟨x * y, by push_cast; rw [ex, ey], hx.mul hy⟩

theorem HeightIn.div {u v : ℝ} {a b : ℕ} : HeightIn K u a → HeightIn K v b → HeightIn K (u / v) (a + b)
  | ⟨x, ex, hx⟩, ⟨y, ey, hy⟩ => ⟨x / y, by push_cast; rw [ex, ey], hx.div hy⟩

theorem HeightIn.mono {u : ℝ} {a b : ℕ} (h : a ≤ b) : HeightIn K u a → HeightIn K u b
  | ⟨x, ex, hx⟩ => ⟨x, ex, hx.mono h⟩

theorem HeightIn.zero (a : ℕ) : HeightIn K 0 a :=
  ⟨0, by simp, by simp [HeightAtMost, Height.mulHeight₁_zero, one_le_pow₀]⟩

theorem HeightIn.one (a : ℕ) : HeightIn K 1 a :=
  ⟨1, by simp, by simp [HeightAtMost, Height.mulHeight₁_one, one_le_pow₀]⟩

theorem HeightIn.sqrt {v : ℝ} {a : ℕ} (hm : ((√v : ℝ) : ℂ) ∈ K) : HeightIn K v a → HeightIn K (√v) ((a + 1) / 2)
  | ⟨x, ex, hx⟩ => by
    rcases le_total v 0 with h | h
    · rw [Real.sqrt_eq_zero_of_nonpos h]; exact HeightIn.zero _
    · have e : (⟨_, hm⟩ : K) ^ 2 = x := Subtype.ext (by
        push_cast
        rw [ex, ← Complex.ofReal_pow, Real.sq_sqrt h])
      exact ⟨⟨_, hm⟩, rfl, hx.of_sq e⟩

theorem HeightIn.max {u v : ℝ} {a b : ℕ} (hu : HeightIn K u a) (hv : HeightIn K v b) : HeightIn K (max u v) (a + b) := by
  rcases le_total u v with h | h
  · rw [max_eq_right h]; exact hv.mono (by omega)
  · rw [max_eq_left h]; exact hu.mono (by omega)

theorem HeightIn.unitPart {z x y d : ℝ} {a b c : ℕ} (hd : d = 0 ∨ d = 1) (hm : ((√(x * x + y * y) : ℝ) : ℂ) ∈ K)
    (hz : HeightIn K z c) (hx : HeightIn K x a) (hy : HeightIn K y b) :
    HeightIn K (unitPart z x y d) (c + (1 + (a + a) + (b + b) + 1) / 2) := by
  unfold Machine.unitPart
  split
  · rcases hd with rfl | rfl
    · exact HeightIn.zero _
    · exact HeightIn.one _
  · rw [pow_two, pow_two]
    exact hz.div (((hx.mul hx).add (hy.mul hy)).sqrt hm)

theorem HeightIn.cos {q : ℚ} (hm : Complex.exp (2 * Real.pi * (q : ℝ) * Complex.I) ∈ K) :
    HeightIn K (Real.cos (2 * Real.pi * q)) 3 := by
  have hz : HeightAtMost (⟨_, hm⟩ : K) 0 := by
    refine HeightAtMost.of_pow_eq_one (n := q.den) q.den_nz (Subtype.ext ?_)
    push_cast
    rw [← Complex.exp_nat_mul, Complex.exp_eq_one_iff]
    refine ⟨q.num, ?_⟩
    have hd : (q.den : ℂ) ≠ 0 := by exact_mod_cast q.den_nz
    have hq : (q : ℂ) = q.num / q.den := by exact_mod_cast (Rat.num_div_den q).symm
    rw [hq]
    field_simp
  refine ⟨((⟨_, hm⟩ : K) + (⟨_, hm⟩ : K)⁻¹) / ((2 : ℤ) : K), ?_, ?_⟩
  · push_cast
    rw [← Complex.exp_neg, Complex.cos]
    congr 3
    ring
  · have h2 := heightAtMost_intCast (K := K) 2
    have := (hz.add hz.inv).div h2
    exact this.mono (by decide)

/-- Every number of the field has the height its expression says. -/
theorem Exact.InField.heightIn : ∀ {a : Exact}, a.InField K → HeightIn K a.val a.height
  | .rat q, _ => ⟨(q : K), by simp [Exact.val], heightAtMost_ratCast q⟩
  | .cosTurn _, h => HeightIn.cos h
  | .root _, h => h.1.heightIn.sqrt h.2
  | .sum _ _, h => h.1.heightIn.add h.2.heightIn
  | .diff _ _, h => h.1.heightIn.sub h.2.heightIn
  | .prod _ _, h => h.1.heightIn.mul h.2.heightIn
  | .quot _ _, h => h.1.heightIn.div h.2.heightIn
  | .larger _ _, h => h.1.heightIn.max h.2.heightIn
  | .unitRe _ _, h => HeightIn.unitPart (Or.inr rfl) h.2 h.1.1.heightIn h.1.1.heightIn h.1.2.heightIn
  | .unitIm _ _, h => HeightIn.unitPart (Or.inl rfl) h.2 h.1.2.heightIn h.1.1.heightIn h.1.2.heightIn

end Height

/-! ## The field of an expression -/

theorem tower_le_cons (n : ℕ) (r : Exact) (rs : List Exact) : tower n rs ≤ tower n (r :: rs) := by
  intro x hx
  exact (IntermediateField.adjoin (tower n rs) {((√r.val : ℝ) : ℂ)}).algebraMap_mem ⟨x, hx⟩

theorem root_mem_cons (n : ℕ) (r : Exact) (rs : List Exact) : ((√r.val : ℝ) : ℂ) ∈ tower n (r :: rs) :=
  IntermediateField.mem_adjoin_simple_self (tower n rs) _

theorem root_mem (n : ℕ) {r : Exact} : ∀ {rs : List Exact}, r ∈ rs → ((√r.val : ℝ) : ℂ) ∈ tower n rs
  | s :: rs, h => by
    rcases List.mem_cons.1 h with rfl | h
    · exact root_mem_cons n r rs
    · exact tower_le_cons n s rs (root_mem n h)

theorem turnRoot_mem (n : ℕ) : ∀ rs, turnRoot n ∈ tower n rs
  | [] => IntermediateField.mem_adjoin_simple_self (⊥ : IntermediateField ℚ ℂ) (turnRoot n)
  | r :: rs => tower_le_cons n r rs (turnRoot_mem n rs)

/-- The field of rs' is closed and holds the field of rs. -/
structure Extends (n : ℕ) (rs rs' : List Exact) : Prop where
  closed : Closed n rs'
  le : tower n rs ≤ tower n rs'

theorem Extends.trans {n : ℕ} {a b c : List Exact} (h : Extends n a b) (k : Extends n b c) : Extends n a c :=
  ⟨k.closed, h.le.trans k.le⟩

theorem withNew_extends {n : ℕ} {r : Exact} {rs : List Exact} (hc : Closed n rs) (hr : ((r.val : ℝ) : ℂ) ∈ tower n rs) :
    Extends n rs (withNew r rs) ∧ ((√r.val : ℝ) : ℂ) ∈ tower n (withNew r rs) := by
  unfold withNew
  split
  · rename_i h; exact ⟨⟨hc, le_rfl⟩, root_mem n h⟩
  · exact ⟨⟨⟨hr, hc⟩, tower_le_cons n r rs⟩, root_mem_cons n r rs⟩

theorem exp_turn_mem {n : ℕ} (hn : 0 < n) {q : ℚ} (h : q.den ∣ n) (rs : List Exact) :
    Complex.exp (2 * Real.pi * (q : ℝ) * Complex.I) ∈ tower n rs := by
  obtain ⟨k, hk⟩ := h
  have e : Complex.exp (2 * Real.pi * (q : ℝ) * Complex.I) = turnRoot n ^ (q.num * k) := by
    rw [turnRoot, ← Complex.exp_int_mul]
    congr 1
    have hd : (q.den : ℂ) ≠ 0 := by exact_mod_cast q.den_nz
    have hk0 : (k : ℂ) ≠ 0 := by
      rintro h
      have : k = 0 := by exact_mod_cast h
      rw [this] at hk; omega
    have hq : (q : ℂ) = q.num / q.den := by exact_mod_cast (Rat.num_div_den q).symm
    rw [Complex.ofReal_ratCast, hq, hk]
    push_cast
    field_simp
  rw [e]
  exact zpow_mem (turnRoot_mem n rs) _

theorem tower_numberField {n : ℕ} (hn : 0 < n) {rs : List Exact} (hc : Closed n rs) : NumberField (tower n rs) :=
  have := (tower_finrank hn rs hc).1
  { to_charZero := inferInstance, to_finiteDimensional := this }

theorem Exact.InField.mem {n : ℕ} (hn : 0 < n) {rs : List Exact} (hc : Closed n rs) {a : Exact}
    (h : a.InField (tower n rs)) : ((a.val : ℝ) : ℂ) ∈ tower n rs := by
  have := tower_numberField hn hc
  obtain ⟨x, hx, -⟩ := h.heightIn
  rw [← hx]
  exact x.2

/-- The radicands of two expressions one after the other. -/
theorem radicands_two {n : ℕ} {a b : Exact} {rs : List Exact} 
    (ha : Extends n rs (a.radicands rs) ∧ a.InField (tower n (a.radicands rs)))
    (hb : Extends n (a.radicands rs) (b.radicands (a.radicands rs)) ∧ b.InField (tower n (b.radicands (a.radicands rs)))) :
    Extends n rs (b.radicands (a.radicands rs)) ∧
      a.InField (tower n (b.radicands (a.radicands rs))) ∧ b.InField (tower n (b.radicands (a.radicands rs))) :=
  ⟨ha.1.trans hb.1, ha.2.mono hb.1.le, hb.2⟩

theorem radicands_unit {n : ℕ} (hn : 0 < n) {a b : Exact} {rs rs' : List Exact} (h : Extends n rs rs')
    (ha : a.InField (tower n rs')) (hb : b.InField (tower n rs')) :
    Extends n rs (withNew (.squares a b) rs') ∧ ((a.InField (tower n (withNew (.squares a b) rs')) ∧
      b.InField (tower n (withNew (.squares a b) rs'))) ∧
      ((√(Exact.squares a b).val : ℝ) : ℂ) ∈ tower n (withNew (.squares a b) rs')) := by
  have hs : (Exact.squares a b).InField (tower n rs') := ⟨⟨ha, ha⟩, ⟨hb, hb⟩⟩
  have hw := withNew_extends h.closed (hs.mem hn h.closed)
  exact ⟨h.trans hw.1, ⟨ha.mono hw.1.le, hb.mono hw.1.le⟩, hw.2⟩

/-- The field of the radicands of an expression holds every part of it. -/
theorem radicands_spec {n : ℕ} (hn : 0 < n) : ∀ (a : Exact) (rs : List Exact), a.order ∣ n → Closed n rs →
    Extends n rs (a.radicands rs) ∧ a.InField (tower n (a.radicands rs))
  | .rat _, rs, _, hc => ⟨⟨hc, le_rfl⟩, trivial⟩
  | .cosTurn _, rs, ho, hc => ⟨⟨hc, le_rfl⟩, exp_turn_mem hn ho rs⟩
  | .root a, rs, ho, hc => by
    have ha := radicands_spec hn a rs ho hc
    have hw := withNew_extends ha.1.closed (ha.2.mem hn ha.1.closed)
    exact ⟨ha.1.trans hw.1, ha.2.mono hw.1.le, hw.2⟩
  | .sum a b, rs, ho, hc =>
    have ha := radicands_spec hn a rs ((Nat.dvd_lcm_left _ _).trans ho) hc
    radicands_two ha (radicands_spec hn b _ ((Nat.dvd_lcm_right _ _).trans ho) ha.1.closed)
  | .diff a b, rs, ho, hc =>
    have ha := radicands_spec hn a rs ((Nat.dvd_lcm_left _ _).trans ho) hc
    radicands_two ha (radicands_spec hn b _ ((Nat.dvd_lcm_right _ _).trans ho) ha.1.closed)
  | .prod a b, rs, ho, hc =>
    have ha := radicands_spec hn a rs ((Nat.dvd_lcm_left _ _).trans ho) hc
    radicands_two ha (radicands_spec hn b _ ((Nat.dvd_lcm_right _ _).trans ho) ha.1.closed)
  | .quot a b, rs, ho, hc =>
    have ha := radicands_spec hn a rs ((Nat.dvd_lcm_left _ _).trans ho) hc
    radicands_two ha (radicands_spec hn b _ ((Nat.dvd_lcm_right _ _).trans ho) ha.1.closed)
  | .larger a b, rs, ho, hc =>
    have ha := radicands_spec hn a rs ((Nat.dvd_lcm_left _ _).trans ho) hc
    radicands_two ha (radicands_spec hn b _ ((Nat.dvd_lcm_right _ _).trans ho) ha.1.closed)
  | .unitRe a b, rs, ho, hc =>
    have ha := radicands_spec hn a rs ((Nat.dvd_lcm_left _ _).trans ho) hc
    have h := radicands_two ha (radicands_spec hn b _ ((Nat.dvd_lcm_right _ _).trans ho) ha.1.closed)
    radicands_unit hn h.1 h.2.1 h.2.2
  | .unitIm a b, rs, ho, hc =>
    have ha := radicands_spec hn a rs ((Nat.dvd_lcm_left _ _).trans ho) hc
    have h := radicands_two ha (radicands_spec hn b _ ((Nat.dvd_lcm_right _ _).trans ho) ha.1.closed)
    radicands_unit hn h.1 h.2.1 h.2.2

theorem Exact.order_pos (a : Exact) : 0 < a.order := by
  induction a with
  | rat _ => exact one_pos
  | cosTurn q => exact q.den_pos
  | root _ ih => exact ih
  | sum _ _ h k => exact Nat.lcm_pos h k
  | diff _ _ h k => exact Nat.lcm_pos h k
  | prod _ _ h k => exact Nat.lcm_pos h k
  | quot _ _ h k => exact Nat.lcm_pos h k
  | larger _ _ h k => exact Nat.lcm_pos h k
  | unitRe _ _ h k => exact Nat.lcm_pos h k
  | unitIm _ _ h k => exact Nat.lcm_pos h k

/-- An exact number that is not zero is at least 2^−sepBits in size. -/
theorem Exact.separated {a : Exact} (h0 : a.val ≠ 0) : 1 ≤ |a.val| * 2 ^ a.sepBits := by
  obtain ⟨hx, hf⟩ := radicands_spec a.order_pos a [] dvd_rfl trivial
  have := tower_numberField a.order_pos hx.closed
  obtain ⟨x, ex, hh⟩ := hf.heightIn
  have hx0 : x ≠ 0 := by
    rintro rfl
    apply h0
    exact Complex.ofReal_eq_zero.1 ex.symm
  have h := hh.le_norm hx0 (tower a.order (a.radicands [])).val.toRingHom
  have e : ‖(tower a.order (a.radicands [])).val.toRingHom x‖ = |a.val| := by
    show ‖(x : ℂ)‖ = _
    rw [ex, Complex.norm_real, Real.norm_eq_abs]
  rw [e] at h
  refine h.trans ?_
  have := (tower_finrank a.order_pos _ hx.closed).2
  gcongr
  · norm_num
  · exact Nat.mul_le_mul_left _ this

end Sys2Proof.Machine
end

