-- ==== Sys2Proof/Laws/Approx.lean ====
section
/-! SUPPORT. The approximations of Machine/Approx.lean are as close as they claim (`Exact.approx_of`), and the sign and the
comparison are those of the real numbers (`Exact.sign_eq`, `Exact.less_iff`). -/

namespace Sys2Proof.Machine

/-- a approximates the number v. -/
structure Approx.Of (a : Approx) (v : ℝ) : Prop where
  size : |v| ≤ 2 ^ a.size
  near : ∀ p, |v * 2 ^ p - a.scaled p| ≤ 1

/-! ## Rounding -/

theorem nearestDiv_pos {a b : Int} (hb : 0 < b) : |(((2 * a + b) / (2 * b) : Int) : ℝ) - (a : ℝ) / b| ≤ 1 / 2 := by
  have hb' : (0 : ℝ) < b := by exact_mod_cast hb
  have h1 : (2 * a + b) / (2 * b) * (2 * b) ≤ 2 * a + b := Int.ediv_mul_le _ (by omega)
  have h2 : 2 * a + b < ((2 * a + b) / (2 * b) + 1) * (2 * b) := Int.lt_ediv_add_one_mul_self _ (by omega)
  generalize (2 * a + b) / (2 * b) = z at h1 h2
  have h1' : (z : ℝ) * (2 * b) ≤ 2 * a + b := by exact_mod_cast h1
  have h2' : (2 * a + b : ℝ) < (z + 1) * (2 * b) := by exact_mod_cast h2
  have e : (a : ℝ) = a / b * b := by field_simp
  generalize (a : ℝ) / b = q at e
  rw [e] at h1' h2'
  rw [abs_le]
  constructor <;> nlinarith

theorem shrink_near {k : Nat} {z : Int} {x e : ℝ} (h : |x * 2 ^ k - z| ≤ e) : |x - shrink k z| ≤ e / 2 ^ k + 1 / 2 := by
  have h2 : (0 : ℝ) < 2 ^ k := by positivity
  have hs := nearestDiv_pos (a := z) (b := 2 ^ k) (by positivity)
  have e1 : (2 * z + 2 ^ k) / (2 * 2 ^ k) = shrink k z := by rw [shrink, pow_succ, mul_comm 2 ((2 : Int) ^ k)]
  rw [e1] at hs
  push_cast at hs
  have h3 : |x - z / 2 ^ k| ≤ e / 2 ^ k := by
    rw [le_div_iff₀ h2, ← abs_of_pos h2, ← abs_mul, abs_of_pos h2, sub_mul, div_mul_cancel₀ _ h2.ne']
    exact h
  calc |x - shrink k z| = |(x - z / 2 ^ k) - (shrink k z - z / 2 ^ k)| := by ring_nf
    _ ≤ _ := (abs_sub _ _).trans (add_le_add h3 hs)

theorem nearestDiv_near {a b : Int} (hb : b ≠ 0) : |(nearestDiv a b : ℝ) - (a : ℝ) / b| ≤ 1 / 2 := by
  unfold nearestDiv
  have h := nearestDiv_pos (a := a * b.sign) (b := |b|) (abs_pos.2 hb)
  rw [← mul_assoc] at h
  have e : ((a * b.sign : Int) : ℝ) / ((|b| : Int) : ℝ) = (a : ℝ) / b := by
    rcases lt_or_gt_of_ne hb with h | h
    · rw [Int.sign_eq_neg_one_of_neg h, abs_of_neg h]; push_cast; field_simp
    · rw [Int.sign_eq_one_of_pos h, abs_of_pos h]; push_cast; field_simp
  rwa [e] at h

/-! ## Each operation -/

theorem Approx.ofRat_of (q : ℚ) : (Approx.ofRat q).Of q := by
  have hd : (0 : Int) < (q.den : Int) := by exact_mod_cast q.den_pos
  have hd' : (0 : ℝ) < (q.den : ℝ) := by exact_mod_cast q.den_pos
  have hq : (q : ℝ) = (q.num : ℝ) / (q.den : ℝ) := by exact_mod_cast (Rat.num_div_den q).symm
  constructor
  · simp only [Approx.ofRat]
    rw [hq, abs_div, abs_of_pos hd', div_le_iff₀ hd']
    have h1 : (1 : ℝ) ≤ q.den := by exact_mod_cast q.den_pos
    have h2 : |(q.num : ℝ)| ≤ 2 ^ (q.num.natAbs.log2 + 1) := by
      rw [← Int.cast_abs, Int.abs_eq_natAbs]
      have := (Nat.lt_log2_self (n := q.num.natAbs)).le
      exact_mod_cast this
    calc |(q.num : ℝ)| ≤ 2 ^ (q.num.natAbs.log2 + 1) * 1 := by rw [mul_one]; exact h2
      _ ≤ _ := by gcongr
  · intro p
    simp only [Approx.ofRat]
    have h1 := intDiv_le (a := q.num * 2 ^ p) hd
    have h2 : (q.num : ℝ) * 2 ^ p / q.den < ((q.num * 2 ^ p / (q.den : Int) : Int) : ℝ) + 1 := by
      rw [div_lt_iff₀ hd']
      have := Int.lt_ediv_add_one_mul_self (q.num * 2 ^ p) hd
      exact_mod_cast this
    push_cast at h1
    have e : (q : ℝ) * 2 ^ p = (q.num : ℝ) * 2 ^ p / q.den := by rw [hq]; ring
    rw [e, abs_le]
    constructor <;> linarith

theorem Approx.add_of {a b : Approx} {u v : ℝ} (ha : a.Of u) (hb : b.Of v) : (a.add b).Of (u + v) := by
  constructor
  · simp only [Approx.add]
    have h1 : |u| ≤ 2 ^ Nat.max a.size b.size := ha.size.trans (pow_le_pow_right₀ (by norm_num) (le_max_left _ _))
    have h2 : |v| ≤ 2 ^ Nat.max a.size b.size := hb.size.trans (pow_le_pow_right₀ (by norm_num) (le_max_right _ _))
    rw [pow_succ]
    linarith [abs_add_le u v]
  · intro p
    simp only [Approx.add]
    refine (shrink_near (e := 2) ?_).trans (by norm_num)
    have e : (u + v) * 2 ^ p * 2 ^ 2 - ((a.scaled (p + 2) + b.scaled (p + 2) : Int) : ℝ) =
        (u * 2 ^ (p + 2) - a.scaled (p + 2)) + (v * 2 ^ (p + 2) - b.scaled (p + 2)) := by
      push_cast; ring
    rw [e]
    linarith [abs_add_le (u * 2 ^ (p + 2) - a.scaled (p + 2)) (v * 2 ^ (p + 2) - b.scaled (p + 2)), ha.near (p + 2), hb.near (p + 2)]

theorem Approx.neg_of {a : Approx} {u : ℝ} (ha : a.Of u) : a.neg.Of (-u) := by
  refine ⟨by rw [abs_neg]; exact ha.size, fun p => ?_⟩
  have h := ha.near p
  simp only [Approx.neg]
  rw [← abs_neg] at h
  convert h using 2
  push_cast; ring

theorem Approx.mul_of {a b : Approx} {u v : ℝ} (ha : a.Of u) (hb : b.Of v) : (a.mul b).Of (u * v) := by
  constructor
  · simp only [Approx.mul]
    rw [abs_mul, pow_add]
    exact mul_le_mul ha.size hb.size (abs_nonneg _) (by positivity)
  · intro p
    simp only [Approx.mul]
    set g := a.size + b.size + 3 with hg
    have h1 := ha.near (p + g)
    have h2 := hb.near (p + g)
    generalize a.scaled (p + g) = A at h1 ⊢
    generalize b.scaled (p + g) = B at h2 ⊢
    set e := u * 2 ^ (p + g) - A with he
    set f := v * 2 ^ (p + g) - B with hf
    have hsa : |u| ≤ 2 ^ (a.size + b.size) := ha.size.trans (pow_le_pow_right₀ (by norm_num) (by omega))
    have hsb : |v| ≤ 2 ^ (a.size + b.size) := hb.size.trans (pow_le_pow_right₀ (by norm_num) (by omega))
    have hW : (1 : ℝ) ≤ 2 ^ (p + g) := one_le_pow₀ (by norm_num)
    have hS : (1 : ℝ) ≤ 2 ^ (a.size + b.size) := one_le_pow₀ (by norm_num)
    set W : ℝ := 2 ^ (p + g)
    set S : ℝ := 2 ^ (a.size + b.size)
    have key : |u * v * 2 ^ p * 2 ^ (p + 2 * g) - ((A * B : Int) : ℝ)| ≤ 4 * S * W := by
      have hww : (2 : ℝ) ^ p * 2 ^ (p + 2 * g) = W * W := by rw [← pow_add, ← pow_add]; congr 1; ring
      have e1 : u * v * 2 ^ p * 2 ^ (p + 2 * g) - ((A * B : Int) : ℝ) = u * W * f + v * W * e - e * f := by
        rw [mul_assoc (u * v), hww, he, hf]; push_cast; ring
      rw [e1]
      have t1 : |u * W * f| ≤ S * W := by
        rw [abs_mul, abs_mul, abs_of_pos (by linarith : (0 : ℝ) < W)]
        calc |u| * W * |f| ≤ S * W * 1 := by gcongr
          _ = _ := mul_one _
      have t2 : |v * W * e| ≤ S * W := by
        rw [abs_mul, abs_mul, abs_of_pos (by linarith : (0 : ℝ) < W)]
        calc |v| * W * |e| ≤ S * W * 1 := by gcongr
          _ = _ := mul_one _
      have t3 : |e * f| ≤ 1 := by
        rw [abs_mul]
        calc |e| * |f| ≤ 1 * 1 := by gcongr
          _ = 1 := mul_one _
      have t4 : 1 ≤ S * W := by nlinarith
      have := abs_sub (u * W * f + v * W * e) (e * f)
      have := abs_add_le (u * W * f) (v * W * e)
      linarith
    refine (shrink_near key).trans ?_
    have e2 : (2 : ℝ) ^ (p + 2 * g) = W * (8 * S) := by
      show (2 : ℝ) ^ (p + 2 * g) = 2 ^ (p + g) * (8 * 2 ^ (a.size + b.size))
      have : (8 : ℝ) = 2 ^ 3 := by norm_num
      rw [this, ← pow_add, ← pow_add]; congr 1; omega
    rw [e2]
    have : 4 * S * W / (W * (8 * S)) = 1 / 2 := by
      have hS0 : S ≠ 0 := by positivity
      have hW0 : W ≠ 0 := by positivity
      field_simp; norm_num
    rw [this]; norm_num

theorem Approx.max_of {a b : Approx} {u v : ℝ} (ha : a.Of u) (hb : b.Of v) : (a.max b).Of (Max.max u v) := by
  constructor
  · simp only [Approx.max]
    have h1 : |u| ≤ 2 ^ Nat.max a.size b.size := ha.size.trans (pow_le_pow_right₀ (by norm_num) (le_max_left _ _))
    have h2 : |v| ≤ 2 ^ Nat.max a.size b.size := hb.size.trans (pow_le_pow_right₀ (by norm_num) (le_max_right _ _))
    exact (abs_max_le_max_abs_abs).trans (max_le h1 h2)
  · intro p
    simp only [Approx.max]
    have e : Max.max u v * 2 ^ p = Max.max (u * 2 ^ p) (v * 2 ^ p) := max_mul_of_nonneg u v (by positivity)
    rw [e]
    push_cast
    exact (abs_max_sub_max_le_max _ _ _ _).trans (max_le (ha.near p) (hb.near p))

theorem Approx.sqrt_of {a : Approx} {u : ℝ} (ha : a.Of u) : a.sqrt.Of (√u) := by
  constructor
  · simp only [Approx.sqrt]
    rw [abs_of_nonneg (Real.sqrt_nonneg u), Real.sqrt_le_left (by positivity)]
    refine (le_abs_self u).trans (ha.size.trans ?_)
    exact le_self_pow₀ (one_le_pow₀ (by norm_num)) (by norm_num)
  · intro p
    simp only [Approx.sqrt]
    refine (shrink_near (e := 2) ?_).trans (by norm_num)
    have h := ha.near (2 * (p + 2))
    generalize a.scaled (2 * (p + 2)) = A at h ⊢
    have e : √u * 2 ^ p * 2 ^ 2 = √(u * 2 ^ (2 * (p + 2))) := by
      rw [Real.sqrt_mul' _ (by positivity), mul_comm 2 (p + 2), pow_mul, Real.sqrt_sq (by positivity), pow_add]; ring
    rw [e]
    generalize u * 2 ^ (2 * (p + 2)) = x at h ⊢
    obtain ⟨l, r⟩ := abs_le.1 h
    rw [isqrt_eq_sqrt]
    have n1 : (A.toNat.sqrt : ℝ) ≤ √(A.toNat : ℝ) := Real.nat_sqrt_le_real_sqrt
    have n2 : √(A.toNat : ℝ) ≤ A.toNat.sqrt + 1 := Real.real_sqrt_le_nat_sqrt_succ
    have hA : (A : ℝ) ≤ (A.toNat : ℝ) := by exact_mod_cast Int.self_le_toNat A
    have hA2 : (A.toNat : ℝ) ≤ Max.max (A : ℝ) 0 := by
      rcases le_total 0 A with h | h
      · have : ((A.toNat : ℕ) : ℝ) = (A : ℝ) := by exact_mod_cast Int.toNat_of_nonneg h
        rw [this]; exact le_max_left _ _
      · rw [Int.toNat_of_nonpos h]; simp
    have s1 : √x ≤ √(A.toNat : ℝ) + 1 := by
      rw [Real.sqrt_le_left (by positivity)]
      nlinarith [Real.sq_sqrt (Nat.cast_nonneg (α := ℝ) A.toNat), Real.sqrt_nonneg (A.toNat : ℝ)]
    have s2 : √(A.toNat : ℝ) ≤ √x + 1 := by
      rw [Real.sqrt_le_left (by positivity)]
      refine hA2.trans (max_le ?_ (by positivity))
      rcases le_total 0 x with h0 | h0
      · nlinarith [Real.sq_sqrt h0, Real.sqrt_nonneg x]
      · nlinarith [Real.sqrt_nonneg x]
    rw [abs_le]
    push_cast
    constructor <;> linarith

theorem Approx.quot_of {a b : Approx} {u v : ℝ} {j : Nat} (ha : a.Of u) (hb : b.Of v) (hj : 1 ≤ |v| * 2 ^ j) :
    (Approx.quot j a b).Of (u / v) := by
  have hv : 0 < |v| := by
    rcases (abs_nonneg v).eq_or_lt with h | h
    · rw [← h] at hj; norm_num at hj
    · exact h
  have hi : 1 / |v| ≤ 2 ^ j := by rw [div_le_iff₀ hv]; linarith
  constructor
  · simp only [Approx.quot]
    rw [abs_div, pow_add, div_eq_mul_one_div]
    exact mul_le_mul ha.size hi (by positivity) (by positivity)
  · intro p
    simp only [Approx.quot]
    set w := p + a.size + 2 * j + 3 with hw
    have h1 := ha.near w
    have h2 := hb.near w
    generalize a.scaled w = A at h1 ⊢
    generalize b.scaled w = B at h2 ⊢
    set W : ℝ := 2 ^ w with hW
    have hWp : 0 < W := by positivity
    set J : ℝ := 2 ^ j
    set S : ℝ := 2 ^ a.size
    set P : ℝ := 2 ^ p
    have hJ : 1 ≤ J := one_le_pow₀ (by norm_num)
    have hS : 1 ≤ S := one_le_pow₀ (by norm_num)
    have hP : 1 ≤ P := one_le_pow₀ (by norm_num)
    have eW : W = P * S * (J * J) * 8 := by
      show (2 : ℝ) ^ w = 2 ^ p * 2 ^ a.size * (2 ^ j * 2 ^ j) * 8
      have : (8 : ℝ) = 2 ^ 3 := by norm_num
      rw [this, ← pow_add, ← pow_add, ← pow_add, ← pow_add]; congr 1; omega
    have hvW : 8 * P * S * J ≤ |v| * W := by rw [eW]; nlinarith [mul_nonneg (mul_nonneg (by linarith : 0 ≤ P) (by linarith : 0 ≤ S)) (by linarith : 0 ≤ J)]
    have hPSJ : 1 ≤ P * S * J := by nlinarith [mul_le_mul hP hS zero_le_one (by linarith : 0 ≤ P)]
    have hBabs : |v| * W / 2 ≤ |(B : ℝ)| := by
      have := abs_sub_abs_le_abs_sub (v * W) B
      rw [abs_mul, abs_of_pos hWp] at this
      linarith
    have hBpos : 0 < |(B : ℝ)| := by linarith
    have hB0 : B ≠ 0 := by
      rintro rfl
      simp at hBpos
    have hv0 : v ≠ 0 := abs_pos.1 hv
    have hB0' : (B : ℝ) ≠ 0 := by exact_mod_cast hB0
    have hn := nearestDiv_near (a := A * 2 ^ p) hB0
    push_cast at hn
    change |((nearestDiv (A * 2 ^ p) B : Int) : ℝ) - A * P / B| ≤ 1 / 2 at hn
    have hmain : |u / v * P - A * P / B| ≤ 1 / 2 := by
      have e : u / v * P - A * P / B = P * ((u * (B - v * W) + v * (u * W - A)) / (v * B)) := by
        field_simp; ring
      rw [e, abs_mul, abs_div, abs_mul, abs_of_pos (by linarith : 0 < P)]
      have hnum : |u * (B - v * W) + v * (u * W - A)| ≤ |u| + |v| := by
        refine (abs_add_le _ _).trans ?_
        rw [abs_mul, abs_mul]
        have : |(B : ℝ) - v * W| ≤ 1 := by rw [abs_sub_comm]; exact h2
        nlinarith [abs_nonneg u, abs_nonneg v]
      have hu : |u| ≤ S := ha.size
      have hfrac : |u * (B - v * W) + v * (u * W - A)| / (|v| * |(B : ℝ)|) ≤ (|u| + |v|) / (|v| * (|v| * W / 2)) := by
        gcongr
      refine (mul_le_mul_of_nonneg_left hfrac (by linarith)).trans ?_
      rw [mul_div_assoc', div_le_iff₀ (by positivity)]
      have k1 : P * |u| ≤ P * S * (|v| * J) * (|v| * J) := by
        have : 1 ≤ (|v| * J) * (|v| * J) := by nlinarith
        nlinarith [mul_nonneg (by linarith : 0 ≤ P) (abs_nonneg u), mul_nonneg (by linarith : 0 ≤ P) (by linarith : 0 ≤ S)]
      have k2 : P * |v| ≤ P * S * (|v| * J) * (|v| * J) := by
        have h3 : |v| ≤ |v| * (|v| * J) * J := by nlinarith [mul_nonneg hv.le (by linarith : 0 ≤ J)]
        have h4 : 0 ≤ |v| * (|v| * J) * J := by positivity
        nlinarith [mul_nonneg (by linarith : 0 ≤ P) h4]
      rw [eW]
      nlinarith
    calc |u / v * P - nearestDiv (A * 2 ^ p) B| = |(u / v * P - A * P / B) - (nearestDiv (A * 2 ^ p) B - A * P / B)| := by ring_nf
      _ ≤ _ := (abs_sub _ _).trans (by linarith)

/-! ## π and the cosine -/

/-- The partial sums of the arctangent series come close once the terms are below one unit. -/
theorem atanSum_near {b m k : Nat} (hm : 1 < m) (hk : 2 ^ b < m ^ (4 * k + 1)) :
    |2 ^ b * Real.arctan (1 / m) - atanSum b m (2 * k)| ≤ 2 * k + 1 := by
  obtain ⟨h1, h2⟩ := arctan_between b m k hm
  have hz : atanSum b m (2 * k + 1) = atanSum b m (2 * k) := by
    rw [atanSum]
    have : (2 : Int) ^ b / (((2 * (2 * k) + 1) * m ^ (2 * (2 * k) + 1) : Nat) : Int) = 0 := by
      apply Int.ediv_eq_zero_of_lt (by positivity)
      have h3 : 2 ^ b < (2 * (2 * k) + 1) * m ^ (2 * (2 * k) + 1) := by
        have e : 2 * (2 * k) + 1 = 4 * k + 1 := by ring
        rw [e]
        exact lt_of_lt_of_le hk (Nat.le_mul_of_pos_left _ (by omega))
      exact_mod_cast h3
    rw [this]; simp
  rw [hz] at h2
  push_cast at h1 h2
  rw [abs_le]
  constructor <;> linarith

theorem piNear_near (b : Nat) : |Real.pi * 2 ^ b - piNear b| ≤ 1 := by
  unfold piNear
  simp only
  set e := (b + 1).log2 + 9 with he
  set k := (b + e) / 8 + 1 with hk
  have hpow : ∀ m : Nat, 4 ≤ m → 2 ^ (b + e) < m ^ (4 * k + 1) := by
    intro m hm
    calc 2 ^ (b + e) < 2 ^ (2 * (4 * k + 1)) := Nat.pow_lt_pow_right (by norm_num) (by omega)
      _ = 4 ^ (4 * k + 1) := by rw [pow_mul]; norm_num
      _ ≤ _ := Nat.pow_le_pow_left hm _
  have a5 := atanSum_near (by norm_num : 1 < 5) (hpow 5 (by norm_num))
  have a239 := atanSum_near (by norm_num : 1 < 239) (hpow 239 (by norm_num))
  have hp : Real.pi = 16 * Real.arctan (1 / 5) - 4 * Real.arctan (1 / 239) := by
    have := Real.four_mul_arctan_inv_5_sub_arctan_inv_239
    rw [one_div, one_div]
    linarith
  push_cast at a5 a239
  have hs := shrink_near (k := e) (x := Real.pi * 2 ^ b)
    (z := 16 * atanSum (b + e) 5 (2 * k) - 4 * atanSum (b + e) 239 (2 * k)) (e := 20 * (2 * k + 1)) (by
      have : Real.pi * 2 ^ b * 2 ^ e - ((16 * atanSum (b + e) 5 (2 * k) - 4 * atanSum (b + e) 239 (2 * k) : Int) : ℝ) =
          16 * (2 ^ (b + e) * Real.arctan (1 / 5) - atanSum (b + e) 5 (2 * k)) -
            4 * (2 ^ (b + e) * Real.arctan (1 / 239) - atanSum (b + e) 239 (2 * k)) := by
        rw [mul_assoc, ← pow_add, hp]; push_cast; ring
      rw [this]
      refine (abs_sub _ _).trans ?_
      rw [abs_mul, abs_mul]
      norm_num
      linarith)
  refine hs.trans ?_
  have hlog : b + 1 < 2 ^ ((b + 1).log2 + 1) := Nat.lt_log2_self
  have hlog' : (b + 1).log2 < b + 1 := Nat.log2_lt (by omega) |>.2 Nat.lt_two_pow_self
  have hn : 40 * (2 * k + 1) ≤ 2 ^ e := by
    have : 2 ^ e = 2 ^ ((b + 1).log2 + 1) * 256 := by
      rw [he, show (b + 1).log2 + 9 = (b + 1).log2 + 1 + 8 by omega, pow_add]; norm_num
    rw [this]
    omega
  have hr : 20 * (2 * (k : ℝ) + 1) / 2 ^ e ≤ 1 / 2 := by
    rw [div_le_iff₀ (by positivity)]
    have : (40 * (2 * k + 1) : ℝ) ≤ 2 ^ e := by exact_mod_cast hn
    linarith
  linarith

theorem clipUnit_near {w : Nat} {c : Int} {x e : ℝ} (hx : |x| ≤ 1) (h : |x * 2 ^ w - c| ≤ e) :
    |x * 2 ^ w - clipUnit w c| ≤ e ∧ |(clipUnit w c : ℝ)| ≤ 2 ^ w := by
  have hW : (0 : ℝ) < 2 ^ w := by positivity
  obtain ⟨x1, x2⟩ := abs_le.1 hx
  obtain ⟨h1, h2⟩ := abs_le.1 h
  have u1 : -2 ^ w ≤ x * 2 ^ w := by nlinarith
  have u2 : x * 2 ^ w ≤ 2 ^ w := by nlinarith
  unfold clipUnit
  push_cast
  rw [abs_le, abs_le]
  refine ⟨⟨?_, ?_⟩, ?_, ?_⟩
  · rcases max_cases (-2 ^ w : ℝ) (min (c : ℝ) (2 ^ w)) with h | h <;> rcases min_cases (c : ℝ) (2 ^ w) with g | g <;> linarith
  · rcases max_cases (-2 ^ w : ℝ) (min (c : ℝ) (2 ^ w)) with h | h <;> rcases min_cases (c : ℝ) (2 ^ w) with g | g <;> linarith
  · exact le_max_left _ _
  · exact max_le (by linarith) (min_le_right _ _)

theorem floorDiv_near (z : Int) (k : Nat) : |(z : ℝ) / 2 ^ k - ((z / 2 ^ k : Int) : ℝ)| ≤ 1 := by
  have h2 : (0 : Int) < 2 ^ k := by positivity
  have h1 := intDiv_le (a := z) h2
  have h3 : (z : ℝ) / 2 ^ k < ((z / 2 ^ k : Int) : ℝ) + 1 := by
    rw [div_lt_iff₀ (by positivity)]
    have := Int.lt_ediv_add_one_mul_self z h2
    exact_mod_cast this
  push_cast at h1
  rw [abs_le]
  constructor <;> linarith

theorem cosDoubled_near (w : Nat) : ∀ (m : Nat) {c : Int} {y e : ℝ}, |Real.cos y * 2 ^ w - c| ≤ e → |(c : ℝ)| ≤ 2 ^ w →
    |Real.cos (2 ^ m * y) * 2 ^ w - cosDoubled w m c| ≤ 4 ^ m * (e + 1) - 1
  | 0, c, y, e, h, _ => by simpa [cosDoubled] using h
  | m + 1, c, y, e, h, hc => by
    have hW : (0 : ℝ) < 2 ^ w := by positivity
    have hd : |Real.cos (2 * y) * 2 ^ w - ((2 * c * c / 2 ^ w - 2 ^ w : Int) : ℝ)| ≤ 4 * e + 1 := by
      have hf := floorDiv_near (2 * c * c) w
      push_cast at hf ⊢
      have e1 : Real.cos (2 * y) * 2 ^ w - (((2 * c * c / 2 ^ w : Int) : ℝ) - 2 ^ w) =
          2 * (Real.cos y * 2 ^ w - c) * ((Real.cos y * 2 ^ w + c) / 2 ^ w) +
            (2 * c * c / 2 ^ w - ((2 * c * c / 2 ^ w : Int) : ℝ)) := by
        rw [Real.cos_two_mul]; field_simp; ring
      rw [e1]
      refine (abs_add_le _ _).trans ?_
      have hcy : |Real.cos y * 2 ^ w| ≤ 2 ^ w := by
        rw [abs_mul, abs_of_pos hW]
        have := Real.abs_cos_le_one y
        nlinarith
      have h2 : |(Real.cos y * 2 ^ w + c) / 2 ^ w| ≤ 2 := by
        rw [abs_div, abs_of_pos hW, div_le_iff₀ hW]
        linarith [abs_add_le (Real.cos y * 2 ^ w) c]
      rw [abs_mul, abs_mul, abs_two]
      have h0 := abs_nonneg (Real.cos y * 2 ^ w - c)
      have := abs_nonneg ((Real.cos y * 2 ^ w + c) / 2 ^ w)
      nlinarith
    obtain ⟨k1, k2⟩ := clipUnit_near (Real.abs_cos_le_one (2 * y)) hd
    have ih := cosDoubled_near w m k1 k2
    have e2 : (2 : ℝ) ^ (m + 1) * y = 2 ^ m * (2 * y) := by ring
    rw [cosDoubled, e2]
    refine ih.trans ?_
    have : (0 : ℝ) < 4 ^ m := by positivity
    rw [pow_succ]
    nlinarith

theorem cosStart_near {w : Nat} {y t : ℝ} {Y : Int} (h0 : 0 ≤ y) (h1 : y ≤ 1) (hY : |y * 2 ^ w - Y| ≤ 2) (ht : y ^ 4 * 2 ^ w ≤ t) :
    |Real.cos y * 2 ^ w - ((2 ^ w - Y * Y / 2 ^ w / 2 : Int) : ℝ)| ≤ t + 6 := by
  have hW : (1 : ℝ) ≤ 2 ^ w := one_le_pow₀ (by norm_num)
  have hc := Real.cos_bound (x := y) (by rw [abs_of_nonneg h0]; exact h1)
  rw [abs_of_nonneg h0] at hc
  have f1 := floorDiv_near (Y * Y) w
  have f2 := floorDiv_near (Y * Y / 2 ^ w) 1
  push_cast at f1 f2 ⊢
  generalize ((Y * Y / 2 ^ w : Int) : ℝ) = A at f1 f2 ⊢
  generalize (((Y * Y / 2 ^ w / 2 : Int)) : ℝ) = B at f2 ⊢
  have hyW : y * 2 ^ w ≤ 2 ^ w := by nlinarith
  have hsq : |y ^ 2 * 2 ^ w - Y * Y / 2 ^ w| ≤ 8 := by
    have e : y ^ 2 * 2 ^ w - Y * Y / 2 ^ w = (y * 2 ^ w - Y) * ((y * 2 ^ w + Y) / 2 ^ w) := by field_simp; ring
    rw [e, abs_mul]
    have h3 : |(y * 2 ^ w + Y) / 2 ^ w| ≤ 4 := by
      rw [abs_div, abs_of_pos (by linarith : (0 : ℝ) < 2 ^ w), div_le_iff₀ (by linarith), abs_le]
      obtain ⟨a1, a2⟩ := abs_le.1 hY
      have : 0 ≤ y * 2 ^ w := by positivity
      constructor <;> linarith
    nlinarith [abs_nonneg (y * 2 ^ w - Y), abs_nonneg ((y * 2 ^ w + Y) / 2 ^ w)]
  have hcW : |(Real.cos y - (1 - y ^ 2 / 2)) * 2 ^ w| ≤ t * (5 / 96) := by
    rw [abs_mul, abs_of_pos (by linarith : (0 : ℝ) < 2 ^ w)]
    calc |Real.cos y - (1 - y ^ 2 / 2)| * 2 ^ w ≤ y ^ 4 * (5 / 96) * 2 ^ w := by gcongr
      _ = y ^ 4 * 2 ^ w * (5 / 96) := by ring
      _ ≤ _ := by gcongr
  have t0 : 0 ≤ t := le_trans (by positivity) ht
  obtain ⟨a1, a2⟩ := abs_le.1 hcW
  obtain ⟨b1, b2⟩ := abs_le.1 hsq
  obtain ⟨c1, c2⟩ := abs_le.1 f1
  obtain ⟨d1, d2⟩ := abs_le.1 f2
  rw [abs_le]
  constructor <;> nlinarith

theorem Approx.cosTurn_of (q : ℚ) : (Approx.cosTurn q).Of (Real.cos (2 * Real.pi * q)) := by
  constructor
  · simpa [Approx.cosTurn] using Real.abs_cos_le_one _
  · intro p
    simp only [Approx.cosTurn]
    obtain ⟨r0, r1⟩ := halfTurn_range q
    rw [← cos_halfTurn]
    generalize halfTurn q = r at r0 r1 ⊢
    set m := p / 2 + 8 with hm
    set w := 2 * p + 32 with hw
    have r0' : (0 : ℝ) ≤ (r : ℝ) := by exact_mod_cast r0
    have r1' : (r : ℝ) ≤ 1 / 2 := by
      have := (Rat.cast_le (K := ℝ)).2 r1
      push_cast at this
      exact this
    have hM : (0 : ℝ) < 2 ^ m := by positivity
    set y : ℝ := 2 * Real.pi * r / 2 ^ m with hy
    have hy0 : 0 ≤ y := by positivity
    have hpi := Real.pi_pos
    have hy4 : y * 2 ^ m ≤ 4 := by
      rw [hy, div_mul_cancel₀ _ hM.ne']
      nlinarith [Real.pi_le_four]
    have hM16 : (2 : ℝ) ^ 4 ≤ 2 ^ m := pow_le_pow_right₀ (by norm_num) (by omega)
    have hy1 : y ≤ 1 := by nlinarith
    have hY : |y * 2 ^ w - ((2 * r.num * piNear (w - m) / (r.den : Int) : Int) : ℝ)| ≤ 2 := by
      have hd : (0 : Int) < (r.den : Int) := by exact_mod_cast r.den_pos
      have hd' : (0 : ℝ) < (r.den : ℝ) := by exact_mod_cast r.den_pos
      have hr : (r : ℝ) = (r.num : ℝ) / (r.den : ℝ) := by exact_mod_cast (Rat.num_div_den r).symm
      have hp := piNear_near (w - m)
      generalize piNear (w - m) = P at hp ⊢
      have h1 := intDiv_le (a := 2 * r.num * P) hd
      have h3 : ((2 * r.num * P : Int) : ℝ) / (r.den : ℝ) < ((2 * r.num * P / (r.den : Int) : Int) : ℝ) + 1 := by
        rw [div_lt_iff₀ hd']
        have := Int.lt_ediv_add_one_mul_self (2 * r.num * P) hd
        exact_mod_cast this
      have e : y * 2 ^ w = 2 * r * (Real.pi * 2 ^ (w - m)) := by
        have : (2 : ℝ) ^ w = 2 ^ (w - m) * 2 ^ m := by rw [← pow_add]; congr 1; omega
        rw [hy, this]; field_simp
      have e2 : ((2 * r.num * P : Int) : ℝ) / (r.den : ℝ) = 2 * r * P := by rw [hr]; push_cast; ring
      have h5 : |2 * (r : ℝ) * (Real.pi * 2 ^ (w - m)) - 2 * r * P| ≤ 1 := by
        rw [← mul_sub, abs_mul, abs_of_nonneg (by linarith : (0 : ℝ) ≤ 2 * r)]
        nlinarith [abs_nonneg (Real.pi * 2 ^ (w - m) - P)]
      rw [Int.cast_natCast, e2] at h1
      rw [e2] at h3
      rw [e]
      obtain ⟨a1, a2⟩ := abs_le.1 h5
      rw [abs_le]
      constructor <;> linarith
    have ht : y ^ 4 * 2 ^ w ≤ 2 ^ 10 := by
      have h1 : (y * 2 ^ m) ^ 4 ≤ 4 ^ 4 := pow_le_pow_left₀ (by positivity) hy4 4
      have h2 : (2 : ℝ) ^ w ≤ (2 ^ m) ^ 4 * 2 ^ 2 := by
        rw [← pow_mul, ← pow_add]
        exact pow_le_pow_right₀ (by norm_num) (by omega)
      calc y ^ 4 * 2 ^ w ≤ y ^ 4 * ((2 ^ m) ^ 4 * 2 ^ 2) := by gcongr
        _ = (y * 2 ^ m) ^ 4 * 2 ^ 2 := by ring
        _ ≤ 4 ^ 4 * 2 ^ 2 := by gcongr
        _ = 2 ^ 10 := by norm_num
    have hs := cosStart_near hy0 hy1 hY ht
    obtain ⟨k1, k2⟩ := clipUnit_near (Real.abs_cos_le_one y) hs
    have hd := cosDoubled_near w m k1 k2
    have eθ : 2 ^ m * y = 2 * Real.pi * r := by rw [hy, mul_div_cancel₀ _ hM.ne']
    rw [eθ] at hd
    generalize cosDoubled w m _ = C at hd ⊢
    have hwp : (2 : ℝ) ^ w = 2 ^ p * 2 ^ (w - p) := by rw [← pow_add]; congr 1; omega
    rw [hwp, ← mul_assoc] at hd
    refine (shrink_near hd).trans ?_
    have h4 : (4 : ℝ) ^ m ≤ 2 ^ (p + 16) := by
      have : (4 : ℝ) = 2 ^ 2 := by norm_num
      rw [this, ← pow_mul]
      exact pow_le_pow_right₀ (by norm_num) (by omega)
    have hwe : (2 : ℝ) ^ (w - p) = 2 ^ (p + 16) * 2 ^ 16 := by rw [← pow_add]; congr 1; omega
    have hP : (0 : ℝ) < 2 ^ (p + 16) := by positivity
    rw [hwe]
    have : (4 ^ m * ((2 : ℝ) ^ 10 + 6 + 1) - 1) / (2 ^ (p + 16) * 2 ^ 16) ≤ 1 / 2 := by
      rw [div_le_iff₀ (by positivity)]
      nlinarith
    linarith

/-! ## Comparing with zero -/

theorem Approx.apart_some {a : Approx} {v : ℝ} (ha : a.Of v) {js : List Nat} {j : Nat} (h : a.apart js = some j) :
    1 ≤ |v| * 2 ^ j ∧ (a.scaled j).sign = SignType.sign v := by
  have h2 : 2 ≤ |a.scaled j| := by simpa using List.find?_some h
  have h2' : (2 : ℝ) ≤ |(a.scaled j : ℝ)| := by exact_mod_cast h2
  have hP : (0 : ℝ) < 2 ^ j := by positivity
  obtain ⟨h3, h4⟩ := abs_le.1 (ha.near j)
  have eP : |v| * 2 ^ j = |v * 2 ^ j| := by rw [abs_mul, abs_of_pos hP]
  rw [eP]
  rcases le_abs.1 h2 with h | h
  · have h' : (2 : ℝ) ≤ a.scaled j := by exact_mod_cast h
    have hv : 0 < v := by by_contra hn; rw [not_lt] at hn; nlinarith
    refine ⟨by rw [le_abs]; left; linarith, ?_⟩
    rw [sign_pos hv, Int.sign_eq_one_of_pos (by omega)]; rfl
  · have h' : (2 : ℝ) ≤ -a.scaled j := by exact_mod_cast h
    have hv : v < 0 := by by_contra hn; rw [not_lt] at hn; nlinarith
    refine ⟨by rw [le_abs]; right; linarith, ?_⟩
    rw [sign_neg hv, Int.sign_eq_neg_one_of_neg (by omega)]; rfl

theorem Exact.apart_none {a : Exact} {x : Approx} (hx : x.Of a.val) (h : x.apart a.precisions = none) : a.val = 0 := by
  by_contra h0
  have hs := Exact.separated h0
  have hm : a.sepBits + 2 ∈ a.precisions := by simp [Exact.precisions]
  have hn := List.find?_eq_none.1 h _ hm
  have h1 : |x.scaled (a.sepBits + 2)| ≤ 1 := by
    have : ¬(2 ≤ |x.scaled (a.sepBits + 2)|) := by simpa using hn
    omega
  have h1' : |(x.scaled (a.sepBits + 2) : ℝ)| ≤ 1 := by exact_mod_cast h1
  have h2 := hx.near (a.sepBits + 2)
  have h3 := abs_sub_abs_le_abs_sub (a.val * 2 ^ (a.sepBits + 2)) (x.scaled (a.sepBits + 2))
  rw [abs_mul, abs_of_pos (by positivity : (0 : ℝ) < 2 ^ (a.sepBits + 2)), pow_add] at h3
  rw [pow_add] at h2
  linarith

/-! ## Every exact number -/

theorem Exact.val_squares (x y : Exact) : (Exact.squares x y).val = x.val * x.val + y.val * y.val := rfl

theorem Approx.unitPart_of {x y part : Exact} {a b c : Approx} {d : ℚ} (ha : a.Of x.val) (hb : b.Of y.val)
    (hc : c.Of part.val) :
    (Approx.unitPart (Exact.squares x y).precisions d c a b).Of (Machine.unitPart part.val x.val y.val d) := by
  have hr := Approx.add_of (Approx.mul_of ha ha) (Approx.mul_of hb hb)
  rw [← Exact.val_squares] at hr
  unfold Approx.unitPart
  simp only
  split
  · rename_i h
    have h0 := Exact.apart_none hr h
    rw [Exact.val_squares] at h0
    have hx : x.val = 0 := by nlinarith [mul_self_nonneg x.val, mul_self_nonneg y.val]
    have hy : y.val = 0 := by nlinarith [mul_self_nonneg x.val, mul_self_nonneg y.val]
    rw [Machine.unitPart, if_pos ⟨hx, hy⟩]
    exact Approx.ofRat_of d
  · rename_i j h
    have h1 := (Approx.apart_some hr h).1
    have hnn : 0 ≤ (Exact.squares x y).val := by
      rw [Exact.val_squares]; nlinarith [mul_self_nonneg x.val, mul_self_nonneg y.val]
    have hne : ¬(x.val = 0 ∧ y.val = 0) := by
      rintro ⟨hx, hy⟩
      rw [Exact.val_squares, hx, hy] at h1
      norm_num at h1
    have e : √(x.val ^ 2 + y.val ^ 2) = √(Exact.squares x y).val := by rw [Exact.val_squares, pow_two, pow_two]
    rw [Machine.unitPart, if_neg hne, e]
    refine Approx.quot_of hc (Approx.sqrt_of hr) ?_
    have hJ : (1 : ℝ) ≤ 2 ^ j := one_le_pow₀ (by norm_num)
    rw [abs_of_nonneg (Real.sqrt_nonneg _)]
    rw [abs_of_nonneg hnn] at h1
    generalize (Exact.squares x y).val = q at hnn h1
    by_contra hlt
    rw [not_le] at hlt
    nlinarith [Real.sq_sqrt hnn, Real.sqrt_nonneg q, mul_nonneg (Real.sqrt_nonneg q) (by linarith : (0 : ℝ) ≤ 2 ^ j)]

/-- The approximations of an exact number are those of its real number. -/
theorem Exact.approx_of : ∀ a : Exact, a.approx.Of a.val
  | .rat q => Approx.ofRat_of q
  | .sum a b => Approx.add_of a.approx_of b.approx_of
  | .diff a b => by
    have := Approx.add_of a.approx_of (Approx.neg_of b.approx_of)
    rwa [← sub_eq_add_neg] at this
  | .prod a b => Approx.mul_of a.approx_of b.approx_of
  | .quot a b => by
    rw [Exact.approx, Exact.val]
    split
    · rename_i h
      rw [Exact.apart_none b.approx_of h, div_zero]
      simpa using Approx.ofRat_of 0
    · rename_i j h
      exact Approx.quot_of a.approx_of b.approx_of (Approx.apart_some b.approx_of h).1
  | .root a => Approx.sqrt_of a.approx_of
  | .cosTurn q => Approx.cosTurn_of q
  | .larger a b => Approx.max_of a.approx_of b.approx_of
  | .unitRe x y => by
    have := Approx.unitPart_of (d := 1) x.approx_of y.approx_of x.approx_of
    rw [Rat.cast_one] at this
    exact this
  | .unitIm x y => by
    have := Approx.unitPart_of (d := 0) x.approx_of y.approx_of y.approx_of
    rw [Rat.cast_zero] at this
    exact this

/-- The sign that is computed is the sign of the real number. -/
theorem Exact.sign_eq (a : Exact) : a.sign = SignType.sign a.val := by
  unfold Exact.sign
  split
  · rename_i q
    rw [Exact.val]
    rcases lt_trichotomy q 0 with h | h | h
    · rw [sign_neg (by exact_mod_cast h), Int.sign_eq_neg_one_of_neg (Rat.num_neg.2 h)]; rfl
    · rw [h]; simp
    · rw [sign_pos (by exact_mod_cast h), Int.sign_eq_one_of_pos (Rat.num_pos.2 h)]; rfl
  split
  · rename_i h; rw [Exact.apart_none a.approx_of h]; simp
  · rename_i j h; exact (Approx.apart_some a.approx_of h).2

/-- The comparison is that of the real numbers. -/
theorem Exact.less_iff (a b : Exact) : Exact.less a b = true ↔ a.val < b.val := by
  rw [Exact.less, beq_iff_eq, Exact.sign_eq, Exact.val_sub]
  rcases lt_trichotomy (b.val - a.val) 0 with h | h | h
  · rw [sign_neg h]; simp; linarith
  · rw [h]; simp; linarith
  · rw [sign_pos h]; simp; linarith

end Sys2Proof.Machine
end

