-- ==== Sys2Proof/Laws/State.lean ====
section
/-! SUPPORT. What every named update of the state leaves of every field: one lemma per field per update, true by
definition, so that no proof unfolds an update. -/

namespace Sys2Proof.Machine.Generic

/-! ## Error entry (R276) -/

section
variable {ν : Type} (s : State ν) (e : ErrorCode) (info : Word)

@[simp] theorem State.raise_mode : (s.raise e info).mode = s.mode := rfl
@[simp] theorem State.raise_gainValid : (s.raise e info).gainValid = s.gainValid := rfl
@[simp] theorem State.raise_outValid : (s.raise e info).outValid = s.outValid := rfl
@[simp] theorem State.raise_hpfEn : (s.raise e info).hpfEn = s.hpfEn := rfl
@[simp] theorem State.raise_hpfPrimed : (s.raise e info).hpfPrimed = s.hpfPrimed := rfl
@[simp] theorem State.raise_err : (s.raise e info).err = true := rfl
@[simp] theorem State.raise_errs : (s.raise e info).errs = true := rfl
@[simp] theorem State.raise_errCode : (s.raise e info).errCode = e.word := rfl
@[simp] theorem State.raise_errInfo : (s.raise e info).errInfo = info := rfl
@[simp] theorem State.raise_cfg : (s.raise e info).cfg = s.cfg := rfl
@[simp] theorem State.raise_win : (s.raise e info).win = s.win := rfl
@[simp] theorem State.raise_tail : (s.raise e info).tail = s.tail := rfl
@[simp] theorem State.raise_ola : (s.raise e info).ola = s.ola := rfl
@[simp] theorem State.raise_noise : (s.raise e info).noise = s.noise := rfl
@[simp] theorem State.raise_pgain : (s.raise e info).pgain = s.pgain := rfl
@[simp] theorem State.raise_hpz : (s.raise e info).hpz = s.hpz := rfl
@[simp] theorem State.raise_hpzi : (s.raise e info).hpzi = s.hpzi := rfl
@[simp] theorem State.raise_inBuf : (s.raise e info).inBuf = s.inBuf := rfl
@[simp] theorem State.raise_out : (s.raise e info).out = s.out := rfl
@[simp] theorem State.raise_work : (s.raise e info).work = s.work := rfl
@[simp] theorem State.raise_build : (s.raise e info).build = s.build := rfl
@[simp] theorem State.raise_seq : (s.raise e info).seq = s.seq := rfl
@[simp] theorem State.raise_pending : (s.raise e info).pending = s.pending := rfl
@[simp] theorem State.raise_response : (s.raise e info).response = .writeOk := rfl
@[simp] theorem State.raise_resets : (s.raise e info).resets = s.resets := rfl
@[simp] theorem State.raise_N : (s.raise e info).N = s.N := rfl
@[simp] theorem State.raise_H : (s.raise e info).H = s.H := rfl
@[simp] theorem State.raise_K : (s.raise e info).K = s.K := rfl

end

/-! ## The end of a successful command (R231) -/

section
variable {ν : Type} (A : Arith ν) (s : State ν)

@[simp] theorem State.succeed_mode : (s.succeed).mode = s.mode := rfl
@[simp] theorem State.succeed_gainValid : (s.succeed).gainValid = s.gainValid := rfl
@[simp] theorem State.succeed_outValid : (s.succeed).outValid = s.outValid := rfl
@[simp] theorem State.succeed_hpfEn : (s.succeed).hpfEn = s.hpfEn := rfl
@[simp] theorem State.succeed_hpfPrimed : (s.succeed).hpfPrimed = s.hpfPrimed := rfl
@[simp] theorem State.succeed_err : (s.succeed).err = false := rfl
@[simp] theorem State.succeed_errs : (s.succeed).errs = s.errs := rfl
@[simp] theorem State.succeed_errCode : (s.succeed).errCode = 0 := rfl
@[simp] theorem State.succeed_errInfo : (s.succeed).errInfo = 0 := rfl
@[simp] theorem State.succeed_cfg : (s.succeed).cfg = s.cfg := rfl
@[simp] theorem State.succeed_win : (s.succeed).win = s.win := rfl
@[simp] theorem State.succeed_tail : (s.succeed).tail = s.tail := rfl
@[simp] theorem State.succeed_ola : (s.succeed).ola = s.ola := rfl
@[simp] theorem State.succeed_noise : (s.succeed).noise = s.noise := rfl
@[simp] theorem State.succeed_pgain : (s.succeed).pgain = s.pgain := rfl
@[simp] theorem State.succeed_hpz : (s.succeed).hpz = s.hpz := rfl
@[simp] theorem State.succeed_hpzi : (s.succeed).hpzi = s.hpzi := rfl
@[simp] theorem State.succeed_inBuf : (s.succeed).inBuf = s.inBuf := rfl
@[simp] theorem State.succeed_out : (s.succeed).out = s.out := rfl
@[simp] theorem State.succeed_work : (s.succeed).work = s.work := rfl
@[simp] theorem State.succeed_build : (s.succeed).build = s.build := rfl
@[simp] theorem State.succeed_seq : (s.succeed).seq = s.seq := rfl
@[simp] theorem State.succeed_pending : (s.succeed).pending = s.pending := rfl
@[simp] theorem State.succeed_response : (s.succeed).response = .writeOk := rfl
@[simp] theorem State.succeed_resets : (s.succeed).resets = s.resets := rfl
@[simp] theorem State.succeed_N : (s.succeed).N = s.N := rfl
@[simp] theorem State.succeed_H : (s.succeed).H = s.H := rfl
@[simp] theorem State.succeed_K : (s.succeed).K = s.K := rfl

end

/-! ## A bus response (R70) -/

section
variable {ν : Type} (A : Arith ν) (s : State ν) (r : Response)

@[simp] theorem State.respond_mode : (s.respond r).mode = s.mode := rfl
@[simp] theorem State.respond_gainValid : (s.respond r).gainValid = s.gainValid := rfl
@[simp] theorem State.respond_outValid : (s.respond r).outValid = s.outValid := rfl
@[simp] theorem State.respond_hpfEn : (s.respond r).hpfEn = s.hpfEn := rfl
@[simp] theorem State.respond_hpfPrimed : (s.respond r).hpfPrimed = s.hpfPrimed := rfl
@[simp] theorem State.respond_err : (s.respond r).err = s.err := rfl
@[simp] theorem State.respond_errs : (s.respond r).errs = s.errs := rfl
@[simp] theorem State.respond_errCode : (s.respond r).errCode = s.errCode := rfl
@[simp] theorem State.respond_errInfo : (s.respond r).errInfo = s.errInfo := rfl
@[simp] theorem State.respond_cfg : (s.respond r).cfg = s.cfg := rfl
@[simp] theorem State.respond_win : (s.respond r).win = s.win := rfl
@[simp] theorem State.respond_tail : (s.respond r).tail = s.tail := rfl
@[simp] theorem State.respond_ola : (s.respond r).ola = s.ola := rfl
@[simp] theorem State.respond_noise : (s.respond r).noise = s.noise := rfl
@[simp] theorem State.respond_pgain : (s.respond r).pgain = s.pgain := rfl
@[simp] theorem State.respond_hpz : (s.respond r).hpz = s.hpz := rfl
@[simp] theorem State.respond_hpzi : (s.respond r).hpzi = s.hpzi := rfl
@[simp] theorem State.respond_inBuf : (s.respond r).inBuf = s.inBuf := rfl
@[simp] theorem State.respond_out : (s.respond r).out = s.out := rfl
@[simp] theorem State.respond_work : (s.respond r).work = s.work := rfl
@[simp] theorem State.respond_build : (s.respond r).build = s.build := rfl
@[simp] theorem State.respond_seq : (s.respond r).seq = s.seq := rfl
@[simp] theorem State.respond_pending : (s.respond r).pending = s.pending := rfl
@[simp] theorem State.respond_response : (s.respond r).response = r := rfl
@[simp] theorem State.respond_resets : (s.respond r).resets = s.resets := rfl
@[simp] theorem State.respond_N : (s.respond r).N = s.N := rfl
@[simp] theorem State.respond_H : (s.respond r).H = s.H := rfl
@[simp] theorem State.respond_K : (s.respond r).K = s.K := rfl

end

/-! ## Discarding the working vectors (R31) -/

section
variable {ν : Type} (A : Arith ν) (s : State ν)

@[simp] theorem State.dropWork_mode : (s.dropWork).mode = s.mode := rfl
@[simp] theorem State.dropWork_gainValid : (s.dropWork).gainValid = s.gainValid := rfl
@[simp] theorem State.dropWork_outValid : (s.dropWork).outValid = s.outValid := rfl
@[simp] theorem State.dropWork_hpfEn : (s.dropWork).hpfEn = s.hpfEn := rfl
@[simp] theorem State.dropWork_hpfPrimed : (s.dropWork).hpfPrimed = s.hpfPrimed := rfl
@[simp] theorem State.dropWork_err : (s.dropWork).err = s.err := rfl
@[simp] theorem State.dropWork_errs : (s.dropWork).errs = s.errs := rfl
@[simp] theorem State.dropWork_errCode : (s.dropWork).errCode = s.errCode := rfl
@[simp] theorem State.dropWork_errInfo : (s.dropWork).errInfo = s.errInfo := rfl
@[simp] theorem State.dropWork_cfg : (s.dropWork).cfg = s.cfg := rfl
@[simp] theorem State.dropWork_win : (s.dropWork).win = s.win := rfl
@[simp] theorem State.dropWork_tail : (s.dropWork).tail = s.tail := rfl
@[simp] theorem State.dropWork_ola : (s.dropWork).ola = s.ola := rfl
@[simp] theorem State.dropWork_noise : (s.dropWork).noise = s.noise := rfl
@[simp] theorem State.dropWork_pgain : (s.dropWork).pgain = s.pgain := rfl
@[simp] theorem State.dropWork_hpz : (s.dropWork).hpz = s.hpz := rfl
@[simp] theorem State.dropWork_hpzi : (s.dropWork).hpzi = s.hpzi := rfl
@[simp] theorem State.dropWork_inBuf : (s.dropWork).inBuf = s.inBuf := rfl
@[simp] theorem State.dropWork_out : (s.dropWork).out = s.out := rfl
@[simp] theorem State.dropWork_work : (s.dropWork).work = .empty := rfl
@[simp] theorem State.dropWork_build : (s.dropWork).build = s.build := rfl
@[simp] theorem State.dropWork_seq : (s.dropWork).seq = s.seq := rfl
@[simp] theorem State.dropWork_pending : (s.dropWork).pending = s.pending := rfl
@[simp] theorem State.dropWork_response : (s.dropWork).response = s.response := rfl
@[simp] theorem State.dropWork_resets : (s.dropWork).resets = s.resets := rfl
@[simp] theorem State.dropWork_N : (s.dropWork).N = s.N := rfl
@[simp] theorem State.dropWork_H : (s.dropWork).H = s.H := rfl
@[simp] theorem State.dropWork_K : (s.dropWork).K = s.K := rfl

end

/-! ## A write to STATUS (R34) -/

section
variable {ν : Type} (s : State ν) (w : Word)

@[simp] theorem State.writeStatus_mode : (s.writeStatus w).mode = s.mode := rfl
@[simp] theorem State.writeStatus_gainValid : (s.writeStatus w).gainValid = s.gainValid := rfl
@[simp] theorem State.writeStatus_outValid : (s.writeStatus w).outValid = s.outValid := rfl
@[simp] theorem State.writeStatus_hpfEn : (s.writeStatus w).hpfEn = s.hpfEn := rfl
@[simp] theorem State.writeStatus_hpfPrimed : (s.writeStatus w).hpfPrimed = s.hpfPrimed := rfl
@[simp] theorem State.writeStatus_err : (s.writeStatus w).err = s.err := rfl
@[simp] theorem State.writeStatus_errs : (s.writeStatus w).errs = (s.errs && !w.getLsbD 6) := rfl
@[simp] theorem State.writeStatus_errCode : (s.writeStatus w).errCode = s.errCode := rfl
@[simp] theorem State.writeStatus_errInfo : (s.writeStatus w).errInfo = s.errInfo := rfl
@[simp] theorem State.writeStatus_cfg : (s.writeStatus w).cfg = s.cfg := rfl
@[simp] theorem State.writeStatus_win : (s.writeStatus w).win = s.win := rfl
@[simp] theorem State.writeStatus_tail : (s.writeStatus w).tail = s.tail := rfl
@[simp] theorem State.writeStatus_ola : (s.writeStatus w).ola = s.ola := rfl
@[simp] theorem State.writeStatus_noise : (s.writeStatus w).noise = s.noise := rfl
@[simp] theorem State.writeStatus_pgain : (s.writeStatus w).pgain = s.pgain := rfl
@[simp] theorem State.writeStatus_hpz : (s.writeStatus w).hpz = s.hpz := rfl
@[simp] theorem State.writeStatus_hpzi : (s.writeStatus w).hpzi = s.hpzi := rfl
@[simp] theorem State.writeStatus_inBuf : (s.writeStatus w).inBuf = s.inBuf := rfl
@[simp] theorem State.writeStatus_out : (s.writeStatus w).out = s.out := rfl
@[simp] theorem State.writeStatus_work : (s.writeStatus w).work = s.work := rfl
@[simp] theorem State.writeStatus_build : (s.writeStatus w).build = s.build := rfl
@[simp] theorem State.writeStatus_seq : (s.writeStatus w).seq = s.seq := rfl
@[simp] theorem State.writeStatus_pending : (s.writeStatus w).pending = s.pending := rfl
@[simp] theorem State.writeStatus_response : (s.writeStatus w).response = s.response := rfl
@[simp] theorem State.writeStatus_resets : (s.writeStatus w).resets = s.resets := rfl
@[simp] theorem State.writeStatus_N : (s.writeStatus w).N = s.N := rfl
@[simp] theorem State.writeStatus_H : (s.writeStatus w).H = s.H := rfl
@[simp] theorem State.writeStatus_K : (s.writeStatus w).K = s.K := rfl

end

/-! ## What DESTROY clears (R244) -/

section
variable {ν : Type} (A : Arith ν) (s : State ν)

@[simp] theorem State.clearFlags_mode : (s.clearFlags).mode = .unconfigured := rfl
@[simp] theorem State.clearFlags_gainValid : (s.clearFlags).gainValid = false := rfl
@[simp] theorem State.clearFlags_outValid : (s.clearFlags).outValid = false := rfl
@[simp] theorem State.clearFlags_hpfEn : (s.clearFlags).hpfEn = false := rfl
@[simp] theorem State.clearFlags_hpfPrimed : (s.clearFlags).hpfPrimed = false := rfl
@[simp] theorem State.clearFlags_err : (s.clearFlags).err = s.err := rfl
@[simp] theorem State.clearFlags_errs : (s.clearFlags).errs = false := rfl
@[simp] theorem State.clearFlags_errCode : (s.clearFlags).errCode = s.errCode := rfl
@[simp] theorem State.clearFlags_errInfo : (s.clearFlags).errInfo = s.errInfo := rfl
@[simp] theorem State.clearFlags_cfg : (s.clearFlags).cfg = s.cfg := rfl
@[simp] theorem State.clearFlags_win : (s.clearFlags).win = s.win := rfl
@[simp] theorem State.clearFlags_tail : (s.clearFlags).tail = s.tail := rfl
@[simp] theorem State.clearFlags_ola : (s.clearFlags).ola = s.ola := rfl
@[simp] theorem State.clearFlags_noise : (s.clearFlags).noise = s.noise := rfl
@[simp] theorem State.clearFlags_pgain : (s.clearFlags).pgain = s.pgain := rfl
@[simp] theorem State.clearFlags_hpz : (s.clearFlags).hpz = s.hpz := rfl
@[simp] theorem State.clearFlags_hpzi : (s.clearFlags).hpzi = s.hpzi := rfl
@[simp] theorem State.clearFlags_inBuf : (s.clearFlags).inBuf = s.inBuf := rfl
@[simp] theorem State.clearFlags_out : (s.clearFlags).out = s.out := rfl
@[simp] theorem State.clearFlags_work : (s.clearFlags).work = s.work := rfl
@[simp] theorem State.clearFlags_build : (s.clearFlags).build = s.build := rfl
@[simp] theorem State.clearFlags_seq : (s.clearFlags).seq = s.seq := rfl
@[simp] theorem State.clearFlags_pending : (s.clearFlags).pending = s.pending := rfl
@[simp] theorem State.clearFlags_response : (s.clearFlags).response = s.response := rfl
@[simp] theorem State.clearFlags_resets : (s.clearFlags).resets = s.resets := rfl
@[simp] theorem State.clearFlags_N : (s.clearFlags).N = s.N := rfl
@[simp] theorem State.clearFlags_H : (s.clearFlags).H = s.H := rfl
@[simp] theorem State.clearFlags_K : (s.clearFlags).K = s.K := rfl

end

/-! ## CONFIGURE step 4 (R234) -/

section
variable {ν : Type} (A : Arith ν) (s : State ν)

@[simp] theorem setFilterTag_mode : (setFilterTag A s).mode = s.mode := rfl
@[simp] theorem setFilterTag_gainValid : (setFilterTag A s).gainValid = s.gainValid := rfl
@[simp] theorem setFilterTag_outValid : (setFilterTag A s).outValid = s.outValid := rfl
@[simp] theorem setFilterTag_hpfEn : (setFilterTag A s).hpfEn = filterOn A s.cfg := rfl
@[simp] theorem setFilterTag_hpfPrimed : (setFilterTag A s).hpfPrimed = s.hpfPrimed := rfl
@[simp] theorem setFilterTag_err : (setFilterTag A s).err = s.err := rfl
@[simp] theorem setFilterTag_errs : (setFilterTag A s).errs = s.errs := rfl
@[simp] theorem setFilterTag_errCode : (setFilterTag A s).errCode = s.errCode := rfl
@[simp] theorem setFilterTag_errInfo : (setFilterTag A s).errInfo = s.errInfo := rfl
@[simp] theorem setFilterTag_cfg : (setFilterTag A s).cfg = s.cfg := rfl
@[simp] theorem setFilterTag_win : (setFilterTag A s).win = s.win := rfl
@[simp] theorem setFilterTag_tail : (setFilterTag A s).tail = s.tail := rfl
@[simp] theorem setFilterTag_ola : (setFilterTag A s).ola = s.ola := rfl
@[simp] theorem setFilterTag_noise : (setFilterTag A s).noise = s.noise := rfl
@[simp] theorem setFilterTag_pgain : (setFilterTag A s).pgain = s.pgain := rfl
@[simp] theorem setFilterTag_hpz : (setFilterTag A s).hpz = s.hpz := rfl
@[simp] theorem setFilterTag_hpzi : (setFilterTag A s).hpzi = s.hpzi := rfl
@[simp] theorem setFilterTag_inBuf : (setFilterTag A s).inBuf = s.inBuf := rfl
@[simp] theorem setFilterTag_out : (setFilterTag A s).out = s.out := rfl
@[simp] theorem setFilterTag_work : (setFilterTag A s).work = s.work := rfl
@[simp] theorem setFilterTag_build : (setFilterTag A s).build = s.build := rfl
@[simp] theorem setFilterTag_seq : (setFilterTag A s).seq = s.seq := rfl
@[simp] theorem setFilterTag_pending : (setFilterTag A s).pending = s.pending := rfl
@[simp] theorem setFilterTag_response : (setFilterTag A s).response = s.response := rfl
@[simp] theorem setFilterTag_resets : (setFilterTag A s).resets = s.resets := rfl
@[simp] theorem setFilterTag_N : (setFilterTag A s).N = s.N := rfl
@[simp] theorem setFilterTag_H : (setFilterTag A s).H = s.H := rfl
@[simp] theorem setFilterTag_K : (setFilterTag A s).K = s.K := rfl

end

/-! ## CONFIGURE steps 7 to 9 (R234) -/

section
variable {ν : Type} (A : Arith ν) (s : State ν)

@[simp] theorem construct_mode : (construct A s).mode = .configured := rfl
@[simp] theorem construct_gainValid : (construct A s).gainValid = false := rfl
@[simp] theorem construct_outValid : (construct A s).outValid = false := rfl
@[simp] theorem construct_hpfEn : (construct A s).hpfEn = s.hpfEn := rfl
@[simp] theorem construct_hpfPrimed : (construct A s).hpfPrimed = s.hpfPrimed := rfl
@[simp] theorem construct_err : (construct A s).err = s.err := rfl
@[simp] theorem construct_errs : (construct A s).errs = s.errs := rfl
@[simp] theorem construct_errCode : (construct A s).errCode = s.errCode := rfl
@[simp] theorem construct_errInfo : (construct A s).errInfo = s.errInfo := rfl
@[simp] theorem construct_cfg : (construct A s).cfg = s.cfg := rfl
@[simp] theorem construct_win : (construct A s).win = s.win := rfl
@[simp] theorem construct_tail : (construct A s).tail = zeros A (s.N - s.H) := rfl
@[simp] theorem construct_ola : (construct A s).ola = zeros A s.N := rfl
@[simp] theorem construct_noise : (construct A s).noise = List.replicate s.K s.build.noiseInit := rfl
@[simp] theorem construct_pgain : (construct A s).pgain = s.pgain := rfl
@[simp] theorem construct_hpz : (construct A s).hpz = s.hpz := rfl
@[simp] theorem construct_hpzi : (construct A s).hpzi = s.hpzi := rfl
@[simp] theorem construct_inBuf : (construct A s).inBuf = Memory.zeros s.build.hmax := rfl
@[simp] theorem construct_out : (construct A s).out = s.out := rfl
@[simp] theorem construct_work : (construct A s).work = s.work := rfl
@[simp] theorem construct_build : (construct A s).build = s.build := rfl
@[simp] theorem construct_seq : (construct A s).seq = s.seq := rfl
@[simp] theorem construct_pending : (construct A s).pending = s.pending := rfl
@[simp] theorem construct_response : (construct A s).response = s.response := rfl
@[simp] theorem construct_resets : (construct A s).resets = s.resets := rfl
@[simp] theorem construct_N : (construct A s).N = s.N := rfl
@[simp] theorem construct_H : (construct A s).H = s.H := rfl
@[simp] theorem construct_K : (construct A s).K = s.K := rfl

end

/-! ## WINGEN (R131) -/

section
variable {ν : Type} (A : Arith ν) (s : State ν)

@[simp] theorem wingen_mode : (wingen A s).mode = s.mode := rfl
@[simp] theorem wingen_gainValid : (wingen A s).gainValid = s.gainValid := rfl
@[simp] theorem wingen_outValid : (wingen A s).outValid = s.outValid := rfl
@[simp] theorem wingen_hpfEn : (wingen A s).hpfEn = s.hpfEn := rfl
@[simp] theorem wingen_hpfPrimed : (wingen A s).hpfPrimed = s.hpfPrimed := rfl
@[simp] theorem wingen_err : (wingen A s).err = s.err := rfl
@[simp] theorem wingen_errs : (wingen A s).errs = s.errs := rfl
@[simp] theorem wingen_errCode : (wingen A s).errCode = s.errCode := rfl
@[simp] theorem wingen_errInfo : (wingen A s).errInfo = s.errInfo := rfl
@[simp] theorem wingen_cfg : (wingen A s).cfg = s.cfg := rfl
@[simp] theorem wingen_win : (wingen A s).win = windowOf A s.build.epsWin s.N := rfl
@[simp] theorem wingen_tail : (wingen A s).tail = s.tail := rfl
@[simp] theorem wingen_ola : (wingen A s).ola = s.ola := rfl
@[simp] theorem wingen_noise : (wingen A s).noise = s.noise := rfl
@[simp] theorem wingen_pgain : (wingen A s).pgain = s.pgain := rfl
@[simp] theorem wingen_hpz : (wingen A s).hpz = s.hpz := rfl
@[simp] theorem wingen_hpzi : (wingen A s).hpzi = s.hpzi := rfl
@[simp] theorem wingen_inBuf : (wingen A s).inBuf = s.inBuf := rfl
@[simp] theorem wingen_out : (wingen A s).out = s.out := rfl
@[simp] theorem wingen_work : (wingen A s).work = s.work := rfl
@[simp] theorem wingen_build : (wingen A s).build = s.build := rfl
@[simp] theorem wingen_seq : (wingen A s).seq = s.seq := rfl
@[simp] theorem wingen_pending : (wingen A s).pending = s.pending := rfl
@[simp] theorem wingen_response : (wingen A s).response = s.response := rfl
@[simp] theorem wingen_resets : (wingen A s).resets = s.resets := rfl
@[simp] theorem wingen_N : (wingen A s).N = s.N := rfl
@[simp] theorem wingen_H : (wingen A s).H = s.H := rfl
@[simp] theorem wingen_K : (wingen A s).K = s.K := rfl

end

/-! ## HPF_SETUP (R142) -/

section
variable {ν : Type} (A : Arith ν) (s : State ν)

@[simp] theorem hpfSetup_mode : (hpfSetup A s).mode = s.mode := rfl
@[simp] theorem hpfSetup_gainValid : (hpfSetup A s).gainValid = s.gainValid := rfl
@[simp] theorem hpfSetup_outValid : (hpfSetup A s).outValid = s.outValid := rfl
@[simp] theorem hpfSetup_hpfEn : (hpfSetup A s).hpfEn = s.hpfEn := rfl
@[simp] theorem hpfSetup_hpfPrimed : (hpfSetup A s).hpfPrimed = false := rfl
@[simp] theorem hpfSetup_err : (hpfSetup A s).err = s.err := rfl
@[simp] theorem hpfSetup_errs : (hpfSetup A s).errs = s.errs := rfl
@[simp] theorem hpfSetup_errCode : (hpfSetup A s).errCode = s.errCode := rfl
@[simp] theorem hpfSetup_errInfo : (hpfSetup A s).errInfo = s.errInfo := rfl
@[simp] theorem hpfSetup_cfg : (hpfSetup A s).cfg = s.cfg := rfl
@[simp] theorem hpfSetup_win : (hpfSetup A s).win = s.win := rfl
@[simp] theorem hpfSetup_tail : (hpfSetup A s).tail = s.tail := rfl
@[simp] theorem hpfSetup_ola : (hpfSetup A s).ola = s.ola := rfl
@[simp] theorem hpfSetup_noise : (hpfSetup A s).noise = s.noise := rfl
@[simp] theorem hpfSetup_pgain : (hpfSetup A s).pgain = s.pgain := rfl
@[simp] theorem hpfSetup_hpz : (hpfSetup A s).hpz = List.replicate s.build.smax (restZero A) := rfl
@[simp] theorem hpfSetup_hpzi : (hpfSetup A s).hpzi =
    if s.hpfEn then restStates A (s.biquads A) A.one ++ List.replicate (s.build.smax - s.cfg.sections) (restZero A)
    else s.hpzi := rfl
@[simp] theorem hpfSetup_inBuf : (hpfSetup A s).inBuf = s.inBuf := rfl
@[simp] theorem hpfSetup_out : (hpfSetup A s).out = s.out := rfl
@[simp] theorem hpfSetup_work : (hpfSetup A s).work = s.work := rfl
@[simp] theorem hpfSetup_build : (hpfSetup A s).build = s.build := rfl
@[simp] theorem hpfSetup_seq : (hpfSetup A s).seq = s.seq := rfl
@[simp] theorem hpfSetup_pending : (hpfSetup A s).pending = s.pending := rfl
@[simp] theorem hpfSetup_response : (hpfSetup A s).response = s.response := rfl
@[simp] theorem hpfSetup_resets : (hpfSetup A s).resets = s.resets := rfl
@[simp] theorem hpfSetup_N : (hpfSetup A s).N = s.N := rfl
@[simp] theorem hpfSetup_H : (hpfSetup A s).H = s.H := rfl
@[simp] theorem hpfSetup_K : (hpfSetup A s).K = s.K := rfl

end

/-! ## FRAME_BUILD (R161) -/

section
variable {ν : Type} (s : State ν) (chunk : List ν)

@[simp] theorem frameBuild_mode : (frameBuild chunk s).mode = s.mode := rfl
@[simp] theorem frameBuild_gainValid : (frameBuild chunk s).gainValid = s.gainValid := rfl
@[simp] theorem frameBuild_outValid : (frameBuild chunk s).outValid = s.outValid := rfl
@[simp] theorem frameBuild_hpfEn : (frameBuild chunk s).hpfEn = s.hpfEn := rfl
@[simp] theorem frameBuild_hpfPrimed : (frameBuild chunk s).hpfPrimed = s.hpfPrimed := rfl
@[simp] theorem frameBuild_err : (frameBuild chunk s).err = s.err := rfl
@[simp] theorem frameBuild_errs : (frameBuild chunk s).errs = s.errs := rfl
@[simp] theorem frameBuild_errCode : (frameBuild chunk s).errCode = s.errCode := rfl
@[simp] theorem frameBuild_errInfo : (frameBuild chunk s).errInfo = s.errInfo := rfl
@[simp] theorem frameBuild_cfg : (frameBuild chunk s).cfg = s.cfg := rfl
@[simp] theorem frameBuild_win : (frameBuild chunk s).win = s.win := rfl
@[simp] theorem frameBuild_tail : (frameBuild chunk s).tail = chunk.drop (s.H - (s.N - s.H)) := rfl
@[simp] theorem frameBuild_ola : (frameBuild chunk s).ola = s.ola := rfl
@[simp] theorem frameBuild_noise : (frameBuild chunk s).noise = s.noise := rfl
@[simp] theorem frameBuild_pgain : (frameBuild chunk s).pgain = s.pgain := rfl
@[simp] theorem frameBuild_hpz : (frameBuild chunk s).hpz = s.hpz := rfl
@[simp] theorem frameBuild_hpzi : (frameBuild chunk s).hpzi = s.hpzi := rfl
@[simp] theorem frameBuild_inBuf : (frameBuild chunk s).inBuf = s.inBuf := rfl
@[simp] theorem frameBuild_out : (frameBuild chunk s).out = s.out := rfl
@[simp] theorem frameBuild_work : (frameBuild chunk s).work = { s.work with chunk := chunk, frame := s.tail ++ chunk } := rfl
@[simp] theorem frameBuild_build : (frameBuild chunk s).build = s.build := rfl
@[simp] theorem frameBuild_seq : (frameBuild chunk s).seq = s.seq := rfl
@[simp] theorem frameBuild_pending : (frameBuild chunk s).pending = s.pending := rfl
@[simp] theorem frameBuild_response : (frameBuild chunk s).response = s.response := rfl
@[simp] theorem frameBuild_resets : (frameBuild chunk s).resets = s.resets := rfl
@[simp] theorem frameBuild_N : (frameBuild chunk s).N = s.N := rfl
@[simp] theorem frameBuild_H : (frameBuild chunk s).H = s.H := rfl
@[simp] theorem frameBuild_K : (frameBuild chunk s).K = s.K := rfl

end

/-! ## HPF (R146) -/

section
variable {ν : Type} (A : Arith ν) (s : State ν)

@[simp] theorem hpf_mode : (hpf A s).mode = s.mode := rfl
@[simp] theorem hpf_gainValid : (hpf A s).gainValid = s.gainValid := rfl
@[simp] theorem hpf_outValid : (hpf A s).outValid = s.outValid := rfl
@[simp] theorem hpf_hpfEn : (hpf A s).hpfEn = s.hpfEn := rfl
@[simp] theorem hpf_hpfPrimed : (hpf A s).hpfPrimed = (s.hpfEn || s.hpfPrimed) := rfl
@[simp] theorem hpf_err : (hpf A s).err = s.err := rfl
@[simp] theorem hpf_errs : (hpf A s).errs = s.errs := rfl
@[simp] theorem hpf_errCode : (hpf A s).errCode = s.errCode := rfl
@[simp] theorem hpf_errInfo : (hpf A s).errInfo = s.errInfo := rfl
@[simp] theorem hpf_cfg : (hpf A s).cfg = s.cfg := rfl
@[simp] theorem hpf_win : (hpf A s).win = s.win := rfl
@[simp] theorem hpf_tail : (hpf A s).tail = s.tail := rfl
@[simp] theorem hpf_ola : (hpf A s).ola = s.ola := rfl
@[simp] theorem hpf_noise : (hpf A s).noise = s.noise := rfl
@[simp] theorem hpf_pgain : (hpf A s).pgain = s.pgain := rfl
@[simp] theorem hpf_hpz : (hpf A s).hpz =
    if s.hpfEn then (s.filtered A).2 ++ s.hpz.drop s.cfg.sections else s.hpz := rfl
@[simp] theorem hpf_hpzi : (hpf A s).hpzi = s.hpzi := rfl
@[simp] theorem hpf_inBuf : (hpf A s).inBuf = s.inBuf := rfl
@[simp] theorem hpf_out : (hpf A s).out = s.out := rfl
@[simp] theorem hpf_work : (hpf A s).work = { s.work with filt := if s.hpfEn then (s.filtered A).1 else s.work.frame } := rfl
@[simp] theorem hpf_build : (hpf A s).build = s.build := rfl
@[simp] theorem hpf_seq : (hpf A s).seq = s.seq := rfl
@[simp] theorem hpf_pending : (hpf A s).pending = s.pending := rfl
@[simp] theorem hpf_response : (hpf A s).response = s.response := rfl
@[simp] theorem hpf_resets : (hpf A s).resets = s.resets := rfl
@[simp] theorem hpf_N : (hpf A s).N = s.N := rfl
@[simp] theorem hpf_H : (hpf A s).H = s.H := rfl
@[simp] theorem hpf_K : (hpf A s).K = s.K := rfl

end

/-! ## ANALYZE (R185) -/

section
variable {ν : Type} (A : Arith ν) (s : State ν)

@[simp] theorem analyze_mode : (analyze A s).mode = s.mode := rfl
@[simp] theorem analyze_gainValid : (analyze A s).gainValid = s.gainValid := rfl
@[simp] theorem analyze_outValid : (analyze A s).outValid = s.outValid := rfl
@[simp] theorem analyze_hpfEn : (analyze A s).hpfEn = s.hpfEn := rfl
@[simp] theorem analyze_hpfPrimed : (analyze A s).hpfPrimed = s.hpfPrimed := rfl
@[simp] theorem analyze_err : (analyze A s).err = s.err := rfl
@[simp] theorem analyze_errs : (analyze A s).errs = s.errs := rfl
@[simp] theorem analyze_errCode : (analyze A s).errCode = s.errCode := rfl
@[simp] theorem analyze_errInfo : (analyze A s).errInfo = s.errInfo := rfl
@[simp] theorem analyze_cfg : (analyze A s).cfg = s.cfg := rfl
@[simp] theorem analyze_win : (analyze A s).win = s.win := rfl
@[simp] theorem analyze_tail : (analyze A s).tail = s.tail := rfl
@[simp] theorem analyze_ola : (analyze A s).ola = s.ola := rfl
@[simp] theorem analyze_noise : (analyze A s).noise = s.noise := rfl
@[simp] theorem analyze_pgain : (analyze A s).pgain = s.pgain := rfl
@[simp] theorem analyze_hpz : (analyze A s).hpz = s.hpz := rfl
@[simp] theorem analyze_hpzi : (analyze A s).hpzi = s.hpzi := rfl
@[simp] theorem analyze_inBuf : (analyze A s).inBuf = s.inBuf := rfl
@[simp] theorem analyze_out : (analyze A s).out = s.out := rfl
@[simp] theorem analyze_work : (analyze A s).work = { s.work with x := s.spectrum A, mag := (s.spectrum A).map A.cabs, phs := (s.spectrum A).map A.phase } := rfl
@[simp] theorem analyze_build : (analyze A s).build = s.build := rfl
@[simp] theorem analyze_seq : (analyze A s).seq = s.seq := rfl
@[simp] theorem analyze_pending : (analyze A s).pending = s.pending := rfl
@[simp] theorem analyze_response : (analyze A s).response = s.response := rfl
@[simp] theorem analyze_resets : (analyze A s).resets = s.resets := rfl
@[simp] theorem analyze_N : (analyze A s).N = s.N := rfl
@[simp] theorem analyze_H : (analyze A s).H = s.H := rfl
@[simp] theorem analyze_K : (analyze A s).K = s.K := rfl

end

/-! ## NOISE_UPDATE (R201) -/

section
variable {ν : Type} (A : Arith ν) (s : State ν)

@[simp] theorem noiseUpdate_mode : (noiseUpdate A s).mode = s.mode := rfl
@[simp] theorem noiseUpdate_gainValid : (noiseUpdate A s).gainValid = s.gainValid := rfl
@[simp] theorem noiseUpdate_outValid : (noiseUpdate A s).outValid = s.outValid := rfl
@[simp] theorem noiseUpdate_hpfEn : (noiseUpdate A s).hpfEn = s.hpfEn := rfl
@[simp] theorem noiseUpdate_hpfPrimed : (noiseUpdate A s).hpfPrimed = s.hpfPrimed := rfl
@[simp] theorem noiseUpdate_err : (noiseUpdate A s).err = s.err := rfl
@[simp] theorem noiseUpdate_errs : (noiseUpdate A s).errs = s.errs := rfl
@[simp] theorem noiseUpdate_errCode : (noiseUpdate A s).errCode = s.errCode := rfl
@[simp] theorem noiseUpdate_errInfo : (noiseUpdate A s).errInfo = s.errInfo := rfl
@[simp] theorem noiseUpdate_cfg : (noiseUpdate A s).cfg = s.cfg := rfl
@[simp] theorem noiseUpdate_win : (noiseUpdate A s).win = s.win := rfl
@[simp] theorem noiseUpdate_tail : (noiseUpdate A s).tail = s.tail := rfl
@[simp] theorem noiseUpdate_ola : (noiseUpdate A s).ola = s.ola := rfl
@[simp] theorem noiseUpdate_noise : (noiseUpdate A s).noise = List.zipWith (smooth A (s.alphaN A)) s.noise s.work.mag := rfl
@[simp] theorem noiseUpdate_pgain : (noiseUpdate A s).pgain = s.pgain := rfl
@[simp] theorem noiseUpdate_hpz : (noiseUpdate A s).hpz = s.hpz := rfl
@[simp] theorem noiseUpdate_hpzi : (noiseUpdate A s).hpzi = s.hpzi := rfl
@[simp] theorem noiseUpdate_inBuf : (noiseUpdate A s).inBuf = s.inBuf := rfl
@[simp] theorem noiseUpdate_out : (noiseUpdate A s).out = s.out := rfl
@[simp] theorem noiseUpdate_work : (noiseUpdate A s).work = s.work := rfl
@[simp] theorem noiseUpdate_build : (noiseUpdate A s).build = s.build := rfl
@[simp] theorem noiseUpdate_seq : (noiseUpdate A s).seq = s.seq := rfl
@[simp] theorem noiseUpdate_pending : (noiseUpdate A s).pending = s.pending := rfl
@[simp] theorem noiseUpdate_response : (noiseUpdate A s).response = s.response := rfl
@[simp] theorem noiseUpdate_resets : (noiseUpdate A s).resets = s.resets := rfl
@[simp] theorem noiseUpdate_N : (noiseUpdate A s).N = s.N := rfl
@[simp] theorem noiseUpdate_H : (noiseUpdate A s).H = s.H := rfl
@[simp] theorem noiseUpdate_K : (noiseUpdate A s).K = s.K := rfl

end

/-! ## GAIN (R211) -/

section
variable {ν : Type} (A : Arith ν) (s : State ν)

@[simp] theorem gain_mode : (gain A s).mode = s.mode := rfl
@[simp] theorem gain_gainValid : (gain A s).gainValid = true := rfl
@[simp] theorem gain_outValid : (gain A s).outValid = s.outValid := rfl
@[simp] theorem gain_hpfEn : (gain A s).hpfEn = s.hpfEn := rfl
@[simp] theorem gain_hpfPrimed : (gain A s).hpfPrimed = s.hpfPrimed := rfl
@[simp] theorem gain_err : (gain A s).err = s.err := rfl
@[simp] theorem gain_errs : (gain A s).errs = s.errs := rfl
@[simp] theorem gain_errCode : (gain A s).errCode = s.errCode := rfl
@[simp] theorem gain_errInfo : (gain A s).errInfo = s.errInfo := rfl
@[simp] theorem gain_cfg : (gain A s).cfg = s.cfg := rfl
@[simp] theorem gain_win : (gain A s).win = s.win := rfl
@[simp] theorem gain_tail : (gain A s).tail = s.tail := rfl
@[simp] theorem gain_ola : (gain A s).ola = s.ola := rfl
@[simp] theorem gain_noise : (gain A s).noise = s.noise := rfl
@[simp] theorem gain_pgain : (gain A s).pgain = s.gainVector A := rfl
@[simp] theorem gain_hpz : (gain A s).hpz = s.hpz := rfl
@[simp] theorem gain_hpzi : (gain A s).hpzi = s.hpzi := rfl
@[simp] theorem gain_inBuf : (gain A s).inBuf = s.inBuf := rfl
@[simp] theorem gain_out : (gain A s).out = s.out := rfl
@[simp] theorem gain_work : (gain A s).work = { s.work with clean := s.cleanVector A, ginst := s.ginstVector A, g := s.gainVector A } := rfl
@[simp] theorem gain_build : (gain A s).build = s.build := rfl
@[simp] theorem gain_seq : (gain A s).seq = s.seq := rfl
@[simp] theorem gain_pending : (gain A s).pending = s.pending := rfl
@[simp] theorem gain_response : (gain A s).response = s.response := rfl
@[simp] theorem gain_resets : (gain A s).resets = s.resets := rfl
@[simp] theorem gain_N : (gain A s).N = s.N := rfl
@[simp] theorem gain_H : (gain A s).H = s.H := rfl
@[simp] theorem gain_K : (gain A s).K = s.K := rfl

end

/-! ## SYNTH (R188) -/

section
variable {ν : Type} (A : Arith ν) (s : State ν)

@[simp] theorem synth_mode : (synth A s).mode = s.mode := rfl
@[simp] theorem synth_gainValid : (synth A s).gainValid = s.gainValid := rfl
@[simp] theorem synth_outValid : (synth A s).outValid = s.outValid := rfl
@[simp] theorem synth_hpfEn : (synth A s).hpfEn = s.hpfEn := rfl
@[simp] theorem synth_hpfPrimed : (synth A s).hpfPrimed = s.hpfPrimed := rfl
@[simp] theorem synth_err : (synth A s).err = s.err := rfl
@[simp] theorem synth_errs : (synth A s).errs = s.errs := rfl
@[simp] theorem synth_errCode : (synth A s).errCode = s.errCode := rfl
@[simp] theorem synth_errInfo : (synth A s).errInfo = s.errInfo := rfl
@[simp] theorem synth_cfg : (synth A s).cfg = s.cfg := rfl
@[simp] theorem synth_win : (synth A s).win = s.win := rfl
@[simp] theorem synth_tail : (synth A s).tail = s.tail := rfl
@[simp] theorem synth_ola : (synth A s).ola = s.ola := rfl
@[simp] theorem synth_noise : (synth A s).noise = s.noise := rfl
@[simp] theorem synth_pgain : (synth A s).pgain = s.pgain := rfl
@[simp] theorem synth_hpz : (synth A s).hpz = s.hpz := rfl
@[simp] theorem synth_hpzi : (synth A s).hpzi = s.hpzi := rfl
@[simp] theorem synth_inBuf : (synth A s).inBuf = s.inBuf := rfl
@[simp] theorem synth_out : (synth A s).out = s.out := rfl
@[simp] theorem synth_work : (synth A s).work =
    { s.work with y := shaped A s.work.g s.work.mag s.work.phs,
                  syn := List.zipWith A.mul s.win (A.irdft s.N (shaped A s.work.g s.work.mag s.work.phs)) } := rfl
@[simp] theorem synth_build : (synth A s).build = s.build := rfl
@[simp] theorem synth_seq : (synth A s).seq = s.seq := rfl
@[simp] theorem synth_pending : (synth A s).pending = s.pending := rfl
@[simp] theorem synth_response : (synth A s).response = s.response := rfl
@[simp] theorem synth_resets : (synth A s).resets = s.resets := rfl
@[simp] theorem synth_N : (synth A s).N = s.N := rfl
@[simp] theorem synth_H : (synth A s).H = s.H := rfl
@[simp] theorem synth_K : (synth A s).K = s.K := rfl

end

/-! ## OLA_EMIT (R166) -/

section
variable {ν : Type} (A : Arith ν) (s : State ν)

@[simp] theorem olaEmit_mode : (olaEmit A s).mode = s.mode := rfl
@[simp] theorem olaEmit_gainValid : (olaEmit A s).gainValid = s.gainValid := rfl
@[simp] theorem olaEmit_outValid : (olaEmit A s).outValid = true := rfl
@[simp] theorem olaEmit_hpfEn : (olaEmit A s).hpfEn = s.hpfEn := rfl
@[simp] theorem olaEmit_hpfPrimed : (olaEmit A s).hpfPrimed = s.hpfPrimed := rfl
@[simp] theorem olaEmit_err : (olaEmit A s).err = s.err := rfl
@[simp] theorem olaEmit_errs : (olaEmit A s).errs = s.errs := rfl
@[simp] theorem olaEmit_errCode : (olaEmit A s).errCode = s.errCode := rfl
@[simp] theorem olaEmit_errInfo : (olaEmit A s).errInfo = s.errInfo := rfl
@[simp] theorem olaEmit_cfg : (olaEmit A s).cfg = s.cfg := rfl
@[simp] theorem olaEmit_win : (olaEmit A s).win = s.win := rfl
@[simp] theorem olaEmit_tail : (olaEmit A s).tail = s.tail := rfl
@[simp] theorem olaEmit_ola : (olaEmit A s).ola = List.zipWith A.add (shiftOla A s.H s.ola) s.work.syn := rfl
@[simp] theorem olaEmit_noise : (olaEmit A s).noise = s.noise := rfl
@[simp] theorem olaEmit_pgain : (olaEmit A s).pgain = s.pgain := rfl
@[simp] theorem olaEmit_hpz : (olaEmit A s).hpz = s.hpz := rfl
@[simp] theorem olaEmit_hpzi : (olaEmit A s).hpzi = s.hpzi := rfl
@[simp] theorem olaEmit_inBuf : (olaEmit A s).inBuf = s.inBuf := rfl
@[simp] theorem olaEmit_out : (olaEmit A s).out = s.ola.take s.H := rfl
@[simp] theorem olaEmit_work : (olaEmit A s).work = s.work := rfl
@[simp] theorem olaEmit_build : (olaEmit A s).build = s.build := rfl
@[simp] theorem olaEmit_seq : (olaEmit A s).seq = s.seq := rfl
@[simp] theorem olaEmit_pending : (olaEmit A s).pending = s.pending := rfl
@[simp] theorem olaEmit_response : (olaEmit A s).response = s.response := rfl
@[simp] theorem olaEmit_resets : (olaEmit A s).resets = s.resets := rfl
@[simp] theorem olaEmit_N : (olaEmit A s).N = s.N := rfl
@[simp] theorem olaEmit_H : (olaEmit A s).H = s.H := rfl
@[simp] theorem olaEmit_K : (olaEmit A s).K = s.K := rfl

end

end Sys2Proof.Machine.Generic
end

