-- ==== Sys2Proof/Laws/Hom.lean ====
section
/-! SUPPORT. Two arithmetic records whose operations correspond under a map of the numbers give machines whose steps
correspond: one lemma per function of the model, and `Generic.step_map` for the step. -/

namespace Sys2Proof.Machine

variable {ν μ : Type}

/-- The operations of E are those of F under f. The container of a number is left out: `Generic.step_map` takes it apart. -/
structure Elementary.Hom (E : Elementary ν) (F : Elementary μ) (f : ν → μ) : Prop where
  ofRat : ∀ q, f (E.ofRat q) = F.ofRat q
  add : ∀ a b, f (E.add a b) = F.add (f a) (f b)
  sub : ∀ a b, f (E.sub a b) = F.sub (f a) (f b)
  mul : ∀ a b, f (E.mul a b) = F.mul (f a) (f b)
  div : ∀ a b, f (E.div a b) = F.div (f a) (f b)
  max : ∀ a b, f (E.max a b) = F.max (f a) (f b)
  sqrt : ∀ a, f (E.sqrt a) = F.sqrt (f a)
  abs : ∀ a, f (E.abs a) = F.abs (f a)
  cos : ∀ q, f (E.cos q) = F.cos q
  less : ∀ a b, E.less a b = F.less (f a) (f b)
  num? : ∀ w, (E.num? w).map f = F.num? w

/-- The records A and B correspond under f. -/
structure Arith.Hom (A : Arith ν) (B : Arith μ) (f : ν → μ) : Prop extends
    Elementary.Hom A.toElementary B.toElementary f where
  rdft : ∀ len a, (A.rdft len a).map (Cplx.map f) = B.rdft len (a.map f)
  irdft : ∀ len b, (A.irdft len b).map f = B.irdft len (b.map (Cplx.map f))
  phase : ∀ z, Cplx.map f (A.phase z) = B.phase (Cplx.map f z)

/-! ## Numbers -/

section Elementary

variable {E : Elementary ν} {F : Elementary μ} {f : ν → μ} (h : E.Hom F f)
include h

theorem Elementary.Hom.zero : f E.zero = F.zero := h.ofRat 0

theorem Elementary.Hom.one : f E.one = F.one := h.ofRat 1

theorem Elementary.Hom.sin (q : ℚ) : f (E.sin q) = F.sin q := h.cos _

theorem Elementary.Hom.total (l : List ν) : f (E.total l) = F.total (l.map f) := by
  induction l with
  | nil => exact h.zero
  | cons a l ih => rw [Elementary.total, h.add, ih]; rfl

theorem Elementary.Hom.cabs (z : Cplx ν) : f (E.cabs z) = F.cabs (Cplx.map f z) := by
  rw [Elementary.cabs, h.sqrt, h.add, h.mul, h.mul]; rfl

theorem Elementary.Hom.scale (a : ν) (z : Cplx ν) : Cplx.map f (E.scale a z) = F.scale (f a) (Cplx.map f z) := by
  rw [Elementary.scale, Cplx.map, h.mul, h.mul]; rfl

theorem Elementary.Hom.unit (z : Cplx ν) : Cplx.map f (E.unit z) = F.unit (Cplx.map f z) := by
  have hc := h.less E.zero (E.cabs z)
  rw [h.zero, h.cabs] at hc
  unfold Elementary.unit
  by_cases hl : F.less F.zero (F.cabs (Cplx.map f z)) = true
  · rw [if_pos hl, if_pos (hc.trans hl), Cplx.map, h.div, h.div, h.cabs]; rfl
  · rw [if_neg hl, if_neg (fun k => hl (hc.symm.trans k)), Cplx.map, h.one, h.zero]

theorem Elementary.Hom.finite (w : Word) : E.finite w = F.finite w := by
  rw [Elementary.finite, Elementary.finite, ← h.num?, Option.isSome_map]

theorem Elementary.Hom.numOf (w : Word) : f (E.numOf w) = F.numOf w := by
  unfold Elementary.numOf
  rw [← h.num?, ← h.ofRat]
  cases E.num? w <;> rfl

/-! ## The transform pair -/

theorem Elementary.Hom.rdftBin (len : ℕ) (a : List ν) (k : ℕ) :
    Cplx.map f (Machine.rdftBin E len a k) = Machine.rdftBin F len (a.map f) k := by
  have e : ∀ (u : ℚ → ν) (v : ℚ → μ), (∀ q, f (u q) = v q) →
      f (E.total (a.zipIdx.map fun e => E.mul e.1 (u (turns len k e.2)))) =
        F.total ((a.map f).zipIdx.map fun e => F.mul e.1 (v (turns len k e.2))) := by
    intro u v huv
    rw [h.total, List.map_map, List.zipIdx_map, List.map_map]
    congr 1
    exact List.map_congr_left fun e _ => by simp [h.mul, huv]
  rw [Machine.rdftBin, Machine.rdftBin, Cplx.map, h.sub, h.zero]
  congr 1
  · exact e E.cos F.cos h.cos
  · exact congrArg _ (e E.sin F.sin h.sin)

theorem Elementary.Hom.rdft (len : ℕ) (a : List ν) :
    (Machine.rdft E len a).map (Cplx.map f) = Machine.rdft F len (a.map f) := by
  unfold Machine.rdft
  rw [List.map_map]
  exact List.map_congr_left fun k _ => h.rdftBin len a k

theorem Elementary.Hom.realPart (b : List (Cplx ν)) (k : ℕ) :
    f (Machine.realPart E b k) = Machine.realPart F (b.map (Cplx.map f)) k := by
  unfold Machine.realPart
  rw [← h.zero, List.getD_eq_getElem?_getD, List.getD_eq_getElem?_getD, List.getElem?_map]
  cases b[k]? <;> rfl

theorem Elementary.Hom.turnedRe (len n : ℕ) (z : Cplx ν) (k : ℕ) :
    f (Machine.turnedRe E len n z k) = Machine.turnedRe F len n (Cplx.map f z) k := by
  rw [Machine.turnedRe, h.sub, h.mul, h.mul, h.cos, h.sin]; rfl

theorem Elementary.Hom.irdftSample (len : ℕ) (b : List (Cplx ν)) (n : ℕ) :
    f (Machine.irdftSample E len b n) = Machine.irdftSample F len (b.map (Cplx.map f)) n := by
  rw [Machine.irdftSample, h.mul, h.add, h.add, h.mul, h.mul, h.total, h.ofRat, h.ofRat, h.ofRat, h.realPart, h.realPart]
  have e : (interiorBins len b).map (Prod.map (Cplx.map f) id) = interiorBins len (b.map (Cplx.map f)) := by
    rw [interiorBins, interiorBins, List.zipIdx_map, List.map_take, List.map_drop]
  rw [Machine.irdftSample, ← e, List.map_map, List.map_map]
  congr 4
  exact List.map_congr_left fun z _ => by simp [h.turnedRe]

theorem Elementary.Hom.irdft (len : ℕ) (b : List (Cplx ν)) :
    (Machine.irdft E len b).map f = Machine.irdft F len (b.map (Cplx.map f)) := by
  unfold Machine.irdft
  rw [List.map_map]
  exact List.map_congr_left fun n _ => h.irdftSample len b n

end Elementary

namespace Generic

section Arith

/-- A section with its coefficients replaced. -/
def mapBiquad (f : ν → μ) (c : Biquad ν) : Biquad μ := ⟨f c.b0, f c.b1, f c.b2, f c.a1, f c.a2⟩

variable {A : Arith ν} {B : Arith μ} {f : ν → μ} (h : A.Hom B f)

/-! ## Lists of numbers -/

theorem map_zipWith₂ {α β γ α' β' γ' : Type} {fa : α → α'} {fb : β → β'} {fc : γ → γ'} {g : α → β → γ} {g' : α' → β' → γ'}
    (hg : ∀ a b, fc (g a b) = g' (fa a) (fb b)) (a : List α) (b : List β) :
    (List.zipWith g a b).map fc = List.zipWith g' (a.map fa) (b.map fb) := by
  rw [List.map_zipWith, List.zipWith_map]
  simp only [hg]

theorem map_getD (f : ν → μ) (a : List ν) (i : ℕ) (d : ν) : f (a.getD i d) = (a.map f).getD i (f d) := by
  rw [List.getD_eq_getElem?_getD, List.getD_eq_getElem?_getD, List.getElem?_map]
  cases a[i]? <;> rfl

/-! ## What does not depend on the numbers -/

section Plain
variable (f) (s : State ν)

@[simp] theorem map_N : (s.map f).N = s.N := rfl
@[simp] theorem map_H : (s.map f).H = s.H := rfl
@[simp] theorem map_K : (s.map f).K = s.K := rfl
@[simp] theorem map_inWord (i : ℕ) : (s.map f).inWord i = s.inWord i := rfl
@[simp] theorem map_status : (s.map f).status = s.status := rfl
@[simp] theorem map_locOf (a : Addr) : (s.map f).locOf a = s.locOf a := rfl
@[simp] theorem map_raise (e : ErrorCode) (i : Word) : (s.raise e i).map f = (s.map f).raise e i := rfl
@[simp] theorem map_succeed : s.succeed.map f = (s.map f).succeed := rfl
@[simp] theorem map_respond (r : Response) : (s.respond r).map f = (s.map f).respond r := rfl
@[simp] theorem map_dropWork : s.dropWork.map f = (s.map f).dropWork := rfl
@[simp] theorem map_clearFlags : s.clearFlags.map f = (s.map f).clearFlags := rfl
@[simp] theorem map_writeStatus (w : Word) : (s.writeStatus w).map f = (s.map f).writeStatus w := rfl
@[simp] theorem map_hardReset (r : List HostEvent) : (s.hardReset r).map f = (s.map f).hardReset r := rfl

@[simp] theorem map_writeConfig (c : ConfigRegs) : (s.writeConfig c).map f = (s.map f).writeConfig c := by
  unfold State.writeConfig; rw [apply_ite (State.map f)]; rfl

@[simp] theorem map_writeIn (i : ℕ) (w : Word) : (s.writeIn i w).map f = (s.map f).writeIn i w := by
  unfold State.writeIn; rw [apply_ite (State.map f)]; rfl

theorem map_andThen {o : Answer (State ν)} {g : State ν → Answer (State ν)} {g' : State μ → Answer (State μ)}
    (hg : ∀ s, mapAnswer f (g s) = g' (s.map f)) : mapAnswer f (andThen o g) = andThen (mapAnswer f o) g' := by
  cases o
  · exact hg _
  · rfl
  · rfl

end Plain

/-! ## Operands -/

include h

theorem map_biquad (x : Section) : mapBiquad f (biquad A x) = biquad B x := by simp [mapBiquad, biquad, h.numOf]

theorem map_biquads (s : State ν) : (s.biquads A).map (mapBiquad f) = (s.map f).biquads B := by
  unfold State.biquads
  rw [List.map_map]
  exact List.map_congr_left fun x _ => map_biquad h x

theorem map_zeros (n : ℕ) : (zeros A n).map f = zeros B n := by rw [zeros, zeros, List.map_replicate, h.zero]

theorem map_decodeAll (i : ℕ) (l : List Word) : decodeAll B i l = (decodeAll A i l).map (List.map f) := by
  induction l generalizing i with
  | nil => rfl
  | cons w l ih =>
    rw [decodeAll, decodeAll, ← h.num?]
    cases A.num? w with
    | none => rfl
    | some q =>
      simp only [Option.map_some, ih]
      cases decodeAll A (i + 1) l <;> rfl

theorem map_chunk (s : State ν) : (s.map f).chunk B = (s.chunk A).map (List.map f) := map_decodeAll h 0 s.chunkWords

theorem map_filterOn (c : ConfigRegs) : filterOn A c = filterOn B c := by
  unfold filterOn
  rw [← h.num?]
  cases A.num? c.hpCutoff with
  | none => rfl
  | some q => simp only [Option.map_some, h.less, h.zero]

/-! ## WINGEN, HPF_SETUP, HPF -/

theorem map_windowOf (eps : ν) (n : ℕ) : (windowOf A eps n).map f = windowOf B (f eps) n := by
  unfold windowOf
  rw [List.map_map]
  refine List.map_congr_left fun i _ => ?_
  simp only [Function.comp_apply, windowElement, h.sqrt, h.add, h.mul, h.sub, h.ofRat, h.one, h.cos]

theorem map_wingen (s : State ν) : (wingen A s).map f = wingen B (s.map f) := by
  apply State.ext <;> simp [State.map, mapBuild, map_windowOf h, wingen, State.N]

theorem map_dcGain (c : Biquad ν) : f (dcGain A c) = dcGain B (mapBiquad f c) := by
  simp only [dcGain, mapBiquad, h.div, h.add, h.one]

theorem map_restState (c : Biquad ν) (u : ν) : Prod.map f f (restState A c u) = restState B (mapBiquad f c) (f u) := by
  simp only [restState, Prod.map_apply, h.mul, h.sub, h.add, map_dcGain h]; rfl

theorem map_restStates (cs : List (Biquad ν)) (u : ν) :
    (restStates A cs u).map (Prod.map f f) = restStates B (cs.map (mapBiquad f)) (f u) := by
  induction cs generalizing u with
  | nil => rfl
  | cons c cs ih => simp only [restStates, List.map_cons, map_restState h, ih, h.mul, map_dcGain h]

theorem map_restZero : Prod.map f f (restZero A) = restZero B := by simp only [restZero, Prod.map_apply, h.zero]

theorem map_hpfSetup (s : State ν) : (hpfSetup A s).map f = hpfSetup B (s.map f) := by
  have e : (hpfSetup A s).hpzi.map (Prod.map f f) = (hpfSetup B (s.map f)).hpzi := by
    rw [hpfSetup_hpzi, hpfSetup_hpzi, apply_ite (List.map (Prod.map f f)), List.map_append, map_restStates h, h.one,
      map_biquads h, List.map_replicate, map_restZero h]
    rfl
  apply State.ext <;> try rfl
  · simp [State.map, mapBuild, map_restZero h]
  · exact e

theorem map_filterStep (c : Biquad ν) (z : SectionState ν) (v : ν) :
    Prod.map f (Prod.map f f) (filterStep A c z v) = filterStep B (mapBiquad f c) (Prod.map f f z) (f v) := by
  simp only [filterStep, Prod.map_apply, mapBiquad, h.add, h.mul, h.sub]; rfl

theorem map_cascadeStep (cs : List (Biquad ν)) (zs : List (SectionState ν)) (v : ν) :
    Prod.map f (List.map (Prod.map f f)) (cascadeStep A cs zs v) =
      cascadeStep B (cs.map (mapBiquad f)) (zs.map (Prod.map f f)) (f v) := by
  induction cs generalizing zs v with
  | nil => rfl
  | cons c cs ih =>
    cases zs with
    | nil => rfl
    | cons z zs =>
      have hs := map_filterStep h c z v
      have i := ih zs (filterStep A c z v).1
      simp only [cascadeStep, List.map_cons]
      rw [← hs, Prod.map_fst, Prod.map_snd, ← i]
      rfl

theorem map_cascadeRun (cs : List (Biquad ν)) (zs : List (SectionState ν)) (vs : List ν) :
    Prod.map (List.map f) (List.map (Prod.map f f)) (cascadeRun A cs zs vs) =
      cascadeRun B (cs.map (mapBiquad f)) (zs.map (Prod.map f f)) (vs.map f) := by
  induction vs generalizing zs with
  | nil => rfl
  | cons v vs ih =>
    have i := ih (cascadeStep A cs zs v).2
    simp only [cascadeRun, List.map_cons]
    rw [← map_cascadeStep h cs zs v, Prod.map_fst, Prod.map_snd, ← i]
    rfl

theorem map_initialStates (s : State ν) : (s.initialStates A).map (Prod.map f f) = (s.map f).initialStates B := by
  unfold State.initialStates
  rw [apply_ite (List.map (Prod.map f f)), List.map_map, List.map_take, List.map_take]
  have e : Prod.map f f ∘ scaleState A (s.work.frame.getD 0 A.zero) =
      scaleState B ((s.map f).work.frame.getD 0 B.zero) ∘ Prod.map f f := by
    have e0 : f (s.work.frame.getD 0 A.zero) = (s.map f).work.frame.getD 0 B.zero :=
      (map_getD f _ _ _).trans (by rw [h.zero]; rfl)
    funext z
    simp only [Function.comp_apply, scaleState, Prod.map_apply, h.mul, e0, Prod.map_fst, Prod.map_snd]
  rw [e, ← List.map_map, List.map_take]
  rfl

theorem map_filtered (s : State ν) :
    Prod.map (List.map f) (List.map (Prod.map f f)) (s.filtered A) = (s.map f).filtered B := by
  unfold State.filtered
  rw [map_cascadeRun h, map_biquads h, map_initialStates h]
  rfl

theorem map_hpf (s : State ν) : (hpf A s).map f = hpf B (s.map f) := by
  have hf := map_filtered h s
  have h1 : (s.filtered A).1.map f = ((s.map f).filtered B).1 := congrArg Prod.fst hf
  have h2 : (s.filtered A).2.map (Prod.map f f) = ((s.map f).filtered B).2 := congrArg Prod.snd hf
  apply State.ext <;> try rfl
  · show List.map (Prod.map f f) (hpf A s).hpz = (hpf B (s.map f)).hpz
    rw [hpf_hpz, hpf_hpz, apply_ite (List.map (Prod.map f f)), List.map_append, h2, List.map_drop]
    rfl
  · show (hpf A s).work.map f = (hpf B (s.map f)).work
    rw [hpf_work, hpf_work, ← h1]
    apply Work.ext <;> try rfl
    show List.map f (if s.hpfEn then (s.filtered A).1 else s.work.frame) = _
    rw [apply_ite (List.map f)]
    rfl

/-! ## FRAME_BUILD, ANALYZE, NOISE_UPDATE, GAIN, SYNTH, OLA_EMIT -/

omit h in
theorem map_frameBuild (c : List ν) (s : State ν) : (frameBuild c s).map f = frameBuild (c.map f) (s.map f) := by
  apply State.ext <;> try rfl
  · exact List.map_drop
  · apply Work.ext <;> try rfl
    exact List.map_append

theorem map_spectrum (s : State ν) : (s.spectrum A).map (Cplx.map f) = (s.map f).spectrum B := by
  unfold State.spectrum State.windowed
  rw [h.rdft, map_zipWith₂ h.mul]
  rfl

theorem map_analyze (s : State ν) : (analyze A s).map f = analyze B (s.map f) := by
  apply State.ext <;> try rfl
  show (analyze A s).work.map f = (analyze B (s.map f)).work
  rw [analyze_work, analyze_work, ← map_spectrum h]
  apply Work.ext <;> try rfl
  · show List.map f ((s.spectrum A).map A.cabs) = ((s.spectrum A).map (Cplx.map f)).map B.cabs
    rw [List.map_map, List.map_map]
    exact List.map_congr_left fun z _ => h.cabs z
  · show List.map (Cplx.map f) ((s.spectrum A).map A.phase) = ((s.spectrum A).map (Cplx.map f)).map B.phase
    rw [List.map_map, List.map_map]
    exact List.map_congr_left fun z _ => h.phase z

theorem map_smooth (α old new : ν) : f (smooth A α old new) = smooth B (f α) (f old) (f new) := by
  simp only [smooth, h.add, h.mul, h.sub, h.one]

theorem map_noiseUpdate (s : State ν) : (noiseUpdate A s).map f = noiseUpdate B (s.map f) := by
  apply State.ext <;> try rfl
  show List.map f (List.zipWith (smooth A (s.alphaN A)) s.noise s.work.mag) = _
  rw [map_zipWith₂ (map_smooth h _), State.alphaN, h.numOf]
  rfl

theorem map_cleanVector (s : State ν) : (s.cleanVector A).map f = (s.map f).cleanVector B := by
  unfold State.cleanVector
  rw [map_zipWith₂ (g' := cleanOf B ((s.map f).beta B) ((s.map f).floorRatio B)) (fun a b => ?_)]
  · rfl
  · simp only [cleanOf, h.max, h.sub, h.mul, State.beta, State.floorRatio, h.numOf]; rfl

theorem map_ginstVector (s : State ν) : (s.ginstVector A).map f = (s.map f).ginstVector B := by
  unfold State.ginstVector
  rw [map_zipWith₂ (g' := instantGain B (s.map f).build.epsGain) (fun a b => ?_), map_cleanVector h]
  · rfl
  · simp only [instantGain, h.div, h.add]; rfl

theorem map_gainVector (s : State ν) : (s.gainVector A).map f = (s.map f).gainVector B := by
  unfold State.gainVector
  rw [apply_ite (List.map f), map_zipWith₂ (map_smooth h _), map_ginstVector h, State.alphaG, h.numOf]
  rfl

theorem map_gain (s : State ν) : (gain A s).map f = gain B (s.map f) := by
  apply State.ext <;> try rfl
  · exact map_gainVector h s
  · apply Work.ext <;> try rfl
    · exact map_cleanVector h s
    · exact map_ginstVector h s
    · exact map_gainVector h s

theorem map_shaped (g mag : List ν) (phs : List (Cplx ν)) :
    (shaped A g mag phs).map (Cplx.map f) = shaped B (g.map f) (mag.map f) (phs.map (Cplx.map f)) := by
  unfold shaped
  rw [map_zipWith₂ h.scale, map_zipWith₂ h.mul]

theorem map_synth (s : State ν) : (synth A s).map f = synth B (s.map f) := by
  have hy := map_shaped h s.work.g s.work.mag s.work.phs
  apply State.ext <;> try rfl
  apply Work.ext <;> try rfl
  · exact hy
  · show List.map f (List.zipWith A.mul s.win (A.irdft s.N _)) = _
    rw [map_zipWith₂ h.mul, h.irdft, hy]
    rfl

theorem map_olaEmit (s : State ν) : (olaEmit A s).map f = olaEmit B (s.map f) := by
  apply State.ext <;> try rfl
  · show List.map f (List.zipWith A.add (shiftOla A s.H s.ola) s.work.syn) = _
    rw [map_zipWith₂ h.add, shiftOla, List.map_append, List.map_drop, map_zeros h]
    rfl
  · exact List.map_take

/-! ## Instructions -/

theorem map_execFrameBuild (s : State ν) : mapAnswer f (execFrameBuild A s) = execFrameBuild B (s.map f) := by
  unfold execFrameBuild
  rw [map_chunk h]
  cases s.chunk A with
  | error i => rfl
  | ok c => exact congrArg _ (map_frameBuild c s)

theorem map_badCoef (i : ℕ) (l : List Section) : badCoef? A i l = badCoef? B i l := by
  induction l generalizing i with
  | nil => rfl
  | cons x l ih =>
    rw [badCoef?, badCoef?, ih]
    simp only [h.finite]

theorem map_singular? (i : ℕ) (l : List Section) : singular? A i l = singular? B i l := by
  induction l generalizing i with
  | nil => rfl
  | cons x l ih =>
    rw [singular?, singular?, ih]
    have : singular A x = singular B x := by
      simp only [singular, isZero, h.less, h.zero, h.add, h.one, h.numOf]
    rw [this]

theorem map_notNonNegative (w : Word) : notNonNegative A w = notNonNegative B w := by
  unfold notNonNegative
  rw [← h.num?]
  cases A.num? w with
  | none => rfl
  | some q => simp only [Option.map_some, h.less, h.zero]

theorem map_notSmoothing (w : Word) : notSmoothing A w = notSmoothing B w := by
  unfold notSmoothing
  rw [← h.num?]
  cases A.num? w with
  | none => rfl
  | some q => simp only [Option.map_some, h.less, h.zero, h.one]

theorem map_configFailure (s : State ν) : (s.map f).configFailure B = s.configFailure A := by
  unfold State.configFailure failure filterFailure
  simp only [map_notNonNegative h, map_notSmoothing h, map_filterOn h, h.finite, map_badCoef h, map_singular? h]
  rfl

theorem map_execConfigure (s : State ν) : mapAnswer f (execConfigure A s) = execConfigure B (s.map f) := by
  unfold execConfigure
  rw [map_configFailure h]
  by_cases hm : s.mode = .configured
  · rw [if_pos hm, if_pos (show (s.map f).mode = .configured from hm)]; rfl
  · rw [if_neg hm, if_neg (show ¬(s.map f).mode = .configured from hm)]
    cases s.configFailure A with
    | some e => rfl
    | none =>
      show Host.Outcome.next (State.map f (construct A (hpfSetup A (wingen A (setFilterTag A s)))).succeed) =
        .next (construct B (hpfSetup B (wingen B (setFilterTag B (s.map f))))).succeed
      have ht : (setFilterTag A s).map f = setFilterTag B (s.map f) := by
        apply State.ext <;> try rfl
        exact map_filterOn h s.cfg
      rw [map_succeed, ← ht, ← map_wingen h, ← map_hpfSetup h]
      congr 2
      generalize hpfSetup A (wingen A (setFilterTag A s)) = u
      apply State.ext <;> try rfl
      · exact map_zeros h _
      · exact map_zeros h _
      · exact List.map_replicate

omit h in
/-- A run of corresponding micro-operations. -/
theorem map_runAll {us : List (State ν → Answer (State ν))} {vs : List (State μ → Answer (State μ))}
    (hu : List.Forall₂ (fun u v => ∀ s, mapAnswer f (u s) = v (s.map f)) us vs) (s : State ν) :
    mapAnswer f (runAll us s) = runAll vs (s.map f) := by
  induction hu generalizing s with
  | nil => rfl
  | cons h1 _ ih =>
    rw [runAll, runAll, map_andThen f ih, h1]

omit h in
theorem map_runCommandUops {us : List (State ν → Answer (State ν))} {vs : List (State μ → Answer (State μ))}
    (hu : List.Forall₂ (fun u v => ∀ s, mapAnswer f (u s) = v (s.map f)) us vs) (s : State ν) :
    mapAnswer f (runCommandUops us s) = runCommandUops vs (s.map f) := by
  unfold runCommandUops
  rw [map_andThen f (g' := fun t => .next t.dropWork.succeed) (fun _ => rfl), map_runAll hu]

theorem map_calibrateUops :
    List.Forall₂ (fun u v => ∀ s, mapAnswer f (u s) = v (s.map f)) (calibrateUops A) (calibrateUops B) :=
  .cons (map_execFrameBuild h) (.cons (fun s => congrArg _ (map_hpf h s)) (.cons (fun s => congrArg _ (map_analyze h s))
    (.cons (fun s => congrArg _ (map_noiseUpdate h s)) .nil)))

theorem map_processUops :
    List.Forall₂ (fun u v => ∀ s, mapAnswer f (u s) = v (s.map f)) (processUops A) (processUops B) :=
  .cons (map_execFrameBuild h) (.cons (fun s => congrArg _ (map_hpf h s)) (.cons (fun s => congrArg _ (map_analyze h s))
    (.cons (fun s => congrArg _ (map_noiseUpdate h s)) (.cons (fun s => congrArg _ (map_gain h s))
      (.cons (fun s => congrArg _ (map_synth h s)) (.cons (fun s => congrArg _ (map_olaEmit h s)) .nil))))))

theorem map_execCalibrate (len : BitVec 16) (s : State ν) :
    mapAnswer f (execCalibrate A len s) = execCalibrate B len (s.map f) := by
  unfold execCalibrate
  rw [show (s.map f).streamFailure len 0x02 = s.streamFailure len 0x02 from rfl, ← map_runCommandUops (map_calibrateUops h) s]
  cases s.streamFailure len 0x02 <;> rfl

theorem map_execProcess (len : BitVec 16) (s : State ν) :
    mapAnswer f (execProcess A len s) = execProcess B len (s.map f) := by
  unfold execProcess
  rw [show (s.map f).streamFailure len 0x03 = s.streamFailure len 0x03 from rfl, ← map_runCommandUops (map_processUops h) s]
  cases s.streamFailure len 0x03 <;> rfl

theorem map_runWord (w : Word) (s : State ν) : mapAnswer f (runWord A w s) = runWord B w (s.map f) := by
  unfold runWord
  cases decodeCmd w with
  | ok i =>
    cases i with
    | configure => exact map_execConfigure h s
    | calibrate len => exact map_execCalibrate h len s
    | process len => exact map_execProcess h len s
    | _ => rfl
  | error e => cases e <;> rfl

theorem map_execWr (addr : Addr) (data : Word) (s : State ν) :
    mapAnswer f (execWr A addr data s) = execWr B addr data (s.map f) := by
  unfold execWr
  rw [map_locOf]
  generalize s.locOf addr = l
  cases l with
  | cmd => rw [State.writeLoc, State.writeLoc, map_runWord h]
  | cfg r => rw [State.writeLoc, State.writeLoc, mapAnswer, map_writeConfig]; rfl
  | coef sec r => rw [State.writeLoc, State.writeLoc, mapAnswer, map_writeConfig]; rfl
  | inWord i => rw [State.writeLoc, State.writeLoc, mapAnswer, map_writeIn]
  | _ => rfl

/-- Reads correspond where the containers do. -/
theorem map_readLoc (hw : ∀ a, A.word a = B.word (f a)) (s : State ν) (l : Loc) : (s.map f).readLoc B l = s.readLoc A l := by
  have el : ∀ (r : Bool) (n : ℕ) (a : List ν) (i : ℕ), readElement B r n (a.map f) i = readElement A r n a i := by
    intro r n a i
    unfold readElement
    rw [hw, map_getD f, h.zero]
  have st : ∀ (r : Bool) (n : ℕ) (a : List (SectionState ν)) (sec c : ℕ),
      readStatePart B r n (a.map (Prod.map f f)) sec c = readStatePart A r n a sec c := by
    intro r n a sec c
    unfold readStatePart
    have e : (a.map (Prod.map f f)).getD sec (restZero B) = Prod.map f f (a.getD sec (restZero A)) := by
      rw [← map_restZero h, List.getD_eq_getElem?_getD, List.getD_eq_getElem?_getD, List.getElem?_map]
      cases a[sec]? <;> rfl
    have e2 : ∀ z : SectionState ν, statePart (Prod.map f f z) c = f (statePart z c) := by
      intro z; unfold statePart; rw [apply_ite f]; rfl
    rw [e, e2, ← hw]
  cases l <;> first | rfl | exact el _ _ _ _ | exact st _ _ _ _ _

theorem map_exec (hw : ∀ a, A.word a = B.word (f a)) (i : Instr) (s : State ν) :
    mapAnswer f (exec A i s) = exec B i (s.map f) := by
  cases i with
  | nop => rfl
  | destroy => rfl
  | configure => exact map_execConfigure h s
  | calibrate len => exact map_execCalibrate h len s
  | process len => exact map_execProcess h len s
  | rd addr =>
    show Host.Outcome.next _ = Host.Outcome.next _
    rw [map_locOf, map_readLoc h hw]
    rfl
  | wr addr data => exact map_execWr h addr data s
  | wingen => exact congrArg _ (map_wingen h s)
  | hpfSetup => exact congrArg _ (map_hpfSetup h s)
  | frameBuild => exact map_execFrameBuild h s
  | hpf => exact congrArg _ (map_hpf h s)
  | analyze => exact congrArg _ (map_analyze h s)
  | noiseUpdate => exact congrArg _ (map_noiseUpdate h s)
  | gain => exact congrArg _ (map_gain h s)
  | synth => exact congrArg _ (map_synth h s)
  | olaEmit => exact congrArg _ (map_olaEmit h s)

omit h in
/-- Corresponding meanings of the instructions give corresponding steps. -/
theorem map_stepWith {r : Instr → State ν → Answer (State ν)} {r' : Instr → State μ → Answer (State μ)}
    (hr : ∀ i s, mapAnswer f (r i s) = r' i (s.map f)) (s : State ν) :
    mapAnswer f (stepWith r s) = stepWith r' (s.map f) := by
  have he : ∀ (e : Encoding) (t : State ν), mapAnswer f (runEncoding r e t) = runEncoding r' e (t.map f) := by
    intro e t
    unfold runEncoding
    cases decode e with
    | ok i => exact hr i t
    | error d => cases d <;> rfl
  have hs : fetch (s.map f) = match fetch s with
      | .idle => .idle
      | .hardReset t => .hardReset (t.map f)
      | .code e t => .code e (t.map f) := by
    unfold fetch
    rw [show (s.map f).seq = s.seq from rfl, show (s.map f).pending = s.pending from rfl]
    split
    · rfl
    · generalize s.pending = l
      cases l with
      | nil => rfl
      | cons e l => cases e <;> rfl
  unfold stepWith
  rw [hs]
  cases fetch s with
  | idle => rfl
  | hardReset t => rfl
  | code e t => exact he e t

/-- Corresponding records give corresponding steps. -/
theorem step_map (hw : ∀ a, A.word a = B.word (f a)) (s : State ν) : mapAnswer f (step A s) = step B (s.map f) :=
  map_stepWith (map_exec h hw) s

/-- Corresponding records give corresponding runs. -/
theorem run_map (hw : ∀ a, A.word a = B.word (f a)) (n : ℕ) (s : State ν) : mapAnswer f (run A n s) = run B n (s.map f) := by
  induction n generalizing s with
  | zero => rfl
  | succ n ih => rw [run, run, map_andThen f ih, step_map h hw]

end Arith

end Generic

end Sys2Proof.Machine
end

