-- ==== Sys2Proof/Laws/ExactArith.lean ====
section
/-! SUPPORT. The reference instance of the arithmetic record and the real numbers correspond under `Exact.val`: one lemma per
operation of the record, and `exactArith_hom`. -/

namespace Sys2Proof.Machine

/-! ## The operations of the reference instance as real numbers -/

@[simp] theorem exactArith_ofRat (q : ℚ) : exactArith.ofRat q = .rat q := rfl

@[simp] theorem exactArith_zero : exactArith.zero = .rat 0 := rfl

@[simp] theorem exactArith_one : exactArith.one = .rat 1 := rfl

@[simp] theorem exactArith_val_add (a b : Exact) : (exactArith.add a b).val = a.val + b.val := Exact.val_add a b

@[simp] theorem exactArith_val_sub (a b : Exact) : (exactArith.sub a b).val = a.val - b.val := Exact.val_sub a b

@[simp] theorem exactArith_val_mul (a b : Exact) : (exactArith.mul a b).val = a.val * b.val := Exact.val_mul a b

@[simp] theorem exactArith_val_div (a b : Exact) : (exactArith.div a b).val = a.val / b.val := Exact.val_div a b

@[simp] theorem exactArith_val_max (a b : Exact) : (exactArith.max a b).val = Max.max a.val b.val := Exact.val_max a b

@[simp] theorem exactArith_val_sqrt (a : Exact) : (exactArith.sqrt a).val = √a.val := Exact.val_sqrt a

@[simp] theorem exactArith_val_abs (a : Exact) : (exactArith.abs a).val = |a.val| := Exact.val_abs a

@[simp] theorem exactArith_val_cos (q : ℚ) : (exactArith.cos q).val = Real.cos (2 * Real.pi * (q : ℝ)) := Exact.val_cosOf q

@[simp] theorem exactArith_less (a b : Exact) : exactArith.less a b = true ↔ a.val < b.val := Exact.less_iff a b

@[simp] theorem exactArith_num? (w : Word) : exactArith.num? w = (num? w).map .rat := rfl

theorem exactArith_num?_eq_some {w : Word} {a : Exact} (h : exactArith.num? w = some a) : ∃ q, num? w = some q ∧ a = .rat q := by
  rw [exactArith_num?, Option.map_eq_some_iff] at h
  obtain ⟨q, hq, rfl⟩ := h
  exact ⟨q, hq, rfl⟩

theorem exactArith_num?_eq_none {w : Word} (h : exactArith.num? w = none) : num? w = none := by simpa using h

@[simp] theorem exactArith_word (a : Exact) : exactArith.word a = a.word := rfl

@[simp] theorem exactArith_numOf (w : Word) : exactArith.numOf w = .rat (numOf w) := by
  unfold Elementary.numOf Machine.numOf
  rw [exactArith_num?]
  cases num? w <;> rfl

theorem exactArith_finite (w : Word) : exactArith.finite w = (num? w).isSome := by
  rw [Elementary.finite, exactArith_num?, Option.isSome_map]

/-! ## Complex numbers of exact numbers -/

/-- cabs is the absolute value of the complex number (R20). -/
@[simp] theorem exactArith_val_cabs (z : Cplx Exact) : (exactArith.cabs z).val = ‖z.val‖ := by
  rw [Elementary.cabs, exactArith_val_sqrt, Complex.norm_def, Complex.normSq_apply]
  simp [Cplx.val]

/-- The phase of a bin: X/|X|, and 1 for a zero bin (R186). -/
theorem exactArith_val_phase (z : Cplx Exact) :
    (exactArith.phase z).val = if z.val = 0 then 1 else z.val / (‖z.val‖ : ℂ) := by
  have hp : exactArith.phase z = ⟨.unitReOf z.re z.im, .unitImOf z.re z.im⟩ := rfl
  have hz : z.val = 0 ↔ (z.re.val = 0 ∧ z.im.val = 0) := by simp [Cplx.val, Complex.ext_iff]
  have hn : ‖z.val‖ = √(z.re.val ^ 2 + z.im.val ^ 2) := by
    rw [Complex.norm_def, Complex.normSq_apply]; simp [Cplx.val, pow_two]
  by_cases h : z.re.val = 0 ∧ z.im.val = 0
  · rw [if_pos (hz.2 h)]
    apply Complex.ext <;> simp [hp, Cplx.val, unitPart, h.1, h.2]
  · rw [if_neg (fun e => h (hz.1 e)), hn]
    apply Complex.ext <;> simp [hp, Cplx.val, unitPart, h]

@[simp] theorem exactArith_val_scale (a : Exact) (z : Cplx Exact) : (exactArith.scale a z).val = (a.val : ℂ) * z.val := by
  apply Complex.ext <;> simp [Cplx.val, Elementary.scale]

/-- Magnitude times phase is the number itself. -/
theorem exactArith_cabs_mul_phase (z : Cplx Exact) : (((exactArith.cabs z).val : ℝ) : ℂ) * (exactArith.phase z).val = z.val := by
  rw [exactArith_val_phase, exactArith_val_cabs]
  split
  · rename_i h; simp [h]
  · rename_i h
    have : ((‖z.val‖ : ℝ) : ℂ) ≠ 0 := by simpa using h
    field_simp

/-! ## The operations of the real numbers -/

theorem realArith_less (a b : ℝ) : realArith.less a b = true ↔ a < b := decide_eq_true_iff

/-- The real and the imaginary part of a unit complex number (R186), as `Elementary.unit` writes them. -/
theorem realArith_unit (z : Cplx ℝ) : realElementary.unit z = ⟨unitPart z.re z.re z.im 1, unitPart z.im z.re z.im 0⟩ := by
  have hc : realElementary.cabs z = √(z.re ^ 2 + z.im ^ 2) := by rw [pow_two, pow_two]; rfl
  have h0 : realElementary.zero = (0 : ℝ) := Rat.cast_zero
  have h1 : realElementary.one = (1 : ℝ) := Rat.cast_one
  have hp : realElementary.less realElementary.zero (realElementary.cabs z) = true ↔ ¬(z.re = 0 ∧ z.im = 0) := by
    rw [h0, hc]
    refine decide_eq_true_iff.trans ?_
    rw [Real.sqrt_pos]
    constructor
    · rintro h ⟨hr, hi⟩
      rw [hr, hi] at h
      norm_num at h
    · intro h
      by_contra hn
      have hr := sq_nonneg z.re
      have hi := sq_nonneg z.im
      exact h ⟨by nlinarith, by nlinarith⟩
  unfold Elementary.unit unitPart
  by_cases h : z.re = 0 ∧ z.im = 0
  · rw [if_neg (fun k => hp.1 k h), if_pos h, if_pos h, h0, h1]
  · rw [if_pos (hp.2 h), if_neg h, if_neg h, hc]; rfl

/-! ## The correspondence -/

theorem exactElementary_hom : Elementary.Hom exactElementary realElementary Exact.val where
  ofRat _ := rfl
  add := Exact.val_add
  sub := Exact.val_sub
  mul := Exact.val_mul
  div := Exact.val_div
  max := Exact.val_max
  sqrt := Exact.val_sqrt
  abs := Exact.val_abs
  cos := Exact.val_cosOf
  less a b := by rw [Bool.eq_iff_iff]; exact (Exact.less_iff a b).trans decide_eq_true_iff.symm
  num? w := by
    show ((Machine.num? w).map Exact.rat).map Exact.val = (Machine.num? w).map fun q : ℚ => (q : ℝ)
    rw [Option.map_map]
    rfl

/-- The machine's exact numbers stand for the reference semantics' real numbers (R16). -/
theorem exactArith_hom : Arith.Hom exactArith realArith Exact.val where
  toHom := exactElementary_hom
  rdft := exactElementary_hom.rdft
  irdft := exactElementary_hom.irdft
  phase z := by
    show Cplx.map Exact.val ⟨.unitReOf z.re z.im, .unitImOf z.re z.im⟩ = realElementary.unit (Cplx.map Exact.val z)
    rw [realArith_unit, Cplx.map, Exact.val_unitReOf, Exact.val_unitImOf]
    rfl

/-! ## The machine is the one over the reference instance -/

theorem exec_eq (i : Instr) (s : State) : exec i s = Generic.exec exactArith i s := by cases i <;> rfl

theorem step_eq (s : State) : step s = Generic.step exactArith s :=
  congrArg (fun run => Generic.stepWith run s) (funext fun i => funext fun t => exec_eq i t)

end Sys2Proof.Machine
end

