-- ==== Sys2Proof/Laws/Outcomes.lean ====
section
/-! SUPPORT. What each shared way of running things can answer: `andThen`, `runAll`, the chunk, and the commands as one
function of the state each. -/

namespace Sys2Proof.Machine

open Generic

/-! ## Running micro-operations in order -/

@[simp] theorem andThen_next {ν : Type} (s : Generic.State ν) (f : Generic.State ν → Answer (Generic.State ν)) : andThen (.next s) f = f s := rfl

@[simp] theorem andThen_refused {ν : Type} (r : Refusal) (f : Generic.State ν → Answer (Generic.State ν)) : andThen (.refused r) f = .refused r := rfl

theorem andThen_eq_next {ν : Type} {o : Answer (Generic.State ν)} {f : Generic.State ν → Answer (Generic.State ν)} {t : Generic.State ν} :
    andThen o f = .next t ↔ ∃ s, o = .next s ∧ f s = .next t := by
  cases o <;> simp [andThen]

@[simp] theorem runAll_nil {ν : Type} (s : Generic.State ν) : runAll [] s = .next s := rfl

@[simp] theorem runAll_cons {ν : Type} (f : Generic.State ν → Answer (Generic.State ν)) (fs : List (Generic.State ν → Answer (Generic.State ν)))
    (s : Generic.State ν) :
    runAll (f :: fs) s = andThen (f s) (runAll fs) := rfl

/-! ## The chunk (R80, R161) -/

theorem decodeAll_ok {ws : List Word} {k : Nat} {qs : List Exact} (h : decodeAll exactArith k ws = .ok qs) :
    qs.length = ws.length ∧ ∀ i < ws.length, ∃ q, num? (ws.getD i 0) = some q ∧ qs.getD i (.rat 0) = .rat q := by
  induction ws generalizing k qs with
  | nil => cases h; simp
  | cons w ws ih =>
    unfold decodeAll at h
    split at h
    · cases h
    · rename_i q hq
      obtain ⟨q, hq, rfl⟩ := exactArith_num?_eq_some hq
      split at h
      · cases h
      · rename_i rs hrs
        cases h
        obtain ⟨hl, hv⟩ := ih hrs
        refine ⟨by simp [hl], fun i hi => ?_⟩
        cases i with
        | zero => exact ⟨q, by simpa using hq, by simp⟩
        | succ i => simpa using hv i (by simpa using hi)

theorem decodeAll_error {ws : List Word} {k j : Nat} (h : decodeAll exactArith k ws = .error j) :
    ∃ i < ws.length, j = k + i ∧ num? (ws.getD i 0) = none ∧ ∀ l < i, ∃ q, num? (ws.getD l 0) = some q := by
  induction ws generalizing k with
  | nil => cases h
  | cons w ws ih =>
    unfold decodeAll at h
    split at h
    · rename_i hq
      replace hq := exactArith_num?_eq_none hq
      cases h
      exact ⟨0, by simp, rfl, by simpa using hq, by simp⟩
    · rename_i q hq
      obtain ⟨q, hq, -⟩ := exactArith_num?_eq_some hq
      split at h
      · rename_i i hi
        cases h
        obtain ⟨i, hl, rfl, hn, hs⟩ := ih hi
        refine ⟨i + 1, by simpa using hl, by omega, by simpa using hn, fun l hl => ?_⟩
        cases l with
        | zero => exact ⟨q, by simpa using hq⟩
        | succ l => simpa using hs l (by omega)
      · cases h

theorem chunkWords_length (s : State) : s.chunkWords.length = s.H := by simp [State.chunkWords]

theorem chunkWords_getD (s : State) {i : Nat} (h : i < s.H) : s.chunkWords.getD i 0 = s.inWord i := by
  simp [State.chunkWords, List.getD_eq_getElem?_getD, h]

/-- What the chunk is when it is there. -/
theorem chunk_ok {s : State} {c : List Exact} (h : s.chunk exactArith = .ok c) :
    c.length = s.H ∧ ∀ i < s.H, ∃ q, num? (s.inWord i) = some q ∧ c.getD i (.rat 0) = .rat q := by
  obtain ⟨hl, hv⟩ := decodeAll_ok h
  rw [chunkWords_length] at hl hv
  exact ⟨hl, fun i hi => by simpa only [chunkWords_getD s hi] using hv i hi⟩

/-- Why the chunk is not there. -/
theorem chunk_error {s : State} {i : Nat} (h : s.chunk exactArith = .error i) :
    i < s.H ∧ num? (s.inWord i) = none ∧ ∀ j < i, ∃ q, num? (s.inWord j) = some q := by
  obtain ⟨j, hj, rfl, hn, hs⟩ := decodeAll_error h
  rw [chunkWords_length] at hj
  rw [chunkWords_getD s hj] at hn
  rw [Nat.zero_add]
  exact ⟨hj, hn, fun l hl => by rw [← chunkWords_getD s (by omega)]; exact hs l hl⟩

/-- The chunk is there when every sample is finite. -/
theorem chunk_exists {s : State} (h : ∀ i < s.H, ∃ q, num? (s.inWord i) = some q) : ∃ c, s.chunk exactArith = .ok c := by
  cases hc : s.chunk exactArith with
  | ok c => exact ⟨c, rfl⟩
  | error i =>
    obtain ⟨hi, hn, -⟩ := chunk_error hc
    obtain ⟨q, hq⟩ := h i hi
    rw [hn] at hq
    cases hq

/-- The chunk is missing at the first sample that is not finite. -/
theorem chunk_missing {s : State} {i : Nat} (hi : i < s.H) (hn : num? (s.inWord i) = none)
    (hs : ∀ j < i, ∃ q, num? (s.inWord j) = some q) : s.chunk exactArith = .error i := by
  cases hc : s.chunk exactArith with
  | ok c =>
    obtain ⟨q, hq, -⟩ := (chunk_ok hc).2 i hi
    rw [hn] at hq
    cases hq
  | error j =>
    obtain ⟨-, hn', hs'⟩ := chunk_error hc
    rcases Nat.lt_trichotomy i j with h | h | h
    · obtain ⟨q, hq⟩ := hs' i h
      rw [hn] at hq
      cases hq
    · rw [h]
    · obtain ⟨q, hq⟩ := hs j h
      rw [hn'] at hq
      cases hq

/-! ## The commands that run micro-operations, each as one function of the state -/

/-- What the micro-operations of CALIBRATE make of the state, given the chunk (R238). -/
def Generic.calibrated {ν : Type} (A : Arith ν) (c : List ν) (s : Generic.State ν) : Generic.State ν :=
  noiseUpdate A (analyze A (hpf A (frameBuild c s)))

/-- What the micro-operations of PROCESS make of the state, given the chunk (R240). -/
def Generic.processed {ν : Type} (A : Arith ν) (c : List ν) (s : Generic.State ν) : Generic.State ν :=
  olaEmit A (synth A (gain A (calibrated A c s)))

theorem runAll_configureUops (s : State) : runAll (configureUops exactArith) s = .next (hpfSetup exactArith (wingen exactArith s)) := rfl

theorem runAll_calibrateUops_ok {s : State} {c : List Exact} (h : s.chunk exactArith = .ok c) :
    runAll (calibrateUops exactArith) s = .next (calibrated exactArith c s) := by
  rw [calibrateUops, runAll_cons, Generic.execFrameBuild, h]; rfl

theorem runAll_processUops_ok {s : State} {c : List Exact} (h : s.chunk exactArith = .ok c) :
    runAll (processUops exactArith) s = .next (processed exactArith c s) := by
  rw [processUops, runAll_cons, Generic.execFrameBuild, h]; rfl

theorem runAll_calibrateUops_error {s : State} {i : Nat} (h : s.chunk exactArith = .error i) :
    runAll (calibrateUops exactArith) s = .refused (.nonFiniteSample i) := by
  rw [calibrateUops, runAll_cons, Generic.execFrameBuild, h]; rfl

theorem runAll_processUops_error {s : State} {i : Nat} (h : s.chunk exactArith = .error i) :
    runAll (processUops exactArith) s = .refused (.nonFiniteSample i) := by
  rw [processUops, runAll_cons, Generic.execFrameBuild, h]; rfl

/-- Everything the checks of CALIBRATE and PROCESS can answer (R237). -/
theorem streamFailure_cases (s : State) (len : BitVec 16) (op : BitVec 8) :
    (s.mode = .unconfigured ∧ s.streamFailure len op = some (.state, commandWord len op)) ∨
    (s.mode = .configured ∧ len.toNat ≠ s.H ∧ s.streamFailure len op = some (.length, len.setWidth 32)) ∨
    (s.mode = .configured ∧ len.toNat = s.H ∧ s.streamFailure len op = none) := by
  cases hm : s.mode with
  | unconfigured => exact .inl ⟨rfl, by simp [State.streamFailure, hm]⟩
  | configured =>
    by_cases hl : len.toNat = s.H
    · exact .inr (.inr ⟨rfl, hl, by simp [State.streamFailure, hm, lenOperand, hl]⟩)
    · exact .inr (.inl ⟨rfl, hl, by simp [State.streamFailure, hm, lenOperand, hl]⟩)

/-- Everything CALIBRATE can answer (R237, R238, R80). -/
theorem execCalibrate_cases (len : BitVec 16) (s : State) :
    (s.mode = .unconfigured ∧ execCalibrate len s = .next (s.raise .state (commandWord len 0x02))) ∨
    (s.mode = .configured ∧ len.toNat ≠ s.H ∧ execCalibrate len s = .next (s.raise .length (len.setWidth 32))) ∨
    (s.mode = .configured ∧ len.toNat = s.H ∧ ∃ c, s.chunk exactArith = .ok c ∧
      execCalibrate len s = .next (calibrated exactArith c s).dropWork.succeed) ∨
    (s.mode = .configured ∧ len.toNat = s.H ∧ ∃ i, s.chunk exactArith = .error i ∧
      execCalibrate len s = .refused (.nonFiniteSample i)) := by
  unfold execCalibrate Generic.execCalibrate
  rcases streamFailure_cases s len 0x02 with ⟨hm, hf⟩ | ⟨hm, hl, hf⟩ | ⟨hm, hl, hf⟩ <;> rw [hf]
  · exact .inl ⟨hm, rfl⟩
  · exact .inr (.inl ⟨hm, hl, rfl⟩)
  · refine .inr (.inr ?_)
    cases hc : s.chunk exactArith with
    | ok c => exact .inl ⟨hm, hl, c, rfl, by simp only [runCommandUops, runAll_calibrateUops_ok hc, andThen_next]⟩
    | error i => exact .inr ⟨hm, hl, i, rfl, by simp only [runCommandUops, runAll_calibrateUops_error hc, andThen_refused]⟩

/-- Everything PROCESS can answer (R237, R240, R80). -/
theorem execProcess_cases (len : BitVec 16) (s : State) :
    (s.mode = .unconfigured ∧ execProcess len s = .next (s.raise .state (commandWord len 0x03))) ∨
    (s.mode = .configured ∧ len.toNat ≠ s.H ∧ execProcess len s = .next (s.raise .length (len.setWidth 32))) ∨
    (s.mode = .configured ∧ len.toNat = s.H ∧ ∃ c, s.chunk exactArith = .ok c ∧
      execProcess len s = .next (processed exactArith c s).dropWork.succeed) ∨
    (s.mode = .configured ∧ len.toNat = s.H ∧ ∃ i, s.chunk exactArith = .error i ∧
      execProcess len s = .refused (.nonFiniteSample i)) := by
  unfold execProcess Generic.execProcess
  rcases streamFailure_cases s len 0x03 with ⟨hm, hf⟩ | ⟨hm, hl, hf⟩ | ⟨hm, hl, hf⟩ <;> rw [hf]
  · exact .inl ⟨hm, rfl⟩
  · exact .inr (.inl ⟨hm, hl, rfl⟩)
  · refine .inr (.inr ?_)
    cases hc : s.chunk exactArith with
    | ok c => exact .inl ⟨hm, hl, c, rfl, by simp only [runCommandUops, runAll_processUops_ok hc, andThen_next]⟩
    | error i => exact .inr ⟨hm, hl, i, rfl, by simp only [runCommandUops, runAll_processUops_error hc, andThen_refused]⟩

/-- Everything CONFIGURE can answer (R234, R235, R236). -/
theorem execConfigure_cases (s : State) :
    (s.mode = .configured ∧ execConfigure s = .next (s.raise .state 0x00000001)) ∨
    (s.mode = .unconfigured ∧ ∃ e info, s.configFailure exactArith = some (e, info) ∧
      execConfigure s = .next (s.raise e info)) ∨
    (s.mode = .unconfigured ∧ s.configFailure exactArith = none ∧
      execConfigure s = .next (construct exactArith (hpfSetup exactArith (wingen exactArith (setFilterTag exactArith s)))).succeed) := by
  unfold execConfigure Generic.execConfigure
  cases hm : s.mode with
  | configured => exact .inl ⟨rfl, by simp [commandWord]⟩
  | unconfigured =>
    refine .inr ?_
    cases hf : s.configFailure exactArith with
    | some f => exact .inl ⟨rfl, f.1, f.2, rfl, by simp⟩
    | none => exact .inr ⟨rfl, rfl, by simp [runAll_configureUops]⟩

end Sys2Proof.Machine
end

