-- ==== Sys2Proof/Laws/CommandWord.lean ====
section
/-! SUPPORT. The fields of a command word as numbers, what decoding a command word can answer, and what executing one can
answer. -/

namespace Sys2Proof.Machine

open Generic

theorem opField_toNat (w : Word) : (opField w).toNat = w.toNat % 2 ^ 8 := by
  simp [opField, BitVec.extractLsb'_toNat]

theorem lenField_toNat (w : Word) : (lenField w).toNat = w.toNat / 2 ^ 8 % 2 ^ 16 := by
  simp [lenField, BitVec.extractLsb'_toNat, Nat.shiftRight_eq_div_pow]

theorem rsvField_toNat (w : Word) : (rsvField w).toNat = w.toNat / 2 ^ 24 := by
  have := w.isLt
  simp only [rsvField, BitVec.extractLsb'_toNat, Nat.shiftRight_eq_div_pow]
  omega

theorem commandWord_toNat (len : BitVec 16) (op : BitVec 8) :
    (commandWord len op).toNat = 2 ^ 8 * len.toNat + op.toNat := by
  have := op.isLt
  have e : commandWord len op = (0 : BitVec 8) ++ (len ++ op) := by
    apply BitVec.eq_of_getElem_eq
    intro i hi
    simp only [commandWord]
    grind
  rw [e, BitVec.toNat_append, BitVec.toNat_append, ← Nat.shiftLeft_add_eq_or_of_lt this]
  simp [Nat.shiftLeft_eq]
  omega

/-- A word is the command word of its fields when its RSV field is 0 (R100). -/
theorem eq_commandWord {w : Word} (h : rsvField w = 0) : w = commandWord (lenField w) (opField w) := by
  apply BitVec.eq_of_toNat_eq
  have h := congrArg BitVec.toNat h
  rw [rsvField_toNat] at h
  replace h : w.toNat / 2 ^ 24 = 0 := h
  rw [commandWord_toNat, lenField_toNat, opField_toNat]
  omega

theorem opField_commandWord (len : BitVec 16) (op : BitVec 8) : opField (commandWord len op) = op := by
  apply BitVec.eq_of_toNat_eq
  have := op.isLt
  rw [opField_toNat, commandWord_toNat]
  omega

theorem lenField_commandWord (len : BitVec 16) (op : BitVec 8) : lenField (commandWord len op) = len := by
  apply BitVec.eq_of_toNat_eq
  have := op.isLt
  have := len.isLt
  rw [lenField_toNat, commandWord_toNat]
  omega

theorem rsvField_commandWord (len : BitVec 16) (op : BitVec 8) : rsvField (commandWord len op) = 0 := by
  apply BitVec.eq_of_toNat_eq
  have := op.isLt
  have := len.isLt
  rw [rsvField_toNat, commandWord_toNat]
  change _ = 0
  omega

/-- Everything decoding a command word can answer (R104). -/
theorem decodeCmd_cases (w : Word) :
    (4 < w.toNat % 2 ^ 8 ∧ decodeCmd w = .error (.opcode w)) ∨
    (w.toNat % 2 ^ 8 ≤ 4 ∧ (w.toNat / 2 ^ 24 ≠ 0 ∨
        (w.toNat % 2 ^ 8 ≠ 2 ∧ w.toNat % 2 ^ 8 ≠ 3 ∧ w.toNat / 2 ^ 8 % 2 ^ 16 ≠ 0)) ∧ decodeCmd w = .error (.field w)) ∨
    (w = 0x00000000 ∧ decodeCmd w = .ok .nop) ∨
    (w = 0x00000001 ∧ decodeCmd w = .ok .configure) ∨
    (∃ len, w = commandWord len 0x02 ∧ decodeCmd w = .ok (.calibrate len)) ∨
    (∃ len, w = commandWord len 0x03 ∧ decodeCmd w = .ok (.process len)) ∨
    (w = 0x00000004 ∧ decodeCmd w = .ok .destroy) := by
  have ho := opField_toNat w
  have hl := lenField_toNat w
  have hr := rsvField_toNat w
  have plain : ∀ i : Instr, w.toNat % 2 ^ 8 ≤ 4 → w.toNat % 2 ^ 8 ≠ 2 → w.toNat % 2 ^ 8 ≠ 3 →
      (w.toNat % 2 ^ 8 ≤ 4 ∧ (w.toNat / 2 ^ 24 ≠ 0 ∨
        (w.toNat % 2 ^ 8 ≠ 2 ∧ w.toNat % 2 ^ 8 ≠ 3 ∧ w.toNat / 2 ^ 8 % 2 ^ 16 ≠ 0)) ∧ decodePlain w i = .error (.field w)) ∨
      (w = (opField w).setWidth 32 ∧ decodePlain w i = .ok i) := by
    intro i h4 h2 h3
    unfold decodePlain
    split
    · rename_i h
      refine .inl ⟨h4, ?_, rfl⟩
      rcases h with h | h
      · refine .inl fun e => h (BitVec.eq_of_toNat_eq ?_)
        rw [hr, e]; rfl
      · refine .inr ⟨h2, h3, fun e => h (BitVec.eq_of_toNat_eq ?_)⟩
        rw [hl, e]; rfl
    · rename_i h
      rw [not_or, not_not, not_not] at h
      refine .inr ⟨?_, rfl⟩
      rw [h.1] at hr
      rw [h.2] at hl
      replace hr : 0 = w.toNat / 2 ^ 24 := hr
      replace hl : 0 = w.toNat / 2 ^ 8 % 2 ^ 16 := hl
      apply BitVec.eq_of_toNat_eq
      rw [BitVec.toNat_setWidth, ho]
      omega
  have withLen : ∀ i : BitVec 16 → Instr, w.toNat % 2 ^ 8 ≤ 4 →
      (w.toNat % 2 ^ 8 ≤ 4 ∧ (w.toNat / 2 ^ 24 ≠ 0 ∨
        (w.toNat % 2 ^ 8 ≠ 2 ∧ w.toNat % 2 ^ 8 ≠ 3 ∧ w.toNat / 2 ^ 8 % 2 ^ 16 ≠ 0)) ∧ decodeWithLen w i = .error (.field w)) ∨
      (w = commandWord (lenField w) (opField w) ∧ decodeWithLen w i = .ok (i (lenField w))) := by
    intro i h4
    unfold decodeWithLen
    split
    · rename_i h
      refine .inl ⟨h4, .inl fun e => h (BitVec.eq_of_toNat_eq ?_), rfl⟩
      rw [hr, e]; rfl
    · rename_i h
      exact .inr ⟨eq_commandWord (not_not.mp h), rfl⟩
  unfold decodeCmd
  split
  · rename_i h
    rw [h] at ho; replace ho : 0 = w.toNat % 2 ^ 8 := ho
    rcases plain .nop (by omega) (by omega) (by omega) with e | ⟨e, d⟩
    · exact .inr (.inl e)
    · rw [h] at e; exact .inr (.inr (.inl ⟨e, d⟩))
  · split
    · rename_i h
      rw [h] at ho; replace ho : 1 = w.toNat % 2 ^ 8 := ho
      rcases plain .configure (by omega) (by omega) (by omega) with e | ⟨e, d⟩
      · exact .inr (.inl e)
      · rw [h] at e; exact .inr (.inr (.inr (.inl ⟨e, d⟩)))
    · split
      · rename_i h
        rw [h] at ho; replace ho : 2 = w.toNat % 2 ^ 8 := ho
        rcases withLen .calibrate (by omega) with e | ⟨e, d⟩
        · exact .inr (.inl e)
        · rw [h] at e; exact .inr (.inr (.inr (.inr (.inl ⟨_, e, d⟩))))
      · split
        · rename_i h
          rw [h] at ho; replace ho : 3 = w.toNat % 2 ^ 8 := ho
          rcases withLen .process (by omega) with e | ⟨e, d⟩
          · exact .inr (.inl e)
          · rw [h] at e; exact .inr (.inr (.inr (.inr (.inr (.inl ⟨_, e, d⟩)))))
        · split
          · rename_i h
            rw [h] at ho; replace ho : 4 = w.toNat % 2 ^ 8 := ho
            rcases plain .destroy (by omega) (by omega) (by omega) with e | ⟨e, d⟩
            · exact .inr (.inl e)
            · rw [h] at e; exact .inr (.inr (.inr (.inr (.inr (.inr ⟨e, d⟩)))))
          · rename_i h0 h1 h2 h3 h4
            refine .inl ⟨?_, rfl⟩
            by_contra hc
            have key : ∀ k : Nat, k < 256 → opField w ≠ BitVec.ofNat 8 k → w.toNat % 2 ^ 8 ≠ k := by
              intro k hk hne e
              exact hne (BitVec.eq_of_toNat_eq (by rw [ho, e, BitVec.toNat_ofNat]; omega))
            have := key 0 (by omega) h0
            have := key 1 (by omega) h1
            have := key 2 (by omega) h2
            have := key 3 (by omega) h3
            have := key 4 (by omega) h4
            omega

/-- Everything executing a command word can answer: a protocol error, or the command's own answer (R104, R230). -/
theorem runWord_cases (w : Word) (s : State) :
    (4 < w.toNat % 2 ^ 8 ∧ runWord exactArith w s = .next (s.raise .opcode w)) ∨
    (w.toNat % 2 ^ 8 ≤ 4 ∧ (w.toNat / 2 ^ 24 ≠ 0 ∨
        (w.toNat % 2 ^ 8 ≠ 2 ∧ w.toNat % 2 ^ 8 ≠ 3 ∧ w.toNat / 2 ^ 8 % 2 ^ 16 ≠ 0)) ∧
      runWord exactArith w s = .next (s.raise .field w)) ∨
    (w = 0x00000000 ∧ runWord exactArith w s = .next s.succeed) ∨
    (w = 0x00000001 ∧ runWord exactArith w s = execConfigure s) ∨
    (∃ len, w = commandWord len 0x02 ∧ runWord exactArith w s = execCalibrate len s) ∨
    (∃ len, w = commandWord len 0x03 ∧ runWord exactArith w s = execProcess len s) ∨
    (w = 0x00000004 ∧ runWord exactArith w s = .next s.clearFlags.succeed) := by
  unfold runWord
  rcases decodeCmd_cases w with ⟨h, e⟩ | ⟨h, h', e⟩ | ⟨h, e⟩ | ⟨h, e⟩ | ⟨len, h, e⟩ | ⟨len, h, e⟩ | ⟨h, e⟩ <;> rw [e]
  · exact .inl ⟨h, rfl⟩
  · exact .inr (.inl ⟨h, h', rfl⟩)
  · exact .inr (.inr (.inl ⟨h, rfl⟩))
  · exact .inr (.inr (.inr (.inl ⟨h, rfl⟩)))
  · exact .inr (.inr (.inr (.inr (.inl ⟨len, h, rfl⟩))))
  · exact .inr (.inr (.inr (.inr (.inr (.inl ⟨len, h, rfl⟩)))))
  · exact .inr (.inr (.inr (.inr (.inr (.inr ⟨h, rfl⟩)))))

end Sys2Proof.Machine
end

