-- ==== Sys2Proof/Laws/Composite.lean ====
section
/-! SUPPORT. What the micro-operations of CALIBRATE and of PROCESS, taken together, leave of every field: one lemma per field,
true by definition, and which field is whose result. -/

namespace Sys2Proof.Machine.Generic

section
variable {ν : Type} (A : Arith ν) (c : List ν) (s : State ν)

/-! ## CALIBRATE (R238, R239) -/

@[simp] theorem calibrated_mode : (calibrated A c s).mode = s.mode := rfl
@[simp] theorem calibrated_gainValid : (calibrated A c s).gainValid = s.gainValid := rfl
@[simp] theorem calibrated_outValid : (calibrated A c s).outValid = s.outValid := rfl
@[simp] theorem calibrated_hpfEn : (calibrated A c s).hpfEn = s.hpfEn := rfl
@[simp] theorem calibrated_hpfPrimed : (calibrated A c s).hpfPrimed = (s.hpfEn || s.hpfPrimed) := rfl
@[simp] theorem calibrated_err : (calibrated A c s).err = s.err := rfl
@[simp] theorem calibrated_errs : (calibrated A c s).errs = s.errs := rfl
@[simp] theorem calibrated_errCode : (calibrated A c s).errCode = s.errCode := rfl
@[simp] theorem calibrated_errInfo : (calibrated A c s).errInfo = s.errInfo := rfl
@[simp] theorem calibrated_cfg : (calibrated A c s).cfg = s.cfg := rfl
@[simp] theorem calibrated_win : (calibrated A c s).win = s.win := rfl
theorem calibrated_tail : (calibrated A c s).tail = (frameBuild c s).tail := rfl
@[simp] theorem calibrated_ola : (calibrated A c s).ola = s.ola := rfl
theorem calibrated_noise : (calibrated A c s).noise = (noiseUpdate A (analyze A (hpf A (frameBuild c s)))).noise := rfl
@[simp] theorem calibrated_pgain : (calibrated A c s).pgain = s.pgain := rfl
theorem calibrated_hpz : (calibrated A c s).hpz = (hpf A (frameBuild c s)).hpz := rfl
@[simp] theorem calibrated_hpzi : (calibrated A c s).hpzi = s.hpzi := rfl
@[simp] theorem calibrated_inBuf : (calibrated A c s).inBuf = s.inBuf := rfl
@[simp] theorem calibrated_out : (calibrated A c s).out = s.out := rfl
@[simp] theorem calibrated_build : (calibrated A c s).build = s.build := rfl
@[simp] theorem calibrated_seq : (calibrated A c s).seq = s.seq := rfl
@[simp] theorem calibrated_pending : (calibrated A c s).pending = s.pending := rfl
@[simp] theorem calibrated_response : (calibrated A c s).response = s.response := rfl
@[simp] theorem calibrated_resets : (calibrated A c s).resets = s.resets := rfl
@[simp] theorem calibrated_N : (calibrated A c s).N = s.N := rfl
@[simp] theorem calibrated_H : (calibrated A c s).H = s.H := rfl
@[simp] theorem calibrated_K : (calibrated A c s).K = s.K := rfl

/-- The frame of CALIBRATE's micro-operations. -/
theorem calibrated_eq : calibrated A c s =
    { s with tail := (calibrated A c s).tail, hpz := (calibrated A c s).hpz, hpfPrimed := (calibrated A c s).hpfPrimed,
             noise := (calibrated A c s).noise, work := (calibrated A c s).work } := rfl

/-- The state after a CALIBRATE that succeeds (R238, R231). -/
theorem calibrated_done : (calibrated A c s).dropWork.succeed =
    { s with tail := (frameBuild c s).tail, hpz := (hpf A (frameBuild c s)).hpz, hpfPrimed := s.hpfEn || s.hpfPrimed,
             noise := (calibrated A c s).noise, work := .empty, err := false, errCode := 0, errInfo := 0,
             response := .writeOk } := by
  apply State.ext <;> simp [calibrated_tail, calibrated_hpz]

/-! ## PROCESS (R240) -/

@[simp] theorem processed_mode : (processed A c s).mode = s.mode := rfl
@[simp] theorem processed_gainValid : (processed A c s).gainValid = true := rfl
@[simp] theorem processed_outValid : (processed A c s).outValid = true := rfl
@[simp] theorem processed_hpfEn : (processed A c s).hpfEn = s.hpfEn := rfl
@[simp] theorem processed_hpfPrimed : (processed A c s).hpfPrimed = (s.hpfEn || s.hpfPrimed) := rfl
@[simp] theorem processed_err : (processed A c s).err = s.err := rfl
@[simp] theorem processed_errs : (processed A c s).errs = s.errs := rfl
@[simp] theorem processed_errCode : (processed A c s).errCode = s.errCode := rfl
@[simp] theorem processed_errInfo : (processed A c s).errInfo = s.errInfo := rfl
@[simp] theorem processed_cfg : (processed A c s).cfg = s.cfg := rfl
@[simp] theorem processed_win : (processed A c s).win = s.win := rfl
@[simp] theorem processed_tail : (processed A c s).tail = (calibrated A c s).tail := rfl
theorem processed_ola : (processed A c s).ola = (olaEmit A (synth A (gain A (calibrated A c s)))).ola := rfl
@[simp] theorem processed_noise : (processed A c s).noise = (calibrated A c s).noise := rfl
theorem processed_pgain : (processed A c s).pgain = (gain A (calibrated A c s)).pgain := rfl
@[simp] theorem processed_hpz : (processed A c s).hpz = (calibrated A c s).hpz := rfl
@[simp] theorem processed_hpzi : (processed A c s).hpzi = s.hpzi := rfl
@[simp] theorem processed_inBuf : (processed A c s).inBuf = s.inBuf := rfl
@[simp] theorem processed_out : (processed A c s).out = s.ola.take s.H := rfl
@[simp] theorem processed_build : (processed A c s).build = s.build := rfl
@[simp] theorem processed_seq : (processed A c s).seq = s.seq := rfl
@[simp] theorem processed_pending : (processed A c s).pending = s.pending := rfl
@[simp] theorem processed_response : (processed A c s).response = s.response := rfl
@[simp] theorem processed_resets : (processed A c s).resets = s.resets := rfl
@[simp] theorem processed_N : (processed A c s).N = s.N := rfl
@[simp] theorem processed_H : (processed A c s).H = s.H := rfl
@[simp] theorem processed_K : (processed A c s).K = s.K := rfl

/-- The frame of PROCESS's micro-operations. -/
theorem processed_eq : processed A c s =
    { s with tail := (processed A c s).tail, hpz := (processed A c s).hpz, hpfPrimed := (processed A c s).hpfPrimed,
             noise := (processed A c s).noise, pgain := (processed A c s).pgain, gainValid := true,
             ola := (processed A c s).ola, out := (processed A c s).out, outValid := true, work := (processed A c s).work } := rfl

/-- The state after a PROCESS that succeeds (R240, R231). -/
theorem processed_done : (processed A c s).dropWork.succeed =
    { s with tail := (frameBuild c s).tail, hpz := (hpf A (frameBuild c s)).hpz, hpfPrimed := s.hpfEn || s.hpfPrimed,
             noise := (calibrated A c s).noise, pgain := (processed A c s).pgain, gainValid := true,
             ola := (processed A c s).ola, out := s.ola.take s.H, outValid := true, work := .empty, err := false,
             errCode := 0, errInfo := 0, response := .writeOk } := by
  apply State.ext <;> simp [calibrated_tail, calibrated_hpz]

end

end Sys2Proof.Machine.Generic
end

