-- ==== Sys2Proof/Laws/Memory.lean ====
section
/-! SUPPORT. The laws of the input buffer: a read after a write, and that every write keeps the canonical form. -/

namespace Sys2Proof.Machine

theorem Memory.read?_write_same (m : Memory) (a : Nat) (v : Byte) : Memory.read? (Memory.write m a v) a = some v := by
  induction m with
  | nil => simp [Memory.write, Memory.read?]
  | cons c m ih =>
    obtain ⟨b, u⟩ := c
    unfold Memory.write
    split
    · simp [Memory.read?]
    · split
      · simp [Memory.read?]
      · rename_i h
        simp [Memory.read?, h, ih]

theorem Memory.read?_write_other (m : Memory) {a b : Nat} (v : Byte) (h : b ≠ a) :
    Memory.read? (Memory.write m a v) b = Memory.read? m b := by
  induction m with
  | nil => simp [Memory.write, Memory.read?, h]
  | cons c m ih =>
    obtain ⟨d, u⟩ := c
    unfold Memory.write
    split
    · simp [Memory.read?, h]
    · split
      · rename_i h2
        subst h2
        simp [Memory.read?, h]
      · simp [Memory.read?, ih]

/-- What a write does to a read, once and for all. -/
theorem Memory.read?_write (m : Memory) (a b : Nat) (v : Byte) :
    Memory.read? (Memory.write m a v) b = if b = a then some v else Memory.read? m b := by
  split
  · rename_i h; subst h; exact Memory.read?_write_same m b v
  · rename_i h; exact Memory.read?_write_other m v h

/-- The addresses a write lists. -/
theorem Memory.mem_write {m : Memory} {a : Nat} {v : Byte} {c : Host.Cell} (h : c ∈ Memory.write m a v) :
    c = (a, v) ∨ c ∈ m := by
  induction m with
  | nil => simpa [Memory.write] using h
  | cons d m ih =>
    obtain ⟨b, u⟩ := d
    unfold Memory.write at h
    split at h
    · rcases List.mem_cons.1 h with h | h
      · exact Or.inl h
      · exact Or.inr h
    · split at h
      · rcases List.mem_cons.1 h with h | h
        · exact Or.inl h
        · exact Or.inr (List.mem_cons_of_mem _ h)
      · rcases List.mem_cons.1 h with h | h
        · exact Or.inr (h ▸ List.mem_cons_self)
        · rcases ih h with h | h
          · exact Or.inl h
          · exact Or.inr (List.mem_cons_of_mem _ h)

/-- A write keeps the canonical form. -/
theorem Memory.wf_write {m : Memory} (h : Memory.wf m) (a : Nat) (v : Byte) : Memory.wf (Memory.write m a v) := by
  induction m with
  | nil => simp [Memory.write, Memory.wf]
  | cons d m ih =>
    obtain ⟨b, u⟩ := d
    rw [Memory.wf, List.pairwise_cons] at h
    unfold Memory.write
    split
    · rename_i hab
      refine List.pairwise_cons.2 ⟨?_, List.pairwise_cons.2 h⟩
      intro c hc
      rcases List.mem_cons.1 hc with rfl | hc
      · exact hab
      · exact hab.trans (h.1 c hc)
    · split
      · rename_i hab
        subst hab
        exact List.pairwise_cons.2 h
      · rename_i h1 h2
        refine List.pairwise_cons.2 ⟨?_, ih h.2⟩
        intro c hc
        rcases Memory.mem_write hc with rfl | hc
        · simp only; omega
        · exact h.1 c hc

/-- What a word write does to a byte read (R72). -/
theorem Memory.read?_writeWord (m : Memory) (a b : Nat) (w : Word) :
    Memory.read? (Memory.writeWord m a w) b =
      if b = a + 3 then some (w.extractLsb' 24 8)
      else if b = a + 2 then some (w.extractLsb' 16 8)
      else if b = a + 1 then some (w.extractLsb' 8 8)
      else if b = a then some (w.extractLsb' 0 8)
      else Memory.read? m b := by
  simp only [Memory.writeWord, Memory.read?_write]

/-- A word write keeps the canonical form. -/
theorem Memory.wf_writeWord {m : Memory} (h : Memory.wf m) (a : Nat) (w : Word) : Memory.wf (Memory.writeWord m a w) :=
  Memory.wf_write (Memory.wf_write (Memory.wf_write (Memory.wf_write h _ _) _ _) _ _) _ _

/-- A word write lists its four bytes and what was listed. -/
theorem Memory.mem_writeWord {m : Memory} {a : Nat} {w : Word} {c : Host.Cell} (h : c ∈ Memory.writeWord m a w) :
    (a ≤ c.1 ∧ c.1 < a + 4) ∨ c ∈ m := by
  rcases Memory.mem_write h with rfl | h
  · left; simp only; omega
  rcases Memory.mem_write h with rfl | h
  · left; simp only; omega
  rcases Memory.mem_write h with rfl | h
  · left; simp only; omega
  rcases Memory.mem_write h with rfl | h
  · left; simp only; omega
  exact Or.inr h

theorem Memory.wf_zeros (hmax : Nat) : Memory.wf (Memory.zeros hmax) := by
  unfold Memory.zeros Memory.wf
  rw [List.pairwise_map]
  exact (List.pairwise_lt_range).imp fun h => by simpa using h

theorem Memory.mem_zeros {hmax : Nat} {c : Host.Cell} (h : c ∈ Memory.zeros hmax) :
    inBase ≤ c.1 ∧ c.1 < inBase + 4 * hmax := by
  unfold Memory.zeros at h
  obtain ⟨i, hi, rfl⟩ := List.mem_map.1 h
  have := List.mem_range.1 hi
  simp only
  omega

theorem Memory.read?_of_forall {m : Memory} {a : Nat} (h : ∀ c ∈ m, c.1 ≠ a) : Memory.read? m a = none := by
  induction m with
  | nil => rfl
  | cons c m ih =>
    obtain ⟨b, v⟩ := c
    have hb : a ≠ b := fun e => h (b, v) List.mem_cons_self e.symm
    simp [Memory.read?, hb, ih fun c hc => h c (List.mem_cons_of_mem _ hc)]

/-- Every byte of the window reads 0 after CONFIGURE (R66). -/
theorem Memory.read?_zeros {hmax a : Nat} (h0 : inBase ≤ a) (h1 : a < inBase + 4 * hmax) :
    Memory.read? (Memory.zeros hmax) a = some 0 := by
  have key : ∀ l : List Nat, a - inBase ∈ l → Memory.read? (l.map fun i => (inBase + i, (0 : Byte))) a = some 0 := by
    intro l
    induction l with
    | nil => simp
    | cons i l ih =>
      intro hm
      simp only [List.map_cons, Memory.read?]
      split
      · rfl
      · rename_i hne
        apply ih
        rcases List.mem_cons.1 hm with h | h
        · omega
        · exact h
  exact key _ (List.mem_range.2 (by omega))

/-- A word read back after it is written. -/
theorem wordAt_writeWord {ν : Type} (s : Generic.State ν) (a : Nat) (w : Word) :
    ({ s with inBuf := Memory.writeWord s.inBuf a w } : Generic.State ν).wordAt a = w := by
  have h0 : ¬(a = a + 3) ∧ ¬(a = a + 2) ∧ ¬(a = a + 1) := by omega
  have h1 : ¬(a + 1 = a + 3) ∧ ¬(a + 1 = a + 2) := by omega
  have h2 : ¬(a + 2 = a + 3) := by omega
  simp only [Generic.State.wordAt, Generic.State.byteAt, Memory.read?_writeWord, if_pos, if_neg h0.1, if_neg h0.2.1, if_neg h0.2.2,
    if_neg h1.1, if_neg h1.2, if_neg h2, Option.getD_some]
  apply BitVec.eq_of_getLsbD_eq
  intro i hi
  simp only [BitVec.getLsbD_append, BitVec.getLsbD_extractLsb']
  split
  · simp; omega
  · split
    · rename_i h1 h2; simp [show i - 8 < 8 from h2, show 8 + (i - 8) = i by omega]
    · split
      · rename_i h1 h2 h3
        simp [show i - 8 - 8 < 8 from h3, show 16 + (i - 8 - 8) = i by omega]
      · rename_i h1 h2 h3
        have : i - 8 - 8 - 8 < 8 := by omega
        simp [this, show 24 + (i - 8 - 8 - 8) = i by omega]

end Sys2Proof.Machine
end

