-- ==== Sys2Proof/Laws/Bus.lean ====
section
/-! SUPPORT. The address map in both directions, and everything a read and a write can answer. -/

namespace Sys2Proof.Machine

open Generic

/-! ## The address map -/

/-- The byte offset of a location (R75). -/
def Loc.offset : Loc → Nat
  | .id => 0x00
  | .cap => 0x04
  | .cmd => 0x08
  | .status => 0x0C
  | .errCode => 0x10
  | .errInfo => 0x14
  | .hopLen => 0x18
  | .nbins => 0x1C
  | .cfg r => r.offset
  | .coef sec r => coefOffset sec r
  | .inWord i => 0x4000 + 4 * i
  | .out i => 0x8000 + 4 * i
  | .win i => 0xC000 + 4 * i
  | .tail i => 0x10000 + 4 * i
  | .ola i => 0x14000 + 4 * i
  | .noise i => 0x18000 + 4 * i
  | .pgain i => 0x1C000 + 4 * i
  | .hpz sec c => 0x20000 + 8 * sec + 4 * c
  | .hpzi sec c => 0x20100 + 8 * sec + 4 * c
  | .unmapped => 0

/-- The locations the map has room for, in a block with SMAX sections (R75, R76). -/
def Loc.inMap (smax : Nat) : Loc → Prop
  | .coef sec _ => sec < smax
  | .inWord i => i < 4096
  | .out i => i < 4096
  | .win i => i < 4096
  | .tail i => i < 4096
  | .ola i => i < 4096
  | .noise i => i < 4096
  | .pgain i => i < 4096
  | .hpz sec c => sec < smax ∧ c < 2
  | .hpzi sec c => sec < smax ∧ c < 2
  | .unmapped => False
  | _ => True

theorem locateRegister_offset {n : Nat} (h : n < 16) :
    (locateRegister n).offset = 4 * n ∧ ∀ smax, (locateRegister n).inMap smax := by
  interval_cases n <;> simp [locateRegister, Loc.offset, Loc.inMap, CfgReg.offset]

theorem locateCoef_offset {sec smax n : Nat} (hs : sec < smax) (h : locateCoef sec n ≠ .unmapped) :
    (locateCoef sec n).offset = 0x40 + 0x20 * sec + 4 * n ∧ (locateCoef sec n).inMap smax := by
  have hn : n < 5 := by
    by_contra hc
    exact h (by unfold locateCoef; split <;> first | omega | rfl)
  interval_cases n <;> simp [locateCoef, Loc.offset, Loc.inMap, coefOffset, CoefReg.number, hs]

theorem locateWindow_offset {b i : Nat} (smax : Nat) (hi : i < 4096) (hb : 1 ≤ b) (hb' : b < 8) :
    (locateWindow b i).offset = 0x4000 * b + 4 * i ∧ (locateWindow b i).inMap smax := by
  interval_cases b <;> simp [locateWindow, Loc.offset, Loc.inMap, hi]

/-- A mapped offset is the offset of what it names (R75). -/
theorem locate_offset {smax a : Nat} (h : locate smax a ≠ .unmapped) :
    (locate smax a).offset = a ∧ (locate smax a).inMap smax := by
  unfold locate at h ⊢
  split at h
  · exact absurd rfl h
  rename_i ha
  rw [if_neg ha]
  split at h
  · rename_i h1
    rw [if_pos h1]
    obtain ⟨e, m⟩ := locateRegister_offset (n := a / 4) (by omega)
    exact ⟨by rw [e]; omega, m smax⟩
  rename_i h1
  rw [if_neg h1]
  split at h
  · rename_i h2
    rw [if_pos h2]
    split at h
    · rename_i h3
      rw [if_pos h3]
      obtain ⟨e, m⟩ := locateCoef_offset h3 h
      exact ⟨by rw [e]; omega, m⟩
    · exact absurd rfl h
  rename_i h2
  rw [if_neg h2]
  split at h
  · rename_i h3
    rw [if_pos h3]
    obtain ⟨e, m⟩ := locateWindow_offset smax (b := a / 0x4000) (i := a % 0x4000 / 4) (by omega) (by omega) (by omega)
    exact ⟨by rw [e]; omega, m⟩
  rename_i h3
  rw [if_neg h3]
  split at h
  · rename_i h4
    rw [if_pos h4]
    split at h
    · rename_i h5
      rw [if_pos h5]
      refine ⟨?_, h5, by omega⟩
      simp only [Loc.offset]
      omega
    · exact absurd rfl h
  · rename_i h4
    rw [if_neg h4]
    split at h
    · rename_i h5
      rw [if_pos h5]
      refine ⟨?_, h5, by omega⟩
      simp only [Loc.offset]
      omega
    · exact absurd rfl h

/-- What an offset names, by the offset of what it names. -/
theorem State.offset_of_locOf {s : State} {addr : Addr} {l : Loc} (h : s.locOf addr = l) (hl : l ≠ .unmapped) :
    addr.toNat = l.offset ∧ l.inMap s.build.smax := by
  subst h
  obtain ⟨e, m⟩ := locate_offset (smax := s.build.smax) (a := addr.toNat) hl
  exact ⟨e.symm, m⟩

theorem locate_register {smax a : Nat} (h : a % 4 = 0) (h1 : a < 0x40) : locate smax a = locateRegister (a / 4) := by
  unfold locate
  rw [if_neg (by omega), if_pos h1]

theorem locate_coef {smax sec n a : Nat} (hs : sec < smax) (h8 : smax ≤ 8) (hn : n < 5) (ha : a = 0x40 + 0x20 * sec + 4 * n) :
    locate smax a = locateCoef sec n := by
  unfold locate
  rw [if_neg (by omega), if_neg (by omega), if_pos (by omega), show (a - 0x40) / 0x20 = sec by omega, if_pos hs,
    show (a - 0x40) % 0x20 / 4 = n by omega]

theorem locate_window {smax b i a : Nat} (hi : i < 4096) (hb : 1 ≤ b) (hb' : b < 8) (ha : a = 0x4000 * b + 4 * i) :
    locate smax a = locateWindow b i := by
  unfold locate
  rw [if_neg (by omega), if_neg (by omega), if_neg (by omega), if_pos (by omega), show a / 0x4000 = b by omega,
    show a % 0x4000 / 4 = i by omega]

theorem locate_hpz {smax sec c a : Nat} (hs : sec < smax) (h8 : smax ≤ 8) (hc : c < 2) (ha : a = 0x20000 + 8 * sec + 4 * c) :
    locate smax a = .hpz sec c := by
  unfold locate
  rw [if_neg (by omega), if_neg (by omega), if_neg (by omega), if_neg (by omega), if_pos (by omega),
    show (a - 0x20000) / 8 = sec by omega, if_pos hs, show (a - 0x20000) % 8 / 4 = c by omega]

theorem locate_hpzi {smax sec c a : Nat} (hs : sec < smax) (h8 : smax ≤ 8) (hc : c < 2) (ha : a = 0x20100 + 8 * sec + 4 * c) :
    locate smax a = .hpzi sec c := by
  unfold locate
  rw [if_neg (by omega), if_neg (by omega), if_neg (by omega), if_neg (by omega), if_neg (by omega),
    show (a - 0x20100) / 8 = sec by omega, if_pos hs, show (a - 0x20100) % 8 / 4 = c by omega]

/-- A location is what its offset names (R75). -/
theorem locate_of_inMap {smax : Nat} (h8 : smax ≤ 8) {l : Loc} (h : l.inMap smax) : locate smax l.offset = l := by
  cases l with
  | cfg r => cases r <;> exact locate_register (by decide) (by decide)
  | coef sec r => cases r <;> exact locate_coef h h8 (by decide) rfl
  | hpz sec c => exact locate_hpz h.1 h8 h.2 rfl
  | hpzi sec c => exact locate_hpzi h.1 h8 h.2 rfl
  | unmapped => exact h.elim
  | inWord i => exact locate_window (b := 1) h (by decide) (by decide) rfl
  | out i => exact locate_window (b := 2) h (by decide) (by decide) rfl
  | win i => exact locate_window (b := 3) h (by decide) (by decide) rfl
  | tail i => exact locate_window (b := 4) h (by decide) (by decide) rfl
  | ola i => exact locate_window (b := 5) h (by decide) (by decide) rfl
  | noise i => exact locate_window (b := 6) h (by decide) (by decide) rfl
  | pgain i => exact locate_window (b := 7) h (by decide) (by decide) rfl
  | _ => exact locate_register (by decide) (by decide)

/-- What a location's offset names in a block of legal parameters. -/
theorem State.locOf_offset {s : State} (hb : s.build.Legal) {l : Loc} (h : l.inMap s.build.smax) {addr : Addr}
    (ha : addr.toNat = l.offset) : s.locOf addr = l := by
  obtain ⟨-, -, -, -, h8, -⟩ := hb
  rw [State.locOf, ha, locate_of_inMap h8 h]

/-! ## Reads and writes -/

/-- A read answers a next state that differs in the response alone (R74, R245). -/
theorem execRd_eq (addr : Addr) (s : State) :
    execRd addr s = .next { s with response := readResponse (s.readLoc exactArith (s.locOf addr)) } := rfl

/-- Everything a write can answer (R246). -/
theorem writeLoc_cases (s : State) (w : Word) (l : Loc) :
    (l = .cmd ∧ s.writeLoc exactArith w l = runWord exactArith w s) ∨
    (l = .status ∧ s.writeLoc exactArith w l = .next ((s.writeStatus w).respond .writeOk)) ∨
    (s.mode = .unconfigured ∧ ∃ c, ((∃ r, l = .cfg r ∧ c = s.cfg.set w r) ∨ (∃ sec r, l = .coef sec r ∧ c = s.cfg.setCoef sec r w)) ∧
      s.writeLoc exactArith w l = .next { s with cfg := c, response := .writeOk }) ∨
    (∃ i, i < s.build.hmax ∧ l = .inWord i ∧
      s.writeLoc exactArith w l = .next { s with inBuf := Memory.writeWord s.inBuf (inBase + 4 * i) w, response := .writeOk }) ∨
    (s.writeLoc exactArith w l = .next { s with response := .err } ∧ l ≠ .cmd ∧ l ≠ .status ∧
      (∀ i, l = .inWord i → s.build.hmax ≤ i) ∧
      ((∃ r, l = .cfg r) ∨ (∃ sec r, l = .coef sec r) → s.mode = .configured)) := by
  cases l with
  | cmd => exact .inl ⟨rfl, rfl⟩
  | status => exact .inr (.inl ⟨rfl, rfl⟩)
  | cfg r =>
    cases hm : s.mode with
    | unconfigured =>
      refine .inr (.inr (.inl ⟨rfl, _, .inl ⟨r, rfl, rfl⟩, ?_⟩))
      simp [State.writeLoc, State.writeConfig, hm]
    | configured => refine .inr (.inr (.inr (.inr ?_))); simp [State.writeLoc, State.writeConfig, State.respond, hm]
  | coef sec r =>
    cases hm : s.mode with
    | unconfigured =>
      refine .inr (.inr (.inl ⟨rfl, _, .inr ⟨sec, r, rfl, rfl⟩, ?_⟩))
      simp [State.writeLoc, State.writeConfig, hm]
    | configured => refine .inr (.inr (.inr (.inr ?_))); simp [State.writeLoc, State.writeConfig, State.respond, hm]
  | inWord i =>
    by_cases hi : i < s.build.hmax
    · refine .inr (.inr (.inr (.inl ⟨i, hi, rfl, ?_⟩)))
      simp [State.writeLoc, State.writeIn, hi]
    · refine .inr (.inr (.inr (.inr ?_)))
      simp [State.writeLoc, State.writeIn, State.respond, hi]
      omega
  | _ => refine .inr (.inr (.inr (.inr ?_))); simp [State.writeLoc, State.respond]

end Sys2Proof.Machine
end

