-- ==== Sys2Proof/Laws/Operands.lean ====
section
/-! SUPPORT. What the operands depend on: two states with the same configuration, or the same input buffer, read the same
operands. -/

namespace Sys2Proof.Machine

open Generic

theorem State.N_of_cfg {s t : State} (h : t.cfg = s.cfg) : t.N = s.N := by unfold State.N; rw [h]

theorem State.H_of_cfg {s t : State} (h : t.cfg = s.cfg) : t.H = s.H := by unfold State.H; rw [State.N_of_cfg h]

theorem State.K_of_cfg {s t : State} (h : t.cfg = s.cfg) : t.K = s.K := by unfold State.K; rw [State.N_of_cfg h]

theorem State.biquads_of_cfg {s t : State} (h : t.cfg = s.cfg) : t.biquads exactArith = s.biquads exactArith := by unfold State.biquads; rw [h]

theorem State.configFailure_of_cfg {s t : State} (h : t.cfg = s.cfg) (hb : t.build = s.build) :
    t.configFailure exactArith = s.configFailure exactArith := by
  unfold State.configFailure; rw [h, hb]

theorem numOf_of_num? {w : Word} {q : ℚ} (h : num? w = some q) : exactArith.numOf w = .rat q := by
  rw [exactArith_numOf, numOf, h]; rfl

theorem State.beta_eq {s : State} {q : ℚ} (h : num? s.cfg.beta = some q) : s.beta exactArith = .rat q := by
  rw [State.beta, numOf_of_num? h]

theorem State.floorRatio_eq {s : State} {q : ℚ} (h : num? s.cfg.floor = some q) : s.floorRatio exactArith = .rat q := by
  rw [State.floorRatio, numOf_of_num? h]

theorem State.alphaN_eq {s : State} {q : ℚ} (h : num? s.cfg.alphaN = some q) : s.alphaN exactArith = .rat q := by
  rw [State.alphaN, numOf_of_num? h]

theorem State.alphaG_eq {s : State} {q : ℚ} (h : num? s.cfg.alphaG = some q) : s.alphaG exactArith = .rat q := by
  rw [State.alphaG, numOf_of_num? h]

theorem State.byteAt_of_inBuf {s t : State} (h : t.inBuf = s.inBuf) (hr : t.resets = s.resets) (a : Nat) :
    t.byteAt a = s.byteAt a := by
  unfold State.byteAt; rw [h, hr]

theorem State.inWord_of_inBuf {s t : State} (h : t.inBuf = s.inBuf) (hr : t.resets = s.resets) (i : Nat) :
    t.inWord i = s.inWord i := by
  unfold State.inWord State.wordAt
  simp only [State.byteAt_of_inBuf h hr]

theorem State.chunk_of_inBuf {s t : State} (h : t.inBuf = s.inBuf) (hr : t.resets = s.resets) (hc : t.cfg = s.cfg) :
    t.chunk exactArith = s.chunk exactArith := by
  unfold State.chunk State.chunkWords
  rw [State.H_of_cfg hc, funext (State.inWord_of_inBuf h hr)]

end Sys2Proof.Machine
end

