-- ==== Sys2Proof/Laws/Checks.lean ====
section
/-! SUPPORT. What each check of CONFIGURE means (R235), and what an accepted configuration gives. -/

namespace Sys2Proof.Machine

open Generic

theorem less_eq_false {a b : Exact} : exactArith.less a b = false ↔ b.val ≤ a.val := by
  rw [← not_lt, ← exactArith_less, Bool.not_eq_true]

theorem isZero_iff {a : Exact} : isZero exactArith a = true ↔ a.val = 0 := by
  simp only [isZero, Bool.and_eq_true, Bool.not_eq_true', less_eq_false, exactArith_zero, Exact.val_rat, Rat.cast_zero]
  exact le_antisymm_iff.symm.trans eq_comm

theorem notNonNegative_eq_false {w : Word} : notNonNegative exactArith w = false ↔ ∃ q, num? w = some q ∧ 0 ≤ q := by
  unfold notNonNegative
  rw [exactArith_num?]
  cases num? w <;> simp [less_eq_false]

theorem notSmoothing_eq_false {w : Word} :
    notSmoothing exactArith w = false ↔ ∃ q, num? w = some q ∧ 0 ≤ q ∧ q < 1 := by
  unfold notSmoothing
  rw [exactArith_num?]
  cases num? w with
  | none => simp
  | some q =>
    simp only [Option.map_some, Bool.or_eq_false_iff, less_eq_false, Bool.not_eq_false', exactArith_less, exactArith_zero,
      exactArith_one, Exact.val_rat, Option.some.injEq, exists_eq_left']
    norm_cast

theorem filterOn_iff {c : ConfigRegs} : filterOn exactArith c = true ↔ ∃ q, num? c.hpCutoff = some q ∧ 0 < q := by
  unfold filterOn
  rw [exactArith_num?]
  cases num? c.hpCutoff <;> simp

theorem finite_iff {w : Word} : exactArith.finite w = true ↔ ∃ q, num? w = some q := by
  rw [exactArith_finite, Option.isSome_iff_exists]

/-- Check 12 of one section (R235). -/
theorem singular_iff {x : Section} : singular exactArith x = true ↔ 1 + numOf x.a1 + numOf x.a2 = 0 := by
  unfold singular
  rw [isZero_iff]
  simp only [exactArith_val_add, exactArith_numOf, exactArith_one, Exact.val_rat]
  norm_cast

/-! ## The coefficients (checks 11 and 12) -/

theorem numbered_find_none (x : Section) :
    (x.numbered.find? fun e => !exactArith.finite e.1) = none ↔ ∀ r, exactArith.finite (x.get r) = true := by
  unfold Section.numbered
  rw [List.find?_eq_none]
  constructor
  · intro h r
    cases r <;> simp [Section.get] at h ⊢ <;> tauto
  · intro h
    have := h .b0
    have := h .b1
    have := h .b2
    have := h .a1
    have := h .a2
    simp [Section.get] at *
    tauto

theorem numbered_find_some (x : Section) (r : CoefReg) (h : exactArith.finite (x.get r) = false)
    (hb : ∀ r' : CoefReg, r'.number < r.number → exactArith.finite (x.get r') = true) :
    ∃ w, (x.numbered.find? fun e => !exactArith.finite e.1) = some (w, r.number) := by
  have := hb .b0
  have := hb .b1
  have := hb .b2
  have := hb .a1
  cases r <;> simp [Section.get, CoefReg.number] at * <;> simp [Section.numbered, List.find?, *]

/-- Check 11 passes when every coefficient of the sections is finite. -/
theorem badCoef?_eq_none (k : Nat) (l : List Section) :
    badCoef? exactArith k l = none ↔ ∀ x ∈ l, ∀ r, exactArith.finite (x.get r) = true := by
  induction l generalizing k with
  | nil => simp [badCoef?]
  | cons x xs ih =>
    unfold badCoef?
    cases h : (x.numbered.find? fun e => !exactArith.finite e.1) with
    | none => simp [ih, (numbered_find_none x).mp h]
    | some e =>
      have : ¬∀ r, exactArith.finite (x.get r) = true := fun hc => by rw [(numbered_find_none x).mpr hc] at h; cases h
      simp only [reduceCtorEq, false_iff]
      exact fun hc => this (hc x (by simp))

/-- Check 11 reports the lowest section and then the lowest coefficient that is not finite. -/
theorem badCoef?_eq_some (k : Nat) (l : List Section) (i : Nat) (hi : i < l.length) (r : CoefReg)
    (h : exactArith.finite ((l.getD i Section.zero).get r) = false)
    (hb : ∀ i' r', i' < i ∨ (i' = i ∧ CoefReg.number r' < r.number) → exactArith.finite ((l.getD i' Section.zero).get r') = true) :
    badCoef? exactArith k l = some (coefInfo (k + i) r.number) := by
  induction l generalizing k i with
  | nil => simp at hi
  | cons x xs ih =>
    unfold badCoef?
    cases i with
    | zero =>
      obtain ⟨w, hw⟩ := numbered_find_some x r (by simpa using h) (fun r' hr => by simpa using hb 0 r' (.inr ⟨rfl, hr⟩))
      rw [hw]; simp
    | succ i =>
      rw [(numbered_find_none x).mpr (fun r' => by simpa using hb 0 r' (.inl (by omega)))]
      simp only []
      rw [ih (k + 1) i (by simpa using hi) (by simpa using h) (fun i' r' h' => by simpa using hb (i' + 1) r' (by omega))]
      congr 2
      omega

/-- Check 12 passes when no section is singular. -/
theorem singular?_eq_none (k : Nat) (l : List Section) : singular? exactArith k l = none ↔ ∀ x ∈ l, singular exactArith x = false := by
  induction l generalizing k with
  | nil => simp [singular?]
  | cons x xs ih => unfold singular?; split <;> simp [*]

/-- Check 12 reports the lowest singular section. -/
theorem singular?_eq_some (k : Nat) (l : List Section) (i : Nat) (hi : i < l.length)
    (h : singular exactArith (l.getD i Section.zero) = true) (hb : ∀ i' < i, singular exactArith (l.getD i' Section.zero) = false) :
    singular? exactArith k l = some (coefInfo (k + i) 0xFF) := by
  induction l generalizing k i with
  | nil => simp at hi
  | cons x xs ih =>
    unfold singular?
    cases i with
    | zero => rw [if_pos (by simpa using h)]; simp
    | succ i =>
      rw [if_neg (by simpa using hb 0 (by omega)),
        ih (k + 1) i (by simpa using hi) (by simpa using h) (fun i' h' => by simpa using hb (i' + 1) (by omega))]
      congr 2
      omega

/-- The information word (s << 8) | c as a number (R235). -/
theorem coefInfo_eq (sec : Nat) {c : Nat} (hc : c < 256) : coefInfo sec c = BitVec.ofNat 32 (2 ^ 8 * sec + c) := by
  apply BitVec.eq_of_toNat_eq
  have e : (BitVec.ofNat 32 sec <<< 8).toNat = (sec % 2 ^ 24) <<< 8 := by
    rw [BitVec.toNat_shiftLeft, BitVec.toNat_ofNat, Nat.shiftLeft_eq, Nat.shiftLeft_eq]
    omega
  rw [coefInfo, BitVec.toNat_or, e, BitVec.toNat_ofNat, Nat.mod_eq_of_lt (show c < 2 ^ 32 by omega),
    ← Nat.shiftLeft_add_eq_or_of_lt (by omega), Nat.shiftLeft_eq, BitVec.toNat_ofNat]
  omega

/-! ## An accepted configuration -/

/-- What a configuration that CONFIGURE accepts gives (R235). -/
theorem accepted_facts {c : ConfigRegs} {nmax smax : Nat} (h : Generic.failure exactArith c nmax smax = none) :
    c.frameLen.toNat % 2 = 0 ∧ c.frameLen.toNat ≤ nmax ∧ c.frameLen.toNat ≠ 0 ∧
    (∃ q, num? c.beta = some q ∧ 0 ≤ q) ∧ (∃ q, num? c.floor = some q ∧ 0 ≤ q) ∧
    (∃ q, num? c.alphaN = some q ∧ 0 ≤ q ∧ q < 1) ∧ (∃ q, num? c.alphaG = some q ∧ 0 ≤ q ∧ q < 1) ∧
    (filterOn exactArith c = true → c.sections ≤ smax) := by
  unfold Generic.failure at h
  split at h; · cases h
  split at h; · cases h
  rename_i h2
  split at h; · cases h
  split at h; · cases h
  split at h; · cases h
  rename_i h5
  split at h; · cases h
  rename_i h6
  split at h; · cases h
  rename_i h7
  split at h; · cases h
  rename_i h8
  split at h; · cases h
  refine ⟨by omega, by omega, fun e => h2 (BitVec.eq_of_toNat_eq e), notNonNegative_eq_false.mp (by simpa using h5),
    notNonNegative_eq_false.mp (by simpa using h6), notSmoothing_eq_false.mp (by simpa using h7),
    notSmoothing_eq_false.mp (by simpa using h8), fun hf => ?_⟩
  rw [if_pos hf] at h
  unfold filterFailure at h
  split at h; · cases h
  unfold ConfigRegs.sections
  omega

end Sys2Proof.Machine
end

