-- ==== Sys2Proof/Laws/Vectors.lean ====
section
/-! SUPPORT. Element by element: what the list operations of the micro-operations do to one element, as exact numbers and
as real numbers, and the transforms as finite sums. -/

namespace Sys2Proof.Machine

open Finset Generic

/-! ## Elements of lists -/

theorem getD_zipWith {α β γ : Type} (f : α → β → γ) {a : List α} {b : List β} {i : Nat} (da : α) (db : β) (dc : γ)
    (ha : i < a.length) (hb : i < b.length) : (List.zipWith f a b).getD i dc = f (a.getD i da) (b.getD i db) := by
  simp [List.getD_eq_getElem?_getD, List.getElem?_zipWith, List.getElem?_eq_getElem ha, List.getElem?_eq_getElem hb]

theorem getD_map {α β : Type} (f : α → β) {a : List α} {i : Nat} (da : α) (db : β) (ha : i < a.length) :
    (a.map f).getD i db = f (a.getD i da) := by
  simp [List.getD_eq_getElem?_getD, List.getElem?_eq_getElem ha]

theorem getD_range_map {β : Type} (f : Nat → β) {n i : Nat} (db : β) (hi : i < n) :
    ((List.range n).map f).getD i db = f i := by
  simp [List.getD_eq_getElem?_getD, hi]

theorem valAt_of_length_le {a : List Exact} {i : Nat} (h : a.length ≤ i) : valAt a i = 0 := by
  simp [valAt, List.getD_eq_getElem?_getD, List.getElem?_eq_none h]

theorem valAt_zipWith_add {a b : List Exact} {i : Nat} (ha : i < a.length) (hb : i < b.length) :
    valAt (List.zipWith exactArith.add a b) i = valAt a i + valAt b i := by
  rw [valAt, getD_zipWith exactArith.add (.rat 0) (.rat 0) _ ha hb, exactArith_val_add]
  rfl

theorem valAt_zipWith_mul {a b : List Exact} {i : Nat} (ha : i < a.length) (hb : i < b.length) :
    valAt (List.zipWith exactArith.mul a b) i = valAt a i * valAt b i := by
  rw [valAt, getD_zipWith exactArith.mul (.rat 0) (.rat 0) _ ha hb, exactArith_val_mul]
  rfl

theorem valAt_range_map (f : Nat → Exact) {n i : Nat} (hi : i < n) : valAt ((List.range n).map f) i = (f i).val := by
  rw [valAt, getD_range_map f _ hi]

theorem cvalAt_range_map (f : Nat → Cplx Exact) {n i : Nat} (hi : i < n) : cvalAt ((List.range n).map f) i = (f i).val := by
  rw [cvalAt, getD_range_map f _ hi]

theorem valAt_append_left {a b : List Exact} {i : Nat} (h : i < a.length) : valAt (a ++ b) i = valAt a i := by
  simp [valAt, List.getD_eq_getElem?_getD, List.getElem?_append_left h]

theorem valAt_append_right {a b : List Exact} {i : Nat} (h : a.length ≤ i) : valAt (a ++ b) i = valAt b (i - a.length) := by
  simp [valAt, List.getD_eq_getElem?_getD, List.getElem?_append_right h]

theorem valAt_drop (a : List Exact) (n i : Nat) : valAt (a.drop n) i = valAt a (n + i) := by
  simp [valAt, List.getD_eq_getElem?_getD, List.getElem?_drop]

theorem valAt_take {a : List Exact} {n i : Nat} (h : i < n) : valAt (a.take n) i = valAt a i := by
  simp [valAt, List.getD_eq_getElem?_getD, h]

@[simp] theorem valAt_zeros (n i : Nat) : valAt (zeros exactArith n) i = 0 := by
  rcases lt_or_ge i n with h | h
  · simp [valAt, zeros, List.getD_eq_getElem?_getD, h]
  · exact valAt_of_length_le (by simpa [zeros] using h)

@[simp] theorem zeros_length (n : Nat) : (zeros exactArith n).length = n := by simp [zeros]

@[simp] theorem windowOf_length (eps : Exact) (n : Nat) : (windowOf exactArith eps n).length = n := by simp [windowOf]

@[simp] theorem rdft_length {ν : Type} (E : Elementary ν) (len : Nat) (a : List ν) : (rdft E len a).length = len / 2 + 1 := by
  simp [rdft]

@[simp] theorem irdft_length {ν : Type} (E : Elementary ν) (len : Nat) (b : List (Cplx ν)) : (irdft E len b).length = len := by
  simp [irdft]

@[simp] theorem exactArith_rdft_length (len : Nat) (a : List Exact) : (exactArith.rdft len a).length = len / 2 + 1 :=
  rdft_length _ len a

@[simp] theorem exactArith_irdft_length (len : Nat) (b : List (Cplx Exact)) : (exactArith.irdft len b).length = len :=
  irdft_length _ len b

/-- An element of the shifted accumulator: the element one hop further, or 0 in the vacated tail (R166). -/
theorem valAt_shiftOla {h i : Nat} {ola : List Exact} :
    valAt (shiftOla exactArith h ola) i = if h + i < ola.length then valAt ola (h + i) else 0 := by
  unfold shiftOla
  split
  · rename_i hi
    rw [valAt_append_left (by rw [List.length_drop]; omega), valAt_drop]
  · rename_i hi
    rw [valAt_append_right (by rw [List.length_drop]; omega), valAt_zeros]

theorem shiftOla_length {h : Nat} {ola : List Exact} (hh : h ≤ ola.length) : (shiftOla exactArith h ola).length = ola.length := by
  simp [shiftOla]; omega

/-! ## The window -/

/-- R131 over the reals. -/
theorem windowElement_val (eps : Exact) (n i : Nat) :
    (windowElement exactArith eps n i).val = √(1 / 2 * (1 - Real.cos (2 * Real.pi * i / (n - 1))) + eps.val) := by
  unfold windowElement
  simp only [exactArith_val_sqrt, exactArith_val_add, exactArith_val_mul, exactArith_val_sub, exactArith_val_cos,
    exactArith_ofRat, exactArith_one, Exact.val_rat]
  congr 3
  · norm_num
  · rw [Rat.cast_one]
    congr 2
    push_cast
    ring

theorem valAt_windowOf (eps : Exact) {n i : Nat} (hi : i < n) :
    valAt (windowOf exactArith eps n) i = √(1 / 2 * (1 - Real.cos (2 * Real.pi * i / (n - 1))) + eps.val) := by
  rw [windowOf, valAt_range_map _ hi, windowElement_val]

/-! ## The averages -/

/-- R201 over the reals. -/
@[simp] theorem smooth_val (α old new : Exact) : (smooth exactArith α old new).val = α.val * old.val + (1 - α.val) * new.val := by
  simp [smooth]

@[simp] theorem cleanOf_val (β f mag noise : Exact) :
    (cleanOf exactArith β f mag noise).val = Max.max (mag.val - β.val * noise.val) (f.val * noise.val) := by
  simp [cleanOf]

@[simp] theorem instantGain_val (eps : Exact) (clean mag : Exact) :
    (instantGain exactArith eps clean mag).val = clean.val / (mag.val + eps.val) := by
  simp [instantGain]

/-! ## The transforms over the real numbers as finite sums -/

theorem map_zipIdx_sum {α : Type} (d : α) (a : List α) (f : α → Nat → ℝ) (k : Nat) :
    ((a.zipIdx k).map fun e => f e.1 e.2).sum = ∑ n ∈ range a.length, f (a.getD n d) (k + n) := by
  induction a generalizing k with
  | nil => simp
  | cons x a ih =>
    rw [List.zipIdx_cons, List.map_cons, List.sum_cons, ih (k + 1), List.length_cons, sum_range_succ']
    simp only [List.getD_cons_succ, List.getD_cons_zero, Nat.add_zero]
    rw [add_comm]
    congr 1
    refine sum_congr rfl fun n _ => ?_
    rw [show k + 1 + n = k + (n + 1) by omega]

/-- 2π times the fraction of a turn. -/
theorem turns_val (len k n : Nat) : 2 * Real.pi * ((turns len k n : ℚ) : ℝ) = 2 * Real.pi * k * n / len := by
  unfold turns
  push_cast
  ring

theorem realElementary_total (l : List ℝ) : realElementary.total l = l.sum := by
  induction l with
  | nil => exact Rat.cast_zero
  | cons a l ih => rw [Elementary.total, ih]; rfl

theorem realElementary_cos (len k n : Nat) : realElementary.cos (turns len k n) = Real.cos (2 * Real.pi * k * n / len) :=
  congrArg Real.cos (turns_val len k n)

theorem realElementary_sin (len k n : Nat) : realElementary.sin (turns len k n) = Real.sin (2 * Real.pi * k * n / len) := by
  show Real.cos (2 * Real.pi * ((turns len k n - 1 / 4 : ℚ) : ℝ)) = _
  rw [← Real.cos_sub_pi_div_two, ← turns_val]
  congr 1
  push_cast
  ring

/-- A weighted sum over the elements of a sequence, with weights that depend on the element's number. -/
theorem total_zipIdx (a : List ℝ) (w : Nat → ℝ) :
    realElementary.total (a.zipIdx.map fun e => realElementary.mul e.1 (w e.2)) = ∑ n ∈ range a.length, a.getD n 0 * w n := by
  have h := map_zipIdx_sum 0 a (fun v n => v * w n) 0
  simp only [Nat.zero_add] at h
  rw [realElementary_total, ← h]
  rfl

/-- The real part of bin k (R181). -/
theorem rdftBin_re (len : Nat) (a : List ℝ) (k : Nat) :
    (rdftBin realElementary len a k).re = ∑ n ∈ range a.length, a.getD n 0 * Real.cos (2 * Real.pi * k * n / len) :=
  (total_zipIdx a fun n => realElementary.cos (turns len k n)).trans
    (sum_congr rfl fun n _ => by rw [realElementary_cos])

/-- The imaginary part of bin k (R181). -/
theorem rdftBin_im (len : Nat) (a : List ℝ) (k : Nat) :
    (rdftBin realElementary len a k).im = -∑ n ∈ range a.length, a.getD n 0 * Real.sin (2 * Real.pi * k * n / len) := by
  have h := total_zipIdx a fun n => realElementary.sin (turns len k n)
  show ((0 : ℚ) : ℝ) - realElementary.total (a.zipIdx.map fun e => realElementary.mul e.1 (realElementary.sin (turns len k e.2))) = _
  rw [h, Rat.cast_zero, zero_sub]
  simp only [realElementary_sin]

/-- The complex number a pair of real numbers is. -/
def pairVal (z : Cplx ℝ) : ℂ := ⟨z.re, z.im⟩

/-- Re(B · exp(+j2πkn/N)). -/
theorem turnedRe_real (len n k : Nat) (z : Cplx ℝ) : turnedRe realElementary len n z k =
    z.re * Real.cos (2 * Real.pi * k * n / len) - z.im * Real.sin (2 * Real.pi * k * n / len) := by
  rw [turnedRe, realElementary_cos, realElementary_sin]
  rfl

/-- The interior bins' part of a sample of the inverse transform (R182). -/
theorem interior_sum (len n : Nat) (b : List (Cplx ℝ)) (hb : b.length = len / 2 + 1) :
    realElementary.total ((interiorBins len b).map fun e => turnedRe realElementary len n e.1 e.2) =
      ∑ k ∈ range (len / 2 - 1), ((b.getD (k + 1) ⟨0, 0⟩).re * Real.cos (2 * Real.pi * (k + 1) * n / len) -
        (b.getD (k + 1) ⟨0, 0⟩).im * Real.sin (2 * Real.pi * (k + 1) * n / len)) := by
  rw [realElementary_total, interiorBins]
  have e : (b.zipIdx.drop 1).take (len / 2 - 1) = ((b.drop 1).take (len / 2 - 1)).zipIdx 1 := by
    apply List.ext_getElem?
    intro i
    simp only [List.getElem?_take, List.getElem?_drop, List.getElem?_zipIdx]
    split <;> simp
  rw [e, map_zipIdx_sum ⟨0, 0⟩ ((b.drop 1).take (len / 2 - 1)) (fun z k => turnedRe realElementary len n z k) 1,
    List.length_take, List.length_drop, hb, show len / 2 + 1 - 1 = len / 2 by omega, min_eq_left (by omega)]
  refine sum_congr rfl fun k hk => ?_
  have hk' : k < len / 2 - 1 := by simpa using hk
  have g : ((b.drop 1).take (len / 2 - 1)).getD k ⟨0, 0⟩ = b.getD (k + 1) ⟨0, 0⟩ := by
    simp [List.getD_eq_getElem?_getD, List.getElem?_take_of_lt hk']
  rw [turnedRe_real, g]
  push_cast
  rw [add_comm (1 : ℝ) (k : ℝ)]

/-- Sample n of the inverse transform (R182). -/
theorem irdftSample_real (len : Nat) (b : List (Cplx ℝ)) (n : Nat) (hb : b.length = len / 2 + 1) :
    irdftSample realElementary len b n = 1 / len * ((b.getD 0 ⟨0, 0⟩).re + (-1) ^ n * (b.getD (len / 2) ⟨0, 0⟩).re +
      2 * ∑ k ∈ range (len / 2 - 1), ((b.getD (k + 1) ⟨0, 0⟩).re * Real.cos (2 * Real.pi * (k + 1) * n / len) -
        (b.getD (k + 1) ⟨0, 0⟩).im * Real.sin (2 * Real.pi * (k + 1) * n / len))) := by
  have h := interior_sum len n b hb
  have z : (⟨realElementary.zero, realElementary.zero⟩ : Cplx ℝ) = ⟨0, 0⟩ := by
    rw [show realElementary.zero = (0 : ℝ) from Rat.cast_zero]
  unfold irdftSample realPart
  rw [h, z]
  show ((1 / (len : ℚ) : ℚ) : ℝ) * (_ + (((-1) ^ n : ℚ) : ℝ) * _ + ((2 : ℚ) : ℝ) * _) = _
  push_cast
  rfl

/-! ## The transforms of exact numbers -/

theorem getD_map_val (a : List Exact) (n : Nat) : (a.map Exact.val).getD n 0 = valAt a n := by
  simp only [valAt, List.getD_eq_getElem?_getD, List.getElem?_map]
  cases a[n]? <;> simp

theorem getD_map_cval (b : List (Cplx Exact)) (k : Nat) :
    pairVal ((b.map (Cplx.map Exact.val)).getD k ⟨0, 0⟩) = cvalAt b k := by
  simp only [cvalAt, List.getD_eq_getElem?_getD, List.getElem?_map]
  cases b[k]? <;> simp [pairVal, Cplx.map, Cplx.val]

/-- The real part of bin k (R181). -/
theorem rdftBin_val_re (len : Nat) (a : List Exact) (k : Nat) :
    (rdftBin exactElementary len a k).val.re = ∑ n ∈ range a.length, valAt a n * Real.cos (2 * Real.pi * k * n / len) := by
  have h := rdftBin_re len (a.map Exact.val) k
  rw [← exactElementary_hom.rdftBin, List.length_map] at h
  simp only [getD_map_val] at h
  exact h

/-- The imaginary part of bin k (R181). -/
theorem rdftBin_val_im (len : Nat) (a : List Exact) (k : Nat) :
    (rdftBin exactElementary len a k).val.im = -∑ n ∈ range a.length, valAt a n * Real.sin (2 * Real.pi * k * n / len) := by
  have h := rdftBin_im len (a.map Exact.val) k
  rw [← exactElementary_hom.rdftBin, List.length_map] at h
  simp only [getD_map_val] at h
  exact h

/-- Bin k is Σ a[n]·exp(−j2πkn/N) (R181). -/
theorem rdftBin_val (len : Nat) (a : List Exact) (k : Nat) :
    (rdftBin exactElementary len a k).val =
      ∑ n ∈ range a.length, (valAt a n : ℂ) * Complex.exp (-(2 * Real.pi * k * n / len : ℝ) * Complex.I) := by
  have e : ∀ t : ℝ, Complex.exp (-(t : ℂ) * Complex.I) = ⟨Real.cos t, -Real.sin t⟩ := by
    intro t
    rw [neg_mul, ← neg_mul, ← Complex.ofReal_neg, Complex.exp_mul_I, ← Complex.ofReal_cos, ← Complex.ofReal_sin]
    apply Complex.ext <;> simp [-Complex.ofReal_cos, -Complex.ofReal_sin]
  simp only [e]
  apply Complex.ext
  · rw [Complex.re_sum]
    exact (rdftBin_val_re len a k).trans (sum_congr rfl fun n _ => by simp)
  · rw [Complex.im_sum]
    refine (rdftBin_val_im len a k).trans ?_
    rw [← sum_neg_distrib]
    exact sum_congr rfl fun n _ => by simp

theorem cvalAt_rdft (len : Nat) (a : List Exact) {k : Nat} (hk : k < len / 2 + 1) :
    cvalAt (exactArith.rdft len a) k = (rdftBin exactElementary len a k).val := by
  show cvalAt (rdft exactElementary len a) k = _
  rw [rdft, cvalAt_range_map _ hk]

/-- Sample n of the inverse transform (R182). -/
theorem irdftSample_val (len : Nat) (b : List (Cplx Exact)) (n : Nat) (hb : b.length = len / 2 + 1) :
    (irdftSample exactElementary len b n).val = 1 / len * ((cvalAt b 0).re + (-1) ^ n * (cvalAt b (len / 2)).re +
      2 * ∑ k ∈ range (len / 2 - 1), ((cvalAt b (k + 1)).re * Real.cos (2 * Real.pi * (k + 1) * n / len) -
        (cvalAt b (k + 1)).im * Real.sin (2 * Real.pi * (k + 1) * n / len))) := by
  rw [exactElementary_hom.irdftSample, irdftSample_real len _ n (by simpa using hb)]
  simp only [← getD_map_cval, pairVal]

theorem valAt_irdft (len : Nat) (b : List (Cplx Exact)) {n : Nat} (hn : n < len) :
    valAt (exactArith.irdft len b) n = (irdftSample exactElementary len b n).val := by
  show valAt (irdft exactElementary len b) n = _
  rw [irdft, valAt_range_map _ hn]

end Sys2Proof.Machine
end

