-- ==== Sys2Proof/Laws/Filter.lean ====
section
/-! SUPPORT. The filter cascade: the lengths of what it answers, and its samples and states as real numbers. -/

namespace Sys2Proof.Machine

open Generic

/-! ## Lengths -/

@[simp] theorem restStates_length (cs : List (Biquad Exact)) (u : Exact) : (restStates exactArith cs u).length = cs.length := by
  induction cs generalizing u with
  | nil => rfl
  | cons c cs ih => simp [restStates, ih]

@[simp] theorem cascadeStep_length (cs : List (Biquad Exact)) (zs : List (SectionState Exact)) (v : Exact) :
    (cascadeStep exactArith cs zs v).2.length = zs.length := by
  induction cs generalizing zs v with
  | nil => rfl
  | cons c cs ih => cases zs <;> simp [cascadeStep, ih]

@[simp] theorem cascadeRun_length (cs : List (Biquad Exact)) (zs : List (SectionState Exact)) (vs : List Exact) :
    (cascadeRun exactArith cs zs vs).1.length = vs.length ∧ (cascadeRun exactArith cs zs vs).2.length = zs.length := by
  induction vs generalizing zs with
  | nil => exact ⟨rfl, rfl⟩
  | cons v vs ih =>
    obtain ⟨h1, h2⟩ := ih (cascadeStep exactArith cs zs v).2
    exact ⟨by simp [cascadeRun, h1], by simp [cascadeRun, h2]⟩

@[simp] theorem biquads_length (s : State) : (s.biquads exactArith).length = min s.cfg.sections s.cfg.coef.length := by
  simp [State.biquads]

theorem initialStates_length (s : State) : (s.initialStates exactArith).length =
    if s.startsFresh then min s.cfg.sections s.hpzi.length else min s.cfg.sections s.hpz.length := by
  unfold State.initialStates
  split <;> simp

@[simp] theorem filtered_length (s : State) :
    (s.filtered exactArith).1.length = s.work.frame.length ∧ (s.filtered exactArith).2.length = (s.initialStates exactArith).length :=
  cascadeRun_length _ _ _

/-! ## Elements as real numbers -/

theorem stateAt_of_length_le {a : List (SectionState Exact)} {sec : Nat} (h : a.length ≤ sec) : stateAt a sec = (0, 0) := by
  simp [stateAt, List.getD_eq_getElem?_getD, List.getElem?_eq_none h]

@[simp] theorem stateAt_cons_zero (z : SectionState Exact) (zs : List (SectionState Exact)) : stateAt (z :: zs) 0 = (z.1.val, z.2.val) := rfl

@[simp] theorem stateAt_cons_succ (z : SectionState Exact) (zs : List (SectionState Exact)) (k : Nat) :
    stateAt (z :: zs) (k + 1) = stateAt zs k := rfl

@[simp] theorem stateAt_replicate (n sec : Nat) : stateAt (List.replicate n (restZero exactArith)) sec = (0, 0) := by
  rcases lt_or_ge sec n with h | h
  · simp [stateAt, restZero, List.getD_eq_getElem?_getD, h]
  · exact stateAt_of_length_le (by simpa using h)

theorem stateAt_append_left {a b : List (SectionState Exact)} {sec : Nat} (h : sec < a.length) :
    stateAt (a ++ b) sec = stateAt a sec := by
  simp [stateAt, List.getD_eq_getElem?_getD, List.getElem?_append_left h]

theorem stateAt_append_right {a b : List (SectionState Exact)} {sec : Nat} (h : a.length ≤ sec) :
    stateAt (a ++ b) sec = stateAt b (sec - a.length) := by
  simp [stateAt, List.getD_eq_getElem?_getD, List.getElem?_append_right h]

theorem stateAt_take {a : List (SectionState Exact)} {n sec : Nat} (h : sec < n) : stateAt (a.take n) sec = stateAt a sec := by
  simp [stateAt, List.getD_eq_getElem?_getD, h]

theorem stateAt_drop (a : List (SectionState Exact)) (n sec : Nat) : stateAt (a.drop n) sec = stateAt a (n + sec) := by
  simp [stateAt, List.getD_eq_getElem?_getD]

/-- A section's state scaled by the frame's first sample (R147). -/
theorem stateAt_map_scaleState (a : List (SectionState Exact)) (u : Exact) (sec : Nat) :
    stateAt (a.map (scaleState exactArith u)) sec = ((stateAt a sec).1 * u.val, (stateAt a sec).2 * u.val) := by
  rcases lt_or_ge sec a.length with h | h
  · simp [stateAt, scaleState, List.getD_eq_getElem?_getD, List.getElem?_eq_getElem h]
  · rw [stateAt_of_length_le h, stateAt_of_length_le (by simpa using h)]
    simp

/-- Section `sec` of a cascade, and the null section past its end. -/
def biquadAt (cs : List (Biquad Exact)) (sec : Nat) : Biquad Exact :=
  cs.getD sec ⟨.rat 0, .rat 0, .rat 0, .rat 0, .rat 0⟩

/-- The sections that run are the first coefficient sets as numbers (R49, R52). -/
theorem biquadAt_biquads {s : State} {sec : Nat} (h : sec < s.cfg.sections) (hl : sec < s.cfg.coef.length) :
    biquadAt (s.biquads exactArith) sec = biquad exactArith (s.cfg.coef.getD sec Section.zero) := by
  simp [biquadAt, State.biquads, List.getD_eq_getElem?_getD, List.getElem?_take_of_lt h, List.getElem?_eq_getElem hl]

/-- The gain of a section for a constant input, as a real number (R142). -/
theorem dcGain_val (c : Biquad Exact) :
    (dcGain exactArith c).val = (c.b0.val + c.b1.val + c.b2.val) / (1 + c.a1.val + c.a2.val) := by
  simp [dcGain]

/-- Section `sec` of the resting states: its input is the product of the gains before it times u (R142). -/
theorem stateAt_restStates (cs : List (Biquad Exact)) (u : Exact) {sec : Nat} (h : sec < cs.length) :
    stateAt (restStates exactArith cs u) sec =
      let c := biquadAt cs sec
      let w := (∏ r ∈ Finset.range sec, (dcGain exactArith (biquadAt cs r)).val) * u.val
      (w * (c.b1.val + c.b2.val - (c.a1.val + c.a2.val) * (dcGain exactArith c).val), w * (c.b2.val - c.a2.val * (dcGain exactArith c).val)) := by
  induction cs generalizing u sec with
  | nil => simp at h
  | cons c cs ih =>
    cases sec with
    | zero => simp [restStates, restState, biquadAt]
    | succ sec =>
      have := ih (exactArith.mul (dcGain exactArith c) u) (sec := sec) (by simpa using h)
      rw [restStates, stateAt_cons_succ, this, Finset.prod_range_succ']
      simp only [exactArith_val_mul, biquadAt, List.getD_cons_succ, List.getD_cons_zero]
      simp only [mul_assoc]

/-- One sample through the cascade: x k is the sample that enters section k (R145, R146). -/
theorem cascadeStep_val {cs : List (Biquad Exact)} {zs : List (SectionState Exact)} (h : cs.length = zs.length) (v : Exact) :
    ∃ x : ℕ → ℝ, x 0 = v.val ∧ (cascadeStep exactArith cs zs v).1.val = x cs.length ∧
      ∀ k < cs.length,
        x (k + 1) = (biquadAt cs k).b0.val * x k + (stateAt zs k).1 ∧
        stateAt (cascadeStep exactArith cs zs v).2 k =
          ((biquadAt cs k).b1.val * x k - (biquadAt cs k).a1.val * x (k + 1) + (stateAt zs k).2,
           (biquadAt cs k).b2.val * x k - (biquadAt cs k).a2.val * x (k + 1)) := by
  induction cs generalizing zs v with
  | nil => exact ⟨fun _ => v.val, rfl, rfl, by simp⟩
  | cons c cs ih =>
    cases zs with
    | nil => simp at h
    | cons z zs =>
      obtain ⟨x, h0, h1, h2⟩ := ih (zs := zs) (by simpa using h) (filterStep exactArith c z v).1
      refine ⟨fun n => Nat.casesOn n v.val x, rfl, by simpa [cascadeStep] using h1, fun k hk => ?_⟩
      cases k with
      | zero =>
        refine ⟨by simp [h0, biquadAt, filterStep], ?_⟩
        simp [cascadeStep, h0, biquadAt, filterStep]
      | succ k => simpa [cascadeStep, biquadAt] using h2 k (by simpa using hk)

/-- A frame through the cascade: v n k is the sample that enters section k at time n, z n k that section's state before time
n (R145, R146). -/
theorem cascadeRun_val {cs : List (Biquad Exact)} {zs : List (SectionState Exact)} (h : cs.length = zs.length) (vs : List Exact) :
    ∃ (v : ℕ → ℕ → ℝ) (z : ℕ → ℕ → ℝ × ℝ), (∀ k, z 0 k = stateAt zs k) ∧
      (∀ n < vs.length, v n 0 = valAt vs n ∧ valAt (cascadeRun exactArith cs zs vs).1 n = v n cs.length ∧
        ∀ k < cs.length,
          v n (k + 1) = (biquadAt cs k).b0.val * v n k + (z n k).1 ∧
          z (n + 1) k =
            ((biquadAt cs k).b1.val * v n k - (biquadAt cs k).a1.val * v n (k + 1) + (z n k).2,
             (biquadAt cs k).b2.val * v n k - (biquadAt cs k).a2.val * v n (k + 1))) ∧
      ∀ k, stateAt (cascadeRun exactArith cs zs vs).2 k = z vs.length k := by
  induction vs generalizing zs with
  | nil => exact ⟨fun _ _ => 0, fun _ => stateAt zs, fun _ => rfl, by simp, fun _ => rfl⟩
  | cons w vs ih =>
    obtain ⟨x, h0, h1, h2⟩ := cascadeStep_val h w
    obtain ⟨v, z, hz, hv, he⟩ := ih (zs := (cascadeStep exactArith cs zs w).2) (by simpa using h)
    refine ⟨fun n => Nat.casesOn n x v, fun n => Nat.casesOn n (stateAt zs) z, fun _ => rfl, fun n hn => ?_, fun k => ?_⟩
    · cases n with
      | zero => exact ⟨h0, h1, fun k hk => ⟨(h2 k hk).1, by simpa [hz] using (h2 k hk).2⟩⟩
      | succ n => exact hv n (by simpa using hn)
    · exact he k

end Sys2Proof.Machine
end

