-- ==== Sys2Proof/Laws/Flags.lean ====
section
/-! SUPPORT. The bits of STATUS, and the value of CAP. -/

namespace Sys2Proof.Machine

open Generic

/-- Bit n of the STATUS word (R34). -/
theorem status_getLsbD (s : State) (n : Nat) : s.status.getLsbD n =
    match n with
    | 0 => s.mode.flag
    | 1 => s.gainValid
    | 2 => s.outValid
    | 3 => s.hpfEn
    | 4 => s.hpfPrimed
    | 5 => s.err
    | 6 => s.errs
    | _ => false := by
  have key : ∀ (a b c d e f g : Bool) (n : Nat),
      ((0 : BitVec 25) ++ BitVec.ofBool g ++ BitVec.ofBool f ++ BitVec.ofBool e ++ BitVec.ofBool d ++ BitVec.ofBool c ++
        BitVec.ofBool b ++ BitVec.ofBool a).getLsbD n =
      match n with
      | 0 => a
      | 1 => b
      | 2 => c
      | 3 => d
      | 4 => e
      | 5 => f
      | 6 => g
      | _ => false := by
    intro a b c d e f g n
    have small : ∀ n < 32, ((0 : BitVec 25) ++ BitVec.ofBool g ++ BitVec.ofBool f ++ BitVec.ofBool e ++ BitVec.ofBool d ++
        BitVec.ofBool c ++ BitVec.ofBool b ++ BitVec.ofBool a).getLsbD n =
        match n with
        | 0 => a
        | 1 => b
        | 2 => c
        | 3 => d
        | 4 => e
        | 5 => f
        | 6 => g
        | _ => false := by
      revert a b c d e f g
      decide
    rcases Nat.lt_or_ge n 32 with h | h
    · exact small n h
    · rw [BitVec.getLsbD_of_ge _ _ h]
      match n, h with
      | n + 7, _ => rfl
  exact key _ _ _ _ _ _ _ n

/-- STATUS depends on the mode and the flags alone. -/
theorem status_of_flags {s t : State} (hm : t.mode = s.mode) (h1 : t.gainValid = s.gainValid) (h2 : t.outValid = s.outValid)
    (h3 : t.hpfEn = s.hpfEn) (h4 : t.hpfPrimed = s.hpfPrimed) (h5 : t.err = s.err) (h6 : t.errs = s.errs) :
    t.status = s.status := by
  unfold State.status
  rw [hm, h1, h2, h3, h4, h5, h6]

/-- CAP as a number (R41). -/
theorem capWord_toNat {ν : Type} {positive : ν → Prop} {b : Build ν} (h : b.Allowed positive) :
    (capWord b).toNat = b.nmax + 2 ^ 16 * b.smax + 2 ^ 20 * (if b.hpfReinit then 1 else 0) := by
  obtain ⟨-, hn, -, -, hs, -⟩ := h
  have e : capWord b = (0 : BitVec 11) ++ (BitVec.ofBool b.hpfReinit ++ (BitVec.ofNat 4 b.smax ++ BitVec.ofNat 16 b.nmax)) := by
    unfold capWord
    apply BitVec.eq_of_getElem_eq
    intro i hi
    grind
  have l1 : (BitVec.ofNat 16 b.nmax).toNat = b.nmax := by rw [BitVec.toNat_ofNat]; omega
  have l2 : (BitVec.ofNat 4 b.smax).toNat = b.smax := by rw [BitVec.toNat_ofNat]; omega
  have a1 : (BitVec.ofNat 4 b.smax ++ BitVec.ofNat 16 b.nmax).toNat = b.nmax + 2 ^ 16 * b.smax := by
    rw [BitVec.toNat_append, l1, l2, ← Nat.shiftLeft_add_eq_or_of_lt (by omega), Nat.shiftLeft_eq]
    omega
  have a2 : (BitVec.ofBool b.hpfReinit ++ (BitVec.ofNat 4 b.smax ++ BitVec.ofNat 16 b.nmax)).toNat =
      b.nmax + 2 ^ 16 * b.smax + 2 ^ 20 * (if b.hpfReinit then 1 else 0) := by
    rw [BitVec.toNat_append, a1, ← Nat.shiftLeft_add_eq_or_of_lt (by omega), Nat.shiftLeft_eq]
    cases b.hpfReinit <;> simp <;> omega
  rw [e, BitVec.toNat_append, a2]
  simp

end Sys2Proof.Machine
end

