-- ==== Sys2Proof/Laws/Lengths.lean ====
section
/-! SUPPORT. The lengths of the arrays after the micro-operations of CALIBRATE and of PROCESS (R56 to R60, R76), and the
working vectors that the later ones read. -/

namespace Sys2Proof.Machine

open Generic

@[simp] theorem spectrum_length (s : State) : (s.spectrum exactArith).length = s.K := exactArith_rdft_length _ _

theorem calibrated_tail_length {s : State} {c : List Exact} (hc : s.chunk exactArith = .ok c) (hN : s.N % 2 = 0) :
    (calibrated exactArith c s).tail.length = s.N - s.H := by
  rw [calibrated_tail, frameBuild_tail, List.length_drop, (chunk_ok hc).1]
  unfold State.H
  omega

theorem calibrated_noise_length (c : List Exact) (s : State) :
    (calibrated exactArith c s).noise.length = min s.noise.length s.K := by
  rw [calibrated_noise, noiseUpdate_noise, List.length_zipWith, analyze_noise, hpf_noise, frameBuild_noise]
  congr 1
  rw [analyze_work, List.length_map, spectrum_length]
  rfl

/-- HPF keeps the number of sections held in HPZ (R60, R149). -/
theorem hpf_hpz_length {s : State} (h : s.hpfEn = true → s.cfg.sections ≤ s.hpz.length)
    (h' : s.hpfEn = true → s.cfg.sections ≤ s.hpzi.length) : (hpf exactArith s).hpz.length = s.hpz.length := by
  rw [hpf_hpz]
  split
  · rename_i he
    rw [List.length_append, (filtered_length s).2, initialStates_length, List.length_drop]
    have := h he
    have := h' he
    split <;> omega
  · rfl

theorem calibrated_hpz_length {s : State} (c : List Exact) (h : s.hpfEn = true → s.cfg.sections ≤ s.hpz.length)
    (h' : s.hpfEn = true → s.cfg.sections ≤ s.hpzi.length) : (calibrated exactArith c s).hpz.length = s.hpz.length :=
  hpf_hpz_length (s := frameBuild c s) h h'

/-- MAG and PHS have K elements when GAIN and SYNTH read them (R185). -/
theorem calibrated_mag_length (c : List Exact) (s : State) : (calibrated exactArith c s).work.mag.length = s.K := by
  unfold calibrated
  rw [noiseUpdate_work, analyze_work, List.length_map, spectrum_length]
  rfl

theorem calibrated_phs_length (c : List Exact) (s : State) : (calibrated exactArith c s).work.phs.length = s.K := by
  unfold calibrated
  rw [noiseUpdate_work, analyze_work, List.length_map, spectrum_length]
  rfl

/-- The gain vector's length, from those of what GAIN reads (R211). -/
theorem gainVector_length {s : State} {n : Nat} (hm : s.work.mag.length = n) (hn : s.noise.length = n)
    (hp : s.gainValid = true → s.pgain.length = n) : (s.gainVector exactArith).length = n := by
  unfold State.gainVector State.ginstVector State.cleanVector
  split
  · rename_i hv
    simp [hm, hn, hp hv]
  · simp [hm, hn]

theorem processed_pgain_length {s : State} (c : List Exact) (hn : s.noise.length = s.K)
    (hp : s.gainValid = true → s.pgain.length = s.K) : (processed exactArith c s).pgain.length = s.K := by
  rw [processed_pgain, gain_pgain]
  refine gainVector_length (calibrated_mag_length c s) ?_ fun hv => ?_
  · rw [calibrated_noise_length, hn, min_self]
  · rw [calibrated_pgain]
    exact hp (by simpa using hv)

theorem processed_out_length {s : State} (c : List Exact) (ho : s.ola.length = s.N) : (processed exactArith c s).out.length = s.H := by
  rw [processed_out, List.length_take, ho]
  exact min_eq_left (Nat.div_le_self _ _)

theorem processed_ola_length {s : State} (c : List Exact) (ho : s.ola.length = s.N) (hw : s.win.length = s.N) :
    (processed exactArith c s).ola.length = s.N := by
  rw [processed_ola, olaEmit_ola, List.length_zipWith, synth_work, synth_ola, gain_ola, calibrated_ola,
    shiftOla_length (by rw [ho]; exact Nat.div_le_self _ _), ho, List.length_zipWith, exactArith_irdft_length, gain_win, calibrated_win,
    hw, gain_N, calibrated_N]
  simp

end Sys2Proof.Machine
end

