-- ==== Sys2Proof/Laws/PerInstr.lean ====
section
/-! SUPPORT. Families of statements with one lemma per instruction. EncodedFormat: an instruction is encoded in its own
format (R100, R105, R106). -/

namespace Sys2Proof.Laws.EncodedFormat

/-- The encoding of an instruction is written in the format of its row of the opcode table. -/
def Statement (i : Instr) : Prop := (encode i).format = i.format

theorem nop : Statement .nop := rfl

theorem configure : Statement .configure := rfl

theorem calibrate (len : BitVec 16) : Statement (.calibrate len) := rfl

theorem process (len : BitVec 16) : Statement (.process len) := rfl

theorem destroy : Statement .destroy := rfl

theorem rd (addr : Addr) : Statement (.rd addr) := rfl

theorem wr (addr : Addr) (data : Word) : Statement (.wr addr data) := rfl

theorem wingen : Statement .wingen := rfl

theorem hpfSetup : Statement .hpfSetup := rfl

theorem frameBuild : Statement .frameBuild := rfl

theorem hpf : Statement .hpf := rfl

theorem analyze : Statement .analyze := rfl

theorem noiseUpdate : Statement .noiseUpdate := rfl

theorem gain : Statement .gain := rfl

theorem synth : Statement .synth := rfl

theorem olaEmit : Statement .olaEmit := rfl

end Sys2Proof.Laws.EncodedFormat
end

