-- ==== Sys2Proof/Laws/Rounding.lean ====
section
/-! SUPPORT. What the container of R81 depends on: it is the same for all the numbers between two with one container
(`IsContainerOf.between`), the same for all the numbers between two neighbouring multiples of 2^-150
(`IsContainerOf.inside`), and there is one at most (`IsContainerOf.unique`). -/

namespace Sys2Proof.Machine

/-! ## The finite containers in the order of their sizes -/

/-- The size of the number of a container whose low 31 bits are m, as a multiple of 2^-149. -/
def gridSize (m : ℕ) : ℕ := if m < 2 ^ 23 then m else (2 ^ 23 + m % 2 ^ 23) * 2 ^ (m / 2 ^ 23 - 1)

theorem gridSize_step (m : ℕ) : gridSize m < gridSize (m + 1) := by
  unfold gridSize
  split_ifs with h h' h'
  · omega
  · have : m + 1 = 2 ^ 23 := by omega
    rw [this]; norm_num; omega
  · omega
  · rcases Nat.lt_or_ge (m % 2 ^ 23 + 1) (2 ^ 23) with hf | hf
    · have h1 : (m + 1) / 2 ^ 23 = m / 2 ^ 23 := by omega
      have h2 : (m + 1) % 2 ^ 23 = m % 2 ^ 23 + 1 := by omega
      rw [h1, h2]
      exact Nat.mul_lt_mul_of_pos_right (by omega) (by positivity)
    · have h1 : (m + 1) / 2 ^ 23 = m / 2 ^ 23 - 1 + 1 + 1 := by omega
      have h2 : (m + 1) % 2 ^ 23 = 0 := by omega
      have h3 : m % 2 ^ 23 = 2 ^ 23 - 1 := by omega
      rw [h1, h2, h3, Nat.add_sub_cancel, pow_succ 2 (m / 2 ^ 23 - 1)]
      have : 0 < 2 ^ (m / 2 ^ 23 - 1) := by positivity
      generalize 2 ^ (m / 2 ^ 23 - 1) = x at this ⊢
      omega

theorem gridSize_strictMono : StrictMono gridSize := strictMono_nat_of_lt_succ gridSize_step

theorem containerSize_grid (m : ℕ) : containerSize (m / 2 ^ 23) (m % 2 ^ 23) * 2 ^ 149 = gridSize m := by
  unfold containerSize gridSize scaleTwo
  by_cases h : m < 2 ^ 23
  · have h0 : m / 2 ^ 23 = 0 := by omega
    have h1 : m % 2 ^ 23 = m := by omega
    rw [if_pos h0, if_pos h, h1, if_neg (by norm_num)]
    have e : (-(-149 : ℤ)).toNat = 149 := rfl
    rw [e]
    norm_num
  · rw [if_neg (by omega), if_neg h]
    split
    · have e : m / 2 ^ 23 - 1 = (((m / 2 ^ 23 : ℕ) : ℤ) - 150).toNat + 149 := by omega
      rw [e, pow_add]; push_cast; ring
    · have e : 149 = (-(((m / 2 ^ 23 : ℕ) : ℤ) - 150)).toNat + (m / 2 ^ 23 - 1) := by omega
      have e2 : (2 : ℚ) ^ 149 = 2 ^ (-(((m / 2 ^ 23 : ℕ) : ℤ) - 150)).toNat * 2 ^ (m / 2 ^ 23 - 1) := by
        rw [← pow_add, ← e]
      rw [e2]; push_cast; field_simp

/-- The low 31 bits of a container. -/
def lowBits (w : Word) : ℕ := w.toNat % 2 ^ 31

theorem exponentField_eq (w : Word) : exponentField w = lowBits w / 2 ^ 23 := by
  unfold exponentField lowBits
  rw [BitVec.extractLsb'_toNat, Nat.shiftRight_eq_div_pow]
  omega

theorem fractionField_eq (w : Word) : fractionField w = lowBits w % 2 ^ 23 := by
  unfold fractionField lowBits
  rw [BitVec.extractLsb'_toNat, Nat.shiftRight_eq_div_pow]
  omega

theorem signBit_eq (w : Word) : signBit w = decide (2 ^ 31 ≤ w.toNat) := by
  unfold signBit
  have := w.isLt
  rw [BitVec.getLsbD, Nat.testBit_eq_decide_div_mod_eq]
  congr 1
  rw [eq_iff_iff]
  omega

/-- What a finite container decodes to, on the grid of the multiples of 2^-149. -/
theorem num?_grid {w : Word} {q : ℚ} (h : num? w = some q) :
    lowBits w < 255 * 2 ^ 23 ∧ q * 2 ^ 149 = if signBit w then -(gridSize (lowBits w) : ℚ) else gridSize (lowBits w) := by
  unfold num? at h
  split at h
  · cases h
  · rename_i hw
    rw [exponentField_eq] at hw
    have hlt : lowBits w < 2 ^ 31 := Nat.mod_lt _ (by norm_num)
    refine ⟨by omega, ?_⟩
    simp only at h
    obtain rfl := Option.some.inj h
    rw [exponentField_eq, fractionField_eq, ← containerSize_grid]
    split <;> ring

theorem num?_some_of {w : Word} (h : lowBits w < 255 * 2 ^ 23) : ∃ q, num? w = some q := by
  unfold num?
  rw [exponentField_eq, if_neg (by omega)]
  exact ⟨_, rfl⟩

theorem word_ext {w u : Word} (h : signBit w = signBit u) (k : lowBits w = lowBits u) : w = u := by
  rw [signBit_eq, signBit_eq, decide_eq_decide] at h
  unfold lowBits at k
  have := w.isLt
  have := u.isLt
  apply BitVec.eq_of_toNat_eq
  omega

/-- The grid point of a number that a container decodes to. -/
theorem num?_int {w : Word} {q : ℚ} (h : num? w = some q) : ∃ z : ℤ, (q : ℝ) * 2 ^ 149 = z := by
  have := (num?_grid h).2
  split at this
  · exact ⟨-gridSize (lowBits w), by push_cast; exact_mod_cast this⟩
  · exact ⟨gridSize (lowBits w), by push_cast; exact_mod_cast this⟩

/-- A number is as near to x as to y exactly when it lies on x's side of their middle. -/
theorem near_iff {v x y : ℝ} (h : x < y) : |v - x| ≤ |v - y| ↔ 2 * v ≤ x + y := by
  rw [← sq_le_sq]
  constructor <;> intro k <;> nlinarith

theorem near_iff' {v x y : ℝ} (h : y < x) : |v - x| ≤ |v - y| ↔ x + y ≤ 2 * v := by
  rw [← sq_le_sq]
  constructor <;> intro k <;> nlinarith

theorem abs_sub_eq_iff {v x y : ℝ} (h : x ≠ y) : |v - x| = |v - y| ↔ 2 * v = x + y := by
  rw [← sq_eq_sq_iff_abs_eq_abs]
  constructor
  · intro k
    have : (y - x) * (2 * v - (x + y)) = 0 := by linarith
    rcases mul_eq_zero.1 this with h' | h'
    · exact absurd (by linarith) h
    · linarith
  · intro k
    have : v = (x + y) / 2 := by linarith
    rw [this]; ring

/-! ## Numbers with one container -/

/-- The size from which a number's container is infinity. -/
theorem infinite_grid : ∃ z : ℤ, ((2 : ℝ) ^ 128 - 2 ^ 103) * 2 ^ 150 = z := ⟨(2 ^ 128 - 2 ^ 103) * 2 ^ 150, by norm_num⟩

theorem num?_infinite {v : ℝ} {w : Word} (hv : 2 ^ 128 - 2 ^ 103 ≤ |v|) (h : IsContainerOf v w) : num? w = none := by
  rw [IsContainerOf, if_pos hv] at h
  rw [h]
  split <;> decide

/-- Between two numbers with one container every number has it. -/
theorem IsContainerOf.between {u v x : ℝ} {w : Word} (hu : IsContainerOf u w) (hx : IsContainerOf x w) (h1 : u ≤ v)
    (h2 : v ≤ x) : IsContainerOf v w := by
  by_cases hU : 2 ^ 128 - 2 ^ 103 ≤ |u|
  · have hn := num?_infinite hU hu
    have hX : 2 ^ 128 - 2 ^ 103 ≤ |x| := by
      by_contra hX
      rw [IsContainerOf, if_neg hX] at hx
      obtain ⟨q, hq, -⟩ := hx
      rw [hn] at hq; cases hq
    rw [IsContainerOf, if_pos hU] at hu
    rw [IsContainerOf, if_pos hX] at hx
    by_cases su : u < 0
    · rw [if_pos su] at hu
      have sx : x < 0 := by
        by_contra sx
        rw [if_neg sx, hu] at hx
        exact absurd hx (by decide)
      have hV : 2 ^ 128 - 2 ^ 103 ≤ |v| := by
        rw [abs_of_neg sx] at hX
        rw [abs_of_neg (by linarith)]; linarith
      rw [IsContainerOf, if_pos hV, if_pos (by linarith)]
      exact hu
    · rw [if_neg su] at hu
      rw [not_lt] at su
      have hV : 2 ^ 128 - 2 ^ 103 ≤ |v| := by
        rw [abs_of_nonneg su] at hU
        rw [abs_of_nonneg (by linarith)]; linarith
      rw [IsContainerOf, if_pos hV, if_neg (by linarith)]
      exact hu
  · have hX : ¬2 ^ 128 - 2 ^ 103 ≤ |x| := by
      intro hX
      have hn := num?_infinite hX hx
      rw [IsContainerOf, if_neg hU] at hu
      obtain ⟨q, hq, -⟩ := hu
      rw [hn] at hq; cases hq
    have hV : ¬2 ^ 128 - 2 ^ 103 ≤ |v| := by
      rw [not_le] at *
      rw [abs_lt] at *
      constructor <;> linarith
    rw [IsContainerOf, if_neg hU] at hu
    rw [IsContainerOf, if_neg hX] at hx
    rw [IsContainerOf, if_neg hV]
    obtain ⟨q, hq, hu⟩ := hu
    obtain ⟨q2, hq2, hx⟩ := hx
    obtain rfl := Option.some.inj (hq.symm.trans hq2)
    refine ⟨q, hq, fun w' q' hw' => ?_⟩
    obtain ⟨a1, a2⟩ := hu w' q' hw'
    obtain ⟨b1, b2⟩ := hx w' q' hw'
    rcases lt_trichotomy (q : ℝ) q' with h | h | h
    · rw [near_iff h] at a1 b1 ⊢
      refine ⟨by linarith, fun e ne => b2 ?_ ne⟩
      rw [abs_sub_eq_iff h.ne] at e ⊢
      linarith
    · have : q' = q := by exact_mod_cast h.symm
      rw [h]
      exact ⟨le_rfl, fun _ ne => absurd this ne⟩
    · rw [near_iff' h] at a1 b1 ⊢
      refine ⟨by linarith, fun e ne => a2 ?_ ne⟩
      rw [abs_sub_eq_iff h.ne'] at e ⊢
      linarith

/-- The container is the same for all numbers strictly between two neighbouring multiples of 2^-150. -/
theorem IsContainerOf.inside {u v : ℝ} {w : Word} {k : ℤ} (hu : IsContainerOf u w) (u1 : (k : ℝ) < u * 2 ^ 150)
    (u2 : u * 2 ^ 150 < k + 1) (v1 : (k : ℝ) < v * 2 ^ 150) (v2 : v * 2 ^ 150 < k + 1) : IsContainerOf v w := by
  have hP : (0 : ℝ) < 2 ^ 150 := by positivity
  -- a multiple of 2^-150 lies on one side of both
  have side : ∀ (c : ℝ) (z : ℤ), c * 2 ^ 150 = z → (c ≤ u ↔ c ≤ v) ∧ (u ≤ c ↔ v ≤ c) ∧ u ≠ c ∧ v ≠ c := by
    intro c z hc
    have l : ∀ y : ℝ, (k : ℝ) < y * 2 ^ 150 → y * 2 ^ 150 < k + 1 → (c ≤ y ↔ z ≤ k) ∧ (y ≤ c ↔ k + 1 ≤ z) := by
      intro y y1 y2
      rw [← mul_le_mul_iff_left₀ hP, ← mul_le_mul_iff_left₀ hP (b := y), hc]
      constructor
      · constructor
        · intro h
          have : (z : ℝ) < (k + 1 : ℤ) := by push_cast; linarith
          have := Int.cast_lt.1 this
          omega
        · intro h
          have : (z : ℝ) ≤ k := by exact_mod_cast h
          linarith
      · constructor
        · intro h
          have : ((k : ℤ) : ℝ) < z := by linarith
          have := Int.cast_lt.1 this
          omega
        · intro h
          have : ((k + 1 : ℤ) : ℝ) ≤ z := by exact_mod_cast h
          push_cast at this
          linarith
    have lu := l u u1 u2
    have lv := l v v1 v2
    refine ⟨lu.1.trans lv.1.symm, lu.2.trans lv.2.symm, fun h => ?_, fun h => ?_⟩
    · have a := lu.1.1 h.ge; have b := lu.2.1 h.le; omega
    · have a := lv.1.1 h.ge; have b := lv.2.1 h.le; omega
  obtain ⟨z, hz⟩ := infinite_grid
  have t1 := side _ z hz
  have t2 := side (-(2 ^ 128 - 2 ^ 103)) (-z) (by push_cast; linarith)
  have t0 := side 0 0 (by simp)
  have hlarge : 2 ^ 128 - 2 ^ 103 ≤ |u| ↔ 2 ^ 128 - 2 ^ 103 ≤ |v| := by
    rw [le_abs, le_abs, t1.1, le_neg, t2.2.1, ← le_neg]
  have hneg : u < 0 ↔ v < 0 := by rw [← not_le, ← not_le, t0.1]
  unfold IsContainerOf at hu ⊢
  by_cases h : 2 ^ 128 - 2 ^ 103 ≤ |u|
  · rw [if_pos h] at hu
    rw [if_pos (hlarge.1 h), hu]
    by_cases s : u < 0
    · rw [if_pos s, if_pos (hneg.1 s)]
    · rw [if_neg s, if_neg (fun h => s (hneg.2 h))]
  · rw [if_neg h] at hu
    rw [if_neg (fun k => h (hlarge.2 k))]
    obtain ⟨q, hq, hu⟩ := hu
    refine ⟨q, hq, fun w' q' hw' => ?_⟩
    obtain ⟨a1, a2⟩ := hu w' q' hw'
    obtain ⟨i, hi⟩ := num?_int hq
    obtain ⟨j, hj⟩ := num?_int hw'
    have m := side (((q : ℝ) + q') / 2) (i + j) (by
      push_cast
      rw [← hi, ← hj]
      have : (2 : ℝ) ^ 150 = 2 ^ 149 * 2 := by norm_num
      rw [this]; ring)
    rcases lt_trichotomy (q : ℝ) q' with h | h | h
    · rw [near_iff h] at a1 ⊢
      refine ⟨by have := m.2.1.1 (by linarith); linarith, fun e _ => ?_⟩
      rw [abs_sub_eq_iff h.ne] at e
      exact absurd (by linarith : v = ((q : ℝ) + q') / 2) m.2.2.2
    · have : q' = q := by exact_mod_cast h.symm
      rw [h]
      exact ⟨le_rfl, fun _ ne => absurd this ne⟩
    · rw [near_iff' h] at a1 ⊢
      refine ⟨by have := m.1.1 (by linarith); linarith, fun e _ => ?_⟩
      rw [abs_sub_eq_iff h.ne'] at e
      exact absurd (by linarith : v = ((q : ℝ) + q') / 2) m.2.2.2

/-! ## One container for one number -/

theorem lowBits_lt (w : Word) : lowBits w < 2 ^ 31 := Nat.mod_lt _ (by norm_num)

/-- A container with given low bits, of either sign. -/
theorem exists_container {m : ℕ} (h : m < 255 * 2 ^ 23) (n : Bool) :
    ∃ (w : Word) (q : ℚ), num? w = some q ∧ (q : ℝ) * 2 ^ 149 = if n then -(gridSize m : ℝ) else gridSize m := by
  have hw : ∃ w : Word, lowBits w = m ∧ signBit w = n := by
    refine ⟨BitVec.ofNat 32 (m + if n then 2 ^ 31 else 0), ?_, ?_⟩
    · unfold lowBits; rw [BitVec.toNat_ofNat]; split <;> omega
    · rw [signBit_eq, BitVec.toNat_ofNat]
      cases n
      · simp; omega
      · simp; omega
  obtain ⟨w, hl, hs⟩ := hw
  obtain ⟨q, hq⟩ := num?_some_of (w := w) (by omega)
  refine ⟨w, q, hq, ?_⟩
  have := (num?_grid hq).2
  rw [hl, hs] at this
  cases n
  · simpa using (by exact_mod_cast this : (q : ℝ) * 2 ^ 149 = gridSize m)
  · simp only [if_true] at this ⊢
    exact_mod_cast this

/-- Two even containers whose numbers differ have another container's number between them. -/
theorem exists_between {w w' : Word} {q q' : ℚ} (hq : num? w = some q) (hq' : num? w' = some q') (hz : w ≠ 0x80000000)
    (he : fractionField w % 2 = 0) (he' : fractionField w' % 2 = 0) (hlt : q < q') :
    ∃ (u : Word) (c : ℚ), num? u = some c ∧ q < c ∧ c < q' := by
  obtain ⟨l, g⟩ := num?_grid hq
  obtain ⟨l', g'⟩ := num?_grid hq'
  rw [fractionField_eq] at he he'
  have hP : (0 : ℝ) < 2 ^ 149 := by positivity
  have hPq : (0 : ℚ) < 2 ^ 149 := by positivity
  have close : ∀ (m : ℕ) (n : Bool), m < 255 * 2 ^ 23 →
      q * 2 ^ 149 < (if n then -(gridSize m : ℚ) else gridSize m) → (if n then -(gridSize m : ℚ) else gridSize m) < q' * 2 ^ 149 →
      ∃ (u : Word) (c : ℚ), num? u = some c ∧ q < c ∧ c < q' := by
    intro m n hm h1 h2
    obtain ⟨u, c, hu, hc⟩ := exists_container hm n
    have hc' : c * 2 ^ 149 = if n then -(gridSize m : ℚ) else gridSize m := by
      cases n
      · simp only [Bool.false_eq_true, if_false] at hc ⊢; exact_mod_cast hc
      · simp only [if_true] at hc ⊢; exact_mod_cast hc
    rw [← hc'] at h1 h2
    exact ⟨u, c, hu, lt_of_mul_lt_mul_right h1 hPq.le, lt_of_mul_lt_mul_right h2 hPq.le⟩
  have hlt' := mul_lt_mul_of_pos_right hlt hPq
  rw [g, g'] at hlt'
  rw [g, g'] at close
  cases s : signBit w <;> cases s' : signBit w' <;>
    simp only [s, s', Bool.false_eq_true, if_true, if_false] at hlt' close
  · have hm := gridSize_strictMono.lt_iff_lt.1 (by exact_mod_cast hlt' : gridSize (lowBits w) < gridSize (lowBits w'))
    refine close (lowBits w + 1) false (by omega) ?_ ?_
    · have := gridSize_strictMono (Nat.lt_succ_self (lowBits w))
      simpa using this
    · have := gridSize_strictMono (show lowBits w + 1 < lowBits w' by omega)
      simpa using this
  · have h1 : (0 : ℚ) ≤ gridSize (lowBits w) := by positivity
    have h2 : (0 : ℚ) ≤ gridSize (lowBits w') := by positivity
    linarith
  · have hpos : 0 < lowBits w := by
      by_contra h0
      apply hz
      apply word_ext
      · rw [s]; decide
      · have : lowBits w = 0 := by omega
        rw [this]; decide
    rcases Nat.eq_zero_or_pos (lowBits w') with h0 | h0
    · refine close 1 true (by norm_num) ?_ ?_
      · simp only [if_true]
        have := gridSize_strictMono (show 1 < lowBits w by omega)
        have : (gridSize 1 : ℚ) < gridSize (lowBits w) := by exact_mod_cast this
        linarith
      · rw [h0]; simp [gridSize]
    · refine close 0 false (by norm_num) ?_ ?_
      · have := gridSize_strictMono hpos
        have h3 : (0 : ℚ) < gridSize (lowBits w) := by exact_mod_cast (by simpa [gridSize] using this)
        simpa [gridSize] using h3
      · have := gridSize_strictMono h0
        have h3 : (0 : ℚ) < gridSize (lowBits w') := by exact_mod_cast (by simpa [gridSize] using this)
        simpa [gridSize] using h3
  · have hm := gridSize_strictMono.lt_iff_lt.1
      (by exact_mod_cast (by linarith : (gridSize (lowBits w') : ℚ) < gridSize (lowBits w)) : gridSize (lowBits w') < gridSize (lowBits w))
    refine close (lowBits w' + 1) true (by omega) ?_ ?_
    · have : (gridSize (lowBits w' + 1) : ℚ) < gridSize (lowBits w) := by exact_mod_cast gridSize_strictMono (by omega)
      simp only [if_true]
      linarith
    · have : (gridSize (lowBits w') : ℚ) < gridSize (lowBits w' + 1) := by exact_mod_cast gridSize_strictMono (Nat.lt_succ_self _)
      simp only [if_true]
      linarith

theorem not_both_nearest {v : ℝ} {w w' : Word} {q q' : ℚ} (hq : num? w = some q) (hq' : num? w' = some q')
    (hz : w ≠ 0x80000000) (hlt : q < q')
    (h : ∀ (u : Word) (c : ℚ), num? u = some c → |v - q| ≤ |v - c| ∧ (|v - q| = |v - c| → c ≠ q → fractionField w % 2 = 0))
    (h' : ∀ (u : Word) (c : ℚ), num? u = some c → |v - q'| ≤ |v - c| ∧ (|v - q'| = |v - c| → c ≠ q' → fractionField w' % 2 = 0)) :
    False := by
  have e : |v - q| = |v - q'| := le_antisymm (h w' q' hq').1 (h' w q hq).1
  obtain ⟨u, c, hu, c1, c2⟩ := exists_between hq hq' hz ((h w' q' hq').2 e hlt.ne') ((h' w q hq).2 e.symm hlt.ne) hlt
  have c1' : (q : ℝ) < c := by exact_mod_cast c1
  have c2' : (c : ℝ) < q' := by exact_mod_cast c2
  rw [abs_sub_eq_iff (by linarith : (q : ℝ) < q').ne] at e
  have := (near_iff c1').1 (h u c hu).1
  linarith

/-- A number has one container, but for the two zeros. -/
theorem IsContainerOf.unique {v : ℝ} {w w' : Word} (h : IsContainerOf v w) (h' : IsContainerOf v w') (hz : w ≠ 0x80000000)
    (hz' : w' ≠ 0x80000000) : w = w' := by
  unfold IsContainerOf at h h'
  split at h
  · rename_i hv
    rw [if_pos hv] at h'
    rw [h, h']
  · rename_i hv
    rw [if_neg hv] at h'
    obtain ⟨q, hq, h⟩ := h
    obtain ⟨q', hq', h'⟩ := h'
    rcases lt_trichotomy q q' with hlt | rfl | hlt
    · exact (not_both_nearest hq hq' hz hlt h h').elim
    · obtain ⟨-, g⟩ := num?_grid hq
      obtain ⟨-, g'⟩ := num?_grid hq'
      rw [g] at g'
      have zero : ∀ {u : Word}, signBit u = true → gridSize (lowBits u) = 0 → u = 0x80000000 := by
        intro u hs hg
        apply word_ext
        · rw [hs]; decide
        · have : lowBits u = 0 := by
            by_contra h0
            have := gridSize_strictMono (Nat.pos_of_ne_zero h0)
            omega
          rw [this]; decide
      cases s : signBit w <;> cases s' : signBit w' <;> simp only [s, s', Bool.false_eq_true, if_true, if_false] at g'
      · exact word_ext (s.trans s'.symm) (gridSize_strictMono.injective (by exact_mod_cast g'))
      · have h1 : (0 : ℚ) ≤ gridSize (lowBits w) := by positivity
        have h2 : (gridSize (lowBits w') : ℚ) = 0 := by
          have : (0 : ℚ) ≤ gridSize (lowBits w') := by positivity
          linarith
        exact (hz' (zero s' (by exact_mod_cast h2))).elim
      · have h1 : (0 : ℚ) ≤ gridSize (lowBits w') := by positivity
        have h2 : (gridSize (lowBits w) : ℚ) = 0 := by
          have : (0 : ℚ) ≤ gridSize (lowBits w) := by positivity
          linarith
        exact (hz (zero s (by exact_mod_cast h2))).elim
      · exact word_ext (s.trans s'.symm) (gridSize_strictMono.injective (by
          have : (gridSize (lowBits w) : ℚ) = gridSize (lowBits w') := by linarith
          exact_mod_cast this))
    · exact (not_both_nearest hq' hq hz' hlt h' h).elim

/-! ## The container of a number that no enclosure settles -/

/-- The point that `wordBetween` rounds lies strictly between the same two multiples of 2^-150 as the number, or is it. -/
theorem Exact.between_spec (a : Exact) :
    let m := shrink 10 (a.approx.scaled 160)
    let s := (Exact.diff a (.rat (mkRat m (2 ^ 150)))).sign
    (s = 0 ∧ a.val = ((mkRat (2 * m + s) (2 ^ 151) : ℚ) : ℝ)) ∨
    ∃ k : ℤ, (k : ℝ) < a.val * 2 ^ 150 ∧ a.val * 2 ^ 150 < k + 1 ∧
      (k : ℝ) < ((mkRat (2 * m + s) (2 ^ 151) : ℚ) : ℝ) * 2 ^ 150 ∧ ((mkRat (2 * m + s) (2 ^ 151) : ℚ) : ℝ) * 2 ^ 150 < k + 1 := by
  intro m s
  have hr : ∀ (z : ℤ) (n : ℕ), ((mkRat z (2 ^ n) : ℚ) : ℝ) = (z : ℝ) / 2 ^ n := by
    intro z n; rw [Rat.mkRat_eq_div]; push_cast; rfl
  have hm : |a.val * 2 ^ 150 - m| < 1 := by
    have h := a.approx_of.near 160
    have e : (2 : ℝ) ^ 160 = 2 ^ 150 * 2 ^ 10 := by norm_num
    rw [e, ← mul_assoc] at h
    refine lt_of_le_of_lt (shrink_near h) (by norm_num)
  have hs : s = SignType.sign (a.val - (m : ℝ) / 2 ^ 150) := by
    have := Exact.sign_eq (Exact.diff a (.rat (mkRat m (2 ^ 150))))
    rw [Exact.val, Exact.val, hr] at this
    exact this
  obtain ⟨h1, h2⟩ := abs_lt.1 hm
  have hP : (0 : ℝ) < 2 ^ 150 := by positivity
  have e151 : (2 : ℝ) ^ 151 = 2 ^ 150 * 2 := by norm_num
  rw [hr, e151]
  clear_value m s
  push_cast
  rcases lt_trichotomy (a.val - (m : ℝ) / 2 ^ 150) 0 with h | h | h
  · rw [sign_neg h] at hs
    right
    have hlt : a.val * 2 ^ 150 < m := by
      have := mul_lt_mul_of_pos_right h hP
      rw [sub_mul, div_mul_cancel₀ _ hP.ne', zero_mul] at this
      linarith
    refine ⟨m - 1, ?_, ?_, ?_, ?_⟩
    · push_cast; linarith
    · push_cast; linarith
    · rw [hs]; push_cast; field_simp; simp; linarith
    · rw [hs]; push_cast; field_simp; simp
  · rw [h, sign_zero] at hs
    left
    refine ⟨hs, ?_⟩
    rw [hs]; push_cast
    have : a.val = m / 2 ^ 150 := by linarith
    rw [this]; field_simp; norm_num
  · rw [sign_pos h] at hs
    right
    have hlt : m < a.val * 2 ^ 150 := by
      have := mul_lt_mul_of_pos_right h hP
      rw [sub_mul, div_mul_cancel₀ _ hP.ne', zero_mul] at this
      linarith
    refine ⟨m, hlt, by linarith, ?_, ?_⟩
    · rw [hs]; push_cast; field_simp; simp
    · rw [hs]; push_cast; field_simp; simp; linarith


end Sys2Proof.Machine
end

