-- ==== Sys2Proof/Laws/Step.lean ====
section
/-! SUPPORT. Everything a step can do. -/

namespace Sys2Proof.Machine

open Generic

/-- Everything a host event can do to a state, from which it has been taken (R70, R245, R246). -/
inductive Effect (s : State) : HostEvent → State → Prop where
  | read (addr : Addr) (size : Nat) (r : Response) : Effect s (.read addr size) { s with response := r }
  | error (addr : Addr) (size : Nat) (data : Word) (hn : ¬(addr = 0x8 ∧ size = 4)) :
      Effect s (.write addr size data) { s with response := .err }
  | raise (w : Word) (e : ErrorCode) (info : Word) : Effect s (.write 0x8 4 w) (s.raise e info)
  | nop : Effect s (.write 0x8 4 0x00000000) s.succeed
  | configure (hm : s.mode = .unconfigured) (hf : s.configFailure exactArith = none) :
      Effect s (.write 0x8 4 0x00000001) (construct exactArith (hpfSetup exactArith (wingen exactArith (setFilterTag exactArith s)))).succeed
  | calibrate (len : BitVec 16) (c : List Exact) (hm : s.mode = .configured) (hl : len.toNat = s.H) (hc : s.chunk exactArith = .ok c) :
      Effect s (.write 0x8 4 (commandWord len 0x02)) (calibrated exactArith c s).dropWork.succeed
  | process (len : BitVec 16) (c : List Exact) (hm : s.mode = .configured) (hl : len.toNat = s.H) (hc : s.chunk exactArith = .ok c) :
      Effect s (.write 0x8 4 (commandWord len 0x03)) (processed exactArith c s).dropWork.succeed
  | destroy : Effect s (.write 0x8 4 0x00000004) s.clearFlags.succeed
  | status (data : Word) : Effect s (.write 0xC 4 data) ((s.writeStatus data).respond .writeOk)
  | config (addr : Addr) (data : Word) (r : CfgReg) (hm : s.mode = .unconfigured) (ha : addr.toNat = r.offset) :
      Effect s (.write addr 4 data) { s with cfg := s.cfg.set data r, response := .writeOk }
  | coef (addr : Addr) (data : Word) (sec : Nat) (r : CoefReg) (hm : s.mode = .unconfigured) (hs : sec < s.build.smax)
      (ha : addr.toNat = coefOffset sec r) :
      Effect s (.write addr 4 data) { s with cfg := s.cfg.setCoef sec r data, response := .writeOk }
  | input (addr : Addr) (data : Word) (i : Nat) (hi : i < s.build.hmax) (ha : addr.toNat = inBase + 4 * i) :
      Effect s (.write addr 4 data)
        { s with inBuf := Memory.writeWord s.inBuf (inBase + 4 * i) data, response := .writeOk }

/-- Everything a write to CMD can do. -/
theorem effect_of_runWord {s t : State} {w : Word} (h : runWord exactArith w s = .next t) : Effect s (.write 0x8 4 w) t := by
  rcases runWord_cases w s with ⟨-, e⟩ | ⟨-, -, e⟩ | ⟨rfl, e⟩ | ⟨rfl, e⟩ | ⟨len, rfl, e⟩ | ⟨len, rfl, e⟩ | ⟨rfl, e⟩ <;> rw [e] at h
  · cases h; exact .raise _ _ _
  · cases h; exact .raise _ _ _
  · cases h; exact .nop
  · rcases execConfigure_cases s with ⟨-, e⟩ | ⟨-, c, i, -, e⟩ | ⟨hm, hf, e⟩ <;> rw [e] at h <;> cases h
    · exact .raise _ _ _
    · exact .raise _ _ _
    · exact .configure hm hf
  · rcases execCalibrate_cases len s with ⟨-, e⟩ | ⟨-, -, e⟩ | ⟨hm, hl, c, hc, e⟩ | ⟨-, -, i, -, e⟩ <;> rw [e] at h <;> cases h
    · exact .raise _ _ _
    · exact .raise _ _ _
    · exact .calibrate len c hm hl hc
  · rcases execProcess_cases len s with ⟨-, e⟩ | ⟨-, -, e⟩ | ⟨hm, hl, c, hc, e⟩ | ⟨-, -, i, -, e⟩ <;> rw [e] at h <;> cases h
    · exact .raise _ _ _
    · exact .raise _ _ _
    · exact .process len c hm hl hc
  · cases h; exact .destroy

/-- The address of CMD, and of STATUS, from its offset. -/
theorem addr_eq {addr b : Addr} (h : addr.toNat = b.toNat) : addr = b := BitVec.eq_of_toNat_eq h

/-- Everything a write can do. -/
theorem effect_of_writeLoc {s t : State} {addr : Addr} {w : Word} (h : s.writeLoc exactArith w (s.locOf addr) = .next t) :
    Effect s (.write addr 4 w) t := by
  rcases writeLoc_cases s w (s.locOf addr) with ⟨hl, e⟩ | ⟨hl, e⟩ | ⟨hm, c, hc, e⟩ | ⟨i, hi, hl, e⟩ | ⟨e, hn, -⟩
  · obtain rfl : addr = 0x8 := addr_eq (State.offset_of_locOf hl (by simp)).1
    exact effect_of_runWord (e.symm.trans h)
  · obtain rfl : addr = 0xC := addr_eq (State.offset_of_locOf hl (by simp)).1
    rw [e] at h; cases h; exact .status w
  · rw [e] at h; cases h
    rcases hc with ⟨r, hl, rfl⟩ | ⟨sec, r, hl, rfl⟩
    · exact .config addr w r hm (State.offset_of_locOf hl (by simp)).1
    · obtain ⟨ha, hs⟩ := State.offset_of_locOf hl (by simp)
      exact .coef addr w sec r hm hs ha
  · rw [e] at h; cases h
    exact .input addr w i hi (State.offset_of_locOf hl (by simp)).1
  · rw [e] at h; cases h
    refine .error _ _ _ fun hc => hn ?_
    rw [hc.1]
    exact locate_register (by decide) (by decide)

/-- Everything decoding a transaction can answer (R73, R105). -/
theorem decodeBus_cases (kind : BitVec 1) (addr : Addr) (size : Nat) (data : Word) :
    (size ≠ 4 ∧ decodeBus kind addr size data = .error (.busSize size)) ∨
    (size = 4 ∧ addr.toNat % 4 ≠ 0 ∧ decodeBus kind addr size data = .error (.busAlignment addr)) ∨
    (size = 4 ∧ addr.toNat % 4 = 0 ∧ decodeBus kind addr size data = .ok (if kind = 0 then .rd addr else .wr addr data)) := by
  unfold decodeBus aligned
  by_cases hs : size = 4
  · by_cases ha : addr.toNat % 4 = 0
    · exact .inr (.inr ⟨hs, ha, by simp [hs, ha]; split <;> rfl⟩)
    · exact .inr (.inl ⟨hs, ha, by simp [hs, ha]⟩)
  · exact .inl ⟨hs, by simp [hs]⟩

/-! ## The step, by what there is to do -/

theorem step_uop {s : State} (h : s.seq ≠ 0) : step s = runEncoding exec (.uop s.seq) { s with seq := 0 } := by
  unfold step stepWith fetch
  rw [if_pos h]

theorem step_of_idle {s : State} (h : s.seq = 0) : step s =
    match fetchEvent s s.pending with
    | .idle => .next s
    | .hardReset t => .next t
    | .code e t => runEncoding exec e t := by
  unfold step stepWith fetch
  rw [if_neg (by simpa using h)]
  cases fetchEvent s s.pending <;> rfl

theorem step_nothing {s : State} (h : s.seq = 0) (hp : s.pending = []) : step s = .next s := by
  rw [step_of_idle h, hp]; rfl

theorem step_reset {s : State} {rest : List HostEvent} (h : s.seq = 0) (hp : s.pending = .reset :: rest) :
    step s = .next (s.hardReset rest) := by
  rw [step_of_idle h, hp]; rfl

theorem step_read {s : State} {rest : List HostEvent} {addr : Addr} {size : Nat} (h : s.seq = 0)
    (hp : s.pending = .read addr size :: rest) : step s = runEncoding exec (.bus 0 addr size 0) { s with pending := rest } := by
  rw [step_of_idle h, hp]; rfl

theorem step_write {s : State} {rest : List HostEvent} {addr : Addr} {size : Nat} {data : Word} (h : s.seq = 0)
    (hp : s.pending = .write addr size data :: rest) :
    step s = runEncoding exec (.bus 1 addr size data) { s with pending := rest } := by
  rw [step_of_idle h, hp]; rfl

theorem runEncoding_ok {e : Encoding} {i : Instr} (s : State) (h : decode e = .ok i) : runEncoding exec e s = exec i s := by
  rw [runEncoding, h]

theorem runEncoding_error {e : Encoding} {d : DecodeError} (s : State) (h : decode e = .error d) :
    runEncoding exec e s = rejected s d := by
  rw [runEncoding, h]

/-- Everything a read transaction does (R73, R245). -/
theorem runEncoding_read (addr : Addr) (size : Nat) (s : State) :
    runEncoding exec (.bus 0 addr size 0) s =
      if size = 4 ∧ addr.toNat % 4 = 0 then execRd addr s else .next { s with response := .err } := by
  rcases decodeBus_cases 0 addr size 0 with ⟨hs, e⟩ | ⟨hs, ha, e⟩ | ⟨hs, ha, e⟩
  · rw [runEncoding_error s (show decode (.bus 0 addr size 0) = _ from e), if_neg (by simp [hs])]; rfl
  · rw [runEncoding_error s (show decode (.bus 0 addr size 0) = _ from e), if_neg (by simp [ha])]; rfl
  · rw [runEncoding_ok s (show decode (.bus 0 addr size 0) = .ok (.rd addr) from e), if_pos ⟨hs, ha⟩]; rfl

/-- Everything a write transaction does (R73, R246). -/
theorem runEncoding_write (addr : Addr) (size : Nat) (data : Word) (s : State) :
    runEncoding exec (.bus 1 addr size data) s =
      if size = 4 ∧ addr.toNat % 4 = 0 then execWr addr data s else .next { s with response := .err } := by
  rcases decodeBus_cases 1 addr size data with ⟨hs, e⟩ | ⟨hs, ha, e⟩ | ⟨hs, ha, e⟩
  · rw [runEncoding_error s (show decode (.bus 1 addr size data) = _ from e), if_neg (by simp [hs])]; rfl
  · rw [runEncoding_error s (show decode (.bus 1 addr size data) = _ from e), if_neg (by simp [ha])]; rfl
  · rw [runEncoding_ok s (show decode (.bus 1 addr size data) = .ok (.wr addr data) from e), if_pos ⟨hs, ha⟩]; rfl

/-- Everything decoding a micro-operation code can answer (R106). -/
theorem decodeUop_cases (c : BitVec 4) :
    (c = 0x1 ∧ decodeUop c = .ok .wingen) ∨ (c = 0x2 ∧ decodeUop c = .ok .hpfSetup) ∨
    (c = 0x3 ∧ decodeUop c = .ok .frameBuild) ∨ (c = 0x4 ∧ decodeUop c = .ok .hpf) ∨
    (c = 0x5 ∧ decodeUop c = .ok .analyze) ∨ (c = 0x6 ∧ decodeUop c = .ok .noiseUpdate) ∨
    (c = 0x7 ∧ decodeUop c = .ok .gain) ∨ (c = 0x8 ∧ decodeUop c = .ok .synth) ∨
    (c = 0x9 ∧ decodeUop c = .ok .olaEmit) ∨ ((c = 0 ∨ 10 ≤ c.toNat) ∧ decodeUop c = .error (.uopCode c)) := by
  have : ∀ n : Fin 16, let c := BitVec.ofNat 4 n.val
      (c = 0x1 ∧ decodeUop c = .ok .wingen) ∨ (c = 0x2 ∧ decodeUop c = .ok .hpfSetup) ∨
      (c = 0x3 ∧ decodeUop c = .ok .frameBuild) ∨ (c = 0x4 ∧ decodeUop c = .ok .hpf) ∨
      (c = 0x5 ∧ decodeUop c = .ok .analyze) ∨ (c = 0x6 ∧ decodeUop c = .ok .noiseUpdate) ∨
      (c = 0x7 ∧ decodeUop c = .ok .gain) ∨ (c = 0x8 ∧ decodeUop c = .ok .synth) ∨
      (c = 0x9 ∧ decodeUop c = .ok .olaEmit) ∨ ((c = 0 ∨ 10 ≤ c.toNat) ∧ decodeUop c = .error (.uopCode c)) := by
    intro n c
    fin_cases n <;> simp [c, decodeUop]
  simpa using this ⟨c.toNat, c.isLt⟩

/-- Everything a step can do: a selected micro-operation runs, nothing happens, the block is reset, or the host's next
event has its effect. -/
theorem step_cases {s t : State} (h : step s = .next t) :
    (s.seq ≠ 0 ∧ ∃ i, decodeUop s.seq = .ok i ∧ exec i { s with seq := 0 } = .next t) ∨
    (s.seq = 0 ∧ s.pending = [] ∧ t = s) ∨
    (s.seq = 0 ∧ ∃ rest, s.pending = .reset :: rest ∧ t = s.hardReset rest) ∨
    (s.seq = 0 ∧ ∃ e rest, s.pending = e :: rest ∧ Effect { s with pending := rest } e t) := by
  by_cases hq : s.seq = 0
  · refine .inr ?_
    cases hp : s.pending with
    | nil =>
      rw [step_nothing hq hp] at h
      cases h
      exact .inl ⟨hq, rfl, rfl⟩
    | cons e rest =>
      cases e with
      | reset =>
        rw [step_reset hq hp] at h
        cases h
        exact .inr (.inl ⟨hq, rest, rfl, rfl⟩)
      | read addr size =>
        rw [step_read hq hp, runEncoding_read] at h
        refine .inr (.inr ⟨hq, _, rest, rfl, ?_⟩)
        split at h <;> (cases h; exact .read _ _ _)
      | write addr size data =>
        rw [step_write hq hp, runEncoding_write] at h
        refine .inr (.inr ⟨hq, _, rest, rfl, ?_⟩)
        split at h
        · rename_i hs
          rw [hs.1]
          exact effect_of_writeLoc h
        · rename_i hs
          cases h
          refine .error _ _ _ fun hc => hs ⟨hc.2, ?_⟩
          rw [hc.1]; rfl
  · rw [step_uop hq] at h
    refine .inl ⟨hq, ?_⟩
    cases hd : decodeUop s.seq with
    | ok i => exact ⟨i, rfl, by rwa [runEncoding_ok _ (show decode (.uop s.seq) = _ from hd)] at h⟩
    | error d =>
      rw [runEncoding_error _ (show decode (.uop s.seq) = _ from hd)] at h
      rcases decodeUop_cases s.seq with ⟨-, e⟩ | ⟨-, e⟩ | ⟨-, e⟩ | ⟨-, e⟩ | ⟨-, e⟩ | ⟨-, e⟩ | ⟨-, e⟩ | ⟨-, e⟩ | ⟨-, e⟩ | ⟨-, e⟩ <;>
        rw [e] at hd <;> cases hd
      cases h

end Sys2Proof.Machine
end

