-- ==== Sys2Proof/Tests/Slice0.lean ====
section
/-! SUPPORT. Small tests with values from the spec (its tables and spec/95_test_vectors.md, named in each comment), and a
concrete instance of the hypotheses of every statement that has hypotheses. -/

namespace Sys2Proof.Tests

set_option Elab.async false

open Sys2Proof Sys2Proof.Machine
open Generic (windowOf zeros restZero wingen hpfSetup analyze noiseUpdate gain olaEmit)

/-! ## Helpers -/

/-- The next state, if there is one. -/
def next? : Answer State → Option State
  | .next t => some t
  | .fault _ => none
  | .refused _ => none

/-- The next state of an answer that has one. -/
def after (o : Answer State) : State := (next? o).getD State.reset

theorem eq_next_after (o : Answer State) (h : (next? o).isSome = true) : o = .next (after o) := by
  cases o with
  | next t => rfl
  | fault r => cases h
  | refused r => cases h

/-- The parameters of the programs P1 and P2 of 95_test_vectors.md section 3. -/
def small : Build Exact := ⟨4, 1, .rat (1 / 4), .rat (1 / 2), .rat 1, true⟩

/-- The configuration of program P1: N = 4, β = 1, floor = 1/4, both smoothing factors 1/2, no filter. -/
def regs : ConfigRegs :=
  { ConfigRegs.reset 1 with
    sampleRate := 0x1F40, frameLen := 4, beta := 0x3F800000, floor := 0x3E800000, alphaN := 0x3F000000, alphaG := 0x3F000000 }

/-- The configuration of program P2: as P1, with a first-order filter. -/
def filterRegs : ConfigRegs :=
  { regs with hpCutoff := 0x42C80000, hpOrder := 1, coef := [⟨0x3F000000, 0xBF000000, 0, 0xBF000000, 0⟩] }

/-- A block after reset with its registers written. -/
def ready (c : ConfigRegs) : State := { Generic.State.resetOf small with cfg := c }

/-- Program P1 after CONFIGURE. -/
def live : State := after (exec .configure (ready regs))

/-- Program P2 after CONFIGURE. -/
def liveFilter : State := after (exec .configure (ready filterRegs))

/-- With the host about to do one thing. -/
def facing (e : HostEvent) (s : State) : State := { s with pending := [e] }

/-- The host writes a word. -/
def wr (a : Nat) (w : Word) : HostEvent := .write (BitVec.ofNat 18 a) 4 w

/-- Rational numbers as exact numbers. -/
def nums (l : List ℚ) : List Exact := l.map .rat

/-- Pairs of rational numbers as complex numbers. -/
def cplx (l : List (ℚ × ℚ)) : List (Cplx Exact) := l.map fun z => ⟨.rat z.1, .rat z.2⟩

/-- The state with IN[0] and IN[1] written. -/
def withIn (a b : Word) (s : State) : State :=
  { s with inBuf := Memory.writeWord (Memory.writeWord s.inBuf 0x4000 a) 0x4004 b }

/-! ## Well-formedness: each ill-formed term is refused (R73) -/

theorem test_wf_read_unaligned : (Instr.rd 0x0000E).wf = false := by decide

theorem test_wf_write_unaligned : (Instr.wr 0x04001 0).wf = false := by decide

theorem test_wf_aligned : (Instr.rd 0x3FFFC).wf = true ∧ (Instr.wr 0x00008 0).wf = true := by decide

/-! ## Decoding: words written out from R101, R102, R105 and R106 -/

theorem test_decode_nop : decode (.cmd 0b00000000000000000000000000000000) = .ok .nop := by rfl

theorem test_decode_configure : decode (.cmd 0b00000000000000000000000000000001) = .ok .configure := by rfl

/-- RSV = 0, LEN = 160 = 0x00A0, OP = 2. -/
theorem test_decode_calibrate : decode (.cmd 0b00000000000000001010000000000010) = .ok (.calibrate 160) := by rfl

/-- RSV = 0, LEN = 0x8001, OP = 3. -/
theorem test_decode_process : decode (.cmd 0b00000000100000000000000100000011) = .ok (.process 0x8001) := by rfl

theorem test_decode_destroy : decode (.cmd 0b00000000000000000000000000000100) = .ok .destroy := by rfl

/-- A read of STATUS. -/
theorem test_decode_rd : decode (.bus 0 0b000000000000001100 4 0) = .ok (.rd 0x0000C) := by rfl

/-- A write of 1.0 to IN[1]. -/
theorem test_decode_wr : decode (.bus 1 0b000100000000000100 4 0x3F800000) = .ok (.wr 0x04004 0x3F800000) := by rfl

theorem test_decode_wingen : decode (.uop 0b0001) = .ok .wingen := by rfl

theorem test_decode_hpfSetup : decode (.uop 0b0010) = .ok .hpfSetup := by rfl

theorem test_decode_frameBuild : decode (.uop 0b0011) = .ok .frameBuild := by rfl

theorem test_decode_hpf : decode (.uop 0b0100) = .ok .hpf := by rfl

theorem test_decode_analyze : decode (.uop 0b0101) = .ok .analyze := by rfl

theorem test_decode_noiseUpdate : decode (.uop 0b0110) = .ok .noiseUpdate := by rfl

theorem test_decode_gain : decode (.uop 0b0111) = .ok .gain := by rfl

theorem test_decode_synth : decode (.uop 0b1000) = .ok .synth := by rfl

theorem test_decode_olaEmit : decode (.uop 0b1001) = .ok .olaEmit := by rfl

/-- The idle code and the first and last unused code spell nothing (R106). -/
theorem test_decode_uop_unused : decode (.uop 0x0) = .error (.uopCode 0x0) ∧ decode (.uop 0xA) = .error (.uopCode 0xA) ∧
    decode (.uop 0xF) = .error (.uopCode 0xF) := ⟨rfl, rfl, rfl⟩

/-- E_OPCODE, E_FIELD for a LEN, E_FIELD for an RSV (R104). -/
theorem test_decode_errors : decode (.cmd 0x00000007) = .error (.opcode 0x00000007) ∧
    decode (.cmd 0x00000101) = .error (.field 0x00000101) ∧
    decode (.cmd 0x8000A003) = .error (.field 0x8000A003) := ⟨rfl, rfl, rfl⟩

/-- The rows' own bits. -/
theorem test_decodeTableWord : decodeTableWord 32 0x00000004 = some .destroy ∧ decodeTableWord 8 0 = some (.rd 0) ∧
    decodeTableWord 8 1 = some (.wr 0 0) ∧ decodeTableWord 8 2 = some .hpfSetup ∧ decodeTableWord 4 1 = some .wingen ∧
    decodeTableWord 8 9 = some .olaEmit ∧ decodeTableWord 8 10 = none := ⟨rfl, rfl, rfl, rfl, rfl, rfl, rfl⟩

/-- A row's bits placed for the next step: DESTROY as the first instruction after reset answers as DESTROY does. -/
theorem test_withFetchWord : (next? (step (State.reset.withFetchWord 32 0x00000004))).map (·.response) = some .writeOk := by
  decide +kernel

/-! ## Commands -/

/-- P3: NOP after an error leaves ERRS: STATUS = 0x00000041. -/
theorem test_nop : (next? (exec .nop { live with err := true, errs := true, errCode := 1, errInfo := 7 })).map
    (fun t => (t.status, t.errCode, t.errInfo)) = some (0x00000041, 0, 0) := by decide +kernel

/-- P2: after CONFIGURE STATUS = 0x00000009, HPZI[0] = (−1/2, 0), HPZ[0] = (0, 0). -/
theorem test_configure : (liveFilter.status, liveFilter.hpzi, liveFilter.hpz) =
    (0x00000009, [(.rat (-1 / 2), .rat 0)], [(.rat 0, .rat 0)]) := by decide +kernel

/-- Section 2.2 H8: (1, 0, 0, −1, 0) is refused with ERR_INFO = 0x000000FF. -/
theorem test_configure_singular : (next? (exec .configure (ready
    { filterRegs with coef := [⟨0x3F800000, 0, 0, 0xBF800000, 0⟩] }))).map
      (fun t => (t.status, t.errCode, t.errInfo)) = some (0x00000060, 0x1A, 0x000000FF) := by decide +kernel

/-- P2, `calibrate 2` on [2, 4]: HPZ[0] = (−5/4, 0), NOISE = [11/8, 9/8, 5/8], TAIL = [2, 4] raw, STATUS = 0x00000019. -/
theorem test_calibrate : (next? (exec (.calibrate 2) (withIn 0x40000000 0x40800000 liveFilter))).map
    (fun t => (t.status, t.hpz, t.noise, t.tail)) =
      some (0x00000019, [(.rat (-5 / 4), .rat 0)], nums [11 / 8, 9 / 8, 5 / 8], nums [2, 4]) := by decide +kernel

/-- E_LENGTH: LEN is not H (R237). -/
theorem test_calibrate_length : (next? (exec (.calibrate 3) live)).map
    (fun t => (t.status, t.errCode, t.errInfo, t.tail)) = some (0x00000061, 4, 3, live.tail) := by decide +kernel

/-- P2, the first `process 2` on [3, 3] after TAIL = [2, 4], NOISE = [11/8, 9/8, 5/8]: OUT = [0, 0], OLA = [1/128, 11/64,
1/64, −1/384], PGAIN = [19/96, 17/96, 13/96], STATUS = 0x0000001F. -/
theorem test_process : (next? (exec (.process 2) { withIn 0x40400000 0x40400000 liveFilter with
      tail := nums [2, 4], noise := nums [11 / 8, 9 / 8, 5 / 8], hpz := [(.rat (-5 / 4), .rat 0)], hpfPrimed := true })).map
    (fun t => (t.status, t.out, t.ola, t.pgain)) =
      some (0x0000001F, nums [0, 0], nums [1 / 128, 11 / 64, 1 / 64, -1 / 384], nums [19 / 96, 17 / 96, 13 / 96]) := by
  decide +kernel

/-- P3, `process 160` before CONFIGURE: E_STATE, STATUS = 0x00000060, ERR_CODE = 3, ERR_INFO = 0x0000A003. -/
theorem test_process_unconfigured : (next? (exec (.process 160) State.reset)).map
    (fun t => (t.status, t.errCode, t.errInfo)) = some (0x00000060, 3, 0x0000A003) := by decide +kernel

/-- P3, DESTROY: STATUS = 0x00000000, ERR_CODE = 0, FRAME_LEN retained. -/
theorem test_destroy : (next? (exec .destroy { live with errs := true, err := true, errCode := 3 })).map
    (fun t => (t.status, t.errCode, t.cfg.frameLen)) = some (0x00000000, 0, 4) := by decide +kernel

/-! ## Bus transactions -/

/-- P3: CAP of the default block reads 0x00110400. -/
theorem test_rd_cap : (next? (exec (.rd 0x4) State.reset)).map (·.response) = some (.readOk 0x00110400) := by decide +kernel

/-- Section 2.1, EPS_WIN = 1/4, N = 4: WIN[0] reads 0x3F000000; past its end, at WIN[4], ERR. -/
theorem test_rd_window : (next? (exec (.rd 0xC000) live)).map (·.response) = some (.readOk 0x3F000000) ∧
    (next? (exec (.rd 0xC010) live)).map (·.response) = some .err := by decide +kernel

/-- P3: BETA is locked while CONFIGURED. -/
theorem test_wr_locked : (next? (exec (.wr 0x28 0x40000000) live)).map (fun t => (t.response, t.cfg.beta)) =
    some (.err, 0x3F800000) := by decide +kernel

/-- R72: the word's least significant byte lies at its offset. -/
theorem test_wr_in : (next? (exec (.wr 0x4004 0x40302010) live)).map
    (fun t => [t.byteAt 0x4003, t.byteAt 0x4004, t.byteAt 0x4005, t.byteAt 0x4007]) = some [0, 0x10, 0x20, 0x40] := by
  decide +kernel

/-! ## Containers (the words listed at the head of 95_test_vectors.md) -/

theorem test_num : num? 0x3F400000 = some (3 / 4) ∧ num? 0xC0400000 = some (-3) ∧ num? 0x00000000 = some 0 ∧
    num? 0x7F800000 = none := by decide +kernel

theorem test_word : wordOfRat (2 / 100) = 0x3CA3D70A ∧ wordOfRat (96 / 100) = 0x3F75C28F ∧
    wordOfRat (8 / 10) = 0x3F4CCCCD ∧ wordOfRat (1 / 1000000) = 0x358637BD := by decide +kernel

/-- Section 2.1, N = 4 with the default EPS_WIN: the window reads 0x358637BD, 0x3F5DB3D7, 0x3F5DB3D7, 0x358637BD. -/
theorem test_word_window : (windowOf exactArith (.rat (1 / 1000000000000)) 4).map Exact.word =
    [0x358637BD, 0x3F5DB3D7, 0x3F5DB3D7, 0x358637BD] := by decide +kernel

/-- An exact tie of a number that is not rational as written: 1/2 + 2^-26·√2·√2 = 1/2 + 2^-25 lies midway between two
containers and goes to the even fraction; from 1/2 + 2^-24 the even fraction is the one above (R81). -/
theorem test_word_tie :
    let two := Exact.prod (.root (.rat 2)) (.root (.rat 2))
    (Exact.sum (.rat (1 / 2)) (.prod (.rat (1 / 2 ^ 26)) two)).word = 0x3F000000 ∧
    (Exact.sum (.rat (1 / 2 + 1 / 2 ^ 24)) (.prod (.rat (1 / 2 ^ 26)) two)).word = 0x3F000002 := by
  decide +kernel

/-! ## Micro-operations -/

/-- Section 2.1: EPS_WIN = 1/4, N = 4. -/
theorem test_wingen : (next? (exec .wingen (ready regs))).map (·.win) = some (nums [1 / 2, 1, 1, 1 / 2]) := by decide +kernel

/-- Section 2.2 H6: two sections, HPZI = (1, 0), (−1, 0). -/
def twoSections : State :=
  { ready { filterRegs with
      hpOrder := 4, coef := [⟨0x3F800000, 0, 0, 0xBF000000, 0⟩, ⟨0x3F000000, 0xBF000000, 0, 0xBF000000, 0⟩] } with
    build := { small with smax := 2 }, hpfEn := true }

theorem test_hpfSetup : (next? (exec .hpfSetup twoSections)).map (·.hpzi) =
    some [(.rat 1, .rat 0), (.rat (-1), .rat 0)] := by decide +kernel

/-- Section 2.3 F1 and F2: [5, 6] then [7, 8]. -/
theorem test_frameBuild : (next? (exec .frameBuild { withIn 0x40E00000 0x41000000 live with tail := nums [5, 6] })).map
    (fun t => (t.work.frame, t.tail)) = some (nums [5, 6, 7, 8], nums [7, 8]) := by decide +kernel

/-- R80: an infinite sample is refused. -/
theorem test_frameBuild_refused : next? (exec .frameBuild (withIn 0 0x7F800000 live)) = none := by decide +kernel

/-- Section 2.2 H6: FILT = [0, 0, 1, −1], HPZ = (0.5, 0), (−1, 0). -/
theorem test_hpf_two_sections : (next? (exec .hpf { after (exec .hpfSetup twoSections) with
      work := { Generic.Work.empty with frame := nums [1, 1, 3, -1] } })).map (fun t => (t.work.filt, t.hpz)) =
    some (nums [0, 0, 1, -1], [(.rat (1 / 2), .rat 0), (.rat (-1), .rat 0)]) := by decide +kernel

/-- Section 2.2 H5: HPF_REINIT = 0, the state carried: FILT = [−1/4, 7/8, −1/16, −1/32], HPZ = (−97/64, 0). -/
theorem test_hpf_carried : (next? (exec .hpf { liveFilter with
      build := { small with hpfReinit := false }, hpfPrimed := true, hpz := [(.rat (-5 / 4), .rat 0)]
      work := { Generic.Work.empty with frame := nums [2, 4, 3, 3] } })).map (fun t => (t.work.filt, t.hpz)) =
    some (nums [-1 / 4, 7 / 8, -1 / 16, -1 / 32], [(.rat (-97 / 64), .rat 0)]) := by decide +kernel

/-- A state with WIN = [1, 1, 1, 1] and a frame after the filter. -/
def filtered (l : List ℚ) : State := { live with win := nums [1, 1, 1, 1], work := { Generic.Work.empty with filt := nums l } }

/-- Section 2.4 S3: X = [(1, 0), (4, −3), (−5, 0)], MAG = [1, 5, 5]; the phases by R186. -/
theorem test_analyze : (next? (exec .analyze (filtered [1, 3, -3, 0]))).map (fun t => (t.work.x, t.work.mag, t.work.phs)) =
    some (cplx [(1, 0), (4, -3), (-5, 0)], nums [1, 5, 5], cplx [(1, 0), (4 / 5, -3 / 5), (-1, 0)]) := by decide +kernel

/-- Section 2.4 S5: a zero frame has MAG = 0 and PHS = (1, 0). -/
theorem test_analyze_zero : (next? (exec .analyze (filtered [0, 0, 0, 0]))).map (fun t => (t.work.mag, t.work.phs)) =
    some (nums [0, 0, 0], cplx [(1, 0), (1, 0), (1, 0)]) := by decide +kernel

/-- Section 2.5 N3. -/
theorem test_noiseUpdate : (next? (exec .noiseUpdate { live with
      noise := nums [1, 1, 1], work := { Generic.Work.empty with mag := nums [7 / 2, 5 / 2, 1 / 2] } })).map (·.noise) =
    some (nums [9 / 4, 7 / 4, 3 / 4]) := by decide +kernel

/-- Section 2.6 G2: the first frame, without smoothing. -/
theorem test_gain_first : (next? (exec .gain { live with
      noise := nums [13 / 8, 27 / 8, 23 / 8], work := { Generic.Work.empty with mag := nums [1, 5, 5] } })).map
    (fun t => (t.work.clean, t.work.g, t.pgain, t.gainValid)) =
      some (nums [13 / 32, 13 / 8, 17 / 8], nums [13 / 48, 13 / 44, 17 / 44], nums [13 / 48, 13 / 44, 17 / 44], true) := by
  decide +kernel

/-- P2, the last frame: a zero bin and smoothing against PGAIN = [19/96, 17/96, 13/96]. -/
theorem test_gain_smoothed : (next? (exec .gain { live with
      gainValid := true, pgain := nums [19 / 96, 17 / 96, 13 / 96], noise := nums [19 / 32, 17 / 32, 13 / 32]
      work := { Generic.Work.empty with mag := nums [0, 0, 0] } })).map (fun t => (t.work.ginst, t.work.g)) =
    some (nums [19 / 64, 17 / 64, 13 / 64], nums [95 / 384, 85 / 384, 65 / 384]) := by decide +kernel

/-- Section 2.4 S6, G = [1, 0, 0] on S2's DC bin: T = [2.5, 2.5, 2.5, 2.5], with WIN = [1/2, 1, 1, 1/2]. -/
theorem test_synth : (next? (exec .synth { live with
      work := { Generic.Work.empty with
        g := nums [1, 0, 0], mag := nums [10, 3, 2], phs := cplx [(1, 0), (0, 1), (-1, 0)] } })).map (·.work.syn) =
    some (nums [5 / 4, 5 / 2, 5 / 2, 5 / 4]) := by decide +kernel

/-- Section 2.3 O1. -/
theorem test_olaEmit : (next? (exec .olaEmit { live with
      ola := nums [1, 2, 3, 4], work := { Generic.Work.empty with syn := nums [10, 20, 30, 40] } })).map
    (fun t => (t.out, t.ola, t.outValid)) = some (nums [1, 2], nums [13, 24, 30, 40], true) := by decide +kernel

/-! ## Instances of the statements' hypotheses

`witness_<Name>` meets the hypotheses of `Obligations.<Name>` together, clause by clause where it has several. -/

/-- After a PROCESS on [1, 2]: OUT, OLA and PGAIN are defined. -/
def running : State := after (exec (.process 2) (withIn 0x3F800000 0x40000000 live))

/-- The same with the filter enabled. -/
def runningFilter : State := after (exec (.process 2) (withIn 0x3F800000 0x40000000 liveFilter))

theorem rat_pos {q : ℚ} (h : 0 < q) : 0 < (Exact.rat q).val := by rw [Exact.val_rat]; exact_mod_cast h

theorem small_legal : small.Legal :=
  ⟨by decide, by decide, by decide, by decide, by decide, rat_pos (by norm_num), rat_pos (by norm_num), rat_pos (by norm_num)⟩

theorem legal_of_small {b : Build Exact} (h : b = small) : b.Legal := h ▸ small_legal

/-- Parts of the configuration's and the state's invariant are decidable. -/
theorem live_inv : live.Inv where
  build := legal_of_small (by decide +kernel)
  coef := by decide +kernel
  memory := by decide +kernel
  window := by decide +kernel
  idle := by decide +kernel
  noWork := by decide +kernel
  result := by decide +kernel
  unconfigured := by decide +kernel
  primed := by decide +kernel
  configured := fun _ =>
    { accepted := by decide +kernel
      filterTag := by decide +kernel
      win := by decide +kernel
      tail := by decide +kernel
      ola := by decide +kernel
      noise := by decide +kernel
      pgain := by decide +kernel
      out := by decide +kernel
      hpz := by decide +kernel
      hpzi := by decide +kernel
      inWritten := by decide +kernel }

theorem liveFilter_inv : liveFilter.Inv where
  build := legal_of_small (by decide +kernel)
  coef := by decide +kernel
  memory := by decide +kernel
  window := by decide +kernel
  idle := by decide +kernel
  noWork := by decide +kernel
  result := by decide +kernel
  unconfigured := by decide +kernel
  primed := by decide +kernel
  configured := fun _ =>
    { accepted := by decide +kernel
      filterTag := by decide +kernel
      win := by decide +kernel
      tail := by decide +kernel
      ola := by decide +kernel
      noise := by decide +kernel
      pgain := by decide +kernel
      out := by decide +kernel
      hpz := by decide +kernel
      hpzi := by decide +kernel
      inWritten := by decide +kernel }

theorem running_inv : running.Inv where
  build := legal_of_small (by decide +kernel)
  coef := by decide +kernel
  memory := by decide +kernel
  window := by decide +kernel
  idle := by decide +kernel
  noWork := by decide +kernel
  result := by decide +kernel
  unconfigured := by decide +kernel
  primed := by decide +kernel
  configured := fun _ =>
    { accepted := by decide +kernel
      filterTag := by decide +kernel
      win := by decide +kernel
      tail := by decide +kernel
      ola := by decide +kernel
      noise := by decide +kernel
      pgain := by decide +kernel
      out := by decide +kernel
      hpz := by decide +kernel
      hpzi := by decide +kernel
      inWritten := by decide +kernel }

/-- UNCONFIGURED, with the registers of program P1 written. -/
theorem ready_inv : (ready regs).Inv where
  build := legal_of_small rfl
  coef := by decide +kernel
  memory := by decide +kernel
  window := by decide +kernel
  idle := by decide +kernel
  noWork := by decide +kernel
  result := by decide +kernel
  unconfigured := by decide +kernel
  primed := by decide +kernel
  configured := fun h => absurd h (by decide +kernel)

/-! ### Small facts -/

theorem facing_inv {e : HostEvent} {s : State} (h : s.Inv) : (facing e s).Inv where
  build := h.build
  coef := h.coef
  memory := h.memory
  window := h.window
  idle := h.idle
  noWork := h.noWork
  result := h.result
  unconfigured := h.unconfigured
  primed := h.primed
  configured := fun m =>
    let c := h.configured m
    ⟨c.accepted, c.filterTag, c.win, c.tail, c.ola, c.noise, c.pgain, c.out, c.hpz, c.hpzi, c.inWritten⟩

theorem live_nonNegative : live.NonNegative where
  noise := by
    have h : live.noise = nums [1, 1, 1] := by decide +kernel
    intro _ x hx
    rw [h] at hx
    have : x = .rat 1 := by simpa [nums] using hx
    simp [this]
  pgain := fun _ h => absurd h (by decide +kernel)

theorem not_rwu {smax a : Nat} (h : a < 0x20) : ¬RwuOffset smax a := by
  rintro (⟨r, hr⟩ | ⟨sec, _, r, hr⟩)
  · cases r <;> simp only [CfgReg.offset] at hr <;> omega
  · simp only [coefOffset] at hr; omega

/-- The filter of program P2 has a finite gain for a constant input. -/
theorem filter_not_singular {s : State} (h : s.cfg = filterRegs) :
    ∀ sec < s.cfg.sections, 1 + s.cfg.coefAt sec .a1 + s.cfg.coefAt sec .a2 ≠ 0 := by
  intro sec hs
  have hS : s.cfg.sections = 1 := by rw [h]; decide +kernel
  obtain rfl : sec = 0 := by omega
  have h1 : numOf (s.cfg.getCoef 0 .a1) = -1 / 2 := by rw [h]; decide +kernel
  have h2 : numOf (s.cfg.getCoef 0 .a2) = 0 := by rw [h]; decide +kernel
  simp only [ConfigRegs.coefAt, h1, h2]
  norm_num

/-! ### Encoding -/

theorem witness_DecodeOfEncode : (Instr.rd 0x3FFFC).wf = true ∧ (Instr.wr 0 0xFFFFFFFF).wf = true ∧
    (Instr.calibrate 0xFFFF).wf = true ∧ (Instr.process 0).wf = true ∧ Instr.olaEmit.wf = true := by decide

/-- A read with data lines that are not its encoding's, and an encoding of each other kind. -/
theorem witness_EncodeOfDecode : decode (.bus 0 0x3FFFC 4 7) = .ok (.rd 0x3FFFC) ∧
    decode (.bus 1 0x00008 4 7) = .ok (.wr 0x00008 7) ∧ decode (.cmd 0x00FFFF03) = .ok (.process 0xFFFF) ∧
    decode (.uop 0x9) = .ok .olaEmit := ⟨rfl, rfl, rfl, rfl⟩

/-- Words at the ends of each clause: OP = 5 and 0xFF; RSV and LEN set for OP = 4; each command's own word. -/
theorem witness_EveryCommandWord :
    let op (w : Word) := w.toNat % 2 ^ 8
    let len (w : Word) := w.toNat / 2 ^ 8 % 2 ^ 16
    let rsv (w : Word) := w.toNat / 2 ^ 24
    (4 < op 5 ∧ 4 < op 0xFFFFFFFF) ∧ (op 0x01000003 ≤ 4 ∧ rsv 0x01000003 ≠ 0) ∧
    (op 0x00000104 = 4 ∧ len 0x00000104 ≠ 0) ∧ (op 0 = 0 ∧ rsv 0 = 0 ∧ len 0 = 0) ∧
    (op 1 = 1 ∧ rsv 1 = 0 ∧ len 1 = 0) ∧ (op 0x00FFFF02 = 2 ∧ rsv 0x00FFFF02 = 0) ∧
    (op 3 = 3 ∧ rsv 3 = 0) ∧ (op 4 = 4 ∧ rsv 4 = 0 ∧ len 4 = 0) := by decide

/-! ### The step -/

theorem witness_StepRunsDecoded :
    (({ live with seq := 9 } : State).seq ≠ 0 ∧ decode (.uop 9) = .ok .olaEmit) ∧
    ((facing (.read 0xC 4) live).seq = 0 ∧ (facing (.read 0xC 4) live).pending = .read 0xC 4 :: [] ∧
      decode (.bus 0 0xC 4 0) = .ok (.rd 0xC)) ∧
    ((facing (.write 0x8 4 1) live).seq = 0 ∧ (facing (.write 0x8 4 1) live).pending = .write 0x8 4 1 :: [] ∧
      decode (.bus 1 0x8 4 1) = .ok (.wr 0x8 1)) := by
  exact ⟨⟨by decide +kernel, rfl⟩, ⟨by decide +kernel, rfl, rfl⟩, ⟨by decide +kernel, rfl, rfl⟩⟩

theorem witness_IdleStep : State.reset.seq = 0 ∧ State.reset.pending = [] := by decide

/-- A read of two bytes, and a write one byte past a word boundary. -/
theorem witness_SizeAndAlignment :
    ((facing (.read 0x4 2) live).seq = 0 ∧ (2 : Nat) ≠ 4) ∧
    ((facing (.write 0x9 4 0) live).seq = 0 ∧ (0x9 : Addr).toNat % 4 ≠ 0) := by decide +kernel

theorem witness_UnusedCodeFaults : 10 ≤ ({ live with seq := 10 } : State).seq.toNat ∧
    10 ≤ ({ live with seq := 15 } : State).seq.toNat := by decide

theorem witness_HardwareReset : (facing .reset live).seq = 0 ∧ (facing .reset live).pending = .reset :: [] := by decide +kernel

/-- The default parameters, and the parameters at the ends of their ranges. -/
theorem witness_ReadsAfterReset : Build.default.Legal ∧ (⟨2, 8, .rat 1, .rat 1, .rat 1, false⟩ : Build Exact).Legal ∧
    (⟨4096, 1, .rat 1, .rat 1, .rat 1, true⟩ : Build Exact).Legal := by
  have one : 0 < (Exact.rat 1).val := rat_pos one_pos
  exact ⟨⟨by decide, by decide, by decide, by decide, by decide, rat_pos (by norm_num), rat_pos (by norm_num),
    rat_pos (by norm_num)⟩, ⟨by decide, by decide, by decide, by decide, by decide, one, one, one⟩,
    ⟨by decide, by decide, by decide, by decide, by decide, one, one, one⟩⟩

/-- An irrational constant among them: EPS_WIN = √2·10^-12 (R14). -/
theorem witness_ResetHasInvariant : small.Legal ∧
    Build.Legal { small with epsWin := .prod (.root (.rat 2)) (.rat (1 / 1000000000000)) } := by
  refine ⟨small_legal, by decide, by decide, by decide, by decide, by decide, ?_, rat_pos (by norm_num), rat_pos (by norm_num)⟩
  simp [Exact.val]

/-! ### Invariants of every step -/

/-- A PROCESS from a state with the invariant. -/
theorem witness_StepKeepsInvariant : (facing (wr 0x8 0x203) live).Inv ∧
    step (facing (wr 0x8 0x203) live) = .next (after (step (facing (wr 0x8 0x203) live))) :=
  ⟨facing_inv live_inv, eq_next_after _ (by decide +kernel)⟩

theorem witness_EstimatesStayNonNegative : (facing (wr 0x8 0x203) live).Inv ∧ (facing (wr 0x8 0x203) live).NonNegative ∧
    step (facing (wr 0x8 0x203) live) = .next (after (step (facing (wr 0x8 0x203) live))) :=
  ⟨facing_inv live_inv, ⟨live_nonNegative.noise, live_nonNegative.pgain⟩, eq_next_after _ (by decide +kernel)⟩

/-- CONFIGURE, DESTROY and hardware reset. -/
theorem witness_ModeTransitions :
    (step (facing (wr 0x8 1) (ready regs)) = .next (after (step (facing (wr 0x8 1) (ready regs)))) ∧
      (after (step (facing (wr 0x8 1) (ready regs)))).mode ≠ (ready regs).mode) ∧
    (step (facing (wr 0x8 4) live) = .next (after (step (facing (wr 0x8 4) live))) ∧
      (after (step (facing (wr 0x8 4) live))).mode ≠ live.mode) ∧
    (step (facing .reset live) = .next (after (step (facing .reset live))) ∧
      (after (step (facing .reset live))).mode ≠ live.mode) :=
  ⟨⟨eq_next_after _ (by decide +kernel), by decide +kernel⟩, ⟨eq_next_after _ (by decide +kernel), by decide +kernel⟩,
    ⟨eq_next_after _ (by decide +kernel), by decide +kernel⟩⟩

/-- A PROCESS that sets both flags, the micro-operations alone, and a DESTROY that clears both. -/
theorem witness_ValidFlagTransitions :
    (let t := after (step (facing (wr 0x8 0x203) live));
      step (facing (wr 0x8 0x203) live) = .next t ∧ live.gainValid = false ∧ t.gainValid = true ∧
        live.outValid = false ∧ t.outValid = true) ∧
    (let t := after (step { live with seq := 7 });
      step { live with seq := 7 } = .next t ∧ t.gainValid = true) ∧
    (let t := after (step { live with seq := 9 });
      step { live with seq := 9 } = .next t ∧ t.outValid = true) ∧
    (let t := after (step (facing (wr 0x8 4) running));
      step (facing (wr 0x8 4) running) = .next t ∧ running.gainValid = true ∧ t.gainValid = false ∧
        running.outValid = true ∧ t.outValid = false) :=
  ⟨⟨eq_next_after _ (by decide +kernel), by decide +kernel⟩, ⟨eq_next_after _ (by decide +kernel), by decide +kernel⟩,
    ⟨eq_next_after _ (by decide +kernel), by decide +kernel⟩, ⟨eq_next_after _ (by decide +kernel), by decide +kernel⟩⟩

/-- A CALIBRATE and a DESTROY while OUT is defined. -/
theorem witness_OutputStays : running.seq = 0 ∧ (facing (wr 0x8 0x202) running).outValid = true ∧
    step (facing (wr 0x8 0x202) running) = .next (after (step (facing (wr 0x8 0x202) running))) ∧
    step (facing (wr 0x8 4) running) = .next (after (step (facing (wr 0x8 4) running))) :=
  ⟨by decide +kernel, by decide +kernel, eq_next_after _ (by decide +kernel), eq_next_after _ (by decide +kernel)⟩

/-- Writing 1 to bit 6 of STATUS clears ERRS; a word with no opcode sets it. -/
theorem witness_StickyErrorFlag :
    (let s := facing (wr 0xC 0x40) { live with errs := true };
      step s = .next (after (step s)) ∧ s.errs = true ∧ (after (step s)).errs = false) ∧
    (let s := facing (wr 0x8 7) live;
      step s = .next (after (step s)) ∧ s.errs = false ∧ (after (step s)).errs = true) :=
  ⟨⟨eq_next_after _ (by decide +kernel), by decide +kernel⟩, ⟨eq_next_after _ (by decide +kernel), by decide +kernel⟩⟩

/-- A write of BETA while UNCONFIGURED. -/
theorem witness_ConfigurationKept :
    step (facing (wr 0x28 0) (ready regs)) = .next (after (step (facing (wr 0x28 0) (ready regs)))) ∧
    (after (step (facing (wr 0x28 0) (ready regs)))).cfg ≠ (ready regs).cfg :=
  ⟨eq_next_after _ (by decide +kernel), by decide +kernel⟩

theorem witness_StepCompletes : (facing (wr 0x8 0x203) live).Inv := facing_inv live_inv

/-! ### Bus transactions -/

/-- The last element of NOISE is mapped for a read and the one after it is not; STATUS is mapped for a write and ID is
not; a wrong size and an unaligned offset. -/
theorem witness_ErrResponses : (facing (.read 0x18008 4) live).Inv ∧
    ((0x18008 : Addr).toNat % 4 = 0 ∧ live.ReadMapped 0x18008) ∧
    ¬((4 : Nat) = 4 ∧ (0x1800C : Addr).toNat % 4 = 0 ∧ live.ReadMapped 0x1800C) ∧
    ((0xC : Addr).toNat % 4 = 0 ∧ live.WriteMapped 0xC) ∧
    ¬((4 : Nat) = 4 ∧ (0x0 : Addr).toNat % 4 = 0 ∧ live.WriteMapped 0x0) ∧
    ¬((2 : Nat) = 4 ∧ (0xC : Addr).toNat % 4 = 0 ∧ live.WriteMapped 0xC) := by
  have hm : live.mode = .configured := by decide +kernel
  have hK : live.K = 3 := by decide +kernel
  have hN : live.N = 4 := by decide +kernel
  have hH : live.H = 2 := by decide +kernel
  have hs : live.build.smax = 1 := by decide +kernel
  have hh : live.build.hmax = 2 := by decide +kernel
  refine ⟨facing_inv live_inv, ⟨by decide, ?_⟩, ?_, ⟨by decide, .inr (.inl rfl)⟩, ?_, by omega⟩
  · exact .inr (.inr (.inr ⟨hm, .inr (.inr (.inr (.inr (.inl ⟨2, by omega, rfl⟩))))⟩))
  · rintro ⟨-, -, h⟩
    simp only [Generic.State.ReadMapped, RwuOffset, hs, hh, hK, hN, hH] at h
    rcases h with h | (⟨r, h⟩ | ⟨sec, hsec, r, h⟩) | ⟨i, hi, h⟩ | ⟨-, h⟩
    · omega
    · cases r <;> simp [CfgReg.offset] at h
    · cases r <;> simp only [coefOffset, CoefReg.number] at h <;> omega
    · omega
    · rcases h with ⟨-, i, hi, h⟩ | ⟨i, hi, h⟩ | ⟨i, hi, h⟩ | ⟨i, hi, h⟩ | ⟨i, hi, h⟩ | ⟨-, i, hi, h⟩ |
        ⟨-, i, hi, j, hj, h⟩ | ⟨-, i, hi, j, hj, h⟩ <;> omega
  · rintro ⟨-, -, h⟩
    rcases h with h | h | ⟨h, -⟩ | ⟨i, hi, h⟩
    · simp at h
    · simp at h
    · rw [hm] at h; cases h
    · change 0 = 0x4000 + 4 * i at h; omega

theorem witness_IdentificationRegisters : State.reset.build.Legal ∧ State.reset.build = Build.default :=
  ⟨witness_ReadsAfterReset.1, rfl⟩

theorem witness_LengthCommandAndResultRegisters : live.mode = .configured ∧ State.reset.mode = .unconfigured ∧
    decode (.cmd 0x203) = .ok (.process 2) := ⟨by decide +kernel, rfl, rfl⟩

/-- The first register and the last coefficient, in both modes; another offset that reads as it did. -/
theorem witness_ConfigurationWrites : live.Inv ∧ (ready regs).Inv ∧ RwuOffset 1 (0x20 : Addr).toNat ∧
    RwuOffset 1 (0x50 : Addr).toNat ∧ live.mode = .configured ∧ (ready regs).mode = .unconfigured ∧
    (0x24 : Addr) ≠ 0x20 ∧ exec (.rd 0x24) (ready regs) = .next { ready regs with response := .readOk 4 } :=
  ⟨live_inv, ready_inv, .inl ⟨.sampleRate, rfl⟩, .inr ⟨0, by decide, .a2, rfl⟩, by decide +kernel, rfl, by decide, rfl⟩

/-- The last word of IN. -/
theorem witness_InputBufferWrites : live.build.Legal ∧ 1 < live.build.hmax ∧ (0x4004 : Addr).toNat = 0x4000 + 4 * 1 :=
  ⟨live_inv.build, by decide +kernel⟩

/-- Every window's last element; a filter with a section that it does not run. -/
theorem witness_WindowReads : (live.Inv ∧ live.mode = .configured ∧ 3 < live.N ∧ 1 < live.N - live.H ∧ 2 < live.K) ∧
    (running.Inv ∧ running.mode = .configured ∧ 1 < running.H ∧ running.outValid = true ∧ running.gainValid = true) ∧
    (liveFilter.Inv ∧ liveFilter.mode = .configured ∧ 0 < liveFilter.cfg.sections ∧ liveFilter.hpfEn = true) :=
  ⟨⟨live_inv, by decide +kernel⟩, ⟨running_inv, by decide +kernel⟩, ⟨liveFilter_inv, by decide +kernel⟩⟩

/-! ### Containers -/

/-- The exponent fields at the ends of each clause. -/
theorem witness_ContainerDecodes :
    let e (w : Word) := w.toNat / 2 ^ 23 % 2 ^ 8
    e 0x00800000 = 1 ∧ e 0xFF7FFFFF = 254 ∧ e 0x807FFFFF = 0 ∧ e 0x7F800000 = 255 ∧ e 0xFFFFFFFF = 255 := by decide

/-- The square root of 2 has an enclosure. -/
theorem witness_ReferenceSemantics :
    (Exact.root (.rat 2)).bracket 64 = some (((Exact.root (.rat 2)).bracket 64).getD ⟨0, 0⟩) := by decide +kernel

theorem witness_ContainerRoundTrip : num? 0x80000000 = some 0 ∧ num? 0x00000001 = some (1 / 2 ^ 149) ∧
    num? 0xC0400000 = some (-3) := by decide +kernel

/-! ### Commands -/

theorem witness_NopResult : (0x00000100 : Word).toNat % 2 ^ 8 = 0 ∧ (0x00000100 : Word) ≠ 0 := by decide

theorem witness_DestroyResult : 0x8000 ≤ (0x3FFFC : Addr).toNat ∧ RwuOffset live.build.smax (0x3C : Addr).toNat ∧
    live.build.Legal ∧ (0x01000004 : Word).toNat % 2 ^ 8 = 4 ∧ (0x01000004 : Word) ≠ 4 :=
  ⟨by decide, .inl ⟨.hpOrder, rfl⟩, live_inv.build, by decide, by decide⟩

theorem witness_ConfigureConstructs : (ready regs).Inv ∧ (ready regs).mode = .unconfigured ∧
    (ready regs).configFailure exactArith = none := ⟨ready_inv, rfl, by decide +kernel⟩

/-- The mode and coefficient premises, and a configuration for each kind of check: an odd length, a negative factor, a
smoothing factor of 1, an order of 0 with the filter enabled, and one that passes them all. -/
theorem witness_ConfigureChecks : (ready regs).mode = .unconfigured ∧
    (ready regs).cfg.coef.length = (ready regs).build.smax ∧
    Generic.failure exactArith { regs with sampleRate := 0 } 4 1 = some (.cfgRate, 0) ∧
    Generic.failure exactArith { regs with frameLen := 0 } 4 1 = some (.cfgLenZero, 0) ∧
    Generic.failure exactArith { regs with frameLen := 3 } 4 1 = some (.cfgLenOdd, 3) ∧
    Generic.failure exactArith { regs with frameLen := 6 } 4 1 = some (.cfgLenBig, 6) ∧
    Generic.failure exactArith { regs with beta := 0xBF800000 } 4 1 = some (.cfgBeta, 0xBF800000) ∧
    Generic.failure exactArith { regs with floor := 0x7F800000 } 4 1 = some (.cfgFloor, 0x7F800000) ∧
    Generic.failure exactArith { regs with alphaN := 0x3F800000 } 4 1 = some (.cfgAlphaN, 0x3F800000) ∧
    Generic.failure exactArith { regs with alphaG := 0x80000001 } 4 1 = some (.cfgAlphaG, 0x80000001) ∧
    Generic.failure exactArith { regs with hpCutoff := 0xFF800000 } 4 1 = some (.cfgCutoff, 0xFF800000) ∧
    Generic.failure exactArith { filterRegs with hpOrder := 3 } 4 1 = some (.cfgOrder, 3) ∧
    Generic.failure exactArith { filterRegs with coef := [⟨0, 0, 0, 0, 0x7FC00000⟩] } 4 1 = some (.cfgCoef, 4) ∧
    Generic.failure exactArith { filterRegs with coef := [⟨0, 0, 0, 0, 0xBF800000⟩] } 4 1 = some (.cfgCoef, 0xFF) ∧
    Generic.failure exactArith regs 4 1 = none ∧ Generic.failure exactArith filterRegs 4 1 = none := by decide +kernel

theorem witness_ConfigureTwice : live.mode = .configured := by decide +kernel

theorem witness_StreamChecks : State.reset.mode = .unconfigured ∧ live.mode = .configured ∧
    (1 : BitVec 16).toNat ≠ live.cfg.frameLen.toNat / 2 ∧ (3 : BitVec 16).toNat ≠ live.cfg.frameLen.toNat / 2 := by
  decide +kernel

/-- A command that fails and one that succeeds. -/
theorem witness_ErrorsArePrecise :
    (exec (.wr 0x8 7) live = .next (after (exec (.wr 0x8 7) live)) ∧ (after (exec (.wr 0x8 7) live)).err = true) ∧
    (exec (.wr 0x8 0x203) live = .next (after (exec (.wr 0x8 0x203) live)) ∧
      (after (exec (.wr 0x8 0x203) live)).err = false) :=
  ⟨⟨eq_next_after _ (by decide +kernel), by decide +kernel⟩, ⟨eq_next_after _ (by decide +kernel), by decide +kernel⟩⟩

/-- With the filter disabled and enabled. -/
theorem streamed (s : State) (h : s.H = 2) (h0 : num? (s.inWord 0) = some 0) (h1 : num? (s.inWord 1) = some 0) :
    ∀ i < s.H, num? (s.inWord i) = some 0 := by
  intro i hi
  obtain rfl | rfl : i = 0 ∨ i = 1 := by omega
  · exact h0
  · exact h1

theorem witness_CalibrateRuns : (live.mode = .configured ∧ (2 : BitVec 16).toNat = live.H ∧ live.hpfEn = false ∧
      ∀ i < live.H, ∃ q, num? (live.inWord i) = some q) ∧
    (liveFilter.mode = .configured ∧ (2 : BitVec 16).toNat = liveFilter.H ∧ liveFilter.hpfEn = true ∧
      ∀ i < liveFilter.H, ∃ q, num? (liveFilter.inWord i) = some q) :=
  ⟨⟨by decide +kernel, by decide +kernel, by decide +kernel, fun i hi =>
      ⟨0, streamed live (by decide +kernel) (by decide +kernel) (by decide +kernel) i hi⟩⟩,
    ⟨by decide +kernel, by decide +kernel, by decide +kernel, fun i hi =>
      ⟨0, streamed liveFilter (by decide +kernel) (by decide +kernel) (by decide +kernel) i hi⟩⟩⟩

theorem witness_ProcessRuns : (live.mode = .configured ∧ (2 : BitVec 16).toNat = live.H ∧ live.hpfEn = false ∧
      ∀ i < live.H, ∃ q, num? (live.inWord i) = some q) ∧
    (liveFilter.mode = .configured ∧ (2 : BitVec 16).toNat = liveFilter.H ∧ liveFilter.hpfEn = true ∧
      ∀ i < liveFilter.H, ∃ q, num? (liveFilter.inWord i) = some q) := witness_CalibrateRuns

theorem witness_ProcessOutput : running.Inv ∧ running.mode = .configured ∧
    exec (.process 2) running = .next (after (exec (.process 2) running)) ∧
    (after (exec (.process 2) running)).err = false ∧ 1 < running.H :=
  ⟨running_inv, by decide +kernel, eq_next_after _ (by decide +kernel), by decide +kernel, by decide +kernel⟩

/-- IN[1] is the first container that is not finite. -/
theorem witness_NonFiniteSampleRefused :
    let s := withIn 0x3F800000 0x7F800000 live
    1 < s.H ∧ num? (s.inWord 1) = none ∧ (∀ j < 1, ∃ q, num? (s.inWord j) = some q) ∧ s.mode = .configured ∧
      (2 : BitVec 16).toNat = s.H := by
  refine ⟨by decide +kernel, by decide +kernel, fun j hj => ⟨1, ?_⟩, by decide +kernel, by decide +kernel⟩
  obtain rfl : j = 0 := by omega
  decide +kernel

theorem witness_SilenceStable : live.mode = .configured ∧ (2 : BitVec 16).toNat = live.H ∧
    (∀ i < live.H, num? (live.inWord i) = some 0) ∧ (∀ i, valAt live.tail i = 0) ∧ (∀ i, valAt live.ola i = 0) ∧
    (∀ sec, stateAt live.hpz sec = (0, 0)) := by
  have ht : live.tail = zeros exactArith 2 := by decide +kernel
  have ho : live.ola = zeros exactArith 4 := by decide +kernel
  have hz : live.hpz = [restZero exactArith] := by decide +kernel
  refine ⟨by decide +kernel, by decide +kernel, streamed live (by decide +kernel) (by decide +kernel) (by decide +kernel),
    fun i => ?_, fun i => ?_, fun sec => ?_⟩
  · rw [ht]; simp
  · rw [ho]; simp
  · rw [hz]; cases sec <;> simp [stateAt, restZero]

/-! ### Units -/

theorem witness_WingenWrites : 2 ≤ (ready regs).N ∧ 0 < (ready regs).build.epsWin.val :=
  ⟨by decide +kernel, rat_pos (by norm_num)⟩

theorem witness_WindowSymmetric : 2 ≤ (ready regs).N ∧ 0 < (ready regs).build.epsWin.val ∧
    exec .wingen (ready regs) = .next (wingen exactArith (ready regs)) :=
  ⟨by decide +kernel, rat_pos (by norm_num), rfl⟩

theorem witness_WindowOverlap : 2 ≤ (ready regs).N ∧ (ready regs).N % 2 = 0 ∧ 0 < (ready regs).build.epsWin.val ∧
    exec .wingen (ready regs) = .next (wingen exactArith (ready regs)) ∧ 1 < (ready regs).H :=
  ⟨by decide +kernel, by decide +kernel, rat_pos (by norm_num), rfl, by decide +kernel⟩

/-- The filter enabled, with two sections in use whose gains are finite, and disabled; a section past those in use. -/
theorem witness_HpfSetupWrites : (twoSections.cfg.sections ≤ twoSections.cfg.coef.length ∧ twoSections.hpfEn = true ∧
    1 < twoSections.cfg.sections ∧ twoSections.cfg.sections ≤ 2 ∧
    (ready regs).cfg.sections ≤ (ready regs).cfg.coef.length ∧ (ready regs).hpfEn = false) ∧
    ∀ r ≤ 1, (∀ c, ∃ q, num? (twoSections.cfg.getCoef r c) = some q) ∧
      1 + twoSections.cfg.coefAt r .a1 + twoSections.cfg.coefAt r .a2 ≠ 0 := by
  refine ⟨by decide +kernel, fun r hr => ⟨fun c => Option.isSome_iff_exists.1 ?_, ?_⟩⟩
  · interval_cases r <;> cases c <;> decide +kernel
  · have h1 : numOf (twoSections.cfg.getCoef r .a1) = -1 / 2 := by interval_cases r <;> decide +kernel
    have h2 : numOf (twoSections.cfg.getCoef r .a2) = 0 := by interval_cases r <;> decide +kernel
    simp only [ConfigRegs.coefAt, h1, h2]
    norm_num

theorem witness_HpfDisabled : live.hpfEn = false := by decide +kernel

/-- A frame with the filter started afresh, and one with the state carried. -/
theorem witness_HpfFilters :
    let s := { liveFilter with work := { Generic.Work.empty with frame := nums [2, 4, 3, 3] } }
    let c := { s with build := { small with hpfReinit := false }, hpfPrimed := true, hpz := [(.rat (-5 / 4), .rat 0)] }
    (s.hpfEn = true ∧ s.cfg.sections ≤ s.cfg.coef.length ∧ s.cfg.sections ≤ s.hpzi.length ∧ s.cfg.sections ≤ s.hpz.length ∧
      (s.build.hpfReinit = true ∨ s.hpfPrimed = false)) ∧
    (c.hpfEn = true ∧ c.cfg.sections ≤ c.cfg.coef.length ∧ c.cfg.sections ≤ c.hpzi.length ∧ c.cfg.sections ≤ c.hpz.length ∧
      ¬(c.build.hpfReinit = true ∨ c.hpfPrimed = false)) := by decide +kernel

/-- The constant frame 3, 3, 3, 3, with the state carried at HPZI·3 = (−3/2, 0). -/
theorem witness_HpfConstantFrame :
    let t := hpfSetup exactArith liveFilter
    let u := { t with
      build := { small with hpfReinit := false }, hpfPrimed := true, hpz := [(.rat (-3 / 2), .rat 0)]
      work := { Generic.Work.empty with frame := nums [3, 3, 3, 3] } }
    exec .hpfSetup liveFilter = .next t ∧ liveFilter.hpfEn = true ∧
    liveFilter.cfg.sections ≤ liveFilter.cfg.coef.length ∧
    ((3 : ℝ) ≠ 0 → ∀ sec < liveFilter.cfg.sections, 1 + liveFilter.cfg.coefAt sec .a1 + liveFilter.cfg.coefAt sec .a2 ≠ 0) ∧
    u.hpfEn = true ∧ u.cfg = liveFilter.cfg ∧ u.hpzi = t.hpzi ∧ liveFilter.cfg.sections ≤ u.hpz.length ∧
    (∀ n < u.work.frame.length, valAt u.work.frame n = 3) ∧ 0 < u.work.frame.length ∧
    u.build.hpfReinit = false ∧ u.hpfPrimed = true ∧
    ∀ sec < liveFilter.cfg.sections, stateAt u.hpz sec = ((stateAt t.hpzi sec).1 * 3, (stateAt t.hpzi sec).2 * 3) := by
  intro t u
  have hS : liveFilter.cfg.sections = 1 := by decide +kernel
  have hz : t.hpzi = [(.rat (-1 / 2), .rat 0)] := by decide +kernel
  refine ⟨rfl, by decide +kernel, by decide +kernel, fun _ => filter_not_singular (by decide +kernel), by decide +kernel, rfl,
    rfl, by decide +kernel, fun n hn => ?_, by decide, rfl, rfl, fun sec hs => ?_⟩
  · have hn : n < 4 := hn
    interval_cases n <;> simp [u, nums, valAt]
  · obtain rfl : sec = 0 := by omega
    rw [hz]
    norm_num [u, stateAt, Exact.val]

theorem witness_FrameBuildAssembles : live.N % 2 = 0 ∧ live.tail.length = live.N - live.H ∧
    ∀ i < live.H, ∃ q, num? (live.inWord i) = some q :=
  ⟨by decide +kernel, by decide +kernel, witness_CalibrateRuns.1.2.2.2⟩

/-- A configured state with a synthesised frame. -/
def emitting : State := { live with work := { Generic.Work.empty with syn := nums [10, 20, 30, 40] } }

theorem witness_OlaEmitOutputs : emitting.N % 2 = 0 ∧ emitting.ola.length = emitting.N ∧
    emitting.work.syn.length = emitting.N := by decide +kernel

/-- The same frame emitted again and again, from the zeroed accumulator. -/
def emits : Nat → State
  | 0 => emitting
  | p + 1 => olaEmit exactArith (emits p)

theorem emits_syn (p : Nat) : (emits p).work.syn = nums [10, 20, 30, 40] := by
  induction p with
  | zero => rfl
  | succ p ih => exact ih

theorem witness_EmitClosedForm :
    let syn (p i : Nat) : ℝ := if p = 0 then 0 else valAt (nums [10, 20, 30, 40]) i
    (emits 0).N = 2 * 2 ∧ (emits 0).ola.length = 2 * 2 ∧ (∀ i, valAt (emits 0).ola i = 0) ∧ (∀ i, syn 0 i = 0) ∧
    (∀ p, ∃ u, u.ola = (emits p).ola ∧ u.cfg = (emits p).cfg ∧ u.work.syn.length = 2 * 2 ∧
      (∀ i, valAt u.work.syn i = syn (p + 1) i) ∧ exec .olaEmit u = .next (emits (p + 1))) := by
  intro syn
  have ho : (emits 0).ola = zeros exactArith 4 := by decide +kernel
  refine ⟨by decide +kernel, by decide +kernel, fun i => ?_, fun i => rfl, fun p => ⟨emits p, rfl, rfl, ?_, ?_, rfl⟩⟩
  · rw [ho]; simp
  · rw [emits_syn]; rfl
  · intro i; rw [emits_syn]; simp [syn]

theorem witness_AnalyzeTransforms : 0 < (filtered [1, 3, -3, 0]).N ∧ (filtered [1, 3, -3, 0]).N % 2 = 0 ∧
    (filtered [1, 3, -3, 0]).win.length = (filtered [1, 3, -3, 0]).N ∧
    (filtered [1, 3, -3, 0]).work.filt.length = (filtered [1, 3, -3, 0]).N := by decide +kernel

theorem witness_SynthInverts :
    let s := { live with
      work := { Generic.Work.empty with g := nums [1, 0, 0], mag := nums [10, 3, 2], phs := cplx [(1, 0), (0, 1), (-1, 0)] } }
    0 < s.N ∧ s.N % 2 = 0 ∧ s.win.length = s.N ∧ s.work.g.length = s.K ∧ s.work.mag.length = s.K ∧
      s.work.phs.length = s.K := by decide +kernel

theorem witness_TransformInverts : 0 < 6 ∧ 6 % 2 = 0 ∧ ([√2, 2, 3, 4, 5, 6] : List ℝ).length = 6 ∧
    (nums [1, 2, 3, 4, 5, 6]).length = 6 := ⟨by decide, by decide, rfl, rfl⟩

theorem witness_UnitGainSynthesis :
    let s := filtered [1, 3, -3, 0]
    0 < s.N ∧ s.N % 2 = 0 ∧ s.win.length = s.N ∧ s.work.filt.length = s.N ∧ exec .analyze s = .next (analyze exactArith s) ∧
      (nums [1, 1, 1]).length = s.K ∧ ∀ k < s.K, valAt (nums [1, 1, 1]) k = 1 := by
  refine ⟨by decide +kernel, by decide +kernel, by decide +kernel, by decide +kernel, rfl, by decide +kernel, fun k hk => ?_⟩
  have hK : (filtered [1, 3, -3, 0]).K = 3 := by decide +kernel
  rw [hK] at hk
  interval_cases k <;> simp [nums, valAt]

/-- A state with magnitudes, before NOISE_UPDATE or GAIN. -/
def measured : State := { running with work := { Generic.Work.empty with mag := nums [7 / 2, 5 / 2, 1 / 2] } }

theorem witness_NoiseUpdates : num? measured.cfg.alphaN = some (1 / 2) ∧
    measured.noise.length = measured.work.mag.length := by decide +kernel

/-- The same magnitudes again and again. -/
def updates : Nat → State
  | 0 => measured
  | n + 1 => noiseUpdate exactArith (updates n)

theorem updates_mag (n : Nat) : (updates n).work.mag = nums [7 / 2, 5 / 2, 1 / 2] := by
  induction n with
  | zero => rfl
  | succ n ih => exact ih

theorem witness_NoiseConverges : num? (updates 0).cfg.alphaN = some (1 / 2) ∧ (0 : ℚ) ≤ 1 / 2 ∧ (1 / 2 : ℚ) < 1 ∧
    0 < (updates 0).noise.length ∧
    (∀ n, ∃ u, u.noise = (updates n).noise ∧ u.cfg = (updates n).cfg ∧ 0 < u.work.mag.length ∧ valAt u.work.mag 0 = 7 / 2 ∧
      exec .noiseUpdate u = .next (updates (n + 1))) := by
  refine ⟨by decide +kernel, by norm_num, by norm_num, by decide +kernel, fun n => ⟨updates n, rfl, rfl, ?_, ?_, rfl⟩⟩
  · rw [updates_mag]; decide
  · rw [updates_mag]; norm_num [nums, valAt, Exact.val]

/-- With a previous gain, and without one. -/
theorem witness_GainComputes : num? measured.cfg.beta = some 1 ∧ num? measured.cfg.floor = some (1 / 4) ∧
    num? measured.cfg.alphaG = some (1 / 2) ∧ measured.noise.length = measured.work.mag.length ∧
    measured.gainValid = true ∧ measured.pgain.length = measured.work.mag.length ∧
    ({ measured with gainValid := false } : State).gainValid = false ∧
    valAt measured.work.mag 0 + measured.build.epsGain.val ≠ 0 := by
  have he : measured.build.epsGain = .rat (1 / 2) := by decide +kernel
  refine ⟨by decide +kernel, by decide +kernel, by decide +kernel, by decide +kernel, by decide +kernel, by decide +kernel,
    rfl, ?_⟩
  rw [he]
  norm_num [measured, nums, valAt, Exact.val]

/-- The three bins of a frame: the magnitude above the floored noise, equal to it, and far below it. -/
def bins : State :=
  { live with noise := nums [1, 2, 8], gainValid := true, pgain := nums [1, 1, 1]
              work := { Generic.Work.empty with mag := nums [1, 1 / 2, 1] } }

theorem witness_GainBounds : num? bins.cfg.beta = some 1 ∧ (0 : ℚ) ≤ 1 ∧ num? bins.cfg.floor = some (1 / 4) ∧
    (0 : ℚ) ≤ 1 / 4 ∧ num? bins.cfg.alphaG = some (1 / 2) ∧ (0 : ℚ) ≤ 1 / 2 ∧ (1 / 2 : ℚ) < 1 ∧ 0 < bins.build.epsGain.val ∧
    (∀ k < 3, k < bins.work.mag.length ∧ k < bins.noise.length ∧ k < bins.pgain.length ∧
      0 ≤ valAt bins.work.mag k ∧ 0 ≤ valAt bins.noise k ∧ 0 ≤ valAt bins.pgain k) ∧
    exec .gain bins = .next (gain exactArith bins) ∧ (1 / 4 : ℝ) * valAt bins.noise 0 ≤ valAt bins.work.mag 0 ∧
    (1 / 4 : ℝ) * valAt bins.noise 1 = valAt bins.work.mag 1 ∧
    valAt bins.work.mag 2 + bins.build.epsGain.val < 1 / 4 * valAt bins.noise 2 := by
  have he : bins.build.epsGain = .rat (1 / 2) := by decide +kernel
  refine ⟨by decide +kernel, by norm_num, by decide +kernel, by norm_num, by decide +kernel, by norm_num, by norm_num,
    by rw [he]; exact rat_pos (by norm_num), fun k hk => ?_, rfl, ?_, ?_, ?_⟩
  · interval_cases k <;> norm_num [bins, nums, valAt, Exact.val]
  · norm_num [bins, nums, valAt, Exact.val]
  · norm_num [bins, nums, valAt, Exact.val]
  · rw [he]; norm_num [bins, nums, valAt, Exact.val]

/-- The last clause: a noise floor ratio of 0. -/
theorem witness_GainBounds_zero_floor : num? ({ regs with floor := 0 } : ConfigRegs).floor = some 0 := by decide +kernel

end Sys2Proof.Tests
end

section
/-! The proofs about the registers below 0x20 (spec/10_state.md R34, R41, R50, R53): first what a transaction answers once
the location its offset names is known, then the offsets of the eight registers, then what each register reads. -/

namespace Sys2Proof.Machine

open Generic

/-! ## Transactions by the location their offset names -/

/-- A read, by what its offset names (R245). -/
theorem exec_rd_of_readLoc {s : State} {addr : Addr} {l : Loc} {w : Word} (hl : s.locOf addr = l)
    (hw : s.readLoc exactArith l = some w) : exec (.rd addr) s = .next { s with response := .readOk w } := by
  change execRd addr s = _
  rw [execRd_eq, hl, hw, readResponse]

/-- A write, by what its offset names (R246). -/
theorem exec_wr_of_writeLoc {s : State} {addr : Addr} {l : Loc} {data : Word} {a : Answer State} (hl : s.locOf addr = l)
    (ha : s.writeLoc exactArith data l = a) : exec (.wr addr data) s = a := by
  change s.writeLoc exactArith data (s.locOf addr) = a
  rw [hl, ha]

/-! ## The offsets of the eight registers that are not configuration (R40) -/

section
variable {ν : Type} (s : Generic.State ν)

@[simp] theorem Generic.State.locOf_id : s.locOf 0x0 = .id := locate_register (by decide) (by decide)
@[simp] theorem Generic.State.locOf_cap : s.locOf 0x4 = .cap := locate_register (by decide) (by decide)
@[simp] theorem Generic.State.locOf_cmd : s.locOf 0x8 = .cmd := locate_register (by decide) (by decide)
@[simp] theorem Generic.State.locOf_status : s.locOf 0xC = .status := locate_register (by decide) (by decide)
@[simp] theorem Generic.State.locOf_errCode : s.locOf 0x10 = .errCode := locate_register (by decide) (by decide)
@[simp] theorem Generic.State.locOf_errInfo : s.locOf 0x14 = .errInfo := locate_register (by decide) (by decide)
@[simp] theorem Generic.State.locOf_hopLen : s.locOf 0x18 = .hopLen := locate_register (by decide) (by decide)
@[simp] theorem Generic.State.locOf_nbins : s.locOf 0x1C = .nbins := locate_register (by decide) (by decide)

end

/-! ## What the registers hold, and what a write to one does -/

theorem Mode.flag_eq_true_iff (m : Mode) : m.flag = true ↔ m = .configured := by cases m <;> simp [Mode.flag]

/-- CAP of a block with the default parameters (R41). -/
theorem capWord_default : capWord Build.default = 0x00110400 := by decide

/-- A write to STATUS with its answer: bit 6 is the only one looked at, and ERRS the only flag written (R34). -/
theorem writeStatus_respond (s : State) (data : Word) : (s.writeStatus data).respond .writeOk =
    { s with errs := if data.getLsbD 6 = true then false else s.errs, response := .writeOk } := by
  rw [State.writeStatus, State.respond]
  cases data.getLsbD 6 <;> simp

/-- HOP_LEN while CONFIGURED: H fits in the word, as it is at most FRAME_LEN (R50). -/
theorem hopLen_toNat_of_configured {s : State} (h : s.mode = .configured) : s.hopLen.toNat = s.H := by
  have := s.cfg.frameLen.isLt
  rw [State.hopLen, if_pos h, BitVec.toNat_ofNat, Nat.mod_eq_of_lt]
  unfold State.H State.N
  omega

/-- NBINS while CONFIGURED: K fits in the word, as it is at most 2^31 (R50). -/
theorem nbins_toNat_of_configured {s : State} (h : s.mode = .configured) : s.nbins.toNat = s.K := by
  have := s.cfg.frameLen.isLt
  rw [State.nbins, if_pos h, BitVec.toNat_ofNat, Nat.mod_eq_of_lt]
  unfold State.K State.N
  omega

theorem hopLen_of_unconfigured {s : State} (h : s.mode = .unconfigured) : s.hopLen = 0 := by simp [State.hopLen, h]

theorem nbins_of_unconfigured {s : State} (h : s.mode = .unconfigured) : s.nbins = 0 := by simp [State.nbins, h]

/-- The decoder of command words answers the five commands alone (R101). -/
theorem eq_command_of_decodeCmd {w : Word} {i : Instr} (h : decodeCmd w = .ok i) :
    i = .nop ∨ i = .configure ∨ (∃ len, i = .calibrate len) ∨ (∃ len, i = .process len) ∨ i = .destroy := by
  rcases decodeCmd_cases w with ⟨-, e⟩ | ⟨-, -, e⟩ | ⟨-, e⟩ | ⟨-, e⟩ | ⟨len, -, e⟩ | ⟨len, -, e⟩ | ⟨-, e⟩ <;>
    cases e.symm.trans h <;> simp

/-- A command word runs the command it encodes (R53, R230): for each of the five, `runWord` and `exec` go to the same
meaning. -/
theorem runWord_of_decodeCmd {w : Word} {i : Instr} (s : State) (h : decodeCmd w = .ok i) :
    runWord exactArith w s = exec i s := by
  unfold runWord
  rw [h]
  obtain rfl | rfl | ⟨len, rfl⟩ | ⟨len, rfl⟩ | rfl := eq_command_of_decodeCmd h <;> rfl

/-! ## The statements -/

/-- Settles O21: ID and CAP have constant words, and the map has no write for either. -/
theorem identificationRegisters : Obligations.IdentificationRegisters := by
  intro s data hb
  have defaultCap (h : s.build = Build.default) : capWord s.build = 0x00110400 := by rw [h, capWord_default]
  exact ⟨exec_rd_of_readLoc s.locOf_id rfl,
    ⟨capWord s.build, exec_rd_of_readLoc s.locOf_cap rfl, capWord_toNat hb, defaultCap⟩,
    exec_wr_of_writeLoc s.locOf_id rfl, exec_wr_of_writeLoc s.locOf_cap rfl⟩

/-- Settles O22: every bit of the word read is a case of `status_getLsbD`, and the write is `writeStatus_respond`. -/
theorem statusRegister : Obligations.StatusRegister := by
  refine ⟨fun s => ?read, fun s data => ?write, by decide⟩
  case read =>
    have bit (n : Nat) := status_getLsbD s n
    have modeBit : s.status.getLsbD 0 = true ↔ s.mode = .configured := by
      rw [← Mode.flag_eq_true_iff, show s.status.getLsbD 0 = s.mode.flag from bit 0]
    have zerosAbove (i : Nat) (hi : 7 ≤ i) : s.status.getLsbD i = false := by
      obtain ⟨n, rfl⟩ := Nat.exists_eq_add_of_le' hi
      exact bit (n + 7)
    exact ⟨s.status, exec_rd_of_readLoc s.locOf_status rfl, modeBit, bit 1, bit 2, bit 3, bit 4, bit 5, bit 6, zerosAbove⟩
  case write =>
    rw [← writeStatus_respond]
    exact exec_wr_of_writeLoc s.locOf_status rfl

/-- Settles O23: the two lengths by the mode, CMD by what decoding its word can answer, the rest by the address map. -/
theorem lengthCommandAndResultRegisters : Obligations.LengthCommandAndResultRegisters := by
  intro s w
  refine ⟨⟨s.hopLen, s.nbins, exec_rd_of_readLoc s.locOf_hopLen rfl, exec_rd_of_readLoc s.locOf_nbins rfl,
      fun h => ⟨hopLen_toNat_of_configured h, nbins_toNat_of_configured h⟩,
      fun h => ⟨hopLen_of_unconfigured h, nbins_of_unconfigured h⟩⟩,
    fun i hi => exec_wr_of_writeLoc s.locOf_cmd (runWord_of_decodeCmd s hi),
    exec_rd_of_readLoc s.locOf_cmd rfl, exec_rd_of_readLoc s.locOf_errCode rfl, exec_rd_of_readLoc s.locOf_errInfo rfl, ?_⟩
  rintro addr (rfl | rfl | rfl | rfl)
  · exact exec_wr_of_writeLoc s.locOf_errCode rfl
  · exact exec_wr_of_writeLoc s.locOf_errInfo rfl
  · exact exec_wr_of_writeLoc s.locOf_hopLen rfl
  · exact exec_wr_of_writeLoc s.locOf_nbins rfl

end Sys2Proof.Machine
end

section
/-! The proofs about bus transactions and containers (spec/20_memory.md R73, R78, R79). What a location must satisfy for a
read and for a write is said once, as `CanRead` and `CanWrite`, tied to the machine on one side (`readLoc_eq_none_iff`,
`writeLoc_of_not_canWrite`) and to the spec's own map on the other (`readMapped_iff`, `writeMapped_iff`). -/

namespace Sys2Proof.Machine

open Generic

/-! ## The locations that a transaction of the right size and alignment answers OK (R76, R77, R78) -/

/-- A read of the location is answered OK. -/
def Generic.State.CanRead {ν : Type} (s : Generic.State ν) : Loc → Prop
  | .inWord i => i < s.build.hmax
  | .out i => s.mode = .configured ∧ s.outValid = true ∧ i < s.H
  | .win i => s.mode = .configured ∧ i < s.N
  | .tail i => s.mode = .configured ∧ i < s.N - s.H
  | .ola i => s.mode = .configured ∧ i < s.N
  | .noise i => s.mode = .configured ∧ i < s.K
  | .pgain i => s.mode = .configured ∧ s.gainValid = true ∧ i < s.K
  | .hpz _ _ => s.mode = .configured ∧ s.hpfEn = true
  | .hpzi _ _ => s.mode = .configured ∧ s.hpfEn = true
  | .unmapped => False
  | _ => True

/-- A write of the location is answered OK. -/
def Generic.State.CanWrite {ν : Type} (s : Generic.State ν) : Loc → Prop
  | .cmd => True
  | .status => True
  | .cfg _ => s.mode = .unconfigured
  | .coef _ _ => s.mode = .unconfigured
  | .inWord i => i < s.build.hmax
  | _ => False

theorem readElement_eq_none_iff (readable : Bool) (len : Nat) (a : List Exact) (i : Nat) :
    readElement exactArith readable len a i = none ↔ ¬(readable = true ∧ i < len) := by
  unfold readElement
  split <;> simp_all

theorem readStatePart_eq_none_iff (readable : Bool) (sections : Nat) (a : List (SectionState Exact)) (sec c : Nat) :
    readStatePart exactArith readable sections a sec c = none ↔ ¬readable = true := by
  unfold readStatePart
  split <;> simp_all

/-- The machine has no word to answer exactly where a read is not possible. -/
theorem readLoc_eq_none_iff (s : State) (l : Loc) : s.readLoc exactArith l = none ↔ ¬s.CanRead l := by
  cases l <;> simp [State.readLoc, State.CanRead, readElement_eq_none_iff, readStatePart_eq_none_iff, State.outReadable,
    State.arraysReadable, State.pgainReadable, State.filterReadable, Mode.flag_eq_true_iff]

/-! ## What a write answers -/

/-- A write event is answered OK, or it gets ERR and was no write of a word to CMD. -/
theorem Effect.response_of_write {s t : State} {addr : Addr} {size : Nat} {data : Word}
    (h : Effect s (.write addr size data) t) : t.response = .writeOk ∨ ¬(addr = 0x8 ∧ size = 4) := by
  cases h with
  | error _ _ _ hn => exact .inr hn
  | _ => exact .inl rfl

/-- A command answers OK on the bus whether it succeeds or fails (R276, R231). -/
theorem runWord_response {s t : State} {w : Word} (h : runWord exactArith w s = .next t) : t.response = .writeOk :=
  (effect_of_runWord h).response_of_write.resolve_right (by simp)

theorem writeLoc_response_of_canWrite {s t : State} {w : Word} {l : Loc} (hl : s.CanWrite l)
    (h : s.writeLoc exactArith w l = .next t) : t.response = .writeOk := by
  rcases writeLoc_cases s w l with ⟨-, e⟩ | ⟨-, e⟩ | ⟨-, c, -, e⟩ | ⟨i, -, -, e⟩ | ⟨-, hcmd, hstatus, hin, hcfg⟩
  · exact runWord_response (e.symm.trans h)
  · cases e.symm.trans h; rfl
  · cases e.symm.trans h; rfl
  · cases e.symm.trans h; rfl
  · exfalso
    cases l with
    | cmd => exact hcmd rfl
    | status => exact hstatus rfl
    | cfg r => cases hl.symm.trans (hcfg (.inl ⟨r, rfl⟩))
    | coef sec r => cases hl.symm.trans (hcfg (.inr ⟨sec, r, rfl⟩))
    | inWord i => exact (hin i rfl).not_gt hl
    | _ => exact hl

theorem writeLoc_of_not_canWrite {s : State} {w : Word} {l : Loc} (hl : ¬s.CanWrite l) :
    s.writeLoc exactArith w l = .next { s with response := .err } := by
  rcases writeLoc_cases s w l with ⟨rfl, -⟩ | ⟨rfl, -⟩ | ⟨hm, c, ⟨r, rfl, -⟩ | ⟨sec, r, rfl, -⟩, -⟩ | ⟨i, hi, rfl, -⟩ | ⟨e, -⟩
  · exact absurd trivial hl
  · exact absurd trivial hl
  · exact absurd hm hl
  · exact absurd hm hl
  · exact absurd hi hl
  · exact e

/-! ## The spec's map and the machine's (R75, R76) -/

theorem hmax_le_of_legal {b : Build Exact} (h : b.Legal) : b.hmax ≤ 2048 := by
  obtain ⟨-, hn, -⟩ := h
  unfold Build.hmax
  omega

/-- The frame of an accepted configuration fits in its windows (R12, R235). -/
theorem N_le_of_configured {s : State} (h : s.Inv) (hm : s.mode = .configured) : s.N ≤ 4096 := by
  obtain ⟨-, hN, -⟩ := accepted_facts (h.configured hm).accepted
  obtain ⟨-, hn, -⟩ := h.build
  exact hN.trans hn

theorem canRead_locateRegister (s : State) {n : Nat} (h : n < 16) : s.CanRead (locateRegister n) := by
  interval_cases n <;> exact trivial

/-- What the spec maps for a read, the machine answers. -/
theorem canRead_of_readMapped {s : State} (h : s.Inv) {addr : Addr} (ha : addr.toNat % 4 = 0)
    (hmap : s.ReadMapped addr.toNat) : s.CanRead (s.locOf addr) := by
  have names {l : Loc} (hl : l.inMap s.build.smax) (e : addr.toNat = l.offset) : s.locOf addr = l :=
    State.locOf_offset h.build hl e
  have hmax_le := hmax_le_of_legal h.build
  rcases hmap with (hr | (⟨r, e⟩ | ⟨sec, hsec, r, e⟩) | ⟨i, hi, e⟩ | ⟨hm, hw⟩)
  · rw [State.locOf, locate_register ha hr]
    exact canRead_locateRegister s (by omega)
  · rw [names (l := .cfg r) trivial e]; trivial
  · rw [names (l := .coef sec r) hsec e]; trivial
  · rw [names (l := .inWord i) (show i < 4096 by omega) e]; exact hi
  · have hN := N_le_of_configured h hm
    have hH : s.H = s.N / 2 := rfl
    have hK : s.K = s.N / 2 + 1 := rfl
    rcases hw with ⟨hv, i, hi, e⟩ | ⟨i, hi, e⟩ | ⟨i, hi, e⟩ | ⟨i, hi, e⟩ | ⟨i, hi, e⟩ | ⟨hv, i, hi, e⟩ |
      ⟨hv, sec, hsec, c, hc, e⟩ | ⟨hv, sec, hsec, c, hc, e⟩
    · rw [names (l := .out i) (show i < 4096 by omega) e]; exact ⟨hm, hv, hi⟩
    · rw [names (l := .win i) (show i < 4096 by omega) e]; exact ⟨hm, hi⟩
    · rw [names (l := .tail i) (show i < 4096 by omega) e]; exact ⟨hm, hi⟩
    · rw [names (l := .ola i) (show i < 4096 by omega) e]; exact ⟨hm, hi⟩
    · rw [names (l := .noise i) (show i < 4096 by omega) e]; exact ⟨hm, hi⟩
    · rw [names (l := .pgain i) (show i < 4096 by omega) e]; exact ⟨hm, hv, hi⟩
    · rw [names (l := .hpz sec c) ⟨hsec, hc⟩ e]; exact ⟨hm, hv⟩
    · rw [names (l := .hpzi sec c) ⟨hsec, hc⟩ e]; exact ⟨hm, hv⟩

/-- What the machine answers, the spec maps for a read. -/
theorem readMapped_of_canRead {s : State} {addr : Addr} (hc : s.CanRead (s.locOf addr)) : s.ReadMapped addr.toNat := by
  have hl : s.locOf addr ≠ .unmapped := fun e => by rw [e] at hc; exact hc
  obtain ⟨e, hin⟩ := State.offset_of_locOf rfl hl
  generalize s.locOf addr = l at hc hl e hin
  unfold State.ReadMapped
  cases l with
  | unmapped => exact hc.elim
  | cfg r => exact .inr (.inl (.inl ⟨r, e⟩))
  | coef sec r => exact .inr (.inl (.inr ⟨sec, hin, r, e⟩))
  | inWord i => exact .inr (.inr (.inl ⟨i, hc, e⟩))
  | out i => obtain ⟨hm, hv, hi⟩ := hc; exact .inr (.inr (.inr ⟨hm, .inl ⟨hv, i, hi, e⟩⟩))
  | win i => obtain ⟨hm, hi⟩ := hc; exact .inr (.inr (.inr ⟨hm, .inr (.inl ⟨i, hi, e⟩)⟩))
  | tail i => obtain ⟨hm, hi⟩ := hc; exact .inr (.inr (.inr ⟨hm, .inr (.inr (.inl ⟨i, hi, e⟩))⟩))
  | ola i => obtain ⟨hm, hi⟩ := hc; exact .inr (.inr (.inr ⟨hm, .inr (.inr (.inr (.inl ⟨i, hi, e⟩)))⟩))
  | noise i => obtain ⟨hm, hi⟩ := hc; exact .inr (.inr (.inr ⟨hm, .inr (.inr (.inr (.inr (.inl ⟨i, hi, e⟩))))⟩))
  | pgain i =>
    obtain ⟨hm, hv, hi⟩ := hc
    exact .inr (.inr (.inr ⟨hm, .inr (.inr (.inr (.inr (.inr (.inl ⟨hv, i, hi, e⟩)))))⟩))
  | hpz sec c =>
    obtain ⟨hm, hv⟩ := hc
    obtain ⟨hsec, hc2⟩ := hin
    exact .inr (.inr (.inr ⟨hm, .inr (.inr (.inr (.inr (.inr (.inr (.inl ⟨hv, sec, hsec, c, hc2, e⟩))))))⟩))
  | hpzi sec c =>
    obtain ⟨hm, hv⟩ := hc
    obtain ⟨hsec, hc2⟩ := hin
    exact .inr (.inr (.inr ⟨hm, .inr (.inr (.inr (.inr (.inr (.inr (.inr ⟨hv, sec, hsec, c, hc2, e⟩))))))⟩))
  | _ => exact .inl (by rw [e]; decide)

/-- The spec's map for reads is the machine's. -/
theorem readMapped_iff {s : State} (h : s.Inv) {addr : Addr} (ha : addr.toNat % 4 = 0) :
    s.ReadMapped addr.toNat ↔ s.CanRead (s.locOf addr) :=
  ⟨canRead_of_readMapped h ha, readMapped_of_canRead⟩

/-- The spec's map for writes is the machine's. -/
theorem writeMapped_iff {s : State} (hb : s.build.Legal) (addr : Addr) :
    s.WriteMapped addr.toNat ↔ s.CanWrite (s.locOf addr) := by
  have names {l : Loc} (hl : l.inMap s.build.smax) (e : addr.toNat = l.offset) : s.locOf addr = l :=
    State.locOf_offset hb hl e
  have hmax_le := hmax_le_of_legal hb
  constructor
  · rintro (e | e | ⟨hm, ⟨r, e⟩ | ⟨sec, hsec, r, e⟩⟩ | ⟨i, hi, e⟩)
    · rw [names (l := .cmd) trivial e]; trivial
    · rw [names (l := .status) trivial e]; trivial
    · rw [names (l := .cfg r) trivial e]; exact hm
    · rw [names (l := .coef sec r) hsec e]; exact hm
    · rw [names (l := .inWord i) (show i < 4096 by omega) e]; exact hi
  · intro hc
    have hl : s.locOf addr ≠ .unmapped := fun e => by rw [e] at hc; exact hc
    obtain ⟨e, hin⟩ := State.offset_of_locOf rfl hl
    generalize s.locOf addr = l at hc hl e hin
    unfold State.WriteMapped
    cases l with
    | cmd => exact .inl e
    | status => exact .inr (.inl e)
    | cfg r => exact .inr (.inr (.inl ⟨hc, .inl ⟨r, e⟩⟩))
    | coef sec r => exact .inr (.inr (.inl ⟨hc, .inr ⟨sec, hin, r, e⟩⟩))
    | inWord i => exact .inr (.inr (.inr ⟨i, hc, e⟩))
    | _ => exact hc.elim

/-! ## Containers as numbers (R79) -/

theorem scaleTwo_eq (n : Nat) (e : Int) : scaleTwo n e = n * (2 : ℚ) ^ e := by
  unfold scaleTwo
  split
  case isTrue h =>
    lift e to ℕ using h
    simp
  case isFalse h =>
    obtain ⟨k, rfl⟩ : ∃ k : ℕ, e = -k := ⟨(-e).toNat, by omega⟩
    simp [div_eq_mul_inv]

/-- The size of a subnormal container's number, or of zero. -/
theorem containerSize_zero (f : Nat) : containerSize 0 f = (2 : ℚ) ^ (-126 : ℤ) * ((f : ℚ) / 2 ^ 23) := by
  rw [containerSize, if_pos rfl, scaleTwo_eq, show (-149 : ℤ) = -126 - 23 by norm_num, zpow_sub₀ two_ne_zero]
  norm_cast
  ring

/-- The size of a normal container's number. -/
theorem containerSize_of_pos {e : Nat} (he : 1 ≤ e) (f : Nat) :
    containerSize e f = (2 : ℚ) ^ ((e : ℤ) - 127) * (1 + (f : ℚ) / 2 ^ 23) := by
  rw [containerSize, if_neg (by omega), scaleTwo_eq, show (e : ℤ) - 150 = e - 127 - 23 by ring, zpow_sub₀ two_ne_zero]
  push_cast
  field_simp
  ring

/-- The exponent field as a number. -/
theorem exponentField_toNat (w : Word) : exponentField w = w.toNat / 2 ^ 23 % 2 ^ 8 := by
  rw [exponentField_eq, lowBits]
  omega

/-- The fraction as a number. -/
theorem fractionField_toNat (w : Word) : fractionField w = w.toNat % 2 ^ 23 := by
  rw [fractionField_eq, lowBits]
  omega

/-- A finite container decodes to its size with its sign. -/
theorem num?_of_finite {w : Word} (h : exponentField w ≠ 255) :
    num? w = some ((if 2 ^ 31 ≤ w.toNat then -1 else 1) * containerSize (exponentField w) (fractionField w)) := by
  rw [num?, if_neg h, signBit_eq, ite_mul, neg_one_mul, one_mul]
  simp only [decide_eq_true_eq]

/-! ## The statements -/

/-- Settles O20: a transaction that spells RD or WR answers by the location its offset names, and the spec's map agrees with
the machine's on which locations those are; every other one is rejected by the decoder. -/
theorem errResponses : Obligations.ErrResponses := by
  intro s rest addr size data h
  refine ⟨fun hp => ?read, fun hp => ?write⟩
  case read =>
    rw [step_read h.idle hp, runEncoding_read]
    by_cases hwf : size = 4 ∧ addr.toNat % 4 = 0
    · rw [if_pos hwf, execRd_eq]
      refine ⟨_, rfl, fun ⟨_, _, hmap⟩ => ?_, fun hn => ?_⟩
      · have hc := (readMapped_iff h hwf.2).mp hmap
        obtain ⟨w, hw⟩ := Option.ne_none_iff_exists'.mp (mt (readLoc_eq_none_iff _ _).mp (not_not.mpr hc))
        exact ⟨w, congrArg readResponse hw⟩
      · have hc : ¬s.CanRead (s.locOf addr) := fun hc => hn ⟨hwf.1, hwf.2, (readMapped_iff h hwf.2).mpr hc⟩
        exact congrArg readResponse ((readLoc_eq_none_iff { s with pending := rest } _).mpr hc)
    · rw [if_neg hwf]
      exact ⟨.err, rfl, fun hm => absurd ⟨hm.1, hm.2.1⟩ hwf, fun _ => rfl⟩
  case write =>
    rw [step_write h.idle hp, runEncoding_write]
    refine ⟨fun ⟨hs, ha, hmap⟩ t ht => ?_, fun hn => ?_⟩
    · rw [if_pos ⟨hs, ha⟩] at ht
      exact writeLoc_response_of_canWrite (s := { s with pending := rest }) ((writeMapped_iff h.build addr).mp hmap) ht
    · split
      case isFalse => rfl
      case isTrue hwf =>
        have hc : ¬s.CanWrite (s.locOf addr) := fun hc => hn ⟨hwf.1, hwf.2, (writeMapped_iff h.build addr).mpr hc⟩
        exact writeLoc_of_not_canWrite (s := { s with pending := rest }) hc

/-- Settles O27: the sign times the size, the size by whether the exponent field is 0. -/
theorem containerDecodes : Obligations.ContainerDecodes := by
  intro w
  simp only [← exponentField_toNat, ← fractionField_toNat]
  refine ⟨fun h1 h254 => ?_, fun h0 => ?_, fun h255 => if_pos h255⟩
  · rw [num?_of_finite (by omega), containerSize_of_pos h1, mul_assoc]
  · rw [num?_of_finite (by omega), h0, containerSize_zero, mul_assoc]

/-- Settles O7: the decoder rejects the transaction, and the step answers ERR in the state without the event. -/
theorem sizeAndAlignment : Obligations.SizeAndAlignment := by
  intro s rest addr size data hseq hbad
  have hwf : ¬(size = 4 ∧ addr.toNat % 4 = 0) := by omega
  exact ⟨fun hp => by rw [step_read hseq hp, runEncoding_read, if_neg hwf],
    fun hp => by rw [step_write hseq hp, runEncoding_write, if_neg hwf]⟩

end Sys2Proof.Machine
end

section
/-! The proof about command words (spec/30_encoding.md R104): the decoder's functions with the fields of the word as numbers,
which words it rejects and as what, then what a write to CMD answers by what its word decodes to. -/

namespace Sys2Proof.Machine

open Generic

/-! ## The decoder with the fields as numbers -/

theorem opField_eq_iff (w : Word) (op : BitVec 8) : opField w = op ↔ w.toNat % 2 ^ 8 = op.toNat := by
  rw [← BitVec.toNat_inj, opField_toNat]

theorem lenField_eq_zero_iff (w : Word) : lenField w = 0 ↔ w.toNat / 2 ^ 8 % 2 ^ 16 = 0 := by
  rw [← BitVec.toNat_inj, lenField_toNat]; rfl

theorem rsvField_eq_zero_iff (w : Word) : rsvField w = 0 ↔ w.toNat / 2 ^ 24 = 0 := by
  rw [← BitVec.toNat_inj, rsvField_toNat]; rfl

theorem lenField_eq_ofNat (w : Word) : lenField w = BitVec.ofNat 16 (w.toNat / 2 ^ 8 % 2 ^ 16) := by
  rw [← lenField_toNat, BitVec.ofNat_toNat, BitVec.setWidth_eq]

theorem decodePlain_eq (w : Word) (i : Instr) : decodePlain w i =
    if w.toNat / 2 ^ 24 ≠ 0 ∨ w.toNat / 2 ^ 8 % 2 ^ 16 ≠ 0 then .error (.field w) else .ok i := by
  simp only [decodePlain, ne_eq, rsvField_eq_zero_iff, lenField_eq_zero_iff]

theorem decodeWithLen_eq (w : Word) (i : BitVec 16 → Instr) : decodeWithLen w i =
    if w.toNat / 2 ^ 24 ≠ 0 then .error (.field w) else .ok (i (BitVec.ofNat 16 (w.toNat / 2 ^ 8 % 2 ^ 16))) := by
  simp only [decodeWithLen, ne_eq, rsvField_eq_zero_iff, lenField_eq_ofNat]

theorem decodeCmd_eq (w : Word) : decodeCmd w =
    if w.toNat % 2 ^ 8 = 0 then decodePlain w .nop
    else if w.toNat % 2 ^ 8 = 1 then decodePlain w .configure
    else if w.toNat % 2 ^ 8 = 2 then decodeWithLen w .calibrate
    else if w.toNat % 2 ^ 8 = 3 then decodeWithLen w .process
    else if w.toNat % 2 ^ 8 = 4 then decodePlain w .destroy
    else .error (.opcode w) := by
  simp only [decodeCmd, opField_eq_iff]; rfl

/-! ## Which words the decoder rejects, and as what -/

theorem decodeCmd_of_unused_opcode {w : Word} (hop : 4 < w.toNat % 2 ^ 8) : decodeCmd w = .error (.opcode w) := by
  rw [decodeCmd_eq, if_neg (by omega), if_neg (by omega), if_neg (by omega), if_neg (by omega), if_neg (by omega)]

/-- The opcode decides whether LEN is looked at; RSV is looked at for each of the five. -/
theorem decodeCmd_of_bad_fields {w : Word} (hop : w.toNat % 2 ^ 8 ≤ 4)
    (hbad : w.toNat / 2 ^ 24 ≠ 0 ∨ (w.toNat % 2 ^ 8 ≠ 2 ∧ w.toNat % 2 ^ 8 ≠ 3 ∧ w.toNat / 2 ^ 8 % 2 ^ 16 ≠ 0)) :
    decodeCmd w = .error (.field w) := by
  have plain (i : Instr) : decodePlain w i = .error (.field w) := by
    rw [decodePlain_eq, if_pos (hbad.imp_right fun ⟨_, _, hlen⟩ => hlen)]
  have withLen (hlen : w.toNat % 2 ^ 8 = 2 ∨ w.toNat % 2 ^ 8 = 3) (i : BitVec 16 → Instr) :
      decodeWithLen w i = .error (.field w) := by
    rw [decodeWithLen_eq, if_pos (by omega)]
  rw [decodeCmd_eq]
  split_ifs with h0 h1 h2 h3 h4
  · exact plain _
  · exact plain _
  · exact withLen (.inl h2) _
  · exact withLen (.inr h3) _
  · exact plain _
  · omega

/-! ## What a write to CMD answers, by what its word decodes to -/

theorem exec_cmd_of_decodeCmd_ok {w : Word} {i : Instr} (s : State) (h : decodeCmd w = .ok i) :
    exec (.wr 0x8 w) s = exec i s :=
  exec_wr_of_writeLoc s.locOf_cmd (runWord_of_decodeCmd s h)

theorem exec_cmd_of_opcode_error {w : Word} (s : State) (h : decodeCmd w = .error (.opcode w)) :
    exec (.wr 0x8 w) s = .next (s.raise .opcode w) :=
  exec_wr_of_writeLoc s.locOf_cmd (by rw [State.writeLoc, runWord, h])

theorem exec_cmd_of_field_error {w : Word} (s : State) (h : decodeCmd w = .error (.field w)) :
    exec (.wr 0x8 w) s = .next (s.raise .field w) :=
  exec_wr_of_writeLoc s.locOf_cmd (by rw [State.writeLoc, runWord, h])

/-! ## The statement -/

/-- Settles O4: a write to CMD answers by what its word decodes to, and each clause fixes the branch the decoder takes. -/
theorem everyCommandWord : Obligations.EveryCommandWord := by
  intro s w op len rsv raised
  have plain (i : Instr) (hrsv : rsv = 0) (hlen : len = 0) : decodePlain w i = .ok i := by
    rw [decodePlain_eq, if_neg (by omega)]
  have withLen (i : BitVec 16 → Instr) (hrsv : rsv = 0) : decodeWithLen w i = .ok (i (BitVec.ofNat 16 len)) := by
    rw [decodeWithLen_eq, if_neg (by omega)]
  refine ⟨fun hop => exec_cmd_of_opcode_error s (decodeCmd_of_unused_opcode hop),
    fun hop hbad => exec_cmd_of_field_error s (decodeCmd_of_bad_fields hop hbad),
    fun hop hrsv hlen => exec_cmd_of_decodeCmd_ok s ?nop, fun hop hrsv hlen => exec_cmd_of_decodeCmd_ok s ?configure,
    fun hop hrsv => exec_cmd_of_decodeCmd_ok s ?calibrate, fun hop hrsv => exec_cmd_of_decodeCmd_ok s ?process,
    fun hop hrsv hlen => exec_cmd_of_decodeCmd_ok s ?destroy⟩
  case nop => rw [decodeCmd_eq, if_pos hop, plain _ hrsv hlen]
  case configure => rw [decodeCmd_eq, if_neg (by omega), if_pos hop, plain _ hrsv hlen]
  case calibrate => rw [decodeCmd_eq, if_neg (by omega), if_neg (by omega), if_pos hop, withLen _ hrsv]
  case process =>
    rw [decodeCmd_eq, if_neg (by omega), if_neg (by omega), if_neg (by omega), if_pos hop, withLen _ hrsv]
  case destroy =>
    rw [decodeCmd_eq, if_neg (by omega), if_neg (by omega), if_neg (by omega), if_neg (by omega), if_pos hop,
      plain _ hrsv hlen]

end Sys2Proof.Machine
end

section
/-! The proofs about the window (spec/40_window.md R131 to R133): WIN after WINGEN as a function of the angle of each
element, what reflecting an index and moving it by one hop do to that angle, then symmetry and the overlap sum. -/

namespace Sys2Proof.Machine

open Generic

/-! ## The angle of a window element -/

/-- The argument of the cosine in element i of the window of length n (R131). -/
noncomputable def windowAngle (n i : Nat) : ℝ := 2 * Real.pi * i / (n - 1)

theorem one_le_natCast_sub_one {n : Nat} (hn : 2 ≤ n) : (1 : ℝ) ≤ n - 1 := by
  have : (2 : ℝ) ≤ n := by exact_mod_cast hn
  linarith

/-- The mirrored element sits at the angle mirrored in the full turn. -/
theorem windowAngle_reflect {n i : Nat} (hn : 2 ≤ n) (hi : i < n) :
    windowAngle n (n - 1 - i) = 2 * Real.pi - windowAngle n i := by
  have hne : (n : ℝ) - 1 ≠ 0 := (zero_lt_one.trans_le (one_le_natCast_sub_one hn)).ne'
  have hcast : ((n - 1 - i : Nat) : ℝ) = n - 1 - i := by
    rw [Nat.cast_sub (by omega), Nat.cast_sub (by omega), Nat.cast_one]
  rw [windowAngle, windowAngle, hcast]
  field_simp

/-- One hop is half a turn and δ = π/(n−1) more: the window is symmetric, not periodic (R133). -/
theorem windowAngle_add_half {n : Nat} (i : Nat) (hn : 2 ≤ n) (heven : n % 2 = 0) :
    windowAngle n (i + n / 2) = windowAngle n i + Real.pi / (n - 1) + Real.pi := by
  have hne : (n : ℝ) - 1 ≠ 0 := (zero_lt_one.trans_le (one_le_natCast_sub_one hn)).ne'
  have hcast : ((n / 2 : Nat) : ℝ) = n / 2 := Nat.cast_div (Nat.dvd_of_mod_eq_zero heven) two_ne_zero
  rw [windowAngle, windowAngle, Nat.cast_add, hcast]
  field_simp
  ring

/-! ## The window WINGEN writes -/

/-- The number under the square root of R131: the raised cosine alone can be 0, EPS_WIN keeps it away from there. -/
theorem windowRadicand_pos {eps : ℝ} (heps : 0 < eps) (a : ℝ) : 0 < 1 / 2 * (1 - Real.cos a) + eps := by
  linarith [Real.cos_le_one a]

theorem win_of_exec_wingen {s t : State} (h : exec .wingen s = .next t) :
    t.win = windowOf exactArith s.build.epsWin s.N := by
  obtain rfl : wingen exactArith s = t := Host.Outcome.next.inj h
  exact wingen_win exactArith s

theorem valAt_win_of_exec_wingen {s t : State} (h : exec .wingen s = .next t) {i : Nat} (hi : i < s.N) :
    valAt t.win i = √(1 / 2 * (1 - Real.cos (windowAngle s.N i)) + s.build.epsWin.val) := by
  rw [win_of_exec_wingen h, valAt_windowOf _ hi, windowAngle]

theorem valAt_win_sq_of_exec_wingen {s t : State} (h : exec .wingen s = .next t) (heps : 0 < s.build.epsWin.val) {i : Nat}
    (hi : i < s.N) :
    valAt t.win i ^ 2 = 1 / 2 * (1 - Real.cos (windowAngle s.N i)) + s.build.epsWin.val := by
  rw [valAt_win_of_exec_wingen h hi, Real.sq_sqrt (windowRadicand_pos heps _).le]

/-! ## Bounds on half a step of the angle -/

/-- Cosine changes by at most twice the sine of half a step, for a step of at most a full turn. -/
theorem abs_cos_add_sub_cos_le {δ : ℝ} (a : ℝ) (h0 : 0 ≤ δ / 2) (hpi : δ / 2 ≤ Real.pi) :
    |Real.cos (a + δ) - Real.cos a| ≤ 2 * Real.sin (δ / 2) := by
  have hsin : 0 ≤ Real.sin (δ / 2) := Real.sin_nonneg_of_nonneg_of_le_pi h0 hpi
  calc |Real.cos (a + δ) - Real.cos a| = 2 * |Real.sin ((a + δ + a) / 2)| * Real.sin (δ / 2) := by
        rw [Real.cos_sub_cos, add_sub_cancel_left, abs_mul, abs_mul, abs_of_nonneg hsin, abs_neg, abs_two]
    _ ≤ 2 * 1 * Real.sin (δ / 2) := by gcongr; exact Real.abs_sin_le_one _
    _ = 2 * Real.sin (δ / 2) := by ring

/-! ## The statements -/

/-- Settles O44: the mirrored angle has the same cosine, and the radicand is positive as EPS_WIN is. -/
theorem windowSymmetric : Obligations.WindowSymmetric := by
  intro s t hN heps h i hi
  rw [valAt_win_of_exec_wingen h hi, valAt_win_of_exec_wingen h (by omega : s.N - 1 - i < s.N), windowAngle_reflect hN hi,
    Real.cos_two_pi_sub]
  exact ⟨rfl, Real.sqrt_pos.2 (windowRadicand_pos heps _)⟩

/-- Settles O45: one hop further the cosine is that of θ + δ with the opposite sign, so the two raised cosines differ from
1 by half a difference of cosines. -/
theorem windowOverlap : Obligations.WindowOverlap := by
  intro s t hN heven heps h i hi δ θ C
  have hhop : i + s.H < s.N := by unfold State.H at hi ⊢; omega
  have hlater : Real.cos (windowAngle s.N (i + s.H)) = -Real.cos (θ + δ) := by
    rw [State.H, windowAngle_add_half i hN heven, Real.cos_add_pi, windowAngle]
  have hC : C = 1 - 0.5 * Real.cos θ + 0.5 * Real.cos (θ + δ) + 2 * s.build.epsWin.val := by
    change valAt t.win i ^ 2 + valAt t.win (i + s.H) ^ 2 = _
    rw [valAt_win_sq_of_exec_wingen h heps (by omega : i < s.N), valAt_win_sq_of_exec_wingen h heps hhop, hlater, windowAngle]
    ring
  have hden : (1 : ℝ) ≤ s.N - 1 := one_le_natCast_sub_one hN
  have hδ0 : 0 ≤ δ / 2 := div_nonneg (div_nonneg Real.pi_pos.le (zero_le_one.trans hden)) zero_le_two
  have hδpi : δ / 2 ≤ Real.pi := by
    have : δ ≤ Real.pi := div_le_self Real.pi_pos.le hden
    linarith
  have hδ : δ / 2 = Real.pi / (2 * (s.N - 1)) := by rw [div_div, mul_comm 2]
  have hdist : C - 1 - 2 * s.build.epsWin.val = (Real.cos (θ + δ) - Real.cos θ) / 2 := by rw [hC]; ring
  refine ⟨hC, ?_, hδ ▸ Real.sin_le hδ0⟩
  rw [hdist, abs_div, abs_two, div_le_iff₀' two_pos]
  exact abs_cos_add_sub_cos_le θ hδ0 hδpi

end Sys2Proof.Machine
end

section
/-! The proofs about the high-pass filter on what it does not change (spec/41_highpass.md R144, R150): disabled it passes the
frame on, and enabled it passes a constant through the sections at rest. At rest means at rest as real numbers: one section
and one sample first, then one sample through the cascade, then the whole frame. -/

namespace Sys2Proof.Machine

open Generic

/-! ## The uops as functions of the state -/

theorem exec_hpf (s : State) : exec .hpf s = .next (hpf exactArith s) := rfl

theorem exec_hpfSetup (s : State) : exec .hpfSetup s = .next (hpfSetup exactArith s) := rfl

/-! ## The cascade at rest -/

/-- The gain of the first k sections for a constant input (R142). -/
noncomputable def cascadeGain (cs : List (Biquad Exact)) (k : ℕ) : ℝ :=
  ∏ r ∈ Finset.range k, (dcGain exactArith (biquadAt cs r)).val

theorem cascadeGain_succ (cs : List (Biquad Exact)) (k : ℕ) :
    cascadeGain cs (k + 1) = cascadeGain cs k * (dcGain exactArith (biquadAt cs k)).val :=
  Finset.prod_range_succ _ _

/-- The sections hold HPZI·c, where HPZI is what HPF_SETUP finds for them (R142, R150). -/
def AtRest (cs : List (Biquad Exact)) (c : ℝ) (zs : List (SectionState Exact)) : Prop :=
  ∀ k < cs.length, stateAt zs k =
    ((stateAt (restStates exactArith cs exactArith.one) k).1 * c, (stateAt (restStates exactArith cs exactArith.one) k).2 * c)

/-- No section's gain is a quotient by 0, unless the input is 0, for which every state at rest is 0 (R150, R235). -/
def GainsDefined (cs : List (Biquad Exact)) (c : ℝ) : Prop :=
  c ≠ 0 → ∀ k < cs.length, 1 + (biquadAt cs k).a1.val + (biquadAt cs k).a2.val ≠ 0

/-- The state at rest, by the section's own coefficients and its input, which is the gain before it times c. -/
theorem AtRest.stateAt_eq {cs : List (Biquad Exact)} {c : ℝ} {zs : List (SectionState Exact)} (h : AtRest cs c zs) {k : ℕ}
    (hk : k < cs.length) :
    let q := biquadAt cs k
    let w := cascadeGain cs k * c
    stateAt zs k = (w * (q.b1.val + q.b2.val - (q.a1.val + q.a2.val) * (dcGain exactArith q).val),
      w * (q.b2.val - q.a2.val * (dcGain exactArith q).val)) := by
  rw [h k hk, stateAt_restStates cs _ hk, exactArith_one, Exact.val_rat, Rat.cast_one, mul_one]
  exact Prod.ext (mul_right_comm ..) (mul_right_comm ..)

/-- The equation that makes a section rest: its gain times its denominator is its numerator (R142). -/
theorem dcGain_mul_denominator {cs : List (Biquad Exact)} {c : ℝ} (hd : GainsDefined cs c) {k : ℕ} (hk : k < cs.length) :
    let q := biquadAt cs k
    c * ((dcGain exactArith q).val * (1 + q.a1.val + q.a2.val)) = c * (q.b0.val + q.b1.val + q.b2.val) := by
  intro q
  rcases eq_or_ne c 0 with rfl | hc
  · simp
  · rw [dcGain_val, div_mul_cancel₀ _ (hd hc k hk)]

/-- One constant sample through the cascade at rest: the total gain comes out and no section moves (R145, R150). -/
theorem cascadeStep_of_atRest {cs : List (Biquad Exact)} {c : ℝ} {zs : List (SectionState Exact)} {v : Exact}
    (hd : GainsDefined cs c) (hl : cs.length = zs.length) (hr : AtRest cs c zs) (hv : v.val = c) :
    (cascadeStep exactArith cs zs v).1.val = cascadeGain cs cs.length * c ∧
      AtRest cs c (cascadeStep exactArith cs zs v).2 := by
  obtain ⟨x, hx0, hout, hx⟩ := cascadeStep_val hl v
  have hsample : ∀ k ≤ cs.length, x k = cascadeGain cs k * c := by
    intro k hk
    induction k with
    | zero => simp [hx0, hv, cascadeGain]
    | succ k ih =>
      have hk : k < cs.length := hk
      rw [(hx k hk).1, ih hk.le, hr.stateAt_eq hk, cascadeGain_succ]
      linear_combination (-cascadeGain cs k) * dcGain_mul_denominator hd hk
  refine ⟨hout.trans (hsample _ le_rfl), fun k hk => ?_⟩
  rw [(hx k hk).2, ← hr k hk, hsample k hk.le, hsample (k + 1) hk, cascadeGain_succ, hr.stateAt_eq hk]
  exact Prod.ext (by ring) (by ring)

/-- A constant frame through the cascade at rest (R146, R150). -/
theorem cascadeRun_of_atRest {cs : List (Biquad Exact)} {c : ℝ} {zs : List (SectionState Exact)} {vs : List Exact}
    (hd : GainsDefined cs c) (hl : cs.length = zs.length) (hr : AtRest cs c zs) (hv : ∀ n < vs.length, valAt vs n = c) :
    (∀ n < vs.length, valAt (cascadeRun exactArith cs zs vs).1 n = cascadeGain cs cs.length * c) ∧
      AtRest cs c (cascadeRun exactArith cs zs vs).2 := by
  induction vs generalizing zs with
  | nil => exact ⟨by simp, hr⟩
  | cons v vs ih =>
    obtain ⟨hout, hrest⟩ := cascadeStep_of_atRest hd hl hr (hv 0 (by simp))
    obtain ⟨houts, hend⟩ := ih (by simpa using hl) hrest fun n hn => hv (n + 1) (by simpa using hn)
    refine ⟨fun n hn => ?_, hend⟩
    cases n with
    | zero => exact hout
    | succ n => exact houts n (by simpa using hn)

/-! ## The sections of a configuration -/

/-- Every section in use has its coefficient set, so the cascade runs all of them (R49, R52). -/
theorem biquads_length_of_le {s : State} (h : s.cfg.sections ≤ s.cfg.coef.length) :
    (s.biquads exactArith).length = s.cfg.sections := by
  rw [biquads_length, min_eq_left h]

theorem biquadAt_val {s : State} (h : s.cfg.sections ≤ s.cfg.coef.length) {sec : ℕ} (hs : sec < s.cfg.sections) :
    let q := biquadAt (s.biquads exactArith) sec
    q.b0.val = s.cfg.coefAt sec .b0 ∧ q.b1.val = s.cfg.coefAt sec .b1 ∧ q.b2.val = s.cfg.coefAt sec .b2 ∧
      q.a1.val = s.cfg.coefAt sec .a1 ∧ q.a2.val = s.cfg.coefAt sec .a2 := by
  rw [biquadAt_biquads hs (hs.trans_le h)]
  simp only [biquad, exactArith_numOf, Exact.val_rat]
  exact ⟨rfl, rfl, rfl, rfl, rfl⟩

theorem dcGain_biquadAt_val {s : State} (h : s.cfg.sections ≤ s.cfg.coef.length) {sec : ℕ} (hs : sec < s.cfg.sections) :
    (dcGain exactArith (biquadAt (s.biquads exactArith) sec)).val = s.cfg.dcGainAt sec := by
  obtain ⟨hb0, hb1, hb2, ha1, ha2⟩ := biquadAt_val h hs
  rw [dcGain_val, hb0, hb1, hb2, ha1, ha2, ConfigRegs.dcGainAt]

theorem cascadeGain_biquads {s : State} (h : s.cfg.sections ≤ s.cfg.coef.length) :
    cascadeGain (s.biquads exactArith) s.cfg.sections = s.cfg.restInput s.cfg.sections :=
  Finset.prod_congr rfl fun _ hr => dcGain_biquadAt_val h (Finset.mem_range.1 hr)

theorem gainsDefined_biquads {s : State} {c : ℝ} (h : s.cfg.sections ≤ s.cfg.coef.length)
    (hd : c ≠ 0 → ∀ sec < s.cfg.sections, 1 + s.cfg.coefAt sec .a1 + s.cfg.coefAt sec .a2 ≠ 0) :
    GainsDefined (s.biquads exactArith) c := by
  intro hc sec hs
  rw [biquads_length_of_le h] at hs
  obtain ⟨-, -, -, ha1, ha2⟩ := biquadAt_val h hs
  rw [ha1, ha2]
  exact hd hc sec hs

/-! ## HPF on a constant frame -/

/-- What HPF_SETUP writes for the sections in use (R142). -/
theorem stateAt_hpfSetup_hpzi {s : State} (hen : s.hpfEn = true) {sec : ℕ} (hs : sec < (s.biquads exactArith).length) :
    stateAt (hpfSetup exactArith s).hpzi sec = stateAt (restStates exactArith (s.biquads exactArith) exactArith.one) sec := by
  rw [hpfSetup_hpzi, if_pos hen, stateAt_append_left (by simpa using hs)]

theorem sections_le_hpfSetup_hpzi_length {s : State} (hen : s.hpfEn = true) (h : s.cfg.sections ≤ s.cfg.coef.length) :
    s.cfg.sections ≤ (hpfSetup exactArith s).hpzi.length := by
  rw [hpfSetup_hpzi, if_pos hen, List.length_append, restStates_length, biquads_length_of_le h]
  exact Nat.le_add_right _ _

theorem initialStates_length_of_le {u : State} (hzi : u.cfg.sections ≤ u.hpzi.length) (hz : u.cfg.sections ≤ u.hpz.length) :
    (u.initialStates exactArith).length = u.cfg.sections := by
  rw [initialStates_length, min_eq_left hzi, min_eq_left hz, ite_self]

/-- HPF starts at rest on a constant frame: fresh it scales HPZI by the first sample (R147), and otherwise it goes on from
HPZ, which is at rest by assumption (R148). -/
theorem initialStates_atRest {u : State} {cs : List (Biquad Exact)} {c : ℝ} (hl : cs.length = u.cfg.sections)
    (hzi : ∀ sec < u.cfg.sections, stateAt u.hpzi sec = stateAt (restStates exactArith cs exactArith.one) sec)
    (hfirst : valAt u.work.frame 0 = c) (hlive : u.startsFresh = false → AtRest cs c u.hpz) :
    AtRest cs c (u.initialStates exactArith) := by
  intro sec hsec
  have hs : sec < u.cfg.sections := hl ▸ hsec
  unfold State.initialStates
  split
  · rw [stateAt_map_scaleState, stateAt_take hs, hzi sec hs]
    exact hfirst ▸ rfl
  · next hfresh => rw [stateAt_take hs, hlive (by simpa using hfresh) sec hsec]

/-! ## The statements -/

/-- Settles O47: FILT, HPZ and HPF_PRIMED, all that HPF writes, take their disabled branch. -/
theorem hpfDisabled : Obligations.HpfDisabled := by
  intro s hoff
  rw [exec_hpf, hpf]
  simp only [hoff, Bool.false_eq_true, if_false, Bool.false_or]

/-- Settles O49: HPF starts at rest on the frame, and a constant frame keeps the cascade at rest. -/
theorem hpfConstantFrame : Obligations.HpfConstantFrame := by
  intro s t u c hsetup hen hcoef hd huen hcfg hzi hlen hframe hpos hlive
  obtain rfl : hpfSetup exactArith s = t := Host.Outcome.next.inj hsetup
  have hcs : u.biquads exactArith = s.biquads exactArith := State.biquads_of_cfg hcfg
  have hl : (s.biquads exactArith).length = s.cfg.sections := biquads_length_of_le hcoef
  have hrest : ∀ sec < s.cfg.sections, stateAt (hpfSetup exactArith s).hpzi sec =
      stateAt (restStates exactArith (s.biquads exactArith) exactArith.one) sec :=
    fun sec hs => stateAt_hpfSetup_hpzi hen (hl.symm ▸ hs)
  have hinit : AtRest (s.biquads exactArith) c (u.initialStates exactArith) := by
    refine initialStates_atRest (hcfg ▸ hl) (fun sec hs => hzi ▸ hrest sec (hcfg ▸ hs)) (hframe 0 hpos) fun hfresh sec hs => ?_
    obtain ⟨hreinit, hprimed⟩ : u.build.hpfReinit = false ∧ u.hpfPrimed = true := by simpa [State.startsFresh] using hfresh
    rw [hlive hreinit hprimed sec (hl ▸ hs), hrest sec (hl ▸ hs)]
  have hinitLen : (u.initialStates exactArith).length = s.cfg.sections :=
    hcfg ▸ initialStates_length_of_le (hcfg ▸ hzi ▸ sections_le_hpfSetup_hpzi_length hen hcoef) (hcfg ▸ hlen)
  obtain ⟨hout, hend⟩ := cascadeRun_of_atRest (gainsDefined_biquads hcoef hd) (hl.trans hinitLen.symm) hinit hframe
  rw [← hcs] at hout hend
  refine ⟨_, exec_hpf u, fun n hn => ?_, fun sec hs => ?_⟩
  · rw [hpf_work, huen, ← cascadeGain_biquads hcoef, ← hl, ← hcs]
    exact hout n hn
  · have hs' : sec < (u.filtered exactArith).2.length := by rw [(filtered_length u).2, hinitLen]; exact hs
    rw [hpf_hpz, if_pos huen, stateAt_append_left hs', hrest sec hs, ← hcs]
    exact hend sec (by rw [hcs, hl]; exact hs)

end Sys2Proof.Machine
end

section
/-! The proof about the noise estimate under a constant magnitude (spec/44_noise.md R201, R204). One NOISE_UPDATE multiplies
the distance of a bin to its magnitude by α_n; over a sequence of updates α_n stays what it was and the bin stays in the
vector, so the distance is a geometric sequence. -/

namespace Sys2Proof.Machine

open Generic

/-! ## One NOISE_UPDATE -/

theorem exec_noiseUpdate (s : State) : exec .noiseUpdate s = .next (noiseUpdate exactArith s) := rfl

theorem noiseUpdate_noise_length (s : State) :
    (noiseUpdate exactArith s).noise.length = min s.noise.length s.work.mag.length := by
  rw [noiseUpdate_noise, List.length_zipWith]

/-- R201 for one bin, over the reals. -/
theorem valAt_noiseUpdate {s : State} {α : ℚ} {k : Nat} (hα : num? s.cfg.alphaN = some α) (hk : k < s.noise.length)
    (hmag : k < s.work.mag.length) :
    valAt (noiseUpdate exactArith s).noise k = α * valAt s.noise k + (1 - α) * valAt s.work.mag k := by
  rw [noiseUpdate_noise, State.alphaN_eq hα, valAt, getD_zipWith _ (.rat 0) (.rat 0) _ hk hmag, smooth_val, Exact.val_rat]
  rfl

/-- The distance of a bin to its magnitude shrinks by the factor α_n. -/
theorem noiseUpdate_error {s : State} {α : ℚ} {k : Nat} (hα : num? s.cfg.alphaN = some α) (hk : k < s.noise.length)
    (hmag : k < s.work.mag.length) :
    valAt (noiseUpdate exactArith s).noise k - valAt s.work.mag k = α * (valAt s.noise k - valAt s.work.mag k) := by
  rw [valAt_noiseUpdate hα hk hmag]
  ring

/-! ## A sequence of updates under a constant magnitude -/

/-- From s to t there is one NOISE_UPDATE in which bin k has the magnitude m; all but the estimate and the configuration
registers may have changed before it. -/
def UpdatesBin (m : ℝ) (k : Nat) (s t : State) : Prop :=
  ∃ u, u.noise = s.noise ∧ u.cfg = s.cfg ∧ k < u.work.mag.length ∧ valAt u.work.mag k = m ∧ exec .noiseUpdate u = .next t

/-- NOISE_UPDATE leaves the registers alone and keeps bin k in the vector. -/
theorem UpdatesBin.frame {m : ℝ} {k : Nat} {s t : State} (h : UpdatesBin m k s t) :
    t.cfg = s.cfg ∧ (k < s.noise.length → k < t.noise.length) := by
  obtain ⟨u, hnoise, hcfg, hmag, -, hstep⟩ := h
  obtain rfl : noiseUpdate exactArith u = t := Host.Outcome.next.inj hstep
  refine ⟨by rw [noiseUpdate_cfg, hcfg], fun hk => ?_⟩
  rw [noiseUpdate_noise_length, hnoise]
  exact lt_min hk hmag

theorem UpdatesBin.error {m : ℝ} {k : Nat} {s t : State} {α : ℚ} (h : UpdatesBin m k s t)
    (hα : num? s.cfg.alphaN = some α) (hk : k < s.noise.length) :
    valAt t.noise k - m = α * (valAt s.noise k - m) := by
  obtain ⟨u, hnoise, hcfg, hmag, rfl, hstep⟩ := h
  obtain rfl : noiseUpdate exactArith u = t := Host.Outcome.next.inj hstep
  rw [noiseUpdate_error (hcfg ▸ hα) (hnoise ▸ hk) hmag, hnoise]

/-- α_n and the presence of bin k are the same at every point of the sequence. -/
theorem updatesBin_invariant {σ : ℕ → State} {α : ℚ} {m : ℝ} {k : Nat} (hα : num? (σ 0).cfg.alphaN = some α)
    (hk : k < (σ 0).noise.length) (h : ∀ n, UpdatesBin m k (σ n) (σ (n + 1))) (n : ℕ) :
    num? (σ n).cfg.alphaN = some α ∧ k < (σ n).noise.length := by
  induction n with
  | zero => exact ⟨hα, hk⟩
  | succ n ih =>
    obtain ⟨hαn, hkn⟩ := ih
    obtain ⟨hcfg, hlen⟩ := (h n).frame
    exact ⟨hcfg ▸ hαn, hlen hkn⟩

/-! ## Sequences whose error is geometric -/

/-- A sequence whose distance to m is multiplied by a at every step, in closed form. -/
theorem eq_add_pow_mul_of_error {x : ℕ → ℝ} {a m : ℝ} (h : ∀ n, x (n + 1) - m = a * (x n - m)) (n : ℕ) :
    x n = m + a ^ n * (x 0 - m) := by
  induction n with
  | zero => ring
  | succ n ih =>
    calc x (n + 1) = m + a * (x n - m) := by rw [← h n]; ring
      _ = m + a ^ (n + 1) * (x 0 - m) := by rw [ih]; ring

theorem tendsto_of_error {x : ℕ → ℝ} {a m : ℝ} (h0 : 0 ≤ a) (h1 : a < 1) (h : ∀ n, x (n + 1) - m = a * (x n - m)) :
    Filter.Tendsto x Filter.atTop (nhds m) := by
  have hpow : Filter.Tendsto (fun n => m + a ^ n * (x 0 - m)) Filter.atTop (nhds (m + 0 * (x 0 - m))) :=
    ((tendsto_pow_atTop_nhds_zero_of_lt_one h0 h1).mul_const _).const_add _
  rw [zero_mul, add_zero] at hpow
  exact hpow.congr fun n => (eq_add_pow_mul_of_error h n).symm

/-! ## The statement -/

/-- Settles O58: each update multiplies the error by α_n, since the sequence keeps α_n and the bin; the closed form and the
limit are those of a geometric error. -/
theorem noiseConverges : Obligations.NoiseConverges := by
  intro σ α m k hα h0 h1 hk (hstep : ∀ n, UpdatesBin m k (σ n) (σ (n + 1)))
  have herror (n : ℕ) : valAt (σ (n + 1)).noise k - m = α * (valAt (σ n).noise k - m) :=
    have ⟨hαn, hkn⟩ := updatesBin_invariant hα hk hstep n
    (hstep n).error hαn hkn
  exact ⟨eq_add_pow_mul_of_error (x := fun n => valAt (σ n).noise k) herror, herror,
    tendsto_of_error (by exact_mod_cast h0) (by exact_mod_cast h1) herror⟩

end Sys2Proof.Machine
end

section
/-! The proof about the bounds of the gain (spec/45_gain.md R211, R218, R219): first what one bin of CLEAN, GINST and G is as
a real number, then when the flooring raises a magnitude above what was measured. -/

namespace Sys2Proof.Machine

open Generic

/-! ## One bin of GAIN -/

theorem exec_gain (s : State) : exec .gain s = .next (gain exactArith s) := rfl

theorem cleanVector_length (s : State) : (s.cleanVector exactArith).length = min s.work.mag.length s.noise.length := by
  rw [State.cleanVector, List.length_zipWith]

/-- R211 step 1 for one bin, over the reals. -/
theorem valAt_cleanVector {s : State} {β fl : ℚ} {k : Nat} (hβ : num? s.cfg.beta = some β)
    (hfl : num? s.cfg.floor = some fl) (hmag : k < s.work.mag.length) (hnoise : k < s.noise.length) :
    valAt (s.cleanVector exactArith) k =
      max (valAt s.work.mag k - β * valAt s.noise k) (fl * valAt s.noise k) := by
  rw [State.cleanVector, State.beta_eq hβ, State.floorRatio_eq hfl, valAt,
    getD_zipWith _ (.rat 0) (.rat 0) _ hmag hnoise, cleanOf_val, Exact.val_rat, Exact.val_rat]
  rfl

section
variable {s : State} {k : Nat} (hmag : k < s.work.mag.length) (hnoise : k < s.noise.length)
include hmag hnoise

/-- R211 step 2 for one bin, over the reals. -/
theorem valAt_ginstVector : valAt (s.ginstVector exactArith) k =
    valAt (s.cleanVector exactArith) k / (valAt s.work.mag k + s.build.epsGain.val) := by
  have hclean : k < (s.cleanVector exactArith).length := cleanVector_length s ▸ lt_min hmag hnoise
  rw [State.ginstVector, valAt, getD_zipWith _ (.rat 0) (.rat 0) _ hclean hmag, instantGain_val]
  rfl

/-- R211 step 3 for one bin, over the reals. -/
theorem valAt_gainVector {α : ℚ} (hα : num? s.cfg.alphaG = some α) (hpgain : s.gainValid = true → k < s.pgain.length) :
    valAt (s.gainVector exactArith) k =
      if s.gainValid = true then α * valAt s.pgain k + (1 - α) * valAt (s.ginstVector exactArith) k
      else valAt (s.ginstVector exactArith) k := by
  have hginst : k < (s.ginstVector exactArith).length := by
    rw [State.ginstVector, List.length_zipWith, cleanVector_length]
    exact lt_min (lt_min hmag hnoise) hmag
  unfold State.gainVector
  split
  · next hvalid =>
    rw [State.alphaG_eq hα, valAt, getD_zipWith _ (.rat 0) (.rat 0) _ (hpgain hvalid) hginst, smooth_val, Exact.val_rat]
    rfl
  · rfl

/-- Smoothing with a factor in [0, 1] keeps a gain that is not negative so (R218). -/
theorem valAt_gainVector_nonneg {α : ℚ} (hα : num? s.cfg.alphaG = some α) (h0 : 0 ≤ α) (h1 : α ≤ 1)
    (hpgain : s.gainValid = true → k < s.pgain.length) (hold : s.gainValid = true → 0 ≤ valAt s.pgain k)
    (hnew : 0 ≤ valAt (s.ginstVector exactArith) k) : 0 ≤ valAt (s.gainVector exactArith) k := by
  have h0' : (0 : ℝ) ≤ α := by exact_mod_cast h0
  have h1' : (0 : ℝ) ≤ 1 - α := sub_nonneg.2 (by exact_mod_cast h1)
  rw [valAt_gainVector hmag hnoise hα hpgain]
  split
  · next hvalid => exact add_nonneg (mul_nonneg h0' (hold hvalid)) (mul_nonneg h1' hnew)
  · exact hnew

end

/-! ## Subtraction with flooring, as a real number

Here `m` is a magnitude, `d` what is subtracted from it, and `f` the floor. -/

/-- The subtraction itself never amplifies, so only the floor can (R219). -/
theorem max_sub_le_self_iff {m d f : ℝ} (hd : 0 ≤ d) : max (m - d) f ≤ m ↔ f ≤ m := by
  rw [max_le_iff, and_iff_right (sub_le_self m hd)]

/-- Above the magnitude the floor is what remains (R219). -/
theorem max_sub_eq_of_le {m d f : ℝ} (hd : 0 ≤ d) (hf : m ≤ f) : max (m - d) f = f :=
  max_eq_right ((sub_le_self m hd).trans hf)

/-! ## The statement -/

/-- Settles O60: CLEAN is a maximum whose first argument is at most MAG, so the floor alone decides on which side of MAG it
lies; GINST compares CLEAN with the positive divisor MAG + EPS_GAIN. -/
theorem gainBounds : Obligations.GainBounds := by
  intro s t β fl α k hβ hβ0 hfl hfl0 hα hα0 hα1 heps hmag hnoise hpgain hm hn hp hstep
  obtain rfl : gain exactArith s = t := Host.Outcome.next.inj hstep
  intro mag floored
  have hsub : 0 ≤ β * valAt s.noise k := mul_nonneg (by exact_mod_cast hβ0) hn
  have hfloored : 0 ≤ floored := mul_nonneg (by exact_mod_cast hfl0) hn
  have hden : 0 < mag + s.build.epsGain.val := add_pos_of_nonneg_of_pos hm heps
  have hclean : valAt (s.cleanVector exactArith) k = max (mag - β * valAt s.noise k) floored :=
    valAt_cleanVector hβ hfl hmag hnoise
  have hginst : valAt (s.ginstVector exactArith) k =
      valAt (s.cleanVector exactArith) k / (mag + s.build.epsGain.val) := valAt_ginstVector hmag hnoise
  have hfloor : floored ≤ valAt (s.cleanVector exactArith) k := hclean ▸ le_max_right _ _
  have hle : valAt (s.cleanVector exactArith) k ≤ mag ↔ floored ≤ mag := hclean ▸ max_sub_le_self_iff hsub
  have hclean0 := hfloored.trans hfloor
  have hginst0 : 0 ≤ valAt (s.ginstVector exactArith) k := hginst ▸ div_nonneg hclean0 hden.le
  have hg0 := valAt_gainVector_nonneg hmag hnoise hα hα0 hα1.le hpgain hp hginst0
  refine ⟨hfloor, hclean0, hginst0, hg0, hg0, hle, fun h => ?_, fun h => ?_, fun h => ?_, fun h => ?_⟩
  · change valAt (s.ginstVector exactArith) k < 1
    rw [hginst, div_lt_one hden]
    exact (hle.2 h).trans_lt (lt_add_of_pos_right _ heps)
  · have hraised := hclean.trans (max_sub_eq_of_le hsub h.le)
    exact ⟨hraised, hginst.trans (by rw [hraised])⟩
  · change 1 < valAt (s.ginstVector exactArith) k
    rw [hginst, one_lt_div hden]
    exact h.trans_le hfloor
  · have hzero : floored = 0 := by simp [floored, h]
    exact hle.2 (hzero ▸ hm)

end Sys2Proof.Machine
end

section
/-! The proofs about NOP, DESTROY and the checks of the other commands (spec/46_commands.md R232, R235, R237, R244): command
words with a stray field, what the bus answers while UNCONFIGURED, the checks of CALIBRATE and PROCESS, and the checks of
CONFIGURE as a chain. -/

namespace Sys2Proof.Machine

open Generic

/-! ## A command word of NOP, CONFIGURE or DESTROY with another field set (R103, R104) -/

/-- An opcode without LEN operand has one word; every other word with that opcode is E_FIELD. -/
theorem exec_cmd_of_stray_field {w : Word} {op : Nat} (s : State) (hop : w.toNat % 2 ^ 8 = op)
    (hplain : op = 0 ∨ op = 1 ∨ op = 4) (hne : w.toNat ≠ op) : exec (.wr 0x8 w) s = .next (s.raise .field w) :=
  exec_cmd_of_field_error s (decodeCmd_of_bad_fields (by omega) (by omega))

/-! ## The windows and the registers while UNCONFIGURED (R51, R77) -/

/-- Past IN there are arrays alone, and none of them can be read while UNCONFIGURED. -/
theorem not_canRead_of_unconfigured {s : State} (hm : s.mode = .unconfigured) {addr : Addr} (ha : 0x8000 ≤ addr.toNat) :
    ¬s.CanRead (s.locOf addr) := by
  have window (b i : Nat) (hb : 2 ≤ b) : ¬s.CanRead (locateWindow b i) := by
    unfold locateWindow
    split
    case h_1 => omega
    all_goals simp [State.CanRead, hm]
  unfold State.locOf locate
  split
  case isTrue => exact not_false
  case isFalse =>
    rw [if_neg (by omega), if_neg (by omega)]
    split
    case isTrue => exact window _ _ (by omega)
    case isFalse => split_ifs <;> simp [State.CanRead, hm]

/-- An RW-U register takes any word while UNCONFIGURED. -/
theorem exec_wr_of_rwuOffset {s : State} (hm : s.mode = .unconfigured) (hb : s.build.Legal) {addr : Addr}
    (ha : RwuOffset s.build.smax addr.toNat) (data : Word) :
    ∃ c, exec (.wr addr data) s = .next { s with cfg := c, response := .writeOk } := by
  have stores (c : ConfigRegs) : s.writeConfig c = { s with cfg := c, response := .writeOk } :=
    if_neg (by simp [hm])
  obtain ⟨r, e⟩ | ⟨sec, hsec, r, e⟩ := ha
  · exact ⟨_, exec_wr_of_writeLoc (State.locOf_offset hb (l := .cfg r) trivial e) (congrArg _ (stores _))⟩
  · exact ⟨_, exec_wr_of_writeLoc (State.locOf_offset hb (l := .coef sec r) hsec e) (congrArg _ (stores _))⟩

/-! ## The checks of CALIBRATE and PROCESS (R237) -/

theorem exec_calibrate_of_failure {s : State} {len : BitVec 16} {e : ErrorCode} {info : Word}
    (h : s.streamFailure len 0x02 = some (e, info)) : exec (.calibrate len) s = .next (s.raise e info) := by
  change Generic.execCalibrate exactArith len s = _
  rw [Generic.execCalibrate, h]

theorem exec_process_of_failure {s : State} {len : BitVec 16} {e : ErrorCode} {info : Word}
    (h : s.streamFailure len 0x03 = some (e, info)) : exec (.process len) s = .next (s.raise e info) := by
  change Generic.execProcess exactArith len s = _
  rw [Generic.execProcess, h]

theorem streamFailure_of_unconfigured {s : State} (hm : s.mode = .unconfigured) (len : BitVec 16) (op : BitVec 8) :
    s.streamFailure len op = some (.state, BitVec.ofNat 32 (2 ^ 8 * len.toNat + op.toNat)) := by
  rw [State.streamFailure, if_pos hm, ← commandWord_toNat, BitVec.ofNat_toNat, BitVec.setWidth_eq]

theorem streamFailure_of_length_ne {s : State} (hm : s.mode = .configured) {len : BitVec 16} (hl : len.toNat ≠ s.H)
    (op : BitVec 8) : s.streamFailure len op = some (.length, BitVec.ofNat 32 len.toNat) := by
  rw [State.streamFailure, if_neg (by simp [hm]), lenOperand, if_pos hl, BitVec.ofNat_toNat]

/-! ## When a check of CONFIGURE on one register fails (R235) -/

section
variable {w : Word}

theorem word_eq_zero_iff : w = 0 ↔ w.toNat = 0 := (BitVec.toNat_inj (y := 0)).symm

theorem notNonNegative_iff : notNonNegative exactArith w = true ↔ ¬∃ q, num? w = some q ∧ 0 ≤ q := by
  rw [← notNonNegative_eq_false, Bool.not_eq_false]

theorem notSmoothing_iff : notSmoothing exactArith w = true ↔ ¬∃ q, num? w = some q ∧ 0 ≤ q ∧ q < 1 := by
  rw [← notSmoothing_eq_false, Bool.not_eq_false]

theorem finite_eq_false_iff : exactArith.finite w = false ↔ ¬∃ q, num? w = some q := by
  rw [← finite_iff, Bool.not_eq_true]

end

/-! ## What the checks of CONFIGURE say of the filter (R235) -/

/-- The container of coefficient r of section `sec` is finite. -/
def ConfigRegs.FiniteCoef (c : ConfigRegs) (sec : Nat) (r : CoefReg) : Prop := ∃ q, num? (c.getCoef sec r) = some q

/-- 1 + a1 + a2 = 0 in section `sec`. -/
def ConfigRegs.SingularSection (c : ConfigRegs) (sec : Nat) : Prop :=
  ∃ p q, num? (c.getCoef sec .a1) = some p ∧ num? (c.getCoef sec .a2) = some q ∧ 1 + p + q = 0

/-- HP_ORDER is what an enabled filter asks of it in a block with SMAX sections. -/
def ConfigRegs.OrderInRange (c : ConfigRegs) (smax : Nat) : Prop := 1 ≤ c.hpOrder.toNat ∧ c.hpOrder.toNat ≤ 2 * smax

/-- Every coefficient of the sections the filter runs is finite. -/
def ConfigRegs.FiniteCoefs (c : ConfigRegs) : Prop := ∀ sec < c.sections, ∀ r, c.FiniteCoef sec r

section
variable {c : ConfigRegs} {smax sec : Nat}

/-- The model's check 12 looks at a section whose coefficients check 11 has found finite. -/
theorem singular_section_iff (hf : ∀ r, c.FiniteCoef sec r) :
    singular exactArith (c.coef.getD sec Section.zero) = true ↔ c.SingularSection sec := by
  obtain ⟨p, hp⟩ := hf .a1
  obtain ⟨q, hq⟩ := hf .a2
  have ha1 : numOf (c.coef.getD sec Section.zero).a1 = p := congrArg (Option.getD · _) hp
  have ha2 : numOf (c.coef.getD sec Section.zero).a2 = q := congrArg (Option.getD · _) hq
  rw [singular_iff, ha1, ha2]
  simp [ConfigRegs.SingularSection, hp, hq]

theorem orderInRange_iff : c.OrderInRange smax ↔ ¬(c.hpOrder = 0 ∨ 2 * smax < c.hpOrder.toNat) := by
  rw [ConfigRegs.OrderInRange, word_eq_zero_iff]
  omega

/-- An order in range names sections that the block has. -/
theorem ConfigRegs.OrderInRange.sections_le (h : c.OrderInRange smax) : c.sections ≤ smax := by
  obtain ⟨-, h⟩ := h
  unfold ConfigRegs.sections
  omega

/-! ## The sections the filter runs, by their numbers -/

theorem running_getD (h : sec < c.sections) :
    (c.coef.take c.sections).getD sec Section.zero = c.coef.getD sec Section.zero := by
  simp [List.getD_eq_getElem?_getD, List.getElem?_take_of_lt h]

theorem running_length (h : c.sections ≤ c.coef.length) : (c.coef.take c.sections).length = c.sections := by
  rw [List.length_take, min_eq_left h]

theorem forall_mem_running_iff {P : Section → Prop} (h : c.sections ≤ c.coef.length) :
    (∀ x ∈ c.coef.take c.sections, P x) ↔ ∀ sec < c.sections, P (c.coef.getD sec Section.zero) := by
  rw [List.forall_mem_iff_getElem]
  constructor
  · intro hP sec hs
    have hl := hs.trans_eq (running_length h).symm
    rw [← running_getD hs, List.getD_eq_getElem _ _ hl]
    exact hP sec hl
  · intro hP sec hl
    have hs := hl.trans_eq (running_length h)
    rw [← List.getD_eq_getElem _ Section.zero hl, running_getD hs]
    exact hP sec hs

/-! ## Checks 10 to 12, made when the filter is enabled -/

theorem filterFailure_of_order (h : ¬c.OrderInRange smax) : filterFailure exactArith c smax = some (.cfgOrder, c.hpOrder) :=
  if_pos (not_not.mp (mt orderInRange_iff.mpr h))

/-- Check 11: the information word names the first coefficient that is not finite, section by section (R235). -/
theorem filterFailure_of_not_finite {r : CoefReg} (hl : c.coef.length = smax) (ho : c.OrderInRange smax) (hs : sec < c.sections)
    (hr : ¬c.FiniteCoef sec r)
    (hfirst : ∀ (sec' : Nat) (r' : CoefReg), sec' < sec ∨ (sec' = sec ∧ r'.number < r.number) → c.FiniteCoef sec' r') :
    filterFailure exactArith c smax = some (.cfgCoef, BitVec.ofNat 32 (2 ^ 8 * sec + r.number)) := by
  have hle : c.sections ≤ c.coef.length := hl ▸ ho.sections_le
  have hbad : badCoef? exactArith 0 (c.coef.take c.sections) = some (coefInfo (0 + sec) r.number) := by
    refine badCoef?_eq_some 0 _ sec (by rwa [running_length hle]) r ?_ fun sec' r' hlt => ?_
    · rw [running_getD hs]
      exact finite_eq_false_iff.mpr hr
    · rw [running_getD (by omega)]
      exact finite_iff.mpr (hfirst sec' r' hlt)
  have hnumber : r.number < 256 := by cases r <;> decide
  rw [filterFailure, if_neg (orderInRange_iff.mp ho), hbad, Nat.zero_add, coefInfo_eq sec hnumber]

theorem badCoef?_running_eq_none (h : c.sections ≤ c.coef.length) :
    badCoef? exactArith 0 (c.coef.take c.sections) = none ↔ c.FiniteCoefs := by
  rw [badCoef?_eq_none, forall_mem_running_iff h]
  exact forall₃_congr fun _ _ _ => finite_iff

/-- Check 12: the information word names the first singular section (R235). -/
theorem filterFailure_of_singular (hl : c.coef.length = smax) (ho : c.OrderInRange smax) (hf : c.FiniteCoefs)
    (hs : sec < c.sections) (hsing : c.SingularSection sec) (hfirst : ∀ sec' < sec, ¬c.SingularSection sec') :
    filterFailure exactArith c smax = some (.cfgCoef, BitVec.ofNat 32 (2 ^ 8 * sec + 0xFF)) := by
  have hle : c.sections ≤ c.coef.length := hl ▸ ho.sections_le
  have hfound : singular? exactArith 0 (c.coef.take c.sections) = some (coefInfo (0 + sec) 0xFF) := by
    refine singular?_eq_some 0 _ sec (by rwa [running_length hle]) ?_ fun sec' hlt => ?_
    · rw [running_getD hs]
      exact (singular_section_iff (hf sec hs)).mpr hsing
    · rw [running_getD (hlt.trans hs), ← Bool.not_eq_true, singular_section_iff (hf sec' (hlt.trans hs))]
      exact hfirst sec' hlt
  rw [filterFailure, if_neg (orderInRange_iff.mp ho), (badCoef?_running_eq_none hle).mpr hf, hfound,
    Nat.zero_add, coefInfo_eq sec (by decide)]

theorem filterFailure_eq_none (hl : c.coef.length = smax) (ho : c.OrderInRange smax) (hf : c.FiniteCoefs)
    (hns : ∀ sec < c.sections, ¬c.SingularSection sec) : filterFailure exactArith c smax = none := by
  have hle : c.sections ≤ c.coef.length := hl ▸ ho.sections_le
  have hregular : singular? exactArith 0 (c.coef.take c.sections) = none := by
    rw [singular?_eq_none, forall_mem_running_iff hle]
    intro sec hs
    rw [← Bool.not_eq_true, singular_section_iff (hf sec hs)]
    exact hns sec hs
  rw [filterFailure, if_neg (orderInRange_iff.mp ho), (badCoef?_running_eq_none hle).mpr hf, hregular]

end

/-! ## CONFIGURE by the outcome of its checks (R234, R235) -/

theorem exec_configure_of_failure {s : State} {e : ErrorCode} {info : Word} (hm : s.mode = .unconfigured)
    (h : s.configFailure exactArith = some (e, info)) : exec .configure s = .next (s.raise e info) := by
  change Generic.execConfigure exactArith s = _
  rw [Generic.execConfigure, if_neg (by simp [hm]), h]

theorem exec_configure_of_no_failure {s : State} (hm : s.mode = .unconfigured) (h : s.configFailure exactArith = none) :
    ∃ t, exec .configure s = .next t ∧ t.mode = .configured ∧ t.err = false ∧ t.errCode = 0 := by
  obtain ⟨hc, -⟩ | ⟨-, e, info, hf, -⟩ | ⟨-, -, e⟩ := execConfigure_cases s
  · cases hm.symm.trans hc
  · cases h.symm.trans hf
  · exact ⟨_, e, rfl, rfl, rfl⟩

/-! ## The statements -/

/-- Settles O31: NOP is the end of a successful command and nothing before it; its opcode has no LEN operand. -/
theorem nopResult : Obligations.NopResult := by
  intro s
  refine ⟨rfl, exec_cmd_of_decodeCmd_ok s rfl, fun w hop hne => ?_⟩
  exact exec_cmd_of_stray_field s hop (.inl rfl) fun h => hne (BitVec.eq_of_toNat_eq h)

/-- Settles O36: the mode is looked at first, and the length only while CONFIGURED. -/
theorem streamChecks : Obligations.StreamChecks := by
  intro s len stops
  refine ⟨fun hm => ?_, fun hm hl => ?_⟩
  · exact ⟨exec_calibrate_of_failure (streamFailure_of_unconfigured hm len 0x02),
      exec_process_of_failure (streamFailure_of_unconfigured hm len 0x03)⟩
  · exact ⟨exec_calibrate_of_failure (streamFailure_of_length_ne hm hl 0x02),
      exec_process_of_failure (streamFailure_of_length_ne hm hl 0x03)⟩

/-- Settles O32: DESTROY writes flags and result registers alone, and what it leaves is unreadable and unlocked because the
mode is UNCONFIGURED. -/
theorem destroyResult : Obligations.DestroyResult := by
  intro s
  refine ⟨s.clearFlags.succeed, rfl, rfl, exec_cmd_of_decodeCmd_ok (i := .destroy) s rfl, fun addr ha => ?unreadable,
    fun addr data ha hb => ?unlocked, fun a => rfl, fun w hop hne => ?field⟩
  case unreadable =>
    have hnone := (readLoc_eq_none_iff s.clearFlags.succeed _).mpr (not_canRead_of_unconfigured rfl ha)
    exact (execRd_eq addr _).trans (by rw [hnone, readResponse])
  case unlocked =>
    obtain ⟨c, e⟩ := exec_wr_of_rwuOffset (s := s.clearFlags.succeed) rfl hb ha data
    exact ⟨_, e, rfl⟩
  case field =>
    exact exec_cmd_of_stray_field s hop (.inr (.inr rfl)) fun h => hne (BitVec.eq_of_toNat_eq h)

/-- Settles O34: each check passed leaves the chain of `failure` without its first test (the equations `after1` to `after9`),
so the next check decides; checks 10 to 12 are those of `filterFailure`. -/
theorem configureChecks : Obligations.ConfigureChecks := by
  intro s hm hlen c stops notNegative factor enabled order secs isFinite singular
    pass1 pass2 pass3 pass4 pass5 pass6 pass7 pass8 pass9 pass10 pass11 pass12
  have fails {e : ErrorCode} {info : Word} (h : s.configFailure exactArith = some (e, info)) : stops e.word info :=
    exec_configure_of_failure hm h
  have after0 : s.configFailure exactArith = _ := Generic.failure.eq_1 ..
  have after1 (h : pass1) := after0.trans (if_neg (mt word_eq_zero_iff.mp h))
  have after2 (h : pass2) := (after1 h.1).trans (if_neg (mt word_eq_zero_iff.mp h.2))
  have after3 (h : pass3) := (after2 h.1).trans (if_neg fun hodd => zero_ne_one (h.2.symm.trans hodd))
  have after4 (h : pass4) := (after3 h.1).trans (if_neg h.2.not_gt)
  have after5 (h : pass5) := (after4 h.1).trans (if_neg (mt notNonNegative_iff.mp (not_not.mpr h.2)))
  have after6 (h : pass6) := (after5 h.1).trans (if_neg (mt notNonNegative_iff.mp (not_not.mpr h.2)))
  have after7 (h : pass7) := (after6 h.1).trans (if_neg (mt notSmoothing_iff.mp (not_not.mpr h.2)))
  have after8 (h : pass8) := (after7 h.1).trans (if_neg (mt notSmoothing_iff.mp (not_not.mpr h.2)))
  have after9 (h : pass9) := (after8 h.1).trans (if_neg (mt finite_eq_false_iff.mp (not_not.mpr h.2)))
  have filtered (h : pass9) (hen : enabled) := (after9 h).trans (if_pos (filterOn_iff.mpr hen))
  have unfiltered (h : pass9) (hdis : ¬enabled) := (after9 h).trans (if_neg (mt filterOn_iff.mp hdis))
  refine ⟨fun hn => fails (after0.trans (if_pos (word_eq_zero_iff.mpr (not_not.mp hn)))),
    fun h hn => fails ((after1 h).trans (if_pos (word_eq_zero_iff.mpr (not_not.mp (not_and.mp hn h))))),
    fun h hn => fails ((after2 h).trans (if_pos (Nat.mod_two_ne_zero.mp (not_and.mp hn h)))),
    fun h hn => fails ((after3 h).trans (if_pos (not_le.mp (not_and.mp hn h)))),
    fun h hn => fails ((after4 h).trans (if_pos (notNonNegative_iff.mpr (not_and.mp hn h)))),
    fun h hn => fails ((after5 h).trans (if_pos (notNonNegative_iff.mpr (not_and.mp hn h)))),
    fun h hn => fails ((after6 h).trans (if_pos (notSmoothing_iff.mpr (not_and.mp hn h)))),
    fun h hn => fails ((after7 h).trans (if_pos (notSmoothing_iff.mpr (not_and.mp hn h)))),
    fun h hn => fails ((after8 h).trans (if_pos (finite_eq_false_iff.mpr (not_and.mp hn h)))),
    fun h hn => ?order, ?notFinite, ?singular, fun h => exec_configure_of_no_failure hm ?passed⟩
  case order =>
    obtain ⟨hen, hrange⟩ := Classical.not_imp.mp (not_and.mp hn h)
    exact fails ((filtered h hen).trans (filterFailure_of_order hrange))
  case notFinite =>
    rintro ⟨h, hrange⟩ hen sec hs r hr hfirst
    exact fails ((filtered h hen).trans (filterFailure_of_not_finite hlen (hrange hen) hs hr hfirst))
  case singular =>
    rintro ⟨⟨h, hrange⟩, hfinite⟩ hen sec hs hsing hfirst
    exact fails ((filtered h hen).trans (filterFailure_of_singular hlen (hrange hen) (hfinite hen) hs hsing hfirst))
  case passed =>
    obtain ⟨⟨⟨h, hrange⟩, hfinite⟩, hregular⟩ := h
    by_cases hen : enabled
    · exact (filtered h hen).trans (filterFailure_eq_none hlen (hrange hen) (hfinite hen) (hregular hen))
    · exact unfiltered h hen

end Sys2Proof.Machine
end

section
/-! The proofs about the invariant and the estimates (spec/10_state.md R10, R33 to R39, R51 to R61, spec/44_noise.md R203,
spec/45_gain.md R218): first what the invariant looks at, then one lemma for each effect of a host event that is more than a
change of the result elements, then the step. -/

namespace Sys2Proof.Machine

open Generic

/-! ## What the invariant looks at -/

/-- The host's events, the response and ERRS are free in the invariant; the result elements are held to R39 and R54 alone. -/
theorem Generic.State.Inv.with_result {s : Machine.State} (h : s.Inv) {e es : Bool} {code info : Word} (p : List HostEvent)
    (r : Response) (hr : (e = true ↔ code ≠ 0) ∧ (e = false → info = 0)) :
    Generic.State.Inv { s with err := e, errs := es, errCode := code, errInfo := info, pending := p, response := r } where
  build := h.build
  coef := h.coef
  memory := h.memory
  window := h.window
  idle := h.idle
  noWork := h.noWork
  result := hr
  unconfigured := h.unconfigured
  primed := h.primed
  configured hm := { h.configured hm with }

/-- Taking an event from the list keeps the invariant. -/
theorem Generic.State.Inv.with_pending {s : Machine.State} (h : s.Inv) (p : List HostEvent) :
    Generic.State.Inv { s with pending := p } :=
  h.with_result p s.response h.result

theorem ErrorCode.word_ne_zero (e : ErrorCode) : e.word ≠ 0 := by cases e <;> decide

theorem Generic.State.Inv.raise {s : Machine.State} (h : s.Inv) (e : ErrorCode) (info : Word) : (s.raise e info).Inv :=
  h.with_result s.pending .writeOk ⟨iff_of_true rfl e.word_ne_zero, by simp⟩

/-- The result elements of a command that succeeds (R231). -/
theorem result_of_success : (false = true ↔ (0 : Word) ≠ 0) ∧ (false = false → (0 : Word) = 0) := by simp

theorem Generic.State.Inv.succeed {s : Machine.State} (h : s.Inv) : s.succeed.Inv :=
  h.with_result s.pending .writeOk result_of_success

/-! ## The state after reset (R65) -/

/-- After hardware reset nothing but the parameters and the configuration registers is held to anything. -/
theorem inv_resetOf {b : Build Exact} (hb : b.Legal) (p : List HostEvent) (n : Nat) :
    Generic.State.Inv { Generic.State.resetOf b with pending := p, resets := n } where
  build := hb
  coef := List.length_replicate
  memory := List.Pairwise.nil
  window _ hc := absurd hc List.not_mem_nil
  idle := rfl
  noWork := rfl
  result := result_of_success
  unconfigured _ := ⟨rfl, rfl, rfl, rfl⟩
  primed hp := nomatch hp
  configured hm := nomatch hm

/-! ## Writes to the registers and to the input buffer (R51, R61) -/

/-- While UNCONFIGURED the configuration registers are held to the number of coefficient sets alone. -/
theorem Generic.State.Inv.with_cfg {s : Machine.State} (h : s.Inv) (hm : s.mode = .unconfigured) {c : ConfigRegs}
    (hc : c.coef.length = s.cfg.coef.length) (r : Response) : Generic.State.Inv { s with cfg := c, response := r } where
  build := h.build
  coef := hc.trans h.coef
  memory := h.memory
  window := h.window
  idle := h.idle
  noWork := h.noWork
  result := h.result
  unconfigured := h.unconfigured
  primed := h.primed
  configured hm' := nomatch hm.symm.trans hm'

theorem ConfigRegs.set_coef (c : ConfigRegs) (w : Word) (r : CfgReg) : (c.set w r).coef = c.coef := by cases r <;> rfl

theorem ConfigRegs.setCoef_coef_length (c : ConfigRegs) (sec : Nat) (r : CoefReg) (w : Word) :
    (c.setCoef sec r w).coef.length = c.coef.length := List.length_set

/-- What is written stays written when a word is written over it or beside it. -/
theorem Memory.isSome_read?_writeWord {m : Memory} {b : Nat} (a : Nat) (w : Word) (h : (Memory.read? m b).isSome = true) :
    (Memory.read? (Memory.writeWord m a w) b).isSome = true := by
  rw [Memory.read?_writeWord]
  split_ifs <;> simp [h]

theorem Generic.State.Inv.with_input {s : Machine.State} (h : s.Inv) {i : Nat} (hi : i < s.build.hmax) (w : Word) (r : Response) :
    Generic.State.Inv { s with inBuf := Memory.writeWord s.inBuf (inBase + 4 * i) w, response := r } where
  build := h.build
  coef := h.coef
  memory := Memory.wf_writeWord h.memory _ _
  window c hc := by
    rcases Memory.mem_writeWord hc with hnew | hold
    · have : c.1 < inBase + 4 * s.build.hmax := by omega
      exact ⟨by omega, this⟩
    · exact h.window c hold
  idle := h.idle
  noWork := h.noWork
  result := h.result
  unconfigured := h.unconfigured
  primed := h.primed
  configured hm :=
    { h.configured hm with
      inWritten := fun j hj => Memory.isSome_read?_writeWord _ _ ((h.configured hm).inWritten j hj) }

/-! ## DESTROY and CONFIGURE (R234, R244) -/

theorem Generic.State.Inv.clearFlags {s : Machine.State} (h : s.Inv) : s.clearFlags.Inv where
  build := h.build
  coef := h.coef
  memory := h.memory
  window := h.window
  idle := h.idle
  noWork := h.noWork
  result := h.result
  unconfigured _ := ⟨rfl, rfl, rfl, rfl⟩
  primed hp := nomatch hp
  configured hm := nomatch hm

/-- What CONFIGURE makes of the state once its checks have passed, but for the result elements (R234). -/
def configured (s : State) : State :=
  construct exactArith (hpfSetup exactArith (wingen exactArith (setFilterTag exactArith s)))

theorem configured_configured {s : State} (hf : s.configFailure exactArith = none) : (configured s).Configured where
  accepted := hf
  filterTag := rfl
  win := rfl
  tail := zeros_length _
  ola := zeros_length _
  noise := List.length_replicate
  pgain hv := nomatch hv
  out hv := nomatch hv
  hpz _ := List.length_replicate
  hpzi hen := if_pos hen
  inWritten _ hi :=
    Option.isSome_of_eq_some (Memory.read?_zeros (Nat.le_add_right _ _) (Nat.add_lt_add_left hi _))

theorem Generic.State.Inv.configure {s : Machine.State} (h : s.Inv) (hf : s.configFailure exactArith = none) :
    (Machine.configured s).Inv where
  build := h.build
  coef := h.coef
  memory := Memory.wf_zeros _
  window _ hc := Memory.mem_zeros hc
  idle := h.idle
  noWork := h.noWork
  result := h.result
  unconfigured hm := nomatch hm
  primed hp := nomatch hp
  configured _ := configured_configured hf

/-! ## CALIBRATE and PROCESS (R238, R240) -/

/-- An accepted frame length is even (R235). -/
theorem Generic.State.Configured.even {s : Machine.State} (h : s.Configured) : s.N % 2 = 0 := by
  obtain ⟨heven, -⟩ := accepted_facts h.accepted
  exact heven

/-- With the filter enabled its sections are ones that the block has (R235). -/
theorem Generic.State.Configured.sections_le {s : Machine.State} (h : s.Configured) (hen : s.hpfEn = true) :
    s.cfg.sections ≤ s.build.smax := by
  obtain ⟨-, -, -, -, -, -, -, hle⟩ := accepted_facts h.accepted
  exact hle (h.filterTag.symm.trans hen)

theorem Generic.State.Configured.hpzi_length {s : Machine.State} (h : s.Configured) (hc : s.cfg.coef.length = s.build.smax)
    (hen : s.hpfEn = true) : s.hpzi.length = s.build.smax := by
  have hle := h.sections_le hen
  rw [h.hpzi hen, List.length_append, restStates_length, biquads_length, List.length_replicate, hc]
  omega

theorem Generic.State.Configured.win_length {s : Machine.State} (h : s.Configured) : s.win.length = s.N := by
  rw [h.win, windowOf_length]

/-- The end of a command writes nothing that `Configured` looks at (R231). -/
theorem Generic.State.Configured.done {s : Machine.State} (h : s.Configured) : s.dropWork.succeed.Configured :=
  { h with }

section
variable {s : Machine.State} {c : List Exact} (h : s.Inv) (hm : s.mode = .configured) (hc : s.chunk exactArith = .ok c)
include h hm hc

/-- What the four micro-operations of CALIBRATE keep; the working vectors alone are not in order yet. -/
theorem calibrated_configured : (calibrated exactArith c s).Configured := by
  have hconf := h.configured hm
  exact {
    accepted := hconf.accepted
    filterTag := hconf.filterTag
    win := hconf.win
    tail := calibrated_tail_length hc hconf.even
    ola := hconf.ola
    noise := by rw [calibrated_noise_length, hconf.noise, min_self, calibrated_K]
    pgain := hconf.pgain
    out := hconf.out
    hpz := fun hen => by
      rw [calibrated_hpz_length c (fun _ => (hconf.sections_le hen).trans_eq (hconf.hpz hen).symm)
        fun _ => (hconf.sections_le hen).trans_eq (hconf.hpzi_length h.coef hen).symm]
      exact hconf.hpz hen
    hpzi := hconf.hpzi
    inWritten := hconf.inWritten }

theorem processed_configured : (processed exactArith c s).Configured := by
  have hconf := h.configured hm
  have hcal := calibrated_configured h hm hc
  exact {
    accepted := hconf.accepted
    filterTag := hconf.filterTag
    win := hconf.win
    tail := by simpa using hcal.tail
    ola := by rw [processed_ola_length c hconf.ola hconf.win_length, processed_N]
    noise := by simpa using hcal.noise
    pgain := fun _ => by rw [processed_pgain_length c hconf.noise hconf.pgain, processed_K]
    out := fun _ => by rw [processed_out_length c hconf.ola, processed_H]
    hpz := by simpa using hcal.hpz
    hpzi := hconf.hpzi
    inWritten := hconf.inWritten }

omit hm hc in
/-- HPF primes the filter only where it runs it (R149). -/
theorem hpfEn_of_primed (hp : (s.hpfEn || s.hpfPrimed) = true) : s.hpfEn = true :=
  ((Bool.or_eq_true _ _).mp hp).elim id h.primed

theorem Generic.State.Inv.calibrated : (Generic.calibrated exactArith c s).dropWork.succeed.Inv := by
  have hdone := (calibrated_configured h hm hc).done
  rw [calibrated_done] at hdone ⊢
  exact {
    build := h.build
    coef := h.coef
    memory := h.memory
    window := h.window
    idle := h.idle
    noWork := rfl
    result := result_of_success
    unconfigured := fun hm' => nomatch hm.symm.trans hm'
    primed := hpfEn_of_primed h
    configured := fun _ => hdone }

theorem Generic.State.Inv.processed : (Generic.processed exactArith c s).dropWork.succeed.Inv := by
  have hdone := (processed_configured h hm hc).done
  rw [processed_done] at hdone ⊢
  exact {
    build := h.build
    coef := h.coef
    memory := h.memory
    window := h.window
    idle := h.idle
    noWork := rfl
    result := result_of_success
    unconfigured := fun hm' => nomatch hm.symm.trans hm'
    primed := hpfEn_of_primed h
    configured := fun _ => hdone }

end

/-! ## The step -/

/-- Every effect of a host event keeps the invariant. -/
theorem Effect.keeps_inv {s t : State} {e : HostEvent} (h : s.Inv) (he : Effect s e t) : t.Inv := by
  cases he with
  | read addr size r => exact h.with_result s.pending r h.result
  | error => exact h.with_result s.pending .err h.result
  | raise w code info => exact h.raise code info
  | nop => exact h.succeed
  | configure hm hf => exact (h.configure hf).succeed
  | calibrate len c hm hl hc => exact h.calibrated hm hc
  | process len c hm hl hc => exact h.processed hm hc
  | destroy => exact h.clearFlags.succeed
  | status data => exact h.with_result s.pending .writeOk h.result
  | config addr data r hm => exact h.with_cfg hm (congrArg _ (s.cfg.set_coef data r)) .writeOk
  | coef addr data sec r hm => exact h.with_cfg hm (s.cfg.setCoef_coef_length sec r data) .writeOk
  | input addr data i hi => exact h.with_input hi data .writeOk

/-- From a state with the invariant a step does nothing, resets the block, or has the effect of the next host event. -/
theorem step_cases_of_inv {s t : State} (h : s.Inv) (hstep : step s = .next t) :
    t = s ∨ (∃ rest, s.pending = .reset :: rest ∧ t = s.hardReset rest) ∨
      ∃ e rest, s.pending = e :: rest ∧ Effect { s with pending := rest } e t := by
  rcases step_cases hstep with ⟨hseq, -⟩ | ⟨-, -, rfl⟩ | ⟨-, hreset⟩ | ⟨-, heffect⟩
  · exact absurd h.idle hseq
  · exact .inl rfl
  · exact .inr (.inl hreset)
  · exact .inr (.inr heffect)

/-- Settles O11: by what a step can do, and `Effect.keeps_inv` for each effect of an event. -/
theorem stepKeepsInvariant : Obligations.StepKeepsInvariant := by
  intro s t h hstep
  rcases step_cases_of_inv h hstep with rfl | ⟨rest, -, rfl⟩ | ⟨e, rest, -, he⟩
  · exact h
  · exact inv_resetOf h.build rest _
  · exact he.keeps_inv (h.with_pending rest)

end Sys2Proof.Machine
end

section
/-! The proofs about the estimates (spec/44_noise.md R203, spec/45_gain.md R218): the averages and quotients of NOISE_UPDATE and
GAIN bin by bin, then what CONFIGURE, CALIBRATE and PROCESS do to the signs, then the step. -/

namespace Sys2Proof.Machine

open Generic

/-! ## One bin -/

/-- What holds of every pair of elements holds of every element of the combined list. -/
theorem forall_mem_zipWith {α β γ : Type} {f : α → β → γ} {P : α → Prop} {Q : β → Prop} {R : γ → Prop}
    (hf : ∀ a b, P a → Q b → R (f a b)) {l : List α} {m : List β} (hl : ∀ a ∈ l, P a) (hm : ∀ b ∈ m, Q b) :
    ∀ c ∈ List.zipWith f l m, R c := by
  intro c hc
  rw [← List.map_uncurry_zip_eq_zipWith] at hc
  obtain ⟨⟨a, b⟩, hab, rfl⟩ := List.mem_map.mp hc
  obtain ⟨ha, hb⟩ := List.of_mem_zip hab
  exact hf a b (hl a ha) (hm b hb)

/-- An average of two numbers that are not negative is not negative (R203). -/
theorem smooth_nonneg {α old new : Exact} (h0 : 0 ≤ α.val) (h1 : α.val < 1) (ho : 0 ≤ old.val) (hn : 0 ≤ new.val) :
    0 ≤ (smooth exactArith α old new).val := by
  rw [smooth_val]
  exact add_nonneg (mul_nonneg h0 ho) (mul_nonneg (sub_nonneg.2 h1.le) hn)

/-- With a positive weight of the old number the average stays positive (R203). -/
theorem smooth_pos {α old new : Exact} (h0 : 0 < α.val) (h1 : α.val < 1) (ho : 0 < old.val) (hn : 0 ≤ new.val) :
    0 < (smooth exactArith α old new).val := by
  rw [smooth_val]
  exact add_pos_of_pos_of_nonneg (mul_pos h0 ho) (mul_nonneg (sub_nonneg.2 h1.le) hn)

/-- The floor keeps CLEAN from being negative (R218). -/
theorem cleanOf_nonneg {β fl mag noise : Exact} (hf : 0 ≤ fl.val) (hn : 0 ≤ noise.val) :
    0 ≤ (cleanOf exactArith β fl mag noise).val := by
  rw [cleanOf_val]
  exact (mul_nonneg hf hn).trans (le_max_right _ _)

theorem instantGain_nonneg {eps clean mag : Exact} (he : 0 ≤ eps.val) (hc : 0 ≤ clean.val) (hm : 0 ≤ mag.val) :
    0 ≤ (instantGain exactArith eps clean mag).val := by
  rw [instantGain_val]
  exact div_nonneg hc (add_nonneg hm he)

/-! ## The micro-operations -/

/-- A magnitude is an absolute value (R185). -/
theorem calibrated_mag_nonneg (c : List Exact) (s : State) : ∀ m ∈ (calibrated exactArith c s).work.mag, 0 ≤ m.val := by
  unfold calibrated
  rw [noiseUpdate_work, analyze_work]
  intro m hm
  obtain ⟨z, -, rfl⟩ := List.mem_map.mp hm
  rw [exactArith_val_cabs]
  exact norm_nonneg _

/-- NOISE after CALIBRATE's micro-operations, by the magnitudes they leave (R201). -/
theorem calibrated_noise_eq (c : List Exact) (s : State) : (calibrated exactArith c s).noise =
    List.zipWith (smooth exactArith (s.alphaN exactArith)) s.noise (calibrated exactArith c s).work.mag := rfl

section
variable {s : State} (h : s.Configured)
include h

/-- α_n of an accepted configuration (R46, R235). -/
theorem alphaN_range : 0 ≤ (s.alphaN exactArith).val ∧ (s.alphaN exactArith).val < 1 := by
  obtain ⟨-, -, -, -, -, ⟨q, hq, h0, h1⟩, -, -⟩ := accepted_facts h.accepted
  rw [State.alphaN_eq hq, Exact.val_rat]
  exact ⟨by exact_mod_cast h0, by exact_mod_cast h1⟩

/-- α_g of an accepted configuration (R47, R235). -/
theorem alphaG_range : 0 ≤ (s.alphaG exactArith).val ∧ (s.alphaG exactArith).val < 1 := by
  obtain ⟨-, -, -, -, -, -, ⟨q, hq, h0, h1⟩, -⟩ := accepted_facts h.accepted
  rw [State.alphaG_eq hq, Exact.val_rat]
  exact ⟨by exact_mod_cast h0, by exact_mod_cast h1⟩

/-- The noise floor of an accepted configuration (R45, R235). -/
theorem floorRatio_nonneg : 0 ≤ (s.floorRatio exactArith).val := by
  obtain ⟨-, -, -, -, ⟨q, hq, h0⟩, -⟩ := accepted_facts h.accepted
  rw [State.floorRatio_eq hq, Exact.val_rat]
  exact_mod_cast h0

theorem calibrated_noise_nonneg (hn : ∀ x ∈ s.noise, 0 ≤ x.val) (c : List Exact) :
    ∀ x ∈ (calibrated exactArith c s).noise, 0 ≤ x.val := by
  obtain ⟨h0, h1⟩ := alphaN_range h
  rw [calibrated_noise_eq]
  exact forall_mem_zipWith (R := (0 ≤ Exact.val ·)) (fun _ _ => smooth_nonneg h0 h1) hn (calibrated_mag_nonneg c s)

theorem calibrated_noise_pos (hα : 0 < numOf s.cfg.alphaN) (hn : ∀ x ∈ s.noise, 0 < x.val) (c : List Exact) :
    ∀ x ∈ (calibrated exactArith c s).noise, 0 < x.val := by
  obtain ⟨-, h1⟩ := alphaN_range h
  have h0 : 0 < (s.alphaN exactArith).val := by
    rw [State.alphaN, exactArith_numOf, Exact.val_rat]
    exact_mod_cast hα
  rw [calibrated_noise_eq]
  exact forall_mem_zipWith (R := (0 < Exact.val ·)) (fun _ _ => smooth_pos h0 h1) hn (calibrated_mag_nonneg c s)

/-- GAIN on estimates and magnitudes that are not negative (R218). -/
theorem gainVector_nonneg (he : 0 < s.build.epsGain.val) (hn : ∀ x ∈ s.noise, 0 ≤ x.val)
    (hm : ∀ x ∈ s.work.mag, 0 ≤ x.val) (hp : s.gainValid = true → ∀ x ∈ s.pgain, 0 ≤ x.val) :
    ∀ x ∈ s.gainVector exactArith, 0 ≤ x.val := by
  have hclean : ∀ x ∈ s.cleanVector exactArith, 0 ≤ x.val :=
    forall_mem_zipWith (P := fun _ => True) (R := (0 ≤ Exact.val ·)) (fun _ _ _ => cleanOf_nonneg (floorRatio_nonneg h)) (fun _ _ => trivial) hn
  have hginst : ∀ x ∈ s.ginstVector exactArith, 0 ≤ x.val :=
    forall_mem_zipWith (R := (0 ≤ Exact.val ·)) (fun _ _ => instantGain_nonneg he.le) hclean hm
  unfold State.gainVector
  split
  case isTrue hv =>
    obtain ⟨h0, h1⟩ := alphaG_range h
    exact forall_mem_zipWith (R := (0 ≤ Exact.val ·)) (fun _ _ => smooth_nonneg h0 h1) (hp hv) hginst
  case isFalse => exact hginst

end

/-! ## The step -/

/-- NOISE is positive while CONFIGURED with a positive α_n (R203). -/
def NoisePositive (s : State) : Prop := s.mode = .configured → 0 < numOf s.cfg.alphaN → ∀ x ∈ s.noise, 0 < x.val

/-- While UNCONFIGURED the estimates are held to nothing. -/
theorem estimates_of_unconfigured {s t : State} (hm : t.mode = .unconfigured) :
    t.NonNegative ∧ (NoisePositive s → NoisePositive t) :=
  have hne : t.mode ≠ .configured := by simp [hm]
  ⟨⟨fun hc => absurd hc hne, fun hc => absurd hc hne⟩, fun _ hc => absurd hc hne⟩

/-- What leaves the mode, the registers and the estimates alone keeps their signs. -/
theorem estimates_of_frame {s t : State} (h : s.NonNegative) (hm : t.mode = s.mode) (hv : t.gainValid = s.gainValid)
    (hc : t.cfg = s.cfg) (hn : t.noise = s.noise) (hp : t.pgain = s.pgain) :
    t.NonNegative ∧ (NoisePositive s → NoisePositive t) := by
  refine ⟨⟨?_, ?_⟩, ?_⟩
  · rw [hm, hn]; exact h.noise
  · rw [hm, hv, hp]; exact h.pgain
  · unfold NoisePositive
    rw [hm, hc, hn]
    exact id

/-- CONFIGURE writes the initial estimate, which is positive, to every bin (R66). -/
theorem estimates_of_configured {s : State} (hb : s.build.Legal) :
    (configured s).NonNegative ∧ NoisePositive (configured s) := by
  obtain ⟨-, -, -, -, -, -, -, hinit⟩ := hb
  have hpos : ∀ x ∈ (configured s).noise, 0 < x.val := fun x hx => (List.eq_of_mem_replicate hx).symm ▸ hinit
  exact ⟨⟨fun _ x hx => (hpos x hx).le, fun _ hv => nomatch hv⟩, fun _ _ => hpos⟩

section
variable {s : State} (h : s.Inv) (hs : s.NonNegative) (hm : s.mode = .configured) (c : List Exact)
include h hs hm

theorem estimates_of_calibrated : (calibrated exactArith c s).dropWork.succeed.NonNegative ∧
    (NoisePositive s → NoisePositive (calibrated exactArith c s).dropWork.succeed) := by
  have hconf := h.configured hm
  exact ⟨⟨fun _ => calibrated_noise_nonneg hconf (hs.noise hm) c, hs.pgain⟩,
    fun hpos _ hα => calibrated_noise_pos hconf hα (hpos hm hα) c⟩

theorem estimates_of_processed (hc : s.chunk exactArith = .ok c) :
    (processed exactArith c s).dropWork.succeed.NonNegative ∧
      (NoisePositive s → NoisePositive (processed exactArith c s).dropWork.succeed) := by
  have hconf := h.configured hm
  have hnoise := calibrated_noise_nonneg hconf (hs.noise hm) c
  obtain ⟨-, -, -, -, -, -, heps, -⟩ := h.build
  have hgain : ∀ x ∈ (processed exactArith c s).pgain, 0 ≤ x.val := by
    rw [processed_pgain, gain_pgain]
    exact gainVector_nonneg (calibrated_configured h hm hc) heps hnoise (calibrated_mag_nonneg c s) (hs.pgain hm)
  exact ⟨⟨fun _ => hnoise, fun _ _ => hgain⟩, fun hpos _ hα => calibrated_noise_pos hconf hα (hpos hm hα) c⟩

end

/-- Every effect of a host event keeps the signs of the estimates. -/
theorem Effect.keeps_estimates {s t : State} {e : HostEvent} (h : s.Inv) (hs : s.NonNegative) (he : Effect s e t) :
    t.NonNegative ∧ (NoisePositive s → NoisePositive t) := by
  cases he with
  | configure hm hf =>
    obtain ⟨hn, hp⟩ := estimates_of_configured h.build
    exact ⟨⟨hn.noise, hn.pgain⟩, fun _ => hp⟩
  | calibrate len c hm => exact estimates_of_calibrated h hs hm c
  | process len c hm hl hc => exact estimates_of_processed h hs hm c hc
  | destroy => exact estimates_of_unconfigured rfl
  | config addr data r hm => exact estimates_of_unconfigured hm
  | coef addr data sec r hm => exact estimates_of_unconfigured hm
  | _ => exact estimates_of_frame hs rfl rfl rfl rfl rfl

/-- Settles O13: the averages and the floored gains have the signs of what they are made of, and every other effect keeps the
estimates or ends the Suppressor they belong to. -/
theorem estimatesStayNonNegative : Obligations.EstimatesStayNonNegative := by
  intro s t h hs hstep
  rcases step_cases_of_inv h hstep with rfl | ⟨rest, -, rfl⟩ | ⟨e, rest, -, he⟩
  · exact ⟨hs, id⟩
  · exact estimates_of_unconfigured rfl
  · exact he.keeps_estimates (s := { s with pending := rest }) (h.with_pending rest) ⟨hs.noise, hs.pgain⟩

end Sys2Proof.Machine
end

section
/-! The proofs about the step as such (spec/20_memory.md R83, spec/30_encoding.md R106, spec/70_reset_and_hazards.md R300, R302)
and about the state after reset (spec/10_state.md R65). -/

namespace Sys2Proof.Machine

open Generic

/-! ## The coefficients after reset -/

theorem Section.get_zero (r : CoefReg) : Section.zero.get r = 0 := by cases r <;> rfl

theorem ConfigRegs.getCoef_reset (smax sec : Nat) (r : CoefReg) : (ConfigRegs.reset smax).getCoef sec r = 0 := by
  have hzero : (List.replicate smax Section.zero).getD sec Section.zero = Section.zero := by
    rw [List.getD_eq_getElem?_getD, List.getElem?_replicate]
    split <;> rfl
  exact (congrArg (Section.get · r) hzero).trans (Section.get_zero r)

theorem ConfigRegs.get_reset (smax : Nat) (r : CfgReg) : (ConfigRegs.reset smax).get r = if r = .hpOrder then 2 else 0 := by
  cases r <;> rfl

/-- STATUS reads 0 when no flag is set (R34). -/
theorem status_hardReset (s : State) (rest : List HostEvent) : (s.hardReset rest).status = 0 :=
  (status_of_flags (s := State.reset) rfl rfl rfl rfl rfl rfl rfl).trans (by decide)

/-! ## The statements -/

/-- Settles O5: each kind of encoding has its own equation for the step, and a decoded one runs. -/
theorem stepRunsDecoded : Obligations.StepRunsDecoded := by
  intro s i rest addr size data
  refine ⟨fun hseq hd => ?_, fun hseq hp hd => ?_, fun hseq hp hd => ?_⟩
  · rw [step_uop hseq, runEncoding_ok _ hd]
  · rw [step_read hseq hp, runEncoding_ok _ hd]
  · rw [step_write hseq hp, runEncoding_ok _ hd]

/-- Settles O6: after reset the sequencer is idle and the list of events is empty. -/
theorem idleStep : Obligations.IdleStep :=
  ⟨fun _ hseq hp => step_nothing hseq hp, fun _ => step_nothing rfl rfl, rfl⟩

/-- Settles O8: the decoder answers the codes 1 to 9 alone, and code 0 selects nothing. -/
theorem unusedCodeFaults : Obligations.UnusedCodeFaults := by
  intro s h
  have hseq : s.seq ≠ 0 := by
    intro h0
    rw [h0] at h
    exact absurd h (by decide)
  have hd : decode (.uop s.seq) = .error (.uopCode s.seq) := by
    rcases decodeUop_cases s.seq with ⟨e, -⟩ | ⟨e, -⟩ | ⟨e, -⟩ | ⟨e, -⟩ | ⟨e, -⟩ | ⟨e, -⟩ | ⟨e, -⟩ | ⟨e, -⟩ | ⟨e, -⟩ | ⟨-, hd⟩
    case inr.inr.inr.inr.inr.inr.inr.inr.inr => exact hd
    all_goals rw [e] at h; exact absurd h (by decide)
  rw [step_uop hseq, runEncoding_error _ hd, rejected]

/-- Settles O9: the step answers `hardReset`, whose registers are those of `resetOf`. -/
theorem hardwareReset : Obligations.HardwareReset := by
  intro s rest hseq hp
  exact ⟨s.hardReset rest, step_reset hseq hp, rfl, status_hardReset s rest, rfl, rfl, rfl, rfl, ConfigRegs.get_reset _,
    ConfigRegs.getCoef_reset _, List.length_replicate, rfl, rfl, rfl, fun _ => rfl⟩

/-- Settles O12: the reset state is UNCONFIGURED, so what a configured block is held to is asked of nothing. -/
theorem resetHasInvariant : Obligations.ResetHasInvariant :=
  fun _ hb => ⟨inv_resetOf hb [] 0, (estimates_of_unconfigured (s := State.reset) rfl).1⟩

end Sys2Proof.Machine
end

section
/-! The proofs about what a step may change and by which event (spec/10_state.md R33, R35, R36, R39, R51, spec/46_commands.md
R241, spec/20_memory.md R80): what a micro-operation run alone leaves unchanged, then one lemma for each group of fields that
lists the events that change them, then the step. -/

namespace Sys2Proof.Machine

open Generic

/-! ## What a micro-operation run alone leaves unchanged (log 6) -/

/-- The fields of the Suppressor that no micro-operation writes, but for its two valid flags: GAIN sets the one and OLA_EMIT
the other. -/
structure UopFrame (code : BitVec 4) (s t : State) : Prop where
  mode : t.mode = s.mode
  errs : t.errs = s.errs
  cfg : t.cfg = s.cfg
  build : t.build = s.build
  gainValid : t.gainValid = s.gainValid ∨ (code = 0x7 ∧ t.gainValid = true)
  outValid : t.outValid = s.outValid ∨ (code = 0x9 ∧ t.outValid = true)

theorem uopFrame_of_exec {code : BitVec 4} {i : Instr} {s t : State} (hd : decodeUop code = .ok i)
    (h : exec i s = .next t) : UopFrame code s t := by
  rcases decodeUop_cases code with ⟨rfl, e⟩ | ⟨rfl, e⟩ | ⟨rfl, e⟩ | ⟨rfl, e⟩ | ⟨rfl, e⟩ | ⟨rfl, e⟩ | ⟨rfl, e⟩ | ⟨rfl, e⟩ |
    ⟨rfl, e⟩ | ⟨-, e⟩ <;> cases e.symm.trans hd
  case inr.inr.inl =>
    change Generic.execFrameBuild exactArith s = _ at h
    unfold Generic.execFrameBuild at h
    split at h <;> cases h
    exact ⟨rfl, rfl, rfl, rfl, .inl rfl, .inl rfl⟩
  case inr.inr.inr.inr.inr.inr.inl =>
    obtain rfl := Host.Outcome.next.inj h
    exact ⟨rfl, rfl, rfl, rfl, .inr ⟨rfl, rfl⟩, .inl rfl⟩
  case inr.inr.inr.inr.inr.inr.inr.inr.inl =>
    obtain rfl := Host.Outcome.next.inj h
    exact ⟨rfl, rfl, rfl, rfl, .inl rfl, .inr ⟨rfl, rfl⟩⟩
  all_goals
    obtain rfl := Host.Outcome.next.inj h
    exact ⟨rfl, rfl, rfl, rfl, .inl rfl, .inl rfl⟩

/-- What a step can do, with a micro-operation run alone seen by what it leaves unchanged. -/
theorem step_cases_frame {s t : State} (h : step s = .next t) :
    (s.seq ≠ 0 ∧ UopFrame s.seq s t) ∨ (s.seq = 0 ∧ t = s) ∨
      (s.seq = 0 ∧ ∃ rest, s.pending = .reset :: rest ∧ t = s.hardReset rest) ∨
      (s.seq = 0 ∧ ∃ e rest, s.pending = e :: rest ∧ Effect { s with pending := rest } e t) := by
  rcases step_cases h with ⟨hseq, i, hd, hi⟩ | ⟨hseq, -, rfl⟩ | ⟨hseq, hreset⟩ | ⟨hseq, heffect⟩
  · exact .inl ⟨hseq, { uopFrame_of_exec hd hi with }⟩
  · exact .inr (.inl ⟨hseq, rfl⟩)
  · exact .inr (.inr (.inl ⟨hseq, hreset⟩))
  · exact .inr (.inr (.inr ⟨hseq, heffect⟩))

/-! ## Which events change what -/

section
variable {s t : State} {e : HostEvent}

/-- The word of a command with a LEN operand, by the length it carries (R100). -/
theorem commandWord_eq_ofNat {len : BitVec 16} {n : Nat} (op : BitVec 8) (h : len.toNat = n) :
    commandWord len op = BitVec.ofNat 32 (2 ^ 8 * n + op.toNat) := by
  rw [← h, ← commandWord_toNat, BitVec.ofNat_toNat, BitVec.setWidth_eq]

/-- The mode (R33). -/
theorem Effect.mode_cases (he : Effect s e t) : t.mode = s.mode ∨
    (s.mode = .unconfigured ∧ t.mode = .configured ∧ t.err = false ∧ e = .write 0x8 4 0x00000001) ∨
    (t.mode = .unconfigured ∧ e = .write 0x8 4 0x00000004) := by
  cases he with
  | configure hm hf => exact .inr (.inl ⟨hm, rfl, rfl, rfl⟩)
  | destroy => exact .inr (.inr ⟨rfl, rfl⟩)
  | _ => exact .inl rfl

/-- The two valid flags and OUT (R35, R36, R241). -/
theorem Effect.valid_cases (he : Effect s e t) :
    (t.gainValid = s.gainValid ∧ t.outValid = s.outValid ∧ t.out = s.out) ∨
    (s.mode = .configured ∧ t.err = false ∧ e = .write 0x8 4 (BitVec.ofNat 32 (2 ^ 8 * s.H + 3)) ∧
      t.gainValid = true ∧ t.outValid = true) ∨
    (s.mode = .unconfigured ∧ t.err = false ∧ e = .write 0x8 4 0x00000001 ∧ t.gainValid = false ∧ t.outValid = false) ∨
    (t.err = false ∧ e = .write 0x8 4 0x00000004 ∧ t.gainValid = false ∧ t.outValid = false) := by
  cases he with
  | process len c hm hl hc => exact .inr (.inl ⟨hm, rfl, by rw [commandWord_eq_ofNat _ hl]; rfl, rfl, rfl⟩)
  | configure hm hf => exact .inr (.inr (.inl ⟨hm, rfl, rfl, rfl, rfl⟩))
  | destroy => exact .inr (.inr (.inr ⟨rfl, rfl, rfl, rfl⟩))
  | _ => exact .inl ⟨rfl, rfl, rfl⟩

/-- ERRS (R39, R279). -/
theorem Effect.errs_cases (he : Effect s e t) : t.errs = s.errs ∨
    (t.errs = true ∧ t.err = true ∧ t.errCode ≠ 0 ∧ ∃ w, e = .write 0x8 4 w) ∨
    (∃ data, e = .write 0xC 4 data ∧ t.errs = (s.errs && !data.getLsbD 6)) ∨
    (t.errs = false ∧ e = .write 0x8 4 0x00000004) := by
  cases he with
  | raise w code info => exact .inr (.inl ⟨rfl, rfl, code.word_ne_zero, w, rfl⟩)
  | status data => exact .inr (.inr (.inl ⟨data, rfl, rfl⟩))
  | destroy => exact .inr (.inr (.inr ⟨rfl, rfl⟩))
  | _ => exact .inl rfl

theorem Effect.build (he : Effect s e t) : t.build = s.build := by cases he <;> rfl

/-- The configuration registers (R51). -/
theorem Effect.cfg_cases (he : Effect s e t) : t.cfg = s.cfg ∨
    ∃ addr data, e = .write addr 4 data ∧ s.mode = .unconfigured ∧ RwuOffset s.build.smax addr.toNat := by
  cases he with
  | config addr data r hm ha => exact .inr ⟨addr, data, rfl, hm, .inl ⟨r, ha⟩⟩
  | coef addr data sec r hm hs ha => exact .inr ⟨addr, data, rfl, hm, .inr ⟨sec, hs, r, ha⟩⟩
  | _ => exact .inl rfl

end

/-! ## When a write is refused (R80) -/

/-- A write to CMD completes, or carries a CALIBRATE or PROCESS that has passed its checks and finds a sample that is not
finite. -/
theorem runWord_completes (w : Word) (s : State) : (∃ t, runWord exactArith w s = .next t) ∨
    ∃ i, s.mode = .configured ∧ (w = BitVec.ofNat 32 (2 ^ 8 * s.H + 2) ∨ w = BitVec.ofNat 32 (2 ^ 8 * s.H + 3)) ∧
      i < s.H ∧ num? (s.inWord i) = none ∧ runWord exactArith w s = .refused (.nonFiniteSample i) := by
  rcases runWord_cases w s with ⟨-, e⟩ | ⟨-, -, e⟩ | ⟨-, e⟩ | ⟨-, e⟩ | ⟨len, rfl, e⟩ | ⟨len, rfl, e⟩ | ⟨-, e⟩
  case inr.inr.inr.inl =>
    rcases execConfigure_cases s with ⟨-, e'⟩ | ⟨-, _, _, -, e'⟩ | ⟨-, -, e'⟩ <;> exact .inl ⟨_, e.trans e'⟩
  case inr.inr.inr.inr.inl =>
    rcases execCalibrate_cases len s with ⟨-, e'⟩ | ⟨-, -, e'⟩ | ⟨-, -, _, -, e'⟩ | ⟨hm, hl, i, hc, e'⟩
    case inr.inr.inr =>
      obtain ⟨hi, hn, -⟩ := chunk_error hc
      exact .inr ⟨i, hm, .inl (commandWord_eq_ofNat _ hl), hi, hn, e.trans e'⟩
    all_goals exact .inl ⟨_, e.trans e'⟩
  case inr.inr.inr.inr.inr.inl =>
    rcases execProcess_cases len s with ⟨-, e'⟩ | ⟨-, -, e'⟩ | ⟨-, -, _, -, e'⟩ | ⟨hm, hl, i, hc, e'⟩
    case inr.inr.inr =>
      obtain ⟨hi, hn, -⟩ := chunk_error hc
      exact .inr ⟨i, hm, .inr (commandWord_eq_ofNat _ hl), hi, hn, e.trans e'⟩
    all_goals exact .inl ⟨_, e.trans e'⟩
  all_goals exact .inl ⟨_, e⟩

/-- A write to any other location completes. -/
theorem writeLoc_completes (s : State) (w : Word) {l : Loc} (hl : l ≠ .cmd) : ∃ t, s.writeLoc exactArith w l = .next t := by
  rcases writeLoc_cases s w l with ⟨h, -⟩ | ⟨-, e⟩ | ⟨-, _, -, e⟩ | ⟨_, -, -, e⟩ | ⟨e, -⟩
  · exact absurd h hl
  all_goals exact ⟨_, e⟩

/-! ## The statements -/

/-- Settles O14: by the events that change the mode. -/
theorem modeTransitions : Obligations.ModeTransitions := by
  intro s t hstep hne
  have other {m : Mode} (h : m ≠ .unconfigured) : m = .configured := by cases m <;> simp_all
  rcases step_cases_frame hstep with ⟨-, hu⟩ | ⟨-, rfl⟩ | ⟨hseq, rest, hp, rfl⟩ | ⟨hseq, e, rest, hp, he⟩
  · exact absurd hu.mode hne
  · exact absurd rfl hne
  · exact ⟨hseq, rest, .inr ⟨other (Ne.symm hne), rfl, .inr hp⟩⟩
  · rcases he.mode_cases with h | ⟨hm, hm', herr, rfl⟩ | ⟨hm', rfl⟩
    · exact absurd h hne
    · exact ⟨hseq, rest, .inl ⟨hm, hm', herr, hp⟩⟩
    · exact ⟨hseq, rest, .inr ⟨other (hm' ▸ Ne.symm hne), hm', .inl hp⟩⟩

/-- Settles O15: by the events that change a valid flag; in each case of `Effect.valid_cases` the flags after the step are
known. -/
theorem validFlagTransitions : Obligations.ValidFlagTransitions := by
  intro s t hstep commanded processed cleared
  rcases step_cases_frame hstep with ⟨-, hu⟩ | ⟨-, rfl⟩ | ⟨hseq, rest, hp, rfl⟩ | ⟨hseq, e, rest, hp, he⟩
  · have hg := hu.gainValid
    have ho := hu.outValid
    grind
  · grind
  · have reset : cleared := .inr (.inr ⟨hseq, rest, hp⟩)
    exact ⟨nofun, nofun, fun _ _ => reset, fun _ _ => reset⟩
  · have carries {w : Word} (herr : t.err = false) (h : e = .write 0x8 4 w) : commanded w := ⟨hseq, herr, rest, h ▸ hp⟩
    rcases he.valid_cases with ⟨hg, ho, -⟩ | ⟨hm, herr, hw, hg, ho⟩ | ⟨hm, herr, hw, hg, ho⟩ | ⟨herr, hw, hg, ho⟩
    · grind
    · have hproc : processed := ⟨hm, carries herr hw⟩
      grind
    · have hclear : cleared := .inl ⟨hm, carries herr hw⟩
      grind
    · have hclear : cleared := .inr (.inl (carries herr hw))
      grind

/-- Settles O16: by the events that change a valid flag or OUT. -/
theorem outputStays : Obligations.OutputStays := by
  intro s t hseq hv hstep
  rcases step_cases_frame hstep with ⟨hne, -⟩ | ⟨-, rfl⟩ | ⟨-, rest, hp, rfl⟩ | ⟨-, e, rest, hp, he⟩
  · exact absurd hseq hne
  · exact .inl ⟨hv, rfl⟩
  · exact .inr (.inr ⟨rfl, rest, hp⟩)
  · rcases he.valid_cases with ⟨-, ho, hout⟩ | ⟨hm, herr, rfl, -, ho⟩ | ⟨hm, herr, rfl, -, ho⟩ | ⟨herr, rfl, -, ho⟩
    · exact .inl ⟨ho.trans hv, hout⟩
    · exact .inr (.inl ⟨herr, _, rest, hp, .inl ⟨hm, rfl, ho⟩⟩)
    · exact .inr (.inl ⟨herr, _, rest, hp, .inr (.inl ⟨hm, rfl, ho⟩)⟩)
    · exact .inr (.inl ⟨herr, _, rest, hp, .inr (.inr ⟨rfl, ho⟩)⟩)

/-- Settles O17: by the events that change ERRS. -/
theorem stickyErrorFlag : Obligations.StickyErrorFlag := by
  intro s t hstep
  have unchanged (h : t.errs = s.errs) {p q : Prop} :
      (s.errs = true → t.errs = false → p) ∧ (s.errs = false → t.errs = true → q) := by
    rw [h]
    exact ⟨fun h1 h0 => (nomatch h1.symm.trans h0), fun h0 h1 => nomatch h0.symm.trans h1⟩
  rcases step_cases_frame hstep with ⟨-, hu⟩ | ⟨-, rfl⟩ | ⟨hseq, rest, hp, rfl⟩ | ⟨hseq, e, rest, hp, he⟩
  · exact unchanged hu.errs
  · exact unchanged rfl
  · exact ⟨fun _ _ => ⟨hseq, rest, .inr (.inr hp)⟩, nofun⟩
  · rcases he.errs_cases with h | ⟨h, herr, hcode, w, rfl⟩ | ⟨data, rfl, h⟩ | ⟨h, rfl⟩
    · exact unchanged h
    · exact ⟨fun _ h' => (nomatch h.symm.trans h'), fun _ _ => ⟨hseq, herr, hcode, w, rest, hp⟩⟩
    · refine ⟨fun hs ht => ⟨hseq, rest, .inl ⟨data, hp, ?_⟩⟩, fun hs ht => ?_⟩
      · simpa [h, show s.errs = true from hs] using ht
      · simp [h, show s.errs = false from hs] at ht
    · exact ⟨fun _ _ => ⟨hseq, rest, .inr (.inl hp)⟩, fun _ h' => nomatch h.symm.trans h'⟩

/-- Settles O18: by the events that change a configuration register. -/
theorem configurationKept : Obligations.ConfigurationKept := by
  intro s t hstep
  rcases step_cases_frame hstep with ⟨-, hu⟩ | ⟨-, rfl⟩ | ⟨hseq, rest, hp, rfl⟩ | ⟨hseq, e, rest, hp, he⟩
  · exact ⟨hu.build, fun hne => absurd hu.cfg hne⟩
  · exact ⟨rfl, fun hne => absurd rfl hne⟩
  · exact ⟨rfl, fun _ => ⟨hseq, .inr ⟨rest, hp, rfl⟩⟩⟩
  · refine ⟨he.build, fun hne => ⟨hseq, ?_⟩⟩
    rcases he.cfg_cases with h | ⟨addr, data, rfl, hm, ha⟩
    · exact absurd h hne
    · exact .inl ⟨addr, data, rest, hp, hm, ha⟩

/-- Settles O19: every event but a write to CMD completes, and the write to CMD by `runWord_completes`. -/
theorem stepCompletes : Obligations.StepCompletes := by
  intro s h
  cases hp : s.pending with
  | nil => exact .inl ⟨s, step_nothing h.idle hp⟩
  | cons e rest =>
    cases e with
    | reset => exact .inl ⟨_, step_reset h.idle hp⟩
    | read addr size =>
      rw [step_read h.idle hp, runEncoding_read]
      split <;> exact .inl ⟨_, rfl⟩
    | write addr size data =>
      rw [step_write h.idle hp, runEncoding_write]
      split
      case isFalse => exact .inl ⟨_, rfl⟩
      case isTrue hwf =>
        by_cases hl : s.locOf addr = .cmd
        · obtain rfl : addr = 0x8 := addr_eq (State.offset_of_locOf hl (by simp)).1
          have hrun : execWr 0x8 data { s with pending := rest } = runWord exactArith data { s with pending := rest } :=
            exec_wr_of_writeLoc (State.locOf_cmd _) rfl
          rw [hrun, hwf.1]
          rcases runWord_completes data { s with pending := rest } with hnext | ⟨i, hm, hw, hi, hn, e⟩
          · exact .inl hnext
          · exact .inr ⟨data, rest, i, rfl, hm, hw, hi, hn, e⟩
        · exact .inl (writeLoc_completes { s with pending := rest } data hl)

end Sys2Proof.Machine
end

section
/-! The proofs about the encoder against the decoder (spec/30_encoding.md R100 to R106). -/

namespace Sys2Proof

open Machine

/-- An alignment that is well formed, as a number (R73). -/
theorem aligned_iff (addr : Addr) : aligned addr = true ↔ addr.toNat % 4 = 0 := by
  rw [aligned, beq_iff_eq]

/-- A command with a LEN operand is decoded with the length it carries (R102). -/
theorem decodeWithLen_commandWord (len : BitVec 16) (op : BitVec 8) (i : BitVec 16 → Instr) :
    decodeWithLen (commandWord len op) i = .ok (i len) := by
  rw [decodeWithLen, rsvField_commandWord, lenField_commandWord, if_neg (not_not.mpr rfl)]

theorem decodeCmd_calibrate (len : BitVec 16) : decodeCmd (commandWord len 0x02) = .ok (.calibrate len) := by
  rw [decodeCmd, opField_commandWord]
  exact decodeWithLen_commandWord len 0x02 _

theorem decodeCmd_process (len : BitVec 16) : decodeCmd (commandWord len 0x03) = .ok (.process len) := by
  rw [decodeCmd, opField_commandWord]
  exact decodeWithLen_commandWord len 0x03 _

/-- A transaction of a word at a multiple of 4 is decoded by its kind (R105). -/
theorem decodeBus_of_aligned {addr : Addr} (h : aligned addr = true) (kind : BitVec 1) (data : Word) :
    decodeBus kind addr 4 data = .ok (if kind = 0 then .rd addr else .wr addr data) := by
  rcases decodeBus_cases kind addr 4 data with ⟨hs, -⟩ | ⟨-, ha, -⟩ | ⟨-, -, e⟩
  · exact absurd rfl hs
  · exact absurd ((aligned_iff addr).mp h) ha
  · exact e

/-- Settles O1: the formats by the family of lemmas `EncodedFormat`; a word with operands is decoded field by field, and the
others are constants. -/
theorem decodeOfEncode : Obligations.DecodeOfEncode := by
  intro i hwf
  cases i with
  | calibrate len => exact ⟨decodeCmd_calibrate len, Laws.EncodedFormat.calibrate len⟩
  | process len => exact ⟨decodeCmd_process len, Laws.EncodedFormat.process len⟩
  | rd addr => exact ⟨decodeBus_of_aligned hwf 0 0, Laws.EncodedFormat.rd addr⟩
  | wr addr data => exact ⟨decodeBus_of_aligned hwf 1 data, Laws.EncodedFormat.wr addr data⟩
  | _ => exact ⟨rfl, rfl⟩

/-- Settles O2: each format by all that its decoder can answer; a kind bit that is not 0 is 1. -/
theorem encodeOfDecode : Obligations.EncodeOfDecode := by
  intro e i h
  cases e with
  | cmd w =>
    rcases decodeCmd_cases w with ⟨-, e⟩ | ⟨-, -, e⟩ | ⟨rfl, e⟩ | ⟨rfl, e⟩ | ⟨len, rfl, e⟩ | ⟨len, rfl, e⟩ | ⟨rfl, e⟩ <;>
      cases e.symm.trans h <;> exact ⟨rfl, .inl rfl⟩
  | bus kind addr size data =>
    rcases decodeBus_cases kind addr size data with ⟨-, e⟩ | ⟨-, -, e⟩ | ⟨rfl, ha, e⟩ <;> cases e.symm.trans h
    have hwf : aligned addr = true := (aligned_iff addr).mpr ha
    by_cases hk : kind = 0
    · rw [if_pos hk]
      exact ⟨hwf, .inr ⟨addr, data, rfl, by rw [hk]⟩⟩
    · have hk1 : kind = 1 := by bv_omega
      rw [if_neg hk]
      exact ⟨hwf, .inl (by rw [hk1]; rfl)⟩
  | uop code =>
    rcases decodeUop_cases code with ⟨rfl, e⟩ | ⟨rfl, e⟩ | ⟨rfl, e⟩ | ⟨rfl, e⟩ | ⟨rfl, e⟩ | ⟨rfl, e⟩ | ⟨rfl, e⟩ | ⟨rfl, e⟩ |
      ⟨rfl, e⟩ | ⟨-, e⟩ <;> cases e.symm.trans h <;> exact ⟨rfl, .inl rfl⟩

/-- Settles O3: the decoder evaluated on each word. -/
theorem sampleEncodings : Obligations.SampleEncodings :=
  ⟨rfl, rfl, rfl, rfl, rfl, rfl, rfl, rfl, rfl, rfl, rfl, rfl, rfl, rfl, rfl, rfl⟩

end Sys2Proof
end

section
/-! The proofs about reads and writes of the registers, the input buffer and the windows (spec/10_state.md R51, R60, R61,
spec/20_memory.md R72, R76, R77): a read by the offset of its location, then what a write leaves of every other read. -/

namespace Sys2Proof.Machine

open Generic

/-! ## A read by the offset of its location -/

/-- Every mapped location lies in the 18-bit offset space (R71, R75). -/
theorem Loc.offset_lt {smax : Nat} (h8 : smax ≤ 8) {l : Loc} (h : l.inMap smax) : l.offset < 2 ^ 18 := by
  cases l with
  | cfg r => cases r <;> decide
  | coef sec r =>
    have hr : r.number < 5 := by cases r <;> decide
    change sec < smax at h
    change 0x40 + 0x20 * sec + 4 * r.number < 2 ^ 18
    omega
  | hpz sec c =>
    obtain ⟨hs, hc⟩ := h
    change 0x20000 + 8 * sec + 4 * c < 2 ^ 18
    omega
  | hpzi sec c =>
    obtain ⟨hs, hc⟩ := h
    change 0x20100 + 8 * sec + 4 * c < 2 ^ 18
    omega
  | _ => simp only [Loc.inMap] at h <;> simp only [Loc.offset] <;> omega

/-- What an offset written as a number names. -/
theorem locOf_ofNat {s : State} (hb : s.build.Legal) {l : Loc} (h : l.inMap s.build.smax) {a : Nat} (ha : a = l.offset) :
    s.locOf (BitVec.ofNat 18 a) = l := by
  have h8 : s.build.smax ≤ 8 := by
    obtain ⟨-, -, -, -, h8, -⟩ := hb
    exact h8
  refine State.locOf_offset hb h ?_
  rw [BitVec.toNat_ofNat, ha, Nat.mod_eq_of_lt (Loc.offset_lt h8 h)]

/-- A read of a mapped location answers its word (R245). -/
theorem exec_rd_ofNat {s : State} (hb : s.build.Legal) {l : Loc} (h : l.inMap s.build.smax) {a : Nat} (ha : a = l.offset)
    {w : Word} (hw : s.readLoc exactArith l = some w) :
    exec (.rd (BitVec.ofNat 18 a)) s = .next { s with response := .readOk w } :=
  exec_rd_of_readLoc (locOf_ofNat hb h ha) hw

theorem exec_rd_of_not_canRead {s : State} {addr : Addr} (h : ¬s.CanRead (s.locOf addr)) :
    exec (.rd addr) s = .next { s with response := .err } :=
  (execRd_eq addr s).trans (by rw [(readLoc_eq_none_iff s _).mpr h, readResponse])

/-- A read of one location answers one response. -/
theorem readResponse_of_exec_rd {s : State} {addr : Addr} {r : Response}
    (h : exec (.rd addr) s = .next { s with response := r }) : r = readResponse (s.readLoc exactArith (s.locOf addr)) :=
  congrArg State.response (Host.Outcome.next.inj (h.symm.trans (execRd_eq addr s)))

/-! ## The windows -/

theorem readElement_of_readable {readable : Bool} {len i : Nat} (hr : readable = true) (hi : i < len) (a : List Exact) :
    readElement exactArith readable len a i = some (a.getD i (.rat 0)).word := by
  rw [readElement, if_pos (by simp [hr, hi])]
  rfl

theorem readStatePart_of_readable {readable : Bool} (hr : readable = true) (sections : Nat) (a : List (SectionState Exact))
    (sec c : Nat) : readStatePart exactArith readable sections a sec c =
      some (if sec < sections then (statePart (a.getD sec (.rat 0, .rat 0)) c).word else 0) := by
  rw [readStatePart, if_pos hr]
  rfl

section
variable {s : State} (hm : s.mode = .configured)
include hm

theorem arraysReadable_of_configured : s.arraysReadable = true := (Mode.flag_eq_true_iff _).mpr hm

theorem outReadable_of_configured (hv : s.outValid = true) : s.outReadable = true :=
  (Bool.and_eq_true _ _).mpr ⟨(Mode.flag_eq_true_iff _).mpr hm, hv⟩

theorem pgainReadable_of_configured (hv : s.gainValid = true) : s.pgainReadable = true :=
  (Bool.and_eq_true _ _).mpr ⟨(Mode.flag_eq_true_iff _).mpr hm, hv⟩

theorem filterReadable_of_configured (hen : s.hpfEn = true) : s.filterReadable = true :=
  (Bool.and_eq_true _ _).mpr ⟨(Mode.flag_eq_true_iff _).mpr hm, hen⟩

end

/-! ## The configuration registers after a write to one of them (R51) -/

theorem ConfigRegs.get_set_same (c : ConfigRegs) (w : Word) (r : CfgReg) : (c.set w r).get r = w := by cases r <;> rfl

theorem ConfigRegs.get_set_other (c : ConfigRegs) (w : Word) {r r' : CfgReg} (h : r' ≠ r) :
    (c.set w r).get r' = c.get r' := by
  cases r <;> cases r' <;> simp_all [ConfigRegs.get, ConfigRegs.set]

theorem ConfigRegs.getCoef_set (c : ConfigRegs) (w : Word) (r : CfgReg) (sec : Nat) (r' : CoefReg) :
    (c.set w r).getCoef sec r' = c.getCoef sec r' := by
  rw [ConfigRegs.getCoef, ConfigRegs.set_coef]; rfl

theorem ConfigRegs.get_setCoef (c : ConfigRegs) (sec : Nat) (r : CoefReg) (w : Word) (r' : CfgReg) :
    (c.setCoef sec r w).get r' = c.get r' := by cases r' <;> rfl

theorem Section.get_set_same (x : Section) (w : Word) (r : CoefReg) : (x.set w r).get r = w := by cases r <;> rfl

theorem Section.get_set_other (x : Section) (w : Word) {r r' : CoefReg} (h : r' ≠ r) : (x.set w r).get r' = x.get r' := by
  cases r <;> cases r' <;> simp_all [Section.get, Section.set]

theorem ConfigRegs.getCoef_setCoef_same {c : ConfigRegs} {sec : Nat} (hs : sec < c.coef.length) (r : CoefReg) (w : Word) :
    (c.setCoef sec r w).getCoef sec r = w := by
  rw [ConfigRegs.getCoef, ConfigRegs.setCoef, List.getD_eq_getElem?_getD, List.getElem?_set_self hs]
  exact Section.get_set_same _ _ _

theorem ConfigRegs.getCoef_setCoef_other {c : ConfigRegs} {sec sec' : Nat} {r r' : CoefReg} (w : Word)
    (hs : sec < c.coef.length) (h : ¬(sec' = sec ∧ r' = r)) : (c.setCoef sec r w).getCoef sec' r' = c.getCoef sec' r' := by
  by_cases he : sec' = sec
  · subst he
    rw [ConfigRegs.getCoef, ConfigRegs.setCoef, List.getD_eq_getElem?_getD, List.getElem?_set_self hs]
    exact Section.get_set_other _ _ fun hr => h ⟨rfl, hr⟩
  · rw [ConfigRegs.getCoef, ConfigRegs.setCoef, List.getD_eq_getElem?_getD, List.getElem?_set_ne (Ne.symm he),
      ← List.getD_eq_getElem?_getD]
    rfl

/-- While UNCONFIGURED the configuration registers are read by themselves alone: the lengths read 0 and no array can be
read. -/
theorem readLoc_with_cfg {s : State} (hm : s.mode = .unconfigured) {c : ConfigRegs} (resp : Response) {l : Loc}
    (hcfg : ∀ r, l = .cfg r → c.get r = s.cfg.get r) (hcoef : ∀ sec r, l = .coef sec r → c.getCoef sec r = s.cfg.getCoef sec r) :
    ({ s with cfg := c, response := resp } : State).readLoc exactArith l = s.readLoc exactArith l := by
  cases l with
  | cfg r => exact congrArg some (hcfg r rfl)
  | coef sec r => exact congrArg some (hcoef sec r rfl)
  | hopLen => exact congrArg some ((if_neg (by simp [hm])).trans (hopLen_of_unconfigured hm).symm)
  | nbins => exact congrArg some ((if_neg (by simp [hm])).trans (nbins_of_unconfigured hm).symm)
  | out | win | tail | ola | noise | pgain | hpz | hpzi =>
    rw [(readLoc_eq_none_iff _ _).mpr (by simp [State.CanRead, hm]), (readLoc_eq_none_iff _ _).mpr (by simp [State.CanRead, hm])]
  | _ => rfl

/-- The location of a register marked RW-U, and the registers after a write to it (R51). -/
theorem rwu_write {s : State} (hb : s.build.Legal) (hl : s.cfg.coef.length = s.build.smax) {addr : Addr} (data : Word)
    (ha : RwuOffset s.build.smax addr.toNat) :
    ∃ (l : Loc) (c : ConfigRegs), s.locOf addr = l ∧ (s.mode = .configured → ¬s.CanWrite l) ∧
      (s.mode = .unconfigured → s.writeLoc exactArith data l = .next { s with cfg := c, response := .writeOk }) ∧
      (∀ t : State, t.cfg = c → t.readLoc exactArith l = some data) ∧
      (∀ r, .cfg r ≠ l → c.get r = s.cfg.get r) ∧ (∀ sec r, .coef sec r ≠ l → c.getCoef sec r = s.cfg.getCoef sec r) := by
  have locked (hm : s.mode = .configured) : ¬s.mode = .unconfigured := by simp [hm]
  have stores (hm : s.mode = .unconfigured) (c : ConfigRegs) : s.writeConfig c = { s with cfg := c, response := .writeOk } :=
    if_neg (by simp [hm])
  obtain ⟨r, e⟩ | ⟨sec, hsec, r, e⟩ := ha
  · refine ⟨.cfg r, s.cfg.set data r, State.locOf_offset hb (l := .cfg r) trivial e, locked,
      fun hm => congrArg _ (stores hm _), fun t ht => ?_, fun r' hne => ?_, fun sec r' _ => ?_⟩
    · exact congrArg some (ht ▸ s.cfg.get_set_same data r)
    · exact s.cfg.get_set_other data fun h => hne (h ▸ rfl)
    · exact s.cfg.getCoef_set data r sec r'
  · have hs : sec < s.cfg.coef.length := hsec.trans_eq hl.symm
    refine ⟨.coef sec r, s.cfg.setCoef sec r data, State.locOf_offset hb (l := .coef sec r) hsec e, locked,
      fun hm => congrArg _ (stores hm _), fun t ht => ?_, fun r' _ => ?_, fun sec' r' hne => ?_⟩
    · exact congrArg some (ht ▸ ConfigRegs.getCoef_setCoef_same hs r data)
    · exact s.cfg.get_setCoef sec r data r'
    · exact ConfigRegs.getCoef_setCoef_other data hs fun ⟨h, h'⟩ => hne (h ▸ h' ▸ rfl)

/-! ## The input buffer after a write to it (R61, R72) -/

section
variable (s : State) (a : Nat) (w : Word)

/-- The state with a word written to the input buffer. -/
def withWord : State := { s with inBuf := Memory.writeWord s.inBuf a w, response := .writeOk }

theorem wordAt_withWord_same : (withWord s a w).wordAt a = w := wordAt_writeWord s a w

theorem byteAt_withWord_inside {b : Nat} (hb : b < 4) : (withWord s a w).byteAt (a + b) = w.extractLsb' (8 * b) 8 := by
  unfold withWord State.byteAt
  simp only [Memory.read?_writeWord]
  interval_cases b <;> simp

theorem byteAt_withWord_outside {b : Nat} (hb : b < a ∨ a + 4 ≤ b) : (withWord s a w).byteAt b = s.byteAt b := by
  unfold withWord State.byteAt
  simp only [Memory.read?_writeWord]
  rw [if_neg (by omega), if_neg (by omega), if_neg (by omega), if_neg (by omega)]

theorem wordAt_withWord_outside {b : Nat} (hb : b + 4 ≤ a ∨ a + 4 ≤ b) : (withWord s a w).wordAt b = s.wordAt b := by
  unfold State.wordAt
  rw [byteAt_withWord_outside s a w (by omega), byteAt_withWord_outside s a w (by omega),
    byteAt_withWord_outside s a w (by omega), byteAt_withWord_outside s a w (by omega)]

end

/-! ## The statements -/

/-- Settles O10: every register by its location; past IN nothing can be read. -/
theorem readsAfterReset : Obligations.ReadsAfterReset := by
  intro b n hb s answers
  have hs : s.build.Legal := hb
  have hcap : capWord b = BitVec.ofNat 32 (b.nmax + 2 ^ 16 * b.smax + 2 ^ 20 * (if b.hpfReinit then 1 else 0)) := by
    rw [← capWord_toNat hb, BitVec.ofNat_toNat, BitVec.setWidth_eq]
  have hstatus : s.status = 0 := (status_of_flags (s := State.reset) rfl rfl rfl rfl rfl rfl rfl).trans (by decide)
  have hmax := hmax_le_of_legal hb
  refine ⟨rfl, exec_rd_of_readLoc s.locOf_id rfl, hcap ▸ exec_rd_of_readLoc s.locOf_cap rfl, exec_rd_of_readLoc s.locOf_cmd rfl,
    exec_rd_of_readLoc s.locOf_status (congrArg some hstatus), exec_rd_of_readLoc s.locOf_errCode rfl,
    exec_rd_of_readLoc s.locOf_errInfo rfl, exec_rd_of_readLoc s.locOf_hopLen rfl, exec_rd_of_readLoc s.locOf_nbins rfl,
    fun r => ?cfg, fun sec hsec r => ?coef, fun i hi => ?input, fun a h1 h2 => ?windows⟩
  case cfg => exact exec_rd_ofNat hs (l := .cfg r) trivial rfl (congrArg some (ConfigRegs.get_reset _ r))
  case coef => exact exec_rd_ofNat hs (l := .coef sec r) hsec rfl (congrArg some (ConfigRegs.getCoef_reset _ sec r))
  case input => exact exec_rd_ofNat hs (l := .inWord i) (show i < 4096 by omega) rfl (if_pos hi)
  case windows =>
    refine exec_rd_of_not_canRead (not_canRead_of_unconfigured rfl ?_)
    rw [BitVec.toNat_ofNat, Nat.mod_eq_of_lt h2]
    exact h1

/-- Settles O24: the write goes to the register's location, and another offset names another location, which reads as
before. -/
theorem configurationWrites : Obligations.ConfigurationWrites := by
  intro s addr data h ha
  obtain ⟨l, c, hl, hlocked, hstores, hread, hcfg, hcoef⟩ := rwu_write h.build h.coef data ha
  refine ⟨fun hm => exec_wr_of_writeLoc hl (writeLoc_of_not_canWrite (hlocked hm)), fun hm => ?_⟩
  refine ⟨{ s with cfg := c, response := .writeOk }, exec_wr_of_writeLoc hl (hstores hm), rfl,
    exec_rd_of_readLoc (s := { s with cfg := c, response := .writeOk }) hl (hread _ rfl), fun _ => rfl, fun other r hne hr => ?_⟩
  have hother : s.locOf other ≠ l := by
    intro e
    have hmapped : l ≠ .unmapped := by rintro rfl; cases hread { s with cfg := c } rfl
    exact hne (addr_eq ((State.offset_of_locOf e hmapped).1.trans (State.offset_of_locOf hl hmapped).1.symm))
  have hsame := readLoc_with_cfg hm (c := c) .writeOk (l := s.locOf other) (fun r e => hcfg r (e ▸ hother))
    fun sec r e => hcoef sec r (e ▸ hother)
  rw [readResponse_of_exec_rd hr, ← hsame]
  exact execRd_eq other _

/-- Settles O25: the write replaces the four bytes at its offset, and a word is read by its bytes. -/
theorem inputBufferWrites : Obligations.InputBufferWrites := by
  intro s addr data i hb hi ha
  have hmax := hmax_le_of_legal hb
  have hl : s.locOf addr = .inWord i := State.locOf_offset hb (l := .inWord i) (show i < 4096 by omega) ha
  have hbase : inBase + 4 * i = addr.toNat := ha.symm
  refine ⟨withWord s addr.toNat data, exec_wr_of_writeLoc hl ?_, rfl, exec_rd_of_readLoc (s := withWord s addr.toNat data) hl ?_,
    fun b hb => byteAt_withWord_inside s _ _ hb, fun a ha => byteAt_withWord_outside s _ _ ha, fun j hj => ?_⟩
  · rw [withWord, ← hbase]
    exact congrArg _ (if_pos hi)
  · refine (if_pos hi).trans (congrArg some ?_)
    rw [State.inWord, hbase, wordAt_withWord_same]
  · exact wordAt_withWord_outside s _ _ (by omega)

/-- Settles O26: each window by its location, readable with the flags that the clause asks for. -/
theorem windowReads : Obligations.WindowReads := by
  intro s i h hm reads
  have hN := N_le_of_configured h hm
  have hH : s.H = s.N / 2 := rfl
  have hK : s.K = s.N / 2 + 1 := rfl
  have array {l : Loc} {a : Nat} (hl : l.inMap s.build.smax) (ha : a = l.offset) {w : Word}
      (hw : s.readLoc exactArith l = some w) : reads a w := exec_rd_ofNat h.build hl ha hw
  have readable := arraysReadable_of_configured hm
  refine ⟨fun hi hv => array (l := .out i) (show i < 4096 by omega) rfl
      (readElement_of_readable (outReadable_of_configured hm hv) hi _),
    fun hi => array (l := .win i) (show i < 4096 by omega) rfl (readElement_of_readable readable hi _),
    fun hi => array (l := .tail i) (show i < 4096 by omega) rfl (readElement_of_readable readable hi _),
    fun hi => array (l := .ola i) (show i < 4096 by omega) rfl (readElement_of_readable readable hi _),
    fun hi => array (l := .noise i) (show i < 4096 by omega) rfl (readElement_of_readable readable hi _),
    fun hi hv => array (l := .pgain i) (show i < 4096 by omega) rfl
      (readElement_of_readable (pgainReadable_of_configured hm hv) hi _),
    fun hi hen => ?inUse, fun hi hs hen => ?unused⟩
  case inUse =>
    have hs : i < s.build.smax := hi.trans_le ((h.configured hm).sections_le hen)
    have part (a : List (SectionState Exact)) (c : Nat) :=
      (readStatePart_of_readable (filterReadable_of_configured hm hen) s.cfg.sections a i c).trans (congrArg some (if_pos hi))
    exact ⟨array (l := .hpz i 0) ⟨hs, by decide⟩ rfl (part _ 0),
      array (l := .hpz i 1) ⟨hs, by decide⟩ (show 0x20004 + 8 * i = 0x20000 + 8 * i + 4 * 1 by omega) (part _ 1),
      array (l := .hpzi i 0) ⟨hs, by decide⟩ rfl (part _ 0),
      array (l := .hpzi i 1) ⟨hs, by decide⟩ (show 0x20104 + 8 * i = 0x20100 + 8 * i + 4 * 1 by omega) (part _ 1)⟩
  case unused =>
    have part (a : List (SectionState Exact)) (c : Nat) :=
      (readStatePart_of_readable (filterReadable_of_configured hm hen) s.cfg.sections a i c).trans
        (congrArg some (if_neg hi.not_gt))
    exact ⟨array (l := .hpz i 0) ⟨hs, by decide⟩ rfl (part _ 0),
      array (l := .hpz i 1) ⟨hs, by decide⟩ (show 0x20004 + 8 * i = 0x20000 + 8 * i + 4 * 1 by omega) (part _ 1),
      array (l := .hpzi i 0) ⟨hs, by decide⟩ rfl (part _ 0),
      array (l := .hpzi i 1) ⟨hs, by decide⟩ (show 0x20104 + 8 * i = 0x20100 + 8 * i + 4 * 1 by omega) (part _ 1)⟩

end Sys2Proof.Machine
end

section
/-! The proofs about the commands that succeed, and about precise errors (spec/46_commands.md R231, R234, R238, R240, R241,
spec/20_memory.md R80, spec/60_exceptions.md R276, R277). -/

namespace Sys2Proof.Machine

open Generic

/-! ## CONFIGURE (R66, R234) -/

theorem exec_configure_of_configured {s : State} (hm : s.mode = .configured) :
    exec .configure s = .next (s.raise .state 0x00000001) := by
  obtain ⟨-, e⟩ | ⟨hu, -⟩ | ⟨hu, -⟩ := execConfigure_cases s
  · exact e
  · cases hm.symm.trans hu
  · cases hm.symm.trans hu

theorem exec_configure_of_accepted {s : State} (hm : s.mode = .unconfigured) (hf : s.configFailure exactArith = none) :
    exec .configure s = .next (configured s).succeed := by
  obtain ⟨hc, -⟩ | ⟨-, e, info, hf', -⟩ | ⟨-, -, e⟩ := execConfigure_cases s
  · cases hm.symm.trans hc
  · cases hf.symm.trans hf'
  · exact e

/-- The frame of a CONFIGURE that succeeds (R234). -/
theorem configured_done (s : State) :
    let t := (configured s).succeed
    t = { s with mode := t.mode, hpfEn := t.hpfEn, gainValid := t.gainValid, outValid := t.outValid,
                 hpfPrimed := t.hpfPrimed, err := t.err, errCode := t.errCode, errInfo := t.errInfo,
                 response := t.response, win := t.win, tail := t.tail, ola := t.ola, noise := t.noise, hpz := t.hpz,
                 hpzi := t.hpzi, inBuf := t.inBuf } := rfl

theorem valAt_replicate (x : Exact) {n i : Nat} (hi : i < n) : valAt (List.replicate n x) i = x.val := by
  rw [valAt, List.getD_replicate _ hi]

/-- CONFIGURE writes zeros to every word of IN (R66). -/
theorem inWord_configured (s : State) {i : Nat} (hi : i < s.build.hmax) : (configured s).succeed.inWord i = 0 := by
  have hbyte {a : Nat} (h0 : inBase ≤ a) (h1 : a < inBase + 4 * s.build.hmax) : (configured s).succeed.byteAt a = 0 :=
    congrArg (Option.getD · _) (Memory.read?_zeros h0 h1)
  unfold State.inWord State.wordAt
  rw [hbyte (by omega) (by omega), hbyte (by omega) (by omega), hbyte (by omega) (by omega), hbyte (by omega) (by omega)]
  rfl

/-- Outside the IN window there is nothing before CONFIGURE and nothing after it (R61). -/
theorem byteAt_configured_outside {s : State} (h : s.Inv) {a : Nat} (ha : a < inBase ∨ inBase + 4 * s.build.hmax ≤ a) :
    (configured s).succeed.byteAt a = s.byteAt a := by
  have none_of {m : Memory} (hm : ∀ c ∈ m, inBase ≤ c.1 ∧ c.1 < inBase + 4 * s.build.hmax) : Memory.read? m a = none :=
    Memory.read?_of_forall fun c hc e => by have := hm c hc; omega
  have hbefore := none_of h.window
  have hafter := none_of fun _ => Memory.mem_zeros (hmax := s.build.hmax)
  unfold State.byteAt
  rw [hbefore]
  exact congrArg (Option.getD · _) hafter

/-! ## CALIBRATE and PROCESS after their checks (R237, R238, R240) -/

section
variable {s : State} {len : BitVec 16} (hm : s.mode = .configured) (hl : len.toNat = s.H)
include hm hl

theorem exec_calibrate_of_chunk {c : List Exact} (hc : s.chunk exactArith = .ok c) :
    exec (.calibrate len) s = .next (calibrated exactArith c s).dropWork.succeed := by
  obtain ⟨hu, -⟩ | ⟨-, hne, -⟩ | ⟨-, -, c', hc', e⟩ | ⟨-, -, i, hi, -⟩ := execCalibrate_cases len s
  · cases hm.symm.trans hu
  · exact absurd hl hne
  · cases hc.symm.trans hc'
    exact e
  · cases hc.symm.trans hi

theorem exec_process_of_chunk {c : List Exact} (hc : s.chunk exactArith = .ok c) :
    exec (.process len) s = .next (processed exactArith c s).dropWork.succeed := by
  obtain ⟨hu, -⟩ | ⟨-, hne, -⟩ | ⟨-, -, c', hc', e⟩ | ⟨-, -, i, hi, -⟩ := execProcess_cases len s
  · cases hm.symm.trans hu
  · exact absurd hl hne
  · cases hc.symm.trans hc'
    exact e
  · cases hc.symm.trans hi

theorem exec_calibrate_of_missing {i : Nat} (hi : s.chunk exactArith = .error i) :
    exec (.calibrate len) s = .refused (.nonFiniteSample i) := by
  obtain ⟨hu, -⟩ | ⟨-, hne, -⟩ | ⟨-, -, c, hc, -⟩ | ⟨-, -, i', hi', e⟩ := execCalibrate_cases len s
  · cases hm.symm.trans hu
  · exact absurd hl hne
  · cases hi.symm.trans hc
  · cases hi.symm.trans hi'
    exact e

theorem exec_process_of_missing {i : Nat} (hi : s.chunk exactArith = .error i) :
    exec (.process len) s = .refused (.nonFiniteSample i) := by
  obtain ⟨hu, -⟩ | ⟨-, hne, -⟩ | ⟨-, -, c, hc, -⟩ | ⟨-, -, i', hi', e⟩ := execProcess_cases len s
  · cases hm.symm.trans hu
  · exact absurd hl hne
  · cases hi.symm.trans hc
  · cases hi.symm.trans hi'
    exact e

end

/-- A PROCESS that answers without an error ran its micro-operations (R240). -/
theorem processed_of_exec {s t : State} {len : BitVec 16} (h : exec (.process len) s = .next t) (herr : t.err = false) :
    ∃ c, t = (processed exactArith c s).dropWork.succeed := by
  obtain ⟨-, e⟩ | ⟨-, -, e⟩ | ⟨-, -, c, -, e⟩ | ⟨-, -, i, -, e⟩ := execProcess_cases len s <;> cases e.symm.trans h
  · cases herr
  · cases herr
  · exact ⟨c, rfl⟩

theorem exec_frameBuild_of_chunk {s : State} {c : List Exact} (hc : s.chunk exactArith = .ok c) :
    exec .frameBuild s = .next (frameBuild c s) := by
  change Generic.execFrameBuild exactArith s = _
  rw [Generic.execFrameBuild, hc]

theorem exec_frameBuild_of_missing {s : State} {i : Nat} (hi : s.chunk exactArith = .error i) :
    exec .frameBuild s = .refused (.nonFiniteSample i) := by
  change Generic.execFrameBuild exactArith s = _
  rw [Generic.execFrameBuild, hi]

/-- What HPF does to the filter's own fields, by whether it is enabled (R144, R149). -/
theorem hpf_filter_fields {s : State} (c : List Exact) :
    (s.hpfEn = false → (hpf exactArith (frameBuild c s)).hpz = s.hpz ∧ (s.hpfEn || s.hpfPrimed) = s.hpfPrimed) ∧
      (s.hpfEn = true → (s.hpfEn || s.hpfPrimed) = true) := by
  refine ⟨fun hen => ⟨?_, by rw [hen, Bool.false_or]⟩, fun hen => by rw [hen, Bool.true_or]⟩
  rw [hpf_hpz, if_neg (by simp [hen]), frameBuild_hpz]

/-! ## Precise errors (R54, R271, R276) -/

/-- The listed codes. -/
theorem ErrorCode.word_range (e : ErrorCode) :
    (1 ≤ e.word.toNat ∧ e.word.toNat ≤ 4) ∨ (0x10 ≤ e.word.toNat ∧ e.word.toNat ≤ 0x1A) := by cases e <;> decide

/-- A configuration register is not CMD (R40). -/
theorem rwuOffset_ne_cmd {smax : Nat} : ¬RwuOffset smax (0x8 : Addr).toNat := by
  rintro (⟨r, e⟩ | ⟨sec, -, r, e⟩)
  · cases r <;> simp [CfgReg.offset] at e
  · change 8 = 0x40 + 0x20 * sec + 4 * r.number at e
    omega

/-- A write to CMD fails, and then raises an error, or ends as a successful command does; DESTROY alone clears ERRS. -/
theorem Effect.command_result {s t : State} {e : HostEvent} {w : Word} (he : Effect s e t) (h : e = .write 0x8 4 w) :
    (∃ code info, t = s.raise code info) ∨
      (t.err = false ∧ t.errCode = 0 ∧ t.errInfo = 0 ∧ t.response = .writeOk ∧ (w.toNat ≠ 4 → t.errs = s.errs)) := by
  cases he with
  | read => cases h
  | error addr size data hn =>
    cases h
    exact absurd ⟨rfl, rfl⟩ hn
  | raise w code info => exact .inl ⟨code, info, rfl⟩
  | destroy =>
    cases h
    exact .inr ⟨rfl, rfl, rfl, rfl, fun hne => absurd rfl hne⟩
  | status data =>
    injection h with haddr
    exact absurd haddr (by decide)
  | config addr data r hm ha =>
    cases h
    exact absurd (.inl ⟨r, ha⟩) (rwuOffset_ne_cmd (smax := 0))
  | coef addr data sec r hm hs ha =>
    cases h
    exact absurd (.inr ⟨sec, hs, r, ha⟩) rwuOffset_ne_cmd
  | input addr data i hi ha =>
    cases h
    change 8 = 0x4000 + 4 * i at ha
    omega
  | _ => exact .inr ⟨rfl, rfl, rfl, rfl, fun _ => rfl⟩

/-! ## The statements -/

/-- Settles O33: the state after the command is `configured`, whose arrays are constants and the window. -/
theorem configureConstructs : Obligations.ConfigureConstructs := by
  intro s h hm hf
  have hwin (i : Nat) (hi : i < s.N) : valAt (windowOf exactArith s.build.epsWin s.N) i =
      √(0.5 * (1 - Real.cos (2 * Real.pi * i / (s.N - 1))) + s.build.epsWin.val) := by
    rw [valAt_windowOf _ hi]
    norm_num
  have hsetup (u : State) (hu : exec .hpfSetup { s with hpfEn := filterOn exactArith s.cfg } = .next u) :
      (configured s).succeed.hpzi = u.hpzi := by
    obtain rfl := Host.Outcome.next.inj hu
    rfl
  exact ⟨(configured s).succeed, exec_configure_of_accepted hm hf, rfl, filterOn_iff, rfl, rfl, rfl, rfl, rfl, rfl, rfl,
    windowOf_length _ _, hwin, zeros_length _, valAt_zeros _, zeros_length _, valAt_zeros _, List.length_replicate,
    fun _ hk => valAt_replicate _ hk, List.length_replicate, stateAt_replicate _, hsetup, fun _ hi => inWord_configured s hi,
    fun _ ha => byteAt_configured_outside h ha, configured_done s⟩

/-- Settles O35: the mode is looked at before any check. -/
theorem configureTwice : Obligations.ConfigureTwice := fun _ hm => exec_configure_of_configured hm

/-- Settles O37: a write to CMD ends in `raise` or in `succeed`. -/
theorem errorsArePrecise : Obligations.ErrorsArePrecise := by
  intro s t w h
  have hrun : runWord exactArith w s = .next t := (exec_wr_of_writeLoc s.locOf_cmd rfl).symm.trans h
  obtain ⟨code, info, rfl⟩ | ⟨herr, hcode, hinfo, hresp, herrs⟩ := (effect_of_runWord hrun).command_result rfl
  · exact ⟨rfl, fun _ => ⟨rfl, code.word_range⟩, nofun⟩
  · exact ⟨hresp, fun h => (nomatch herr.symm.trans h), fun _ => ⟨hcode, hinfo, herrs⟩⟩

/-- Settles O38: the four micro-operations one after the other make `calibrated`. -/
theorem calibrateRuns : Obligations.CalibrateRuns := by
  intro s len hm hl hfinite
  obtain ⟨c, hc⟩ := chunk_exists hfinite
  obtain ⟨hoff, hon⟩ := hpf_filter_fields (s := s) c
  refine ⟨_, _, _, _, _, exec_frameBuild_of_chunk hc, rfl, rfl, rfl, exec_calibrate_of_chunk hm hl hc, calibrated_done _ _ _, ?_⟩
  rw [calibrated_done]
  exact ⟨hoff, hon, fun _ => rfl⟩

/-- Settles O39: the seven micro-operations one after the other make `processed`. -/
theorem processRuns : Obligations.ProcessRuns := by
  intro s len hm hl hfinite
  obtain ⟨c, hc⟩ := chunk_exists hfinite
  obtain ⟨hoff, hon⟩ := hpf_filter_fields (s := s) c
  refine ⟨_, _, _, _, _, _, _, _, exec_frameBuild_of_chunk hc, rfl, rfl, rfl, rfl, rfl, rfl, exec_process_of_chunk hm hl hc,
    processed_done _ _ _, ?_⟩
  rw [processed_done]
  exact ⟨hoff, hon, fun _ => rfl⟩

/-- Settles O40: OUT is the first hop of the old OLA, and the window of OUT can be read after the command. -/
theorem processOutput : Obligations.ProcessOutput := by
  intro s t len i h hm hexec herr hi
  obtain ⟨c, ht⟩ := processed_of_exec hexec herr
  have hout : t.out = s.ola.take s.H := by rw [ht, State.succeed_out, State.dropWork_out, processed_out]
  have hbuild : t.build = s.build := by rw [ht, State.succeed_build, State.dropWork_build, processed_build]
  have hcfg : t.cfg = s.cfg := by rw [ht, State.succeed_cfg, State.dropWork_cfg, processed_cfg]
  have hreadable : t.outReadable = true := outReadable_of_configured (ht ▸ hm) (ht ▸ rfl)
  have hN := N_le_of_configured h hm
  have hH : s.H = s.N / 2 := rfl
  refine ⟨?_, exec_rd_ofNat (l := .out i) (hbuild ▸ h.build) (show i < 4096 by omega) rfl ?_⟩
  · rw [hout, List.length_take, (h.configured hm).ola]
    exact min_eq_left (Nat.div_le_self _ _)
  · refine (readElement_of_readable hreadable (State.H_of_cfg hcfg ▸ hi) _).trans ?_
    rw [hout, List.getD_eq_getElem?_getD, List.getElem?_take_of_lt hi, ← List.getD_eq_getElem?_getD]

/-- Settles O41: the chunk is read before anything else, and it has no numbers. -/
theorem nonFiniteSampleRefused : Obligations.NonFiniteSampleRefused := by
  intro s len i hi hn hbefore
  have hc := chunk_missing hi hn hbefore
  exact ⟨exec_frameBuild_of_missing hc, fun hm hl => ⟨exec_calibrate_of_missing hm hl hc, exec_process_of_missing hm hl hc⟩⟩

end Sys2Proof.Machine
end

section
/-! The proof about silence (spec/41_highpass.md R150, spec/43_spectral.md R190, spec/45_gain.md R222): every stage of PROCESS
gives zeros for zeros, whatever the lengths of its arrays, the noise estimate and the gains are. -/

namespace Sys2Proof.Machine

open Generic

/-! ## Arrays of zeros -/

/-- Every number of the array is 0. -/
def Silent (a : List Exact) : Prop := ∀ x ∈ a, x.val = 0

/-- Every bin of the array is 0. -/
def SilentBins (a : List (Cplx Exact)) : Prop := ∀ z ∈ a, z.val = 0

/-- Every section holds zeros. -/
def SilentStates (a : List (SectionState Exact)) : Prop := ∀ z ∈ a, z.1.val = 0 ∧ z.2.val = 0

/-- What holds of every element, and of the value past the end, holds of every index. -/
theorem forall_getD_iff {α : Type} {a : List α} {d : α} {P : α → Prop} (hd : P d) :
    (∀ i, P (a.getD i d)) ↔ ∀ x ∈ a, P x := by
  refine ⟨fun h x hx => ?_, fun h i => ?_⟩
  · obtain ⟨i, hi, rfl⟩ := List.getElem_of_mem hx
    rw [← List.getD_eq_getElem a d hi]
    exact h i
  · rcases lt_or_ge i a.length with hi | hi
    · rw [List.getD_eq_getElem _ _ hi]
      exact h _ (List.getElem_mem hi)
    · rwa [List.getD_eq_default _ _ hi]

theorem silent_iff {a : List Exact} : Silent a ↔ ∀ i, valAt a i = 0 :=
  (forall_getD_iff (P := (Exact.val · = 0)) (by simp)).symm

theorem silentStates_iff {a : List (SectionState Exact)} : SilentStates a ↔ ∀ sec, stateAt a sec = (0, 0) := by
  simp only [stateAt, Prod.mk.injEq]
  exact (forall_getD_iff (P := fun z : SectionState Exact => z.1.val = 0 ∧ z.2.val = 0) (by simp)).symm

theorem SilentBins.getD {a : List (Cplx Exact)} (h : SilentBins a) (k : Nat) : (a.getD k ⟨.rat 0, .rat 0⟩).val = 0 :=
  (forall_getD_iff (P := (Cplx.val · = 0)) (by simp [Cplx.val, Complex.ext_iff])).mpr h k

section
variable {a b : List Exact}

theorem Silent.append (ha : Silent a) (hb : Silent b) : Silent (a ++ b) :=
  fun x hx => (List.mem_append.mp hx).elim (ha x) (hb x)

theorem Silent.drop (ha : Silent a) (n : Nat) : Silent (a.drop n) := fun x hx => ha x (List.mem_of_mem_drop hx)

theorem Silent.take (ha : Silent a) (n : Nat) : Silent (a.take n) := fun x hx => ha x (List.mem_of_mem_take hx)

theorem silent_zeros (n : Nat) : Silent (zeros exactArith n) := silent_iff.mpr (valAt_zeros n)

/-- A product is silent as soon as its second factor is. -/
theorem Silent.zipWith_mul (hb : Silent b) : Silent (List.zipWith exactArith.mul a b) :=
  forall_mem_zipWith (P := fun _ => True) (Q := (Exact.val · = 0)) (R := (Exact.val · = 0))
    (fun x y _ hy => by rw [exactArith_val_mul, hy, mul_zero]) (fun _ _ => trivial) hb

theorem Silent.zipWith_add (ha : Silent a) (hb : Silent b) : Silent (List.zipWith exactArith.add a b) :=
  forall_mem_zipWith (P := (Exact.val · = 0)) (Q := (Exact.val · = 0)) (R := (Exact.val · = 0))
    (fun x y hx hy => by rw [exactArith_val_add, hx, hy, add_zero]) ha hb

end

/-! ## The filter (R150) -/

/-- One silent sample through sections that hold nothing. -/
theorem cascadeStep_silent (cs : List (Biquad Exact)) {zs : List (SectionState Exact)} {v : Exact} (hz : SilentStates zs)
    (hv : v.val = 0) :
    (cascadeStep exactArith cs zs v).1.val = 0 ∧ SilentStates (cascadeStep exactArith cs zs v).2 := by
  induction cs generalizing zs v with
  | nil => exact ⟨hv, hz⟩
  | cons c cs ih =>
    cases zs with
    | nil => exact ⟨hv, hz⟩
    | cons z zs =>
      obtain ⟨⟨hz1, hz2⟩, hzs⟩ := List.forall_mem_cons.mp hz
      have hy : (filterStep exactArith c z v).1.val = 0 := by
        change (exactArith.add (exactArith.mul c.b0 v) z.1).val = 0
        rw [exactArith_val_add, exactArith_val_mul, hv, hz1, mul_zero, add_zero]
      have hz' : (filterStep exactArith c z v).2.1.val = 0 ∧ (filterStep exactArith c z v).2.2.val = 0 := by
        change (exactArith.add (exactArith.sub (exactArith.mul c.b1 v) (exactArith.mul c.a1 (filterStep exactArith c z v).1))
            z.2).val = 0 ∧
          (exactArith.sub (exactArith.mul c.b2 v) (exactArith.mul c.a2 (filterStep exactArith c z v).1)).val = 0
        rw [exactArith_val_add, exactArith_val_sub, exactArith_val_sub, exactArith_val_mul, exactArith_val_mul,
          exactArith_val_mul, exactArith_val_mul, hv, hy, hz2]
        simp
      obtain ⟨hout, hstates⟩ := ih hzs hy
      exact ⟨hout, List.forall_mem_cons.mpr ⟨hz', hstates⟩⟩

theorem cascadeRun_silent (cs : List (Biquad Exact)) {zs : List (SectionState Exact)} {vs : List Exact} (hz : SilentStates zs)
    (hv : Silent vs) : Silent (cascadeRun exactArith cs zs vs).1 ∧ SilentStates (cascadeRun exactArith cs zs vs).2 := by
  induction vs generalizing zs with
  | nil => exact ⟨hv, hz⟩
  | cons v vs ih =>
    obtain ⟨hv0, hvs⟩ := List.forall_mem_cons.mp hv
    obtain ⟨hout, hstates⟩ := cascadeStep_silent cs hz hv0
    obtain ⟨houts, hend⟩ := ih hstates hvs
    exact ⟨List.forall_mem_cons.mpr ⟨hout, houts⟩, hend⟩

section
variable {s : State} (hf : Silent s.work.frame) (hz : SilentStates s.hpz)
include hf hz

/-- HPF starts from nothing: either from a multiple of the silent first sample or from what it held. -/
theorem initialStates_silent : SilentStates (s.initialStates exactArith) := by
  unfold State.initialStates
  split
  · intro z hz
    obtain ⟨x, -, rfl⟩ := List.mem_map.mp hz
    have h0 : (s.work.frame.getD 0 exactArith.zero).val = 0 := silent_iff.mp hf 0
    change (exactArith.mul x.1 _).val = 0 ∧ (exactArith.mul x.2 _).val = 0
    rw [exactArith_val_mul, exactArith_val_mul, h0, mul_zero, mul_zero]
    exact ⟨rfl, rfl⟩
  · exact fun z h => hz z (List.mem_of_mem_take h)

theorem hpf_silent : Silent (hpf exactArith s).work.filt ∧ SilentStates (hpf exactArith s).hpz := by
  obtain ⟨hout, hend⟩ := cascadeRun_silent (s.biquads exactArith) (initialStates_silent hf hz) hf
  rw [hpf_work, hpf_hpz]
  split
  · refine ⟨hout, fun z h => ?_⟩
    rcases List.mem_append.mp h with h | h
    · exact hend z h
    · exact hz z (List.mem_of_mem_drop h)
  · exact ⟨hf, hz⟩

end

/-! ## The transforms (R190) -/

theorem rdft_silent (len : Nat) {a : List Exact} (ha : Silent a) : SilentBins (exactArith.rdft len a) := by
  intro z hz
  obtain ⟨k, -, rfl⟩ := List.mem_map.mp hz
  rw [rdftBin_val]
  exact Finset.sum_eq_zero fun n _ => by rw [silent_iff.mp ha n, Complex.ofReal_zero, zero_mul]

theorem mag_silent {x : List (Cplx Exact)} (hx : SilentBins x) : Silent (x.map exactArith.cabs) := by
  intro m hm
  obtain ⟨z, hz, rfl⟩ := List.mem_map.mp hm
  rw [exactArith_val_cabs, hx z hz, norm_zero]

/-- A silent magnitude silences its bin whatever the gain and the phase (R222). -/
theorem shaped_silent {mag : List Exact} (hm : Silent mag) (g : List Exact) (phs : List (Cplx Exact)) :
    SilentBins (shaped exactArith g mag phs) :=
  forall_mem_zipWith (P := (Exact.val · = 0)) (Q := fun _ => True) (R := (Cplx.val · = 0))
    (fun x z hx _ => by rw [exactArith_val_scale, hx, Complex.ofReal_zero, zero_mul]) hm.zipWith_mul (fun _ _ => trivial)

theorem total_silent {l : List Exact} (h : Silent l) : (exactElementary.total l).val = 0 := by
  induction l with
  | nil => exact Rat.cast_zero
  | cons a as ih =>
    obtain ⟨ha, has⟩ := List.forall_mem_cons.mp h
    exact (Exact.val_add _ _).trans (by rw [ha, ih has, add_zero])

theorem irdft_silent (len : Nat) {b : List (Cplx Exact)} (hb : SilentBins b) : Silent (exactArith.irdft len b) := by
  have hpart (k : Nat) : (realPart exactElementary b k).val = 0 := congrArg Complex.re (hb.getD k)
  have hturned (n : Nat) : Silent ((interiorBins len b).map fun e => turnedRe exactElementary len n e.1 e.2) := by
    intro x hx
    obtain ⟨⟨z, k⟩, he, rfl⟩ := List.mem_map.mp hx
    have hz : z.val = 0 := hb z (List.fst_mem_of_mem_zipIdx (List.mem_of_mem_drop (List.mem_of_mem_take he)))
    have hre : z.re.val = 0 := congrArg Complex.re hz
    have him : z.im.val = 0 := congrArg Complex.im hz
    refine (Exact.val_sub _ _).trans ?_
    rw [show exactElementary.mul = Exact.mul from rfl, Exact.val_mul, Exact.val_mul, hre, him, zero_mul, zero_mul, sub_zero]
  intro x hx
  obtain ⟨n, -, rfl⟩ := List.mem_map.mp hx
  unfold irdftSample
  rw [show exactElementary.mul = Exact.mul from rfl, show exactElementary.add = Exact.add from rfl]
  rw [Exact.val_mul, Exact.val_add, Exact.val_add, Exact.val_mul, Exact.val_mul, hpart, hpart, total_silent (hturned n)]
  simp

/-! ## PROCESS -/

section
variable {s : State} {c : List Exact} (hc : Silent c) (ht : Silent s.tail) (hz : SilentStates s.hpz)
include hc ht hz

theorem calibrated_silent : Silent (calibrated exactArith c s).work.mag ∧ SilentStates (calibrated exactArith c s).hpz := by
  have hframe : Silent (frameBuild c s).work.frame := ht.append hc
  obtain ⟨hfilt, hstates⟩ := hpf_silent hframe (hz : SilentStates (frameBuild c s).hpz)
  exact ⟨mag_silent (rdft_silent _ hfilt.zipWith_mul), hstates⟩

theorem processed_ola_silent (ho : Silent s.ola) : Silent (processed exactArith c s).ola := by
  obtain ⟨hmag, -⟩ := calibrated_silent hc ht hz
  rw [processed_ola, olaEmit_ola, synth_work]
  exact ((ho.drop _).append (silent_zeros _)).zipWith_add (irdft_silent _ (shaped_silent hmag _ _)).zipWith_mul

end

/-- Settles O42: the chunk is silent, so the frame, the magnitudes and the synthesised frame are. -/
theorem silenceStable : Obligations.SilenceStable := by
  intro s len hm hl hin htail hola hhpz
  obtain ⟨c, hc⟩ := chunk_exists fun i hi => ⟨0, hin i hi⟩
  obtain ⟨hlen, helem⟩ := chunk_ok hc
  have hchunk : Silent c := by
    refine silent_iff.mpr fun i => ?_
    rcases lt_or_ge i c.length with hi | hi
    · obtain ⟨q, hq, e⟩ := helem i (hlen ▸ hi)
      obtain rfl : q = 0 := Option.some.inj (hq.symm.trans (hin i (hlen ▸ hi)))
      rw [valAt, e, Exact.val_rat, Rat.cast_zero]
    · exact valAt_of_length_le hi
  have hold := silent_iff.mpr hola
  have hstates := silentStates_iff.mpr hhpz
  have hprev := silent_iff.mpr htail
  exact ⟨_, exec_process_of_chunk hm hl hc, silent_iff.mp (hold.take _), silent_iff.mp (hchunk.drop _),
    silent_iff.mp (processed_ola_silent hchunk hprev hstates hold),
    silentStates_iff.mp (calibrated_silent hchunk hprev hstates).2⟩

end Sys2Proof.Machine
end

section
/-! The proofs about the units that work element by element: WINGEN, FRAME_BUILD, OLA_EMIT, NOISE_UPDATE and GAIN
(spec/40_window.md R131, spec/42_frame_ola.md R161 to R169, spec/44_noise.md R201, spec/45_gain.md R211). -/

namespace Sys2Proof.Machine

open Generic

/-! ## The window (R131) -/

/-- Half of 1 − cos lies between 0 and 1, so an element lies between the roots of EPS_WIN and of 1 + EPS_WIN. -/
theorem windowElement_between {eps : ℝ} (a : ℝ) :
    √eps ≤ √(1 / 2 * (1 - Real.cos a) + eps) ∧ √(1 / 2 * (1 - Real.cos a) + eps) ≤ √(1 + eps) := by
  have := Real.cos_le_one a
  have := Real.neg_one_le_cos a
  exact ⟨Real.sqrt_le_sqrt (by linarith), Real.sqrt_le_sqrt (by linarith)⟩

/-- Where the cosine is 1 the element is the root of EPS_WIN. -/
theorem windowElement_end {eps a : ℝ} (h : Real.cos a = 1) : √(1 / 2 * (1 - Real.cos a) + eps) = √eps := by
  rw [h, sub_self, mul_zero, zero_add]

theorem windowAngle_zero (n : Nat) : windowAngle n 0 = 0 := by
  rw [windowAngle, Nat.cast_zero, mul_zero, zero_div]

/-- Settles O43: the elements by `valAt_windowOf`; the last angle is the first one mirrored. -/
theorem wingenWrites : Obligations.WingenWrites := by
  intro s hN heps
  have hwin {i : Nat} (hi : i < s.N) := valAt_win_of_exec_wingen (s := s) rfl hi
  have hlast : windowAngle s.N (s.N - 1) = 2 * Real.pi - 0 := by
    rw [← windowAngle_zero s.N, ← windowAngle_reflect hN (by omega), Nat.sub_zero]
  refine ⟨_, rfl, rfl, windowOf_length _ _, fun i hi => ⟨?_, ?_⟩, ?_, ?_, fun _ => rfl⟩
  · rw [hwin hi, windowAngle]
    norm_num
  · rw [hwin hi]
    exact windowElement_between _
  · rw [hwin (by omega : 0 < s.N), windowElement_end (by rw [windowAngle_zero, Real.cos_zero])]
  · rw [hwin (by omega : s.N - 1 < s.N), windowElement_end (by rw [hlast, sub_zero, Real.cos_two_pi])]

/-! ## FRAME_BUILD (R161) -/

/-- Settles O50: the tail and the chunk are the two halves of the frame, and for an even N the whole chunk is the next
tail. -/
theorem frameBuildAssembles : Obligations.FrameBuildAssembles := by
  intro s heven htail hfinite
  obtain ⟨c, hc⟩ := chunk_exists hfinite
  obtain ⟨hlen, helem⟩ := chunk_ok hc
  have hH : s.H = s.N / 2 := rfl
  have hdrop : s.H - (s.N - s.H) = 0 := by omega
  have hnew : (frameBuild c s).tail = c := by rw [frameBuild_tail, hdrop, List.drop_zero]
  refine ⟨frameBuild c s, exec_frameBuild_of_chunk hc, rfl, hlen, ?_, by rw [hnew, hlen]; omega, fun i hi => ?_, fun i hi => ?_,
    fun i hi => ?_, fun _ => rfl⟩
  · rw [frameBuild_work, List.length_append, htail, hlen]
    omega
  · obtain ⟨q, hq, e⟩ := helem i hi
    exact ⟨q, hq, by rw [frameBuild_work, valAt, e, Exact.val_rat]⟩
  · rw [frameBuild_work]
    exact valAt_append_left (hi.trans_eq htail.symm)
  · rw [hnew, frameBuild_work]
    refine ⟨(valAt_append_right (by omega)).trans ?_, rfl⟩
    rw [htail, Nat.add_sub_cancel_left]

/-! ## OLA_EMIT (R166 to R169) -/

section
variable {s : State}

theorem exec_olaEmit (s : State) : exec .olaEmit s = .next (olaEmit exactArith s) := rfl

theorem olaEmit_ola_length (hola : s.ola.length = s.N) (hsyn : s.work.syn.length = s.N) :
    (olaEmit exactArith s).ola.length = s.N := by
  rw [olaEmit_ola, List.length_zipWith, shiftOla_length (hola ▸ Nat.div_le_self _ _), hola, hsyn, min_self]

theorem valAt_olaEmit_out {i : Nat} (hi : i < s.H) : valAt (olaEmit exactArith s).out i = valAt s.ola i := by
  rw [olaEmit_out, valAt_take hi]

/-- One element of the accumulator after an emit: what was one hop later, or nothing, and SYN. -/
theorem valAt_olaEmit_ola (hola : s.ola.length = s.N) (hsyn : s.work.syn.length = s.N) {i : Nat} (hi : i < s.N) :
    valAt (olaEmit exactArith s).ola i = (if s.H + i < s.N then valAt s.ola (s.H + i) else 0) + valAt s.work.syn i := by
  have hshift : (shiftOla exactArith s.H s.ola).length = s.N :=
    (shiftOla_length (hola ▸ Nat.div_le_self _ _)).trans hola
  rw [olaEmit_ola, valAt_zipWith_add (hi.trans_eq hshift.symm) (hi.trans_eq hsyn.symm), valAt_shiftOla, hola]

end

/-- Settles O51: element by element. -/
theorem olaEmitOutputs : Obligations.OlaEmitOutputs := by
  intro s heven hola hsyn
  have hH : s.H = s.N / 2 := rfl
  refine ⟨olaEmit exactArith s, exec_olaEmit s, rfl, ?_, olaEmit_ola_length hola hsyn, fun i hi => valAt_olaEmit_out hi, fun i hi => ?_,
    fun i h1 h2 => ?_, fun _ => rfl⟩
  · rw [olaEmit_out, List.length_take, hola]
    omega
  · rw [valAt_olaEmit_ola hola hsyn (by omega), if_pos (by omega), Nat.add_comm]
  · rw [valAt_olaEmit_ola hola hsyn h2, if_neg (by omega), zero_add]

/-- From s to t there is one OLA_EMIT of the frame `syn`; all but the accumulator and the configuration registers may have
changed before it. -/
def Emits (h : Nat) (syn : Nat → ℝ) (s t : State) : Prop :=
  ∃ u, u.ola = s.ola ∧ u.cfg = s.cfg ∧ u.work.syn.length = 2 * h ∧ (∀ i, valAt u.work.syn i = syn i) ∧
    exec .olaEmit u = .next t

/-- The accumulator and the frame length between emits, and what the accumulator holds: the second half of the frame x, that
has been emitted last, joined with the first half of y. -/
structure Emitted (h : Nat) (x y : Nat → ℝ) (s : State) : Prop where
  length : s.ola.length = 2 * h
  frameLen : s.N = 2 * h
  first : ∀ i < h, valAt s.ola i = x (h + i) + y i
  second : ∀ i < h, valAt s.ola (h + i) = y (h + i)

section
variable {h : Nat} {x y z : Nat → ℝ} {s t : State}

/-- One emit (R168): the first hop goes out, and the next frame moves in. -/
theorem Emits.emitted (he : Emits h z s t) (hs : Emitted h x y s) :
    Emitted h y z t ∧ ∀ i < h, valAt t.out i = x (h + i) + y i := by
  obtain ⟨u, hola, hcfg, hlen, hsyn, hexec⟩ := he
  obtain rfl : olaEmit exactArith u = t := Host.Outcome.next.inj ((exec_olaEmit u).symm.trans hexec)
  have hN : u.N = 2 * h := (State.N_of_cfg hcfg).trans hs.frameLen
  have hH : u.H = h := by rw [State.H, hN]; omega
  have hol : u.ola.length = u.N := by rw [hola, hs.length, hN]
  have hsl : u.work.syn.length = u.N := by rw [hlen, hN]
  refine ⟨⟨(olaEmit_ola_length hol hsl).trans hN, hN, fun i hi => ?_, fun i hi => ?_⟩, fun i hi => ?_⟩
  · rw [valAt_olaEmit_ola hol hsl (by omega), hH, if_pos (by omega), hola, hs.second i hi, hsyn]
  · rw [valAt_olaEmit_ola hol hsl (by omega), hH, if_neg (by omega), hsyn, zero_add]
  · rw [valAt_olaEmit_out (hH.symm ▸ hi), hola, hs.first i hi]

end

/-- Settles O52: after emit p + 1 the accumulator holds the frames p and p + 1; the empty accumulator holds two zero
frames. -/
theorem emitClosedForm : Obligations.EmitClosedForm := by
  intro σ syn h hN hlen hzero hsyn (hstep : ∀ p, Emits h (syn (p + 1)) (σ p) (σ (p + 1)))
  have start : Emitted h (fun _ => 0) (syn 0) (σ 0) :=
    ⟨hlen, hN, fun i _ => by rw [hzero, hsyn, add_zero], fun i _ => by rw [hzero, hsyn]⟩
  have holds (p : ℕ) : Emitted h (syn p) (syn (p + 1)) (σ (p + 1)) := by
    induction p with
    | zero => exact ((hstep 0).emitted start).1
    | succ p ih => exact ((hstep (p + 1)).emitted ih).1
  intro p i hi
  refine ⟨?_, ((hstep (p + 1)).emitted (holds p)).2 i hi, (holds p).first i hi, (holds p).second i hi⟩
  rw [((hstep 0).emitted start).2 i hi, hsyn, add_zero]

/-! ## NOISE_UPDATE and GAIN (R201, R211) -/

/-- Settles O57: bin by bin. -/
theorem noiseUpdates : Obligations.NoiseUpdates := by
  intro s α hα hlen
  refine ⟨_, exec_noiseUpdate s, rfl, ?_, fun k hk => valAt_noiseUpdate hα hk (hlen ▸ hk), fun _ => rfl⟩
  rw [noiseUpdate_noise_length, hlen, min_self]

/-- Settles O59: bin by bin; a quotient of exact numbers is the quotient of the real numbers, so the premise on its divisor is
not needed. -/
theorem gainComputes : Obligations.GainComputes := by
  intro s β fl α hβ hfl hα hnoise hpgain
  have hclean : (s.cleanVector exactArith).length = s.work.mag.length := by rw [cleanVector_length, hnoise, min_self]
  have hginst : (s.ginstVector exactArith).length = s.work.mag.length := by
    rw [State.ginstVector, List.length_zipWith, hclean, min_self]
  refine ⟨_, exec_gain s, rfl, hclean, hginst, gainVector_length rfl hnoise hpgain, fun k hk => ?_, fun _ => rfl⟩
  have hk' : k < s.noise.length := hk.trans_eq hnoise.symm
  exact ⟨valAt_cleanVector hβ hfl hk hk', fun _ => valAt_ginstVector hk hk',
    valAt_gainVector hk hk' hα fun hv => hk.trans_eq (hpgain hv).symm⟩

end Sys2Proof.Machine
end

section
/-! The proofs about the high-pass filter in use (spec/41_highpass.md R142, R145 to R149): HPZI section by section, then the
recursion of the cascade over the frame. -/

namespace Sys2Proof.Machine

open Generic

/-- HPZI of a section in use: its rest state for the input that the sections before it give (R142). -/
theorem stateAt_hpfSetup_hpzi_running {s : State} (hen : s.hpfEn = true) (hl : s.cfg.sections ≤ s.cfg.coef.length) {sec : ℕ}
    (hs : sec < s.cfg.sections) : stateAt (hpfSetup exactArith s).hpzi sec =
      (s.cfg.restInput sec * (s.cfg.coefAt sec .b1 + s.cfg.coefAt sec .b2 -
          (s.cfg.coefAt sec .a1 + s.cfg.coefAt sec .a2) * s.cfg.dcGainAt sec),
        s.cfg.restInput sec * (s.cfg.coefAt sec .b2 - s.cfg.coefAt sec .a2 * s.cfg.dcGainAt sec)) := by
  have hsec : sec < (s.biquads exactArith).length := hs.trans_eq (biquads_length_of_le hl).symm
  obtain ⟨-, hb1, hb2, ha1, ha2⟩ := biquadAt_val hl hs
  have hinput : ∏ r ∈ Finset.range sec, (dcGain exactArith (biquadAt (s.biquads exactArith) r)).val = s.cfg.restInput sec :=
    Finset.prod_congr rfl fun r hr => dcGain_biquadAt_val hl ((Finset.mem_range.1 hr).trans hs)
  rw [stateAt_hpfSetup_hpzi hen hsec, stateAt_restStates _ _ hsec, hinput]
  dsimp only
  rw [dcGain_biquadAt_val hl hs, hb1, hb2, ha1, ha2, exactArith_one, Exact.val_rat, Rat.cast_one, mul_one]

/-- HPZI of a section past those in use (R60, R142). -/
theorem stateAt_hpfSetup_hpzi_unused {s : State} (hen : s.hpfEn = true) (hl : s.cfg.sections ≤ s.cfg.coef.length) {sec : ℕ}
    (hs : s.cfg.sections ≤ sec) : stateAt (hpfSetup exactArith s).hpzi sec = (0, 0) := by
  have hlen : (restStates exactArith (s.biquads exactArith) exactArith.one).length ≤ sec := by
    rw [restStates_length, biquads_length_of_le hl]
    exact hs
  rw [hpfSetup_hpzi, if_pos hen, stateAt_append_right hlen, stateAt_replicate]

/-- Settles O46: the two parts of HPZI. A quotient of exact numbers is the quotient of the real numbers, so the premises on the
coefficients are not needed. -/
theorem hpfSetupWrites : Obligations.HpfSetupWrites := by
  intro s hl
  exact ⟨_, exec_hpfSetup s, rfl, List.length_replicate, stateAt_replicate _,
    fun hoff => if_neg (by simp [hoff]),
    fun hen _ => ⟨fun hs _ => stateAt_hpfSetup_hpzi_running hen hl hs, fun hs => stateAt_hpfSetup_hpzi_unused hen hl hs⟩,
    fun _ => rfl⟩

/-- Where the filter starts (R147, R148). -/
theorem stateAt_initialStates {s : State} {sec : ℕ} (hs : sec < s.cfg.sections) :
    stateAt (s.initialStates exactArith) sec =
      if s.build.hpfReinit = true ∨ s.hpfPrimed = false then
        ((stateAt s.hpzi sec).1 * valAt s.work.frame 0, (stateAt s.hpzi sec).2 * valAt s.work.frame 0)
      else stateAt s.hpz sec := by
  have hfresh : s.startsFresh = true ↔ s.build.hpfReinit = true ∨ s.hpfPrimed = false := by simp [State.startsFresh]
  unfold State.initialStates
  by_cases h : s.startsFresh = true
  · rw [if_pos h, if_pos (hfresh.mp h), stateAt_map_scaleState, stateAt_take hs]
    rfl
  · rw [if_neg h, if_neg (mt hfresh.mpr h), stateAt_take hs]

/-- Settles O48: the recursion is that of `cascadeRun_val` from the initial states, with the coefficients of the registers. -/
theorem hpfFilters : Obligations.HpfFilters := by
  intro s hen hl hzi hz
  have hcs : (s.biquads exactArith).length = s.cfg.sections := biquads_length_of_le hl
  have hinit : (s.initialStates exactArith).length = s.cfg.sections := initialStates_length_of_le hzi hz
  have hend : (s.filtered exactArith).2.length = s.cfg.sections := (filtered_length s).2.trans hinit
  have hhpz : (hpf exactArith s).hpz = (s.filtered exactArith).2 ++ s.hpz.drop s.cfg.sections := by rw [hpf_hpz, if_pos hen]
  have hfilt : (hpf exactArith s).work.filt = (s.filtered exactArith).1 := by rw [hpf_work, if_pos hen]
  obtain ⟨v, z, hz0, hrun, hlast⟩ := cascadeRun_val (hcs.trans hinit.symm) s.work.frame
  refine ⟨_, exec_hpf s, ?frame, hfilt ▸ (filtered_length s).1, ?hpzLength, fun sec hs => ?kept, fun _ => rfl, v, z,
    fun sec hs => (hz0 sec).trans (stateAt_initialStates hs), fun n hn => ?recursion, fun sec hs => ?stored⟩
  case frame =>
    rw [hpf, hen, Bool.true_or]
  case hpzLength =>
    rw [hhpz, List.length_append, hend, List.length_drop]
    omega
  case kept =>
    rw [hhpz, stateAt_append_right (hend ▸ hs), hend, stateAt_drop, Nat.add_sub_cancel' hs]
  case recursion =>
    obtain ⟨hin, hout, hsections⟩ := hrun n hn
    refine ⟨hin, ?_, fun sec hs => ?_⟩
    · rw [hfilt, ← hcs]
      exact hout
    · obtain ⟨hb0, hb1, hb2, ha1, ha2⟩ := biquadAt_val hl hs
      rw [← hb0, ← hb1, ← hb2, ← ha1, ← ha2]
      exact hsections sec (hs.trans_eq hcs.symm)
  case stored =>
    rw [hhpz, stateAt_append_left (hs.trans_eq hend.symm)]
    exact hlast sec

end Sys2Proof.Machine
end

section
/-! The proofs about the transform pair, ANALYZE and SYNTH (spec/43_spectral.md R181 to R192): the orthogonality of the cosines,
the inversion over the real numbers, and with it the statements about exact numbers. -/

namespace Sys2Proof.Machine

open Finset Generic

/-! ## Sums of cosines over a full period -/

/-- The cosines of the multiples of an angle that is a whole number of len-ths of a turn, but no whole number of turns, sum to
0: they are the real parts of the powers of a root of unity other than 1. -/
theorem sum_cos_of_ne_zero {len : ℕ} {d : ℤ} (h0 : d ≠ 0) (hd : |d| < len) :
    ∑ k ∈ range len, Real.cos (2 * Real.pi * k * d / len) = 0 := by
  have hlen : (len : ℂ) ≠ 0 := by
    have : (len : ℤ) ≠ 0 := ((abs_nonneg d).trans_lt hd).ne'
    exact_mod_cast this
  set ζ : ℂ := Complex.exp (2 * Real.pi * Complex.I * d / len) with hζ
  have hpow (k : ℕ) : ζ ^ k = Complex.exp ((2 * Real.pi * k * d / len : ℝ) * Complex.I) := by
    rw [hζ, ← Complex.exp_nat_mul]
    congr 1
    push_cast
    ring
  have hone : ζ ^ len = 1 := by
    rw [hζ, ← Complex.exp_nat_mul, Complex.exp_eq_one_iff]
    exact ⟨d, by field_simp⟩
  have hne : ζ ≠ 1 := by
    intro h
    obtain ⟨n, hn⟩ := Complex.exp_eq_one_iff.mp h
    have hturn : (2 * Real.pi * Complex.I : ℂ) ≠ 0 := Complex.two_pi_I_ne_zero
    have hdn : (d : ℂ) = n * len := by
      field_simp at hn
      rw [hn, mul_comm]
    have hdn' : d = n * len := by exact_mod_cast hdn
    have hn0 : n ≠ 0 := by rintro rfl; simp [hdn'] at h0
    have : (len : ℤ) ≤ |d| := by
      rw [hdn', abs_mul, Nat.abs_cast]
      exact le_mul_of_one_le_left (Int.natCast_nonneg _) (Int.one_le_abs hn0)
    omega
  have hsum : ∑ k ∈ range len, ζ ^ k = 0 := by rw [geom_sum_eq hne, hone, sub_self, zero_div]
  have hre := congrArg Complex.re hsum
  rw [Complex.re_sum, Complex.zero_re] at hre
  rw [← hre]
  exact sum_congr rfl fun k _ => by rw [hpow, Complex.exp_ofReal_mul_I_re]

/-- Two samples of one frame are told apart by the cosines of all frequencies. -/
theorem sum_cos_sub (len : ℕ) {m n : ℕ} (hm : m < len) (hn : n < len) :
    ∑ k ∈ range len, Real.cos (2 * Real.pi * k * (m - n) / len) = if m = n then (len : ℝ) else 0 := by
  split
  case isTrue h => simp [h]
  case isFalse h =>
    have := sum_cos_of_ne_zero (len := len) (d := (m : ℤ) - n) (by omega) (by rw [abs_lt]; omega)
    push_cast at this
    exact this

/-- A sum over a period of a function that is symmetric about its middle, by its first half. -/
theorem sum_range_of_symm {f : ℕ → ℝ} {h : ℕ} (hpos : 0 < h) (hf : ∀ k ≤ 2 * h, f (2 * h - k) = f k) :
    ∑ k ∈ range (2 * h), f k = f 0 + f h + 2 * ∑ k ∈ range (h - 1), f (k + 1) := by
  obtain ⟨m, rfl⟩ : ∃ m, h = m + 1 := ⟨h - 1, by omega⟩
  have hmirror : ∑ k ∈ range m, f (m + 1 + (k + 1)) = ∑ k ∈ range m, f (k + 1) := by
    rw [← sum_range_reflect (fun k => f (k + 1))]
    refine sum_congr rfl fun k hk => ?_
    have hk : k < m := mem_range.mp hk
    rw [← hf (m - 1 - k + 1) (by omega)]
    congr 1
    omega
  rw [two_mul (m + 1), sum_range_add, sum_range_succ' f, sum_range_succ' (fun k => f (m + 1 + k)), hmirror, Nat.add_sub_cancel]
  simp only [add_zero]
  ring

/-! ## The transform pair inverts over the real numbers (R183) -/

section
variable {len : ℕ} {a : List ℝ}

/-- What bin k gives to sample n of the inverse transform. -/
theorem bin_term (k n : ℕ) :
    (rdftBin realElementary len a k).re * Real.cos (2 * Real.pi * k * n / len) -
        (rdftBin realElementary len a k).im * Real.sin (2 * Real.pi * k * n / len) =
      ∑ m ∈ range a.length, a.getD m 0 * Real.cos (2 * Real.pi * k * (m - n) / len) := by
  rw [rdftBin_re, rdftBin_im, neg_mul, sub_neg_eq_add, sum_mul, sum_mul, ← sum_add_distrib]
  refine sum_congr rfl fun m _ => ?_
  rw [show 2 * Real.pi * k * (m - n) / len = 2 * Real.pi * k * m / len - 2 * Real.pi * k * n / len by ring, Real.cos_sub]
  ring

theorem getD_rdft {k : ℕ} (hk : k < len / 2 + 1) (d : Cplx ℝ) :
    (rdft realElementary len a).getD k d = rdftBin realElementary len a k := by
  rw [rdft, getD_range_map _ _ hk]

/-- The mirrored frequency has the same cosines. -/
theorem cos_mirror (hlen : 0 < len) {k : ℕ} (hk : k ≤ len) (m n : ℕ) :
    Real.cos (2 * Real.pi * (len - k : ℕ) * (m - n) / len) = Real.cos (2 * Real.pi * k * (m - n) / len) := by
  have hne : (len : ℝ) ≠ 0 := by exact_mod_cast hlen.ne'
  have : 2 * Real.pi * (len - k : ℕ) * (m - n) / len =
      ((m - n : ℤ) : ℝ) * (2 * Real.pi) - 2 * Real.pi * k * (m - n) / len := by
    rw [Nat.cast_sub hk]
    push_cast
    field_simp
  rw [this, Real.cos_int_mul_two_pi_sub]

theorem irdftSample_rdft (hlen : 0 < len) (heven : len % 2 = 0) (ha : a.length = len) {n : ℕ} (hn : n < len) :
    irdftSample realElementary len (rdft realElementary len a) n = a.getD n 0 := by
  have hne : (len : ℝ) ≠ 0 := by exact_mod_cast hlen.ne'
  have htwo : 2 * (len / 2) = len := by omega
  set f : ℕ → ℝ := fun k => ∑ m ∈ range len, a.getD m 0 * Real.cos (2 * Real.pi * k * (m - n) / len) with hf
  have hbin (k : ℕ) : (rdftBin realElementary len a k).re * Real.cos (2 * Real.pi * k * n / len) -
      (rdftBin realElementary len a k).im * Real.sin (2 * Real.pi * k * n / len) = f k := by rw [bin_term, ha]
  have hfirst : (rdftBin realElementary len a 0).re = f 0 := by
    rw [← hbin]
    simp
  have hangle : 2 * Real.pi * (len / 2 : ℕ) * n / len = n * Real.pi := by
    have : ((len / 2 : ℕ) : ℝ) = len / 2 := Nat.cast_div (Nat.dvd_of_mod_eq_zero heven) two_ne_zero
    rw [this]
    field_simp
  have hmiddle : (-1) ^ n * (rdftBin realElementary len a (len / 2)).re = f (len / 2) := by
    rw [← hbin, hangle, Real.cos_nat_mul_pi, Real.sin_nat_mul_pi]
    ring
  have hsymm : ∀ k ≤ 2 * (len / 2), f (2 * (len / 2) - k) = f k := by
    intro k hk
    rw [htwo] at hk ⊢
    exact sum_congr rfl fun m _ => by rw [cos_mirror hlen hk]
  have hinterior : ∑ k ∈ range (len / 2 - 1),
      (((rdft realElementary len a).getD (k + 1) ⟨0, 0⟩).re * Real.cos (2 * Real.pi * (k + 1) * n / len) -
        ((rdft realElementary len a).getD (k + 1) ⟨0, 0⟩).im * Real.sin (2 * Real.pi * (k + 1) * n / len)) =
      ∑ k ∈ range (len / 2 - 1), f (k + 1) := by
    refine sum_congr rfl fun k hk => ?_
    have hk : k < len / 2 - 1 := mem_range.mp hk
    rw [getD_rdft (by omega), ← hbin]
    push_cast
    rfl
  have hall : ∑ k ∈ range len, f k = len * a.getD n 0 := by
    simp only [hf]
    rw [sum_comm]
    have hpick : ∀ m ∈ range len, ∑ k ∈ range len, a.getD m 0 * Real.cos (2 * Real.pi * k * (m - n) / len) =
        if m = n then len * a.getD m 0 else 0 := by
      intro m hm
      rw [← mul_sum, sum_cos_sub len (mem_range.mp hm) hn, mul_ite, mul_zero, mul_comm]
    rw [sum_congr rfl hpick, sum_ite_eq' (range len) n, if_pos (mem_range.mpr hn)]
  rw [irdftSample_real _ _ _ (rdft_length _ _ _), getD_rdft (by omega), getD_rdft (by omega), hfirst, hmiddle, hinterior,
    ← sum_range_of_symm (by omega) hsymm, htwo, hall, one_div, inv_mul_cancel_left₀ hne]

theorem irdft_rdft (hlen : 0 < len) (heven : len % 2 = 0) (ha : a.length = len) :
    realArith.irdft len (realArith.rdft len a) = a := by
  refine List.ext_getElem (by rw [ha]; exact irdft_length _ _ _) fun n h1 h2 => ?_
  rw [← List.getD_eq_getElem _ 0 h1, ← List.getD_eq_getElem _ 0 h2]
  have hn : n < len := ha ▸ h2
  exact (getD_range_map _ _ hn).trans (irdftSample_rdft hlen heven ha hn)

end

/-- Two spectra of exact numbers that stand for the same complex numbers have the same inverse transform. -/
theorem valAt_irdft_of_map_eq {len : ℕ} {a : List Exact} {b : List (Cplx Exact)} (hlen : 0 < len) (heven : len % 2 = 0)
    (ha : a.length = len) (hb : b.map (Cplx.map Exact.val) = (exactArith.rdft len a).map (Cplx.map Exact.val)) (n : ℕ) :
    valAt (exactArith.irdft len b) n = valAt a n := by
  rw [← getD_map_val, ← getD_map_val a, exactArith_hom.irdft, hb, exactArith_hom.rdft,
    irdft_rdft hlen heven (by rw [List.length_map, ha])]

/-- Settles O55: over the real numbers by the orthogonality of the cosines, and over exact numbers because each stands for a
real number. -/
theorem transformInverts : Obligations.TransformInverts :=
  ⟨fun _ _ hlen heven ha => irdft_rdft hlen heven ha,
    fun len _ hlen heven ha => ⟨exactArith_irdft_length len _, fun n _ => valAt_irdft_of_map_eq hlen heven ha rfl n⟩⟩

/-! ## ANALYZE (R185) -/

theorem exec_analyze (s : State) : exec .analyze s = .next (analyze exactArith s) := rfl

section
variable {s : State}

theorem windowed_length (hw : s.win.length = s.N) (hf : s.work.filt.length = s.N) :
    (s.windowed exactArith).length = s.N := by
  rw [State.windowed, List.length_zipWith, hw, hf, min_self]

theorem valAt_windowed (hw : s.win.length = s.N) (hf : s.work.filt.length = s.N) {n : ℕ} (hn : n < s.N) :
    valAt (s.windowed exactArith) n = valAt s.win n * valAt s.work.filt n :=
  valAt_zipWith_mul (hw ▸ hn) (hf ▸ hn)

theorem cvalAt_spectrum {k : ℕ} (hk : k < s.K) :
    cvalAt (s.spectrum exactArith) k = (rdftBin exactElementary s.N (s.windowed exactArith) k).val := cvalAt_rdft _ _ hk

/-- X as a sum over the frame (R181). -/
theorem cvalAt_spectrum_sum (hw : s.win.length = s.N) (hf : s.work.filt.length = s.N) {k : ℕ} (hk : k < s.K) :
    cvalAt (s.spectrum exactArith) k = ∑ n ∈ range s.N, ((valAt s.win n * valAt s.work.filt n : ℝ) : ℂ) *
      Complex.exp (-((2 * Real.pi * k * n / s.N : ℝ) : ℂ) * Complex.I) := by
  rw [cvalAt_spectrum hk, rdftBin_val, windowed_length hw hf]
  exact sum_congr rfl fun n hn => by rw [valAt_windowed hw hf (mem_range.mp hn)]

/-- A magnitude is at most the sum of the samples' sizes (R185). -/
theorem norm_spectrum_le (hw : s.win.length = s.N) (hf : s.work.filt.length = s.N) {k : ℕ} (hk : k < s.K) :
    ‖cvalAt (s.spectrum exactArith) k‖ ≤ ∑ n ∈ range s.N, |valAt s.win n * valAt s.work.filt n| := by
  rw [cvalAt_spectrum_sum hw hf hk]
  refine (norm_sum_le _ _).trans_eq (sum_congr rfl fun n _ => ?_)
  rw [norm_mul, Complex.norm_real, Real.norm_eq_abs, ← Complex.ofReal_neg, Complex.norm_exp_ofReal_mul_I, mul_one]

/-- Where every sine of the bin's angles is 0 the bin is real (R181). -/
theorem spectrum_im_eq_zero {k : ℕ} (hk : k < s.K) (hsin : ∀ n : ℕ, Real.sin (2 * Real.pi * k * n / s.N) = 0) :
    (cvalAt (s.spectrum exactArith) k).im = 0 := by
  rw [cvalAt_spectrum hk, rdftBin_val_im, sum_eq_zero fun n _ => by rw [hsin, mul_zero], neg_zero]

theorem valAt_mag {x : List (Cplx Exact)} {k : ℕ} (hk : k < x.length) :
    valAt (x.map exactArith.cabs) k = ‖cvalAt x k‖ := by
  rw [valAt, getD_map _ ⟨.rat 0, .rat 0⟩ _ hk, exactArith_val_cabs]
  rfl

theorem cvalAt_phs {x : List (Cplx Exact)} {k : ℕ} (hk : k < x.length) :
    cvalAt (x.map exactArith.phase) k = if cvalAt x k = 0 then 1 else cvalAt x k / (‖cvalAt x k‖ : ℂ) := by
  rw [cvalAt, getD_map _ ⟨.rat 0, .rat 0⟩ _ hk, exactArith_val_phase]
  rfl

end

/-- Settles O53: bin by bin; at the first and the last bin every angle is a whole number of half turns. -/
theorem analyzeTransforms : Obligations.AnalyzeTransforms := by
  intro s hpos heven hw hf
  have hlen (k : ℕ) (hk : k < s.K) : k < (s.spectrum exactArith).length := (spectrum_length s).symm ▸ hk
  have hK : s.K = s.N / 2 + 1 := rfl
  refine ⟨_, exec_analyze s, rfl, spectrum_length s, by simp, by simp, fun k hk => ⟨cvalAt_spectrum_sum hw hf hk,
    valAt_mag (hlen k hk), ?_, ?_⟩, ?_, ?_, fun _ => rfl⟩
  · refine (cvalAt_phs (hlen k hk)).trans ?_
    rw [← valAt_mag (hlen k hk)]
    rfl
  · exact (valAt_mag (hlen k hk)).trans_le (norm_spectrum_le hw hf hk)
  · exact spectrum_im_eq_zero (by omega) fun n => by simp
  · refine spectrum_im_eq_zero (by omega) fun n => ?_
    have hne : (s.N : ℝ) ≠ 0 := by exact_mod_cast hpos.ne'
    have hhalf : ((s.N / 2 : ℕ) : ℝ) = s.N / 2 := Nat.cast_div (Nat.dvd_of_mod_eq_zero heven) two_ne_zero
    rw [hhalf, show 2 * Real.pi * (s.N / 2) * n / s.N = n * Real.pi by field_simp, Real.sin_nat_mul_pi]

/-! ## SYNTH (R188, R192) -/

theorem exec_synth (s : State) : exec .synth s = .next (synth exactArith s) := rfl

section
variable {g mag : List Exact} {phs : List (Cplx Exact)} {n : ℕ}

theorem shaped_length (hg : g.length = n) (hm : mag.length = n) (hp : phs.length = n) :
    (shaped exactArith g mag phs).length = n := by
  rw [shaped, List.length_zipWith, List.length_zipWith, hg, hm, hp, min_self, min_self]

/-- One bin of Y (R188 step 1). -/
theorem cvalAt_shaped {k : ℕ} (hg : k < g.length) (hm : k < mag.length) (hp : k < phs.length) :
    cvalAt (shaped exactArith g mag phs) k = ((valAt g k * valAt mag k : ℝ) : ℂ) * cvalAt phs k := by
  have hgm : k < (List.zipWith exactArith.mul g mag).length := by rw [List.length_zipWith]; exact lt_min hg hm
  rw [cvalAt, shaped, getD_zipWith _ (.rat 0) ⟨.rat 0, .rat 0⟩ _ hgm hp, exactArith_val_scale]
  exact congrArg (fun x : ℝ => (x : ℂ) * _) (valAt_zipWith_mul hg hm)

end

/-- The interior bins of the inverse transform with complex exponentials (R182). -/
theorem interior_re (b : List (Cplx Exact)) (len n : ℕ) :
    ∑ k ∈ range (len / 2 - 1), ((cvalAt b (k + 1)).re * Real.cos (2 * Real.pi * (k + 1) * n / len) -
        (cvalAt b (k + 1)).im * Real.sin (2 * Real.pi * (k + 1) * n / len)) =
      ∑ k ∈ Ico 1 (len / 2), (cvalAt b k * Complex.exp (((2 * Real.pi * k * n / len : ℝ) : ℂ) * Complex.I)).re := by
  rw [sum_Ico_eq_sum_range]
  refine sum_congr rfl fun k _ => ?_
  rw [Complex.mul_re, Complex.exp_ofReal_mul_I_re, Complex.exp_ofReal_mul_I_im, Nat.add_comm 1 k, Nat.cast_succ]

/-- Settles O54: Y bin by bin, and SYN sample by sample. -/
theorem synthInverts : Obligations.SynthInverts := by
  intro s hpos heven hw hg hm hp
  have hy := shaped_length hg hm hp
  have hT : (exactArith.irdft s.N (shaped exactArith s.work.g s.work.mag s.work.phs)).length = s.N :=
    exactArith_irdft_length _ _
  refine ⟨_, exec_synth s, rfl, hy, ?_, fun k hk => cvalAt_shaped (hg ▸ hk) (hm ▸ hk) (hp ▸ hk), fun n hn => ?_, fun _ => rfl⟩
  · rw [synth_work, List.length_zipWith, hT, hw, min_self]
  · refine (valAt_zipWith_mul (hw ▸ hn) (hT.symm ▸ hn)).trans ?_
    rw [valAt_irdft _ _ hn, irdftSample_val _ _ _ hy, interior_re]
    rfl

/-- With unit gain every bin is its magnitude times its phase, so it is the bin itself (R192). -/
theorem shaped_unit {x : List (Cplx Exact)} {g : List Exact} (hg : g.length = x.length)
    (hunit : ∀ k < x.length, valAt g k = 1) :
    (shaped exactArith g (x.map exactArith.cabs) (x.map exactArith.phase)).map (Cplx.map Exact.val) =
      x.map (Cplx.map Exact.val) := by
  set y := shaped exactArith g (x.map exactArith.cabs) (x.map exactArith.phase)
  have hylen : y.length = x.length := shaped_length hg (List.length_map _) (List.length_map _)
  have hbin (k : ℕ) (hk : k < x.length) : cvalAt y k = cvalAt x k := by
    rw [cvalAt_shaped (hg.symm ▸ hk) (by rwa [List.length_map]) (by rwa [List.length_map]), hunit k hk, one_mul, valAt,
      getD_map _ ⟨.rat 0, .rat 0⟩ _ hk, cvalAt, getD_map _ ⟨.rat 0, .rat 0⟩ _ hk, exactArith_cabs_mul_phase]
    rfl
  refine List.ext_getElem (by rw [List.length_map, List.length_map, hylen]) fun k h1 h2 => ?_
  rw [List.length_map] at h1 h2
  have h := hbin k h2
  rw [cvalAt, cvalAt, List.getD_eq_getElem _ _ h1, List.getD_eq_getElem _ _ h2] at h
  rw [List.getElem_map, List.getElem_map]
  exact congrArg₂ Cplx.mk (congrArg Complex.re h) (congrArg Complex.im h)

/-- Settles O56: with unit gain Y is the spectrum, so the inverse transform gives back the windowed frame. -/
theorem unitGainSynthesis : Obligations.UnitGainSynthesis := by
  intro s t g hpos heven hw hf hexec hg hunit
  obtain rfl : analyze exactArith s = t := Host.Outcome.next.inj hexec
  have hx := spectrum_length s
  set y := shaped exactArith g ((s.spectrum exactArith).map exactArith.cabs) ((s.spectrum exactArith).map exactArith.phase)
  have hT : (exactArith.irdft s.N y).length = s.N := exactArith_irdft_length _ _
  have hback (n : ℕ) : valAt (exactArith.irdft s.N y) n = valAt (s.windowed exactArith) n :=
    valAt_irdft_of_map_eq hpos heven (windowed_length hw hf) (shaped_unit (hg.trans hx.symm) (hx.symm ▸ hunit)) n
  refine ⟨_, exec_synth _, fun n hn => ?_⟩
  calc valAt (List.zipWith exactArith.mul s.win (exactArith.irdft s.N y)) n
      = valAt s.win n * valAt (exactArith.irdft s.N y) n := valAt_zipWith_mul (hw ▸ hn) (hT.symm ▸ hn)
    _ = valAt s.win n * (valAt s.win n * valAt s.work.filt n) := by rw [hback, valAt_windowed hw hf hn]
    _ = valAt s.win n ^ 2 * valAt s.work.filt n := by ring

end Sys2Proof.Machine
end

section
/-! The proofs about containers (spec/20_memory.md R79, R81, spec/00_scope.md R16). A rational number is rounded in three
steps, each with its own lemma: the binade (`floorLog_spec`), the nearest whole number of units of that binade, ties to even
(`roundEven_spec`), and the place of that number among all finite containers (`gridSize_binade`). From there the container is the
nearest one, and the rest follows by the laws of Laws/Rounding.lean. -/

namespace Sys2Proof.Machine

open Generic

/-! ## The nearest natural number, ties to even -/

/-- r is a natural number nearest to y, and an even one where another is as near. -/
structure NearestNat (y : ℝ) (r : ℕ) : Prop where
  upper : 2 * y ≤ 2 * r + 1
  lower : 2 * (r : ℝ) - 1 ≤ 2 * y
  tieUpper : 2 * y = 2 * r + 1 → r % 2 = 0
  tieLower : 2 * y = 2 * r - 1 → r % 2 = 0

theorem roundEven_spec (n : ℕ) {d : ℕ} (hd : 0 < d) : NearestNat (n / d) (roundEven n d) := by
  have hd' : (0 : ℝ) < d := by exact_mod_cast hd
  set f := n / d
  set r := n % d
  have hr : r < d := Nat.mod_lt _ hd
  have hy : (n : ℝ) / d = f + r / d := by
    have : (n : ℝ) = d * f + r := by exact_mod_cast (Nat.div_add_mod n d).symm
    rw [this, add_div, mul_div_cancel_left₀ _ hd'.ne']
  have h0 : (0 : ℝ) ≤ r / d := by positivity
  have h1 : (r : ℝ) / d < 1 := (div_lt_one hd').mpr (by exact_mod_cast hr)
  have hround : roundEven n d = if 2 * r < d then f else if d < 2 * r then f + 1 else if f % 2 = 0 then f else f + 1 := rfl
  rw [hy, hround]
  split_ifs with hlt hgt heven
  · have ht : 2 * ((r : ℝ) / d) < 1 := by rw [← mul_div_assoc, div_lt_one hd']; exact_mod_cast hlt
    exact ⟨by linarith, by linarith, fun h => by linarith, fun h => by linarith⟩
  · have ht : 1 < 2 * ((r : ℝ) / d) := by rw [← mul_div_assoc, one_lt_div hd']; exact_mod_cast hgt
    exact ⟨by push_cast; linarith, by push_cast; linarith, fun h => by push_cast at h; linarith,
      fun h => by push_cast at h; linarith⟩
  all_goals
    have ht : 2 * ((r : ℝ) / d) = 1 := by
      rw [← mul_div_assoc, div_eq_one_iff_eq hd'.ne']
      exact_mod_cast (by omega : 2 * r = d)
  · exact ⟨by linarith, by linarith, fun _ => heven, fun _ => heven⟩
  · have hodd : (n / d + 1) % 2 = 0 := by omega
    exact ⟨by push_cast; linarith, by push_cast; linarith, fun _ => hodd, fun _ => hodd⟩

/-- `roundScaled` rounds n · 2^e / d. -/
theorem roundScaled_spec (n : ℕ) {d : ℕ} (hd : 0 < d) (e : ℤ) : NearestNat (n / d * 2 ^ e) (roundScaled n d e) := by
  unfold roundScaled
  split
  case isTrue h =>
    lift e to ℕ using h
    have hy : (n : ℝ) / d * 2 ^ (e : ℤ) = ((n * 2 ^ e : ℕ) : ℝ) / d := by
      push_cast
      rw [zpow_natCast]
      ring
    rw [hy, Int.toNat_natCast]
    exact roundEven_spec _ hd
  case isFalse h =>
    obtain ⟨k, rfl⟩ : ∃ k : ℕ, e = -k := ⟨(-e).toNat, by omega⟩
    have hy : (n : ℝ) / d * 2 ^ (-(k : ℤ)) = n / ((d * 2 ^ k : ℕ) : ℝ) := by
      push_cast
      rw [zpow_neg, zpow_natCast, div_mul_eq_div_div]
      rfl
    rw [hy, neg_neg, Int.toNat_natCast]
    exact roundEven_spec n (by positivity)

theorem NearestNat.le {y : ℝ} {r b : ℕ} (h : NearestNat y r) (hy : y < b + 1 / 2) : r ≤ b := by
  have h1 : (r : ℝ) < b + 1 := by linarith [h.lower]
  exact Nat.lt_succ_iff.mp (by exact_mod_cast h1)

theorem NearestNat.ge {y : ℝ} {r a : ℕ} (h : NearestNat y r) (hy : a ≤ y) : a ≤ r := by
  have h1 : (a : ℝ) < r + 1 := by linarith [h.upper]
  exact Nat.lt_succ_iff.mp (by exact_mod_cast h1)

/-! ## The binade -/

theorem floorLog_spec {n d : ℕ} (hn : 0 < n) (hd : 0 < d) :
    (2 : ℝ) ^ floorLog n d ≤ n / d ∧ (n : ℝ) / d < 2 ^ (floorLog n d + 1) := by
  have hd' : (0 : ℝ) < d := by exact_mod_cast hd
  have two (k : ℕ) : ((2 ^ k : ℕ) : ℝ) = (2 : ℝ) ^ (k : ℤ) := by push_cast; rw [zpow_natCast]
  have hnl : (2 : ℝ) ^ (n.log2 : ℤ) ≤ n := by rw [← two]; exact_mod_cast Nat.log2_self_le hn.ne'
  have hnu : (n : ℝ) < 2 ^ ((n.log2 : ℤ) + 1) := by
    rw [← Nat.cast_succ, ← two]; exact_mod_cast Nat.lt_log2_self
  have hdl : (2 : ℝ) ^ (d.log2 : ℤ) ≤ d := by rw [← two]; exact_mod_cast Nat.log2_self_le hd.ne'
  have hdu : (d : ℝ) < 2 ^ ((d.log2 : ℤ) + 1) := by
    rw [← Nat.cast_succ, ← two]; exact_mod_cast Nat.lt_log2_self
  set e : ℤ := (n.log2 : ℤ) - d.log2 with he
  have hupper : (n : ℝ) / d < 2 ^ (e + 1) := by
    rw [div_lt_iff₀ hd']
    calc (n : ℝ) < 2 ^ ((n.log2 : ℤ) + 1) := hnu
      _ = 2 ^ (e + 1) * 2 ^ (d.log2 : ℤ) := by rw [← zpow_add₀ two_ne_zero]; congr 1; omega
      _ ≤ 2 ^ (e + 1) * d := by gcongr
  have hlower : (2 : ℝ) ^ (e - 1) ≤ n / d := by
    rw [le_div_iff₀ hd']
    calc (2 : ℝ) ^ (e - 1) * d ≤ 2 ^ (e - 1) * 2 ^ ((d.log2 : ℤ) + 1) := by gcongr
      _ = 2 ^ (n.log2 : ℤ) := by rw [← zpow_add₀ two_ne_zero]; congr 1; omega
      _ ≤ n := hnl
  have hatLeast : (if 0 ≤ e then decide (d * 2 ^ e.toNat ≤ n) else decide (d ≤ n * 2 ^ (-e).toNat)) = true ↔
      (2 : ℝ) ^ e ≤ n / d := by
    rw [le_div_iff₀ hd']
    split
    case isTrue h =>
      obtain ⟨k, hk⟩ := Int.eq_ofNat_of_zero_le h
      rw [decide_eq_true_iff, hk, Int.toNat_natCast, zpow_natCast, mul_comm]
      exact_mod_cast Iff.rfl
    case isFalse h =>
      obtain ⟨k, hk⟩ : ∃ k : ℕ, e = -k := ⟨(-e).toNat, by omega⟩
      rw [decide_eq_true_iff, hk, neg_neg, Int.toNat_natCast, zpow_neg, zpow_natCast, inv_mul_le_iff₀ (by positivity), mul_comm]
      exact_mod_cast Iff.rfl
  have hcases : (floorLog n d = e ∧ (2 : ℝ) ^ e ≤ n / d) ∨ (floorLog n d = e - 1 ∧ ¬(2 : ℝ) ^ e ≤ n / d) := by
    by_cases hc : (2 : ℝ) ^ e ≤ n / d
    · exact .inl ⟨if_pos (hatLeast.mpr hc), hc⟩
    · exact .inr ⟨if_neg (mt hatLeast.mp hc), hc⟩
  obtain ⟨hf, hge⟩ | ⟨hf, hlt⟩ := hcases
  · rw [hf]
    exact ⟨hge, hupper⟩
  · rw [hf, sub_add_cancel]
    exact ⟨hlower, not_le.mp hlt⟩

/-! ## The place among the finite containers -/

/-- r units of binade E, as a multiple of 2^-149: the containers of one binade follow on those of the binade before it. -/
theorem gridSize_binade {r E : ℕ} (hr : r ≤ 2 ^ 24) (hE : E = 0 ∨ 2 ^ 23 ≤ r) : gridSize (r + E * 2 ^ 23) = r * 2 ^ E := by
  unfold gridSize
  by_cases hsmall : r < 2 ^ 23
  · obtain rfl : E = 0 := by omega
    rw [if_pos (by omega), zero_mul, add_zero, pow_zero, mul_one]
  · rw [if_neg (by omega)]
    rcases hr.lt_or_eq with hlt | rfl
    · rw [show (r + E * 2 ^ 23) % 2 ^ 23 = r - 2 ^ 23 by omega, show (r + E * 2 ^ 23) / 2 ^ 23 - 1 = E by omega,
        Nat.add_sub_cancel' (by omega)]
    · rw [show (2 ^ 24 + E * 2 ^ 23) % 2 ^ 23 = 0 by omega, show (2 ^ 24 + E * 2 ^ 23) / 2 ^ 23 - 1 = E + 1 by omega, pow_succ]
      ring

/-- Among the sizes of the finite containers the m-th is nearest to X, both in multiples of 2^-149, and m is even where another
is as near. It is enough to look at the neighbours of m. -/
structure NearestGrid (X : ℝ) (m : ℕ) : Prop where
  upper : 2 * X ≤ gridSize m + gridSize (m + 1)
  lower : ∀ k, k + 1 = m → (gridSize k : ℝ) + gridSize m ≤ 2 * X
  tieUpper : 2 * X = gridSize m + gridSize (m + 1) → m % 2 = 0
  tieLower : ∀ k, k + 1 = m → (gridSize k : ℝ) + gridSize m = 2 * X → m % 2 = 0

theorem gridSize_zero : gridSize 0 = 0 := rfl

theorem gridSize_mono {a b : ℕ} (h : a ≤ b) : (gridSize a : ℝ) ≤ gridSize b := by
  exact_mod_cast gridSize_strictMono.monotone h

section Binade

variable {y : ℝ} {r E : ℕ}

/-- The size above r units of binade E is one unit away, or so far that y is nearer to r. -/
theorem gridSize_above (hr : r ≤ 2 ^ 24) (hE : E = 0 ∨ 2 ^ 23 ≤ r) (hy : y < 2 ^ 24) :
    2 * (y * 2 ^ E) < gridSize (r + E * 2 ^ 23) + gridSize (r + E * 2 ^ 23 + 1) ∨
      (gridSize (r + E * 2 ^ 23 + 1) : ℝ) = (r + 1) * 2 ^ E := by
  rcases hr.lt_or_eq with hlt | rfl
  · right
    have hnext := gridSize_binade (r := r + 1) (E := E) (by omega) (hE.imp_right (by omega))
    rw [show r + E * 2 ^ 23 + 1 = r + 1 + E * 2 ^ 23 by omega]
    exact_mod_cast hnext
  · left
    have hP : (0 : ℝ) < 2 ^ E := by positivity
    have hm : (gridSize (2 ^ 24 + E * 2 ^ 23) : ℝ) = (2 ^ 24 : ℕ) * 2 ^ E := by exact_mod_cast gridSize_binade le_rfl hE
    have hmono := gridSize_mono (Nat.le_succ (2 ^ 24 + E * 2 ^ 23))
    have hlt : y * 2 ^ E < (2 ^ 24 : ℕ) * 2 ^ E := mul_lt_mul_of_pos_right (by exact_mod_cast hy) hP
    rw [← hm] at hlt
    linarith

/-- The size below r units of binade E is one unit away, or smaller where y is no smaller than r. -/
theorem gridSize_below (hr : r ≤ 2 ^ 24) (hEr : E = 0 ∨ 2 ^ 23 ≤ r) (hE : E = 0 ∨ 2 ^ 23 ≤ y) {k : ℕ}
    (hk : k + 1 = r + E * 2 ^ 23) :
    (gridSize k : ℝ) + gridSize (r + E * 2 ^ 23) < 2 * (y * 2 ^ E) ∨ (gridSize k : ℝ) = (r - 1) * 2 ^ E := by
  by_cases hunits : E = 0 ∨ 2 ^ 23 + 1 ≤ r
  · right
    have h1 : 1 ≤ r := by rcases hunits with rfl | h1 <;> omega
    rw [show k = r - 1 + E * 2 ^ 23 by omega, gridSize_binade (by omega) (hunits.imp_right (by omega))]
    push_cast [Nat.cast_sub h1]
    rfl
  · left
    obtain ⟨hE0, hr1⟩ := not_or.mp hunits
    have hry : (r : ℝ) ≤ y := le_trans (by exact_mod_cast (by omega : r ≤ 2 ^ 23)) (hE.resolve_left hE0)
    have hm : (gridSize (r + E * 2 ^ 23) : ℝ) = r * 2 ^ E := by exact_mod_cast gridSize_binade hr hEr
    have hstep : (gridSize k : ℝ) < gridSize (r + E * 2 ^ 23) := by exact_mod_cast gridSize_strictMono (by omega)
    have hle : (r : ℝ) * 2 ^ E ≤ y * 2 ^ E := by gcongr
    rw [← hm] at hle
    linarith

/-- The nearest whole number of units of the binade is the nearest container: above the top of the binade and below its
bottom, where the units change, there are no ties. -/
theorem nearestGrid_of_binade (h : NearestNat y r) (hy : y < 2 ^ 24) (hE : E = 0 ∨ 2 ^ 23 ≤ y) :
    NearestGrid (y * 2 ^ E) (r + E * 2 ^ 23) := by
  have hP : (0 : ℝ) < 2 ^ E := by positivity
  have hr : r ≤ 2 ^ 24 := h.le (by push_cast; linarith)
  have hEr : E = 0 ∨ 2 ^ 23 ≤ r := hE.imp_right fun h' => h.ge (by exact_mod_cast h')
  have hm : (gridSize (r + E * 2 ^ 23) : ℝ) = r * 2 ^ E := by exact_mod_cast gridSize_binade hr hEr
  have hparity : (r + E * 2 ^ 23) % 2 = r % 2 := by omega
  refine ⟨?_, fun k hk => ?_, fun htie => ?_, fun k hk htie => ?_⟩
  · rcases gridSize_above hr hEr hy with hlt | he
    · exact hlt.le
    · rw [hm, he]
      nlinarith [h.upper]
  · rcases gridSize_below hr hEr hE hk with hlt | he
    · exact hlt.le
    · rw [hm, he]
      nlinarith [h.lower]
  · rcases gridSize_above hr hEr hy with hlt | he
    · exact absurd htie hlt.ne
    · rw [hparity]
      refine h.tieUpper (mul_right_cancel₀ hP.ne' ?_)
      rw [hm, he] at htie
      linarith
  · rcases gridSize_below hr hEr hE hk with hlt | he
    · exact absurd htie hlt.ne
    · rw [hparity]
      refine h.tieLower (mul_right_cancel₀ hP.ne' ?_)
      rw [hm, he] at htie
      linarith

end Binade

/-- What is nearest among the neighbours is nearest among all sizes of either sign. -/
theorem NearestGrid.nearest {X y : ℝ} {m k : ℕ} (h : NearestGrid X m) (h0 : 0 ≤ X)
    (hy : y = gridSize k ∨ y = -(gridSize k : ℝ)) :
    |X - gridSize m| ≤ |X - y| ∧ (|X - gridSize m| = |X - y| → y ≠ gridSize m → m % 2 = 0) := by
  have hk : (0 : ℝ) ≤ gridSize k := Nat.cast_nonneg _
  rcases lt_trichotomy y (gridSize m : ℝ) with hlt | rfl | hlt
  · rw [abs_sub_eq_iff hlt.ne', near_iff' hlt]
    cases m with
    | zero =>
      rw [gridSize_zero, Nat.cast_zero] at hlt ⊢
      exact ⟨by linarith, fun _ _ => rfl⟩
    | succ m =>
      have hle : y ≤ gridSize m := by
        rcases hy with rfl | rfl
        · exact gridSize_mono (Nat.lt_succ_iff.mp (gridSize_strictMono.lt_iff_lt.mp (by exact_mod_cast hlt)))
        · have : (0 : ℝ) ≤ gridSize m := Nat.cast_nonneg _
          linarith
      have hlow := h.lower m rfl
      exact ⟨by linarith, fun htie _ => h.tieLower m rfl (by linarith)⟩
  · exact ⟨le_rfl, fun _ hne => absurd rfl hne⟩
  · rw [abs_sub_eq_iff hlt.ne, near_iff hlt]
    have hle : (gridSize (m + 1) : ℝ) ≤ y := by
      rcases hy with rfl | rfl
      · exact gridSize_mono (Nat.succ_le_of_lt (gridSize_strictMono.lt_iff_lt.mp (by exact_mod_cast hlt)))
      · have : (0 : ℝ) ≤ gridSize m := Nat.cast_nonneg _
        linarith
    have hup := h.upper
    exact ⟨by linarith, fun htie _ => h.tieUpper (by linarith)⟩

/-! ## The low bits of a rational number's container -/

theorem cast_infinityThreshold : ((2 ^ 128 - 2 ^ 103 : ℕ) : ℝ) = 2 ^ 128 - 2 ^ 103 := by norm_num

theorem magnitudeBits_of_large {n d : ℕ} (hn : n ≠ 0) (h : (2 ^ 128 - 2 ^ 103) * d ≤ n) : magnitudeBits n d = 0x7F800000 := by
  rw [magnitudeBits, if_neg hn, if_pos h]

/-- The binade of a number, counted from the least one, 2^-126. -/
def binade (n d : ℕ) : ℕ := (floorLog n d + 126).toNat

theorem magnitudeBits_finite {n d : ℕ} (hn : n ≠ 0) (h : n < (2 ^ 128 - 2 ^ 103) * d) :
    magnitudeBits n d = roundScaled n d (149 - binade n d) + binade n d * 2 ^ 23 := by
  have hclamp : (if floorLog n d < -126 then -126 else floorLog n d) = (binade n d : ℤ) - 126 := by
    unfold binade
    split <;> omega
  rw [magnitudeBits, if_neg hn, if_neg (by omega), hclamp]
  show roundScaled n d (23 - (binade n d - 126)) + ((binade n d : ℤ) - 126 + 126).toNat * 2 ^ 23 = _
  rw [show 23 - ((binade n d : ℤ) - 126) = 149 - binade n d by omega, sub_add_cancel, Int.toNat_natCast]

/-- In units of its binade a number has at most 24 bits, and no fewer but in the least binade. -/
theorem binade_units {n d : ℕ} (hn : 0 < n) (hd : 0 < d) :
    (n : ℝ) / d * 2 ^ (149 - binade n d : ℤ) < 2 ^ 24 ∧
      (binade n d = 0 ∨ 2 ^ 23 ≤ (n : ℝ) / d * 2 ^ (149 - binade n d : ℤ)) := by
  obtain ⟨hlow, hupp⟩ := floorLog_spec hn hd
  have hscale (j : ℤ) : (2 : ℝ) ^ j * 2 ^ (149 - binade n d : ℤ) = 2 ^ (j + (149 - binade n d)) :=
    (zpow_add₀ two_ne_zero _ _).symm
  constructor
  · calc (n : ℝ) / d * 2 ^ (149 - binade n d : ℤ)
        < 2 ^ (floorLog n d + 1) * 2 ^ (149 - binade n d : ℤ) := mul_lt_mul_of_pos_right hupp (by positivity)
      _ = 2 ^ (floorLog n d + 1 + (149 - binade n d)) := hscale _
      _ ≤ 2 ^ (24 : ℤ) := zpow_le_zpow_right₀ one_le_two (by unfold binade; omega)
      _ = 2 ^ 24 := by norm_cast
  · rcases Nat.eq_zero_or_pos (binade n d) with h0 | hpos
    · exact .inl h0
    · right
      calc (2 : ℝ) ^ 23 = 2 ^ (23 : ℤ) := by norm_cast
        _ = 2 ^ (floorLog n d + (149 - binade n d)) := by congr 1; unfold binade at hpos ⊢; omega
        _ = 2 ^ floorLog n d * 2 ^ (149 - binade n d : ℤ) := (hscale _).symm
        _ ≤ n / d * 2 ^ (149 - binade n d : ℤ) := by gcongr

theorem binade_le {n d : ℕ} (hn : 0 < n) (hd : 0 < d) (h : (n : ℝ) / d < 2 ^ 128 - 2 ^ 103) : binade n d ≤ 253 := by
  by_contra hbig
  have hpow : (2 : ℝ) ^ 128 ≤ 2 ^ floorLog n d := by
    rw [← zpow_natCast]
    exact zpow_le_zpow_right₀ one_le_two (by unfold binade at hbig; push_cast; omega)
  linarith [(floorLog_spec hn hd).1, (by positivity : (0 : ℝ) < 2 ^ 103)]

/-- Below the threshold of infinity the low bits name a finite container, the nearest one. -/
theorem magnitudeBits_spec {n d : ℕ} (hd : 0 < d) (h : n < (2 ^ 128 - 2 ^ 103) * d) :
    magnitudeBits n d < 255 * 2 ^ 23 ∧ NearestGrid (n / d * 2 ^ 149) (magnitudeBits n d) := by
  rcases Nat.eq_zero_or_pos n with rfl | hn
  · have hzero : magnitudeBits 0 d = 0 := if_pos rfl
    rw [hzero, Nat.cast_zero, zero_div, zero_mul]
    exact ⟨by norm_num, ⟨by rw [mul_zero]; positivity, fun k hk => absurd hk (by omega), fun _ => rfl, fun _ _ _ => rfl⟩⟩
  · have hd' : (0 : ℝ) < d := by exact_mod_cast hd
    have hx : (n : ℝ) / d < 2 ^ 128 - 2 ^ 103 := by
      rw [div_lt_iff₀ hd', ← cast_infinityThreshold]
      exact_mod_cast h
    obtain ⟨hy24, hy23⟩ := binade_units hn hd
    have hround := roundScaled_spec n hd (149 - binade n d)
    have hE := binade_le hn hd hx
    rw [magnitudeBits_finite hn.ne' h]
    set E := binade n d
    set y : ℝ := n / d * 2 ^ (149 - E : ℤ) with hy
    have hX : (n : ℝ) / d * 2 ^ 149 = y * 2 ^ E := by
      rw [hy, mul_assoc, ← zpow_natCast (2 : ℝ) E, ← zpow_add₀ two_ne_zero, sub_add_cancel]
      norm_cast
    refine ⟨?_, hX ▸ nearestGrid_of_binade hround hy24 hy23⟩
    rcases hE.lt_or_eq with hlt | htop
    · have hr : roundScaled n d (149 - E) ≤ 2 ^ 24 := hround.le (by push_cast; linarith)
      omega
    · have hr : roundScaled n d (149 - E) ≤ 2 ^ 24 - 1 := by
        refine hround.le ?_
        rw [htop] at hX
        norm_num at hx hX ⊢
        linarith
      omega

/-! ## The container of a rational number (R81) -/

theorem abs_eq_natAbs_div (q : ℚ) : |(q : ℝ)| = q.num.natAbs / q.den := by
  rw [Rat.cast_def, abs_div, Nat.abs_cast, Nat.cast_natAbs, Int.cast_abs]

theorem large_iff (q : ℚ) : 2 ^ 128 - 2 ^ 103 ≤ |(q : ℝ)| ↔ (2 ^ 128 - 2 ^ 103) * q.den ≤ q.num.natAbs := by
  have hd : (0 : ℝ) < q.den := by exact_mod_cast q.den_pos
  rw [abs_eq_natAbs_div, le_div_iff₀ hd, ← cast_infinityThreshold]
  exact_mod_cast Iff.rfl

/-- The low bits are those of a finite container or of infinity. -/
theorem magnitudeBits_le (q : ℚ) : magnitudeBits q.num.natAbs q.den ≤ 0x7F800000 := by
  by_cases h : (2 ^ 128 - 2 ^ 103) * q.den ≤ q.num.natAbs
  · have hn : q.num.natAbs ≠ 0 := by
      have := q.den_pos
      omega
    exact (magnitudeBits_of_large hn h).le
  · have := (magnitudeBits_spec q.den_pos (not_le.mp h)).1
    omega

/-- The word has the low bits of the size and the sign of the number, but for a number that rounds to zero (log 11). -/
theorem wordOfRat_fields (q : ℚ) : lowBits (wordOfRat q) = magnitudeBits q.num.natAbs q.den ∧
    (signBit (wordOfRat q) = true ↔ q < 0 ∧ magnitudeBits q.num.natAbs q.den ≠ 0) := by
  have hle := magnitudeBits_le q
  unfold wordOfRat
  simp only
  rw [signBit_eq, lowBits, decide_eq_true_iff]
  split
  case isTrue h =>
    rw [BitVec.toNat_ofNat]
    exact ⟨by omega, iff_of_true (by omega) ⟨Rat.num_neg.mp h.1, h.2⟩⟩
  case isFalse h =>
    rw [BitVec.toNat_ofNat]
    exact ⟨by omega, iff_of_false (by omega) fun hc => h ⟨Rat.num_neg.mpr hc.1, hc.2⟩⟩

/-- No number has the container of the negative zero (log 11). -/
theorem wordOfRat_ne_negZero (q : ℚ) : wordOfRat q ≠ 0x80000000 := by
  intro h
  obtain ⟨hlow, hsign⟩ := wordOfRat_fields q
  rw [h] at hlow hsign
  exact (hsign.mp (by decide)).2 (hlow.symm.trans (by decide))

/-- The number that the container of q decodes to: the m-th size with the sign of q. -/
theorem num?_wordOfRat {q : ℚ} (h : magnitudeBits q.num.natAbs q.den < 255 * 2 ^ 23) :
    ∃ c : ℚ, num? (wordOfRat q) = some c ∧
      (c : ℝ) * 2 ^ 149 = (if q < 0 then -1 else 1) * (gridSize (magnitudeBits q.num.natAbs q.den) : ℝ) := by
  obtain ⟨hlow, hsign⟩ := wordOfRat_fields q
  obtain ⟨c, hc⟩ := num?_some_of (w := wordOfRat q) (hlow.symm ▸ h)
  have hgrid := (num?_grid hc).2
  rw [hlow] at hgrid
  refine ⟨c, hc, ?_⟩
  by_cases hm : magnitudeBits q.num.natAbs q.den = 0
  · rw [hm, gridSize_zero, Nat.cast_zero, neg_zero, ite_self] at hgrid
    rw [hm, gridSize_zero, Nat.cast_zero, mul_zero]
    exact_mod_cast hgrid
  · have hsign' : signBit (wordOfRat q) = true ↔ q < 0 := by rw [hsign, and_iff_left hm]
    rw [if_congr hsign' rfl rfl] at hgrid
    split at hgrid
    · rw [if_pos ‹_›, neg_one_mul]
      exact_mod_cast hgrid
    · rw [if_neg ‹_›, one_mul]
      exact_mod_cast hgrid

/-- The number of any container, seen from a number of a given sign: a size of either sign. -/
theorem num?_grid_signed {w : Word} {c : ℚ} (h : num? w = some c) {σ : ℝ} (hσ : σ = 1 ∨ σ = -1) :
    ∃ k : ℕ, σ * ((c : ℝ) * 2 ^ 149) = gridSize k ∨ σ * ((c : ℝ) * 2 ^ 149) = -(gridSize k : ℝ) := by
  have hgrid : (c : ℝ) * 2 ^ 149 = gridSize (lowBits w) ∨ (c : ℝ) * 2 ^ 149 = -(gridSize (lowBits w) : ℝ) := by
    have := (num?_grid h).2
    split at this
    · exact .inr (by exact_mod_cast this)
    · exact .inl (by exact_mod_cast this)
  refine ⟨lowBits w, ?_⟩
  rcases hσ with rfl | rfl <;> rcases hgrid with e | e <;> rw [e] <;> simp

theorem isContainerOf_wordOfRat (q : ℚ) : IsContainerOf (q : ℝ) (wordOfRat q) := by
  unfold IsContainerOf
  split
  case isTrue h =>
    have hlarge := (large_iff q).mp h
    have hn : q.num.natAbs ≠ 0 := by
      have := q.den_pos
      omega
    rw [wordOfRat, magnitudeBits_of_large hn hlarge]
    by_cases hq : q < 0
    · rw [if_pos ⟨Rat.num_neg.mpr hq, by decide⟩, if_pos (by exact_mod_cast hq)]
      rfl
    · rw [if_neg fun hc => hq (Rat.num_neg.mp hc.1), if_neg (by exact_mod_cast hq)]
      rfl
  case isFalse h =>
    obtain ⟨hfinite, hnear⟩ := magnitudeBits_spec q.den_pos (not_le.mp (mt (large_iff q).mpr h))
    obtain ⟨c, hc, hcgrid⟩ := num?_wordOfRat hfinite
    rw [← abs_eq_natAbs_div] at hnear
    set m := magnitudeBits q.num.natAbs q.den
    obtain ⟨σ, hσ, hq, hc'⟩ :
        ∃ σ : ℝ, (σ = 1 ∨ σ = -1) ∧ σ * q = |(q : ℝ)| ∧ σ * (c * 2 ^ 149) = gridSize m := by
      by_cases hneg : q < 0
      · refine ⟨-1, .inr rfl, ?_, by rw [hcgrid, if_pos hneg]; ring⟩
        rw [abs_of_neg (by exact_mod_cast hneg), neg_one_mul]
      · refine ⟨1, .inl rfl, ?_, by rw [hcgrid, if_neg hneg]; ring⟩
        rw [abs_of_nonneg (by exact_mod_cast not_lt.mp hneg), one_mul]
    have hP : (0 : ℝ) < 2 ^ 149 := by positivity
    have hdist (x : ℝ) : |(|(q : ℝ)| * 2 ^ 149) - σ * (x * 2 ^ 149)| = |(q : ℝ) - x| * 2 ^ 149 := by
      have habs : |σ| = 1 := by rcases hσ with rfl | rfl <;> simp
      rw [← hq, show σ * (q : ℝ) * 2 ^ 149 - σ * (x * 2 ^ 149) = σ * ((q - x) * 2 ^ 149) by ring, abs_mul, habs, one_mul,
        abs_mul, abs_of_pos hP]
    refine ⟨c, hc, fun w' q' hq' => ?_⟩
    obtain ⟨k, hk⟩ := num?_grid_signed hq' hσ
    obtain ⟨hle, htie⟩ := hnear.nearest (by positivity) hk
    rw [← hc', hdist, hdist, mul_le_mul_iff_left₀ hP] at hle
    rw [← hc', hdist, hdist] at htie
    refine ⟨hle, fun he hne => ?_⟩
    rw [fractionField_eq, (wordOfRat_fields q).1, show m % 2 ^ 23 % 2 = m % 2 by omega]
    refine htie (by rw [he]) fun hsame => hne ?_
    have hσ0 : σ ≠ 0 := by rcases hσ with rfl | rfl <;> norm_num
    exact_mod_cast mul_right_cancel₀ hP.ne' (mul_left_cancel₀ hσ0 hsame)

/-- Settles O28: the nearest size with the sign of the number is the nearest number. -/
theorem rationalContainer : Obligations.RationalContainer := isContainerOf_wordOfRat

/-! ## Finite containers (R79) -/

/-- A finite container's number lies below the threshold of infinity. -/
theorem abs_lt_of_num? {w : Word} {q : ℚ} (h : num? w = some q) : |(q : ℝ)| < 2 ^ 128 - 2 ^ 103 := by
  obtain ⟨hlow, hgrid⟩ := num?_grid h
  have hP : (0 : ℝ) < 2 ^ 149 := by positivity
  have habs : |(q : ℝ)| * 2 ^ 149 = gridSize (lowBits w) := by
    rw [← abs_of_pos hP, ← abs_mul, ← Nat.abs_cast (gridSize _)]
    split at hgrid
    · rw [← abs_neg (gridSize _ : ℝ)]
      exact congrArg _ (by exact_mod_cast hgrid)
    · exact congrArg _ (by exact_mod_cast hgrid)
  have hmax : gridSize (255 * 2 ^ 23 - 1) = (2 ^ 24 - 1) * 2 ^ 253 := by
    rw [show 255 * 2 ^ 23 - 1 = 2 ^ 24 - 1 + 253 * 2 ^ 23 by norm_num]
    exact gridSize_binade (by norm_num) (.inr (by norm_num))
  have hle : |(q : ℝ)| * 2 ^ 149 ≤ (2 ^ 24 - 1) * 2 ^ 253 := by
    rw [habs]
    refine (gridSize_mono (by omega : lowBits w ≤ 255 * 2 ^ 23 - 1)).trans_eq ?_
    rw [hmax]
    norm_num
  refine lt_of_mul_lt_mul_right (hle.trans_lt ?_) hP.le
  norm_num

/-- A finite container is a container of its own number. -/
theorem isContainerOf_of_num? {w : Word} {q : ℚ} (h : num? w = some q) : IsContainerOf (q : ℝ) w := by
  rw [IsContainerOf, if_neg (abs_lt_of_num? h).not_ge]
  refine ⟨q, h, fun w' q' _ => ?_⟩
  rw [sub_self, abs_zero]
  exact ⟨abs_nonneg _, fun he hne => absurd (by exact_mod_cast (sub_eq_zero.mp (abs_eq_zero.mp he.symm)).symm) hne⟩

/-- Settles O30: a number has one container besides the negative zero. -/
theorem containerRoundTrip : Obligations.ContainerRoundTrip := by
  intro w q h
  split
  case isTrue hw =>
    have hgrid := (num?_grid (hw ▸ h)).2
    have hlow : lowBits 0x80000000 = 0 := by decide
    rw [hlow, gridSize_zero, Nat.cast_zero, neg_zero, ite_self, mul_eq_zero] at hgrid
    obtain rfl : q = 0 := hgrid.resolve_right (by norm_num)
    decide
  case isFalse hw => exact (isContainerOf_wordOfRat q).unique (isContainerOf_of_num? h) (wordOfRat_ne_negZero q) hw

end Sys2Proof.Machine
end

section
/-! The proof that the machine is the reference semantics over the real numbers (spec/00_scope.md R16). The container that
`Exact.word` finds is R81's at every precision (`isContainerOf_roundWith`); a container is unique (`IsContainerOf.unique`), so it
is the reference's (`word_eq_realWord`), and the homomorphism `exactArith_hom` carries whole steps and runs. -/

namespace Sys2Proof.Machine

open Generic

/-! ## The container of an exact number (R81) -/

/-- The bounds of an enclosure, as real numbers. -/
theorem cast_mkRat_pow (z : ℤ) (p : ℕ) : ((mkRat z (2 ^ p) : ℚ) : ℝ) = z / 2 ^ p := by
  rw [Rat.mkRat_eq_div]
  push_cast
  rfl

/-- Where both bounds of an enclosure have one container, it is the number's. -/
theorem isContainerOf_words {a : Exact} {p : ℕ} {b : Bracket} (h : a.bracket p = some b)
    (hw : (b.words p).1 = (b.words p).2) : IsContainerOf a.val (b.words p).1 := by
  have hP : (0 : ℝ) < 2 ^ p := by positivity
  obtain ⟨hlo, hhi⟩ := Exact.bracket_sound h
  have hcontLo : IsContainerOf _ (b.words p).1 := isContainerOf_wordOfRat (mkRat b.lo (2 ^ p))
  have hcontHi : IsContainerOf _ (b.words p).2 := isContainerOf_wordOfRat (mkRat b.hi (2 ^ p))
  refine hcontLo.between (hw ▸ hcontHi) ?_ ?_
  · rwa [cast_mkRat_pow, div_le_iff₀ hP]
  · rwa [cast_mkRat_pow, le_div_iff₀ hP]

theorem isContainerOf_wordBetween (a : Exact) : IsContainerOf a.val a.wordBetween := by
  rcases a.between_spec with ⟨-, heq⟩ | ⟨k, hv, hv', hp, hp'⟩
  · rw [heq]
    exact isContainerOf_wordOfRat _
  · exact (isContainerOf_wordOfRat _).inside hp hp' hv hv'

/-- Whatever precisions are tried, the container found is the number's, and not the negative zero's. -/
theorem isContainerOf_roundWith (ps : List ℕ) (a : Exact) :
    IsContainerOf a.val (a.roundWith ps) ∧ a.roundWith ps ≠ 0x80000000 := by
  induction ps with
  | nil => exact ⟨isContainerOf_wordBetween a, wordOfRat_ne_negZero _⟩
  | cons p ps ih =>
    rw [Exact.roundWith]
    split
    case h_1 => exact ih
    case h_2 b hb =>
      split
      case isTrue hw => exact ⟨isContainerOf_words hb hw, wordOfRat_ne_negZero _⟩
      case isFalse => exact ih

theorem isContainerOf_word (a : Exact) : IsContainerOf a.val a.word ∧ a.word ≠ 0x80000000 := by
  cases a with
  | rat q => exact ⟨isContainerOf_wordOfRat q, wordOfRat_ne_negZero q⟩
  | _ => exact isContainerOf_roundWith _ _

/-- The machine's container is the reference semantics'. -/
theorem word_eq_realWord (a : Exact) : exactArith.word a = realArith.word a.val := by
  obtain ⟨hword, hzero⟩ := isContainerOf_word a
  obtain ⟨hreal, hzero'⟩ : IsContainerOf a.val (realWord a.val) ∧ realWord a.val ≠ 0x80000000 :=
    Classical.epsilon_spec (p := fun w => IsContainerOf a.val w ∧ w ≠ 0x80000000) ⟨a.word, hword, hzero⟩
  exact hword.unique hreal hzero hzero'

/-! ## A state agrees with the one it stands for -/

section Agreement

variable {ν : Type} (f : ν → ℝ)

theorem closeArrays_map (l : List ν) : CloseArrays f 0 l (l.map f) := by
  rw [CloseArrays, List.forall₂_map_right_iff, List.forall₂_same]
  intro x _
  rw [sub_self, abs_zero]

theorem closePairs_map (l : List (ν × ν)) :
    List.Forall₂ (fun x y => |f x.1 - y.1| ≤ 0 ∧ |f x.2 - y.2| ≤ 0) l (l.map (Prod.map f f)) := by
  rw [List.forall₂_map_right_iff, List.forall₂_same]
  intro x _
  simp

theorem agrees_map (s : Generic.State ν) : s.Agrees f 0 (s.map f) where
  flags := ⟨rfl, rfl, rfl, rfl, rfl⟩
  result := ⟨rfl, rfl, rfl, rfl⟩
  cfg := rfl
  input := ⟨rfl, rfl⟩
  win := closeArrays_map f s.win
  tail := closeArrays_map f s.tail
  ola := closeArrays_map f s.ola
  noise := closeArrays_map f s.noise
  pgain := closeArrays_map f s.pgain
  out := closeArrays_map f s.out
  hpz := closePairs_map f s.hpz
  hpzi := closePairs_map f s.hpzi

theorem answersAgree_mapAnswer (x : Answer (Generic.State ν)) : AnswersAgree f 0 x (mapAnswer f x) := by
  cases x with
  | next s => exact agrees_map f s
  | fault => rfl
  | refused => rfl

end Agreement

/-! ## Steps and runs -/

theorem map_loaded {ν : Type} (f : ν → ℝ) (b : Build ν) (events : List HostEvent) :
    (loaded b events).map f = loaded (mapBuild f b) events := rfl

/-- Settles O29: the exact numbers, their containers among them, map to the real numbers, and steps and runs with them. -/
theorem referenceSemantics : Obligations.ReferenceSemantics := by
  refine ⟨fun a p b h => Exact.bracket_sound h, fun a => (isContainerOf_word a).1, fun s => ?_, fun b events n => ?_⟩
  · rw [step_eq]
    exact step_map exactArith_hom word_eq_realWord s
  · rw [← map_loaded, ← run_map exactArith_hom word_eq_realWord]
    exact answersAgree_mapAnswer Exact.val _

end Sys2Proof.Machine
end
